-- ==== Sys2Proof/Word.lean ====
section
/-! DEFINITION. The word types of the 4610 and their plainest arithmetic: bytes of the link, time stamps of the
Switch Scanner, and the rounding of point quantities. -/

namespace Sys2Proof

/-- One byte of the serial link (R170, R192). -/
abbrev Byte := BitVec 8

/-- A time stamp of the Switch Scanner: milliseconds since the last hard reset, kept in 32 bits and wrapping (R1). -/
abbrev Stamp := BitVec 32

/-- The milliseconds elapsed from `start` to `now`, counted modulo 4,294,967,296 (R1). -/
def elapsed (now start : Stamp) : Nat := (now - start).toNat

/-- A point value rounded down to the next multiple of 10 at or below it (section 0.5.2). -/
def downToTen (n : Nat) : Nat := n / 10 * 10

end Sys2Proof
end

