-- ==== Sys2Proof/Syntax.lean ====
section
/-! DEFINITION. The commands of the 4610: one constructor for each row of spec/opcode_table.json. A command is one of the part's
whole steps: an event on a pin or on the line, an expiry of one of the part's own clocks, a hand-on of a transition or an arrival,
or a request of the host. Operands: * `contacts`: the closed contacts around the part while the scan is made, by the pins they join
(R1); * `switch`, `device`: the number of the switch or device whose event it is; * `breather`: DESIGN CHOICE
(notes/assumptions/4.md). `false`: the root transitions that the command begins are worked to their end within the command. `true`:
the Award Engine pauses between two walks after the first one, so that requests and tenths can be taken between the walks of the
root (R32, R42, R44, R57, R190); each idle step then makes one pending walk. The root of a MODE_CONTROL completion pauses before its
first walk; the hand-on of a closure and a CLEAR_FAULT pause after each arrival that they hand on; and a TRIGGER or CLEAR_FAULT
stays in hand, with no other request handed on, while it pauses for a tenth (R70, R175); * `tag`, `payload`: the tag and the payload
bytes of the request (R171, R192), for TRIGGER, MODE_CONTROL and CLEAR_FAULT with their `breather`. -/

namespace Sys2Proof

/-- The contacts of the switches, by the pins they join (R1, section 0.6). Bit r of `columns[c]` is set while the contact between
column drive COLc and row return ROWr is closed; bit n of `direct` is set while the contact of direct input DINn is closed. -/
structure Contacts where
  columns : Vector (BitVec 8) 8
  direct : BitVec 8
  deriving DecidableEq, Repr

/-- The payload bytes of a request together with the operand `breather` of its command. -/
structure BreathingPayload where
  bytes : List Byte
  breather : Bool
  deriving DecidableEq, Repr

inductive Instr where
  /-- HARD_RESET (R18): Power-on or the RESET input returns every table and piece of state to its hard-reset content, and queues a
  RESTARTED HARD record. -/
  | hardReset
  /-- SWITCH_SCAN (R1): Every millisecond all 72 switches are sampled, time-stamped and debounced, and the quiet timer advances. -/
  | switchScan (contacts : Contacts)
  /-- SWITCH_CLOSURE (R6): A closure of a PLAYFIELD or CABINET switch is handed on: latch, report, quiet-timer restart, census
  offer, device evidence, then its walk. -/
  | switchClosure (switch : Nat) (breather : Bool)
  /-- SWITCH_OPENING (R7): An opening of a PLAYFIELD or CABINET switch is reported, given to devices that name it as entry or exit
  switch, and walked with edge OPEN. -/
  | switchOpening (switch : Nat) (breather : Bool)
  /-- TILT_CLOSURE (R158): A closure of a TILT switch is reported and handed to the Game Controller, which counts it as a warning or
  tilts the ball. -/
  | tiltClosure (switch : Nat)
  /-- SLAM_CLOSURE (R163): A closure of a SLAM switch is reported and, in a game phase, ends the game by slam. -/
  | slamClosure (switch : Nat)
  /-- TILT_SLAM_OPENING (R8): An opening of a TILT or SLAM switch is reported when its report setting is BOTH and goes nowhere else.
  -/
  | tiltSlamOpening (switch : Nat)
  /-- DEVICE_SWITCH_TRANSITION (R9): A transition of a DEVICE-role switch is reported and handed to the count logic of every device
  that names it. -/
  | deviceSwitchTransition (switch : Nat)
  /-- TENTH (R71): Every 100 ms the Mode Controller counts down qualifying mode timers and the Ball Census counts down an active
  ball save. -/
  | tenth
  /-- MODE_TIMEOUT (R73): Instances whose remaining time reaches 0 end with reason TIMEOUT, and the suspension law is applied once.
  -/
  | modeTimeout
  /-- BALL_SAVE_EXPIRED (R122): A ball-save record whose remaining time reaches 0 becomes inactive with BALL SAVE_ENDED EXPIRED. -/
  | ballSaveExpired
  /-- SETTLE_EXPIRED (R92): A device's settle timer runs out and its settled count takes the raw count or adds the pending entries.
  -/
  | settleExpired (device : Nat)
  /-- ARRIVAL (R94): A rise of the settled count above the accounted count is taken as one arrival: reported, handed to the census,
  then walked as trigger 80 + device. -/
  | arrival (device : Nat) (breather : Bool)
  /-- HOLD_OFF_EXPIRED (R98): A RETURN head order's hold-off runs out and the device joins the arbiter's ready line. -/
  | holdOffExpired (device : Nat)
  /-- COIL_GRANT (R99): With fewer devices pulsing than the coil budget, the arbiter grants the front of the ready line, which
  enters PULSING. -/
  | coilGrant
  /-- PULSE_END (R100): A pulse time runs out: the coil is released and the order completes, fails or enters CONFIRMING. -/
  | pulseEnd (device : Nat)
  /-- CONFIRM_WINDOW_END (R103): The confirm window ends without success and the attempt fails into RETRY_WAIT or FAULT, or a blind
  device's eject succeeds. -/
  | confirmWindowEnd (device : Nat)
  /-- RETRY_INTERVAL_END (R104): The retry interval runs out without late evidence and the device joins the ready line for another
  pulse. -/
  | retryIntervalEnd (device : Nat)
  /-- SEARCH_WINDOW_END (R107): The fixed 100 ms window after a SEARCH pulse ends and the search cycle completes with expected count
  0. -/
  | searchWindowEnd (device : Nat)
  /-- SEARCH_ARM (R165): In WAITING, once the arming conditions and both quiet clocks hold, the search arms and round 1 begins. -/
  | searchArm
  /-- SEARCH_STEP (R166): 400 ms after a search grant, the next qualifying device gets its SEARCH order, or the round passes to
  PAUSE. -/
  | searchStep
  /-- SEARCH_PAUSE_END (R166): The 5 s pause ends: the search ends on a failed condition, starts the next round, or fails. -/
  | searchPauseEnd
  /-- REQUEST_FRAME (R175): A completed intact frame is accepted into a free reply slot, or discarded silently when the check fails
  or all slots are held. -/
  | requestFrame
  /-- INTER_BYTE_GAP (R173): More than 2 ms between bytes of a frame discards the partial frame and returns the receiver to HUNT. -/
  | interByteGap
  /-- BREAK (R174): RXD held low for 20 µs discards any partial frame, and the receiver takes no byte until the line returns high.
  -/
  | lineBreak
  /-- LONG_BREAK (R174): A break reaching 500 ms causes one soft reset of the whole 4610. -/
  | longBreak
  /-- REPLY_SENT (R175): The last byte of a reply leaves TXD, freeing its slot, and the soft reset follows a RESTART reply. -/
  | replySent
  /-- UNKNOWN_TYPE (R175): A request of unknown type is ended by the Link Port with REJECTED UNKNOWN_TYPE. -/
  | unknownType (type tag : Byte) (payload : List Byte)
  /-- SET_GAME (R143): Loads every game parameter in IDLE, with holding, threshold order checks and the effects of a new N or coil
  budget. -/
  | setGame (tag : Byte) (payload : List Byte)
  /-- SET_SWITCH (R12): Loads one switch record in IDLE. -/
  | setSwitch (tag : Byte) (payload : List Byte)
  /-- SET_GROUP (R15): Loads one switch group in IDLE. -/
  | setGroup (tag : Byte) (payload : List Byte)
  /-- SET_DEVICE (R89): Loads one device record in IDLE, ending any cycle and resetting its counts. -/
  | setDevice (tag : Byte) (payload : List Byte)
  /-- SET_MODE (R65): Loads one mode definition in IDLE. -/
  | setMode (tag : Byte) (payload : List Byte)
  /-- SET_MULTIBALL (R130): Loads one multiball definition in IDLE. -/
  | setMultiball (tag : Byte) (payload : List Byte)
  /-- SET_AWARD (R25): Loads one award entry in IDLE and updates chain membership. -/
  | setAward (tag : Byte) (payload : List Byte)
  /-- CLEAR_TABLES (R184): Returns the selected configuration tables to their hard-reset contents in IDLE. -/
  | clearTables (tag : Byte) (payload : List Byte)
  /-- START_GAME (R148): Checks the configuration and starts a game with player 1 and the first ball. -/
  | startGame (tag : Byte) (payload : List Byte)
  /-- ADD_PLAYER (R152): Adds a player to the game on ball 1. -/
  | addPlayer (tag : Byte) (payload : List Byte)
  /-- NEXT_BALL (R154): In BALL_OVER, plays an extra ball, moves to the next player or ball, or ends the game. -/
  | nextBall (tag : Byte) (payload : List Byte)
  /-- END_GAME (R164): Ends the game in progress by the slam steps, with GAME OVER reason HOST. -/
  | endGame (tag : Byte) (payload : List Byte)
  /-- TRIGGER (R185): Walks a virtual trigger as a root of its own, or appends it to the pending list, or drops it. -/
  | triggerRequest (tag : Byte) (payload : BreathingPayload)
  /-- GRANT (R186): Awards points to the current player with the named classes, queuing AWARD GRANTED. -/
  | grantRequest (tag : Byte) (payload : List Byte)
  /-- MODE_CONTROL (R84): Starts, stops or progresses a mode as the matching action would. -/
  | modeControl (tag : Byte) (payload : BreathingPayload)
  /-- SET_PLAYER (R147): Writes one field of a player record in SERVE or PLAY. -/
  | setPlayer (tag : Byte) (payload : List Byte)
  /-- EJECT (R111): Queues a HOST eject order on a named device. -/
  | ejectRequest (tag : Byte) (payload : List Byte)
  /-- CLEAR_FAULT (R105): Takes a device out of FAULT, taking held rises as arrivals, and restarts its head order. -/
  | clearFault (tag : Byte) (payload : BreathingPayload)
  /-- CLEAR_LATCHES (R183): Clears all activity latches, or those of one group. -/
  | clearLatches (tag : Byte) (payload : List Byte)
  /-- STATUS (R180): Returns a snapshot of the game, census, devices, search, engine and event queue. -/
  | readStatus (tag : Byte) (payload : List Byte)
  /-- READ_PLAYER (R181): Returns one player record. -/
  | readPlayer (tag : Byte) (payload : List Byte)
  /-- READ_MODES (R85): Returns the mode stack, a player's saved-mode list or a mode definition. -/
  | readModes (tag : Byte) (payload : List Byte)
  /-- READ_DEVICE (R91): Returns the record, figures, state, counts and queue of one device. -/
  | readDevice (tag : Byte) (payload : List Byte)
  /-- READ_AWARD (R27): Returns one award entry and its chain successor. -/
  | readAward (tag : Byte) (payload : List Byte)
  /-- READ_SWITCHES (R182): Returns the debounced state, latch and effective role of all 72 switches. -/
  | readSwitches (tag : Byte) (payload : List Byte)
  /-- FETCH_EVENTS (R190): Removes up to 8 records from the head of the Event Queue and returns them. -/
  | fetchEvents (tag : Byte) (payload : List Byte)
  /-- RESTART (R187): Answers OK, and a soft reset follows when its reply has been sent. -/
  | restartRequest (tag : Byte) (payload : List Byte)
  /-- BYTE_RECEIVED (R173): A correctly framed byte arrives on RXD and is taken by the receiver's state: a lead begins a partial
  frame, a length is kept or refused, and a data byte joins the partial frame. -/
  | byteReceived (byte : Byte)
  /-- FRAMING_ERROR (R173): A byte whose stop bit is sampled low, and which is not part of a break, is discarded, and in COLLECT the
  partial frame is discarded and the receiver enters HUNT. -/
  | framingError
  /-- BREAK_END (R174): RXD returns high after a break, and the receiver takes bytes again in HUNT, with a later low line counted
  afresh as a new break. -/
  | lineBreakEnd
  deriving DecidableEq, Repr

end Sys2Proof
end

