-- ==== Sys2Proof/Decode.lean ====
section
/-! DEFINITION. The command a word spells. No row of spec/opcode_table.json gives its command any bits: requests are frames of
many bytes (Chapter 9), and the other commands are events on pins and expiries of clocks. So no word spells a command. -/

namespace Sys2Proof

/-- The command spelled by the `nbits` bits of `w`: none, since the table gives no command an encoding of bits. -/
def decodeTableWord (nbits w : Nat) : Option Instr :=
  match nbits, w with
  | _, _ => none

end Sys2Proof
end

