-- ==== Sys2Proof/Config.lean ====
section
/-! DEFINITION. The fixed figures of the part: how much each collection holds and where each quantity is held.
The manual leaves none of them to the implementation, so none is a free value. -/

namespace Sys2Proof.Config

/-- Switches: 64 matrix positions and 8 direct inputs (R1). -/
abbrev switchCount : Nat := 72
/-- Switch groups (R15). -/
abbrev groupCount : Nat := 8
/-- Most members of one group (R15). -/
abbrev groupMembers : Nat := 8
/-- Award entries (R22). -/
abbrev awardCount : Nat := 256
/-- Mode definitions (R64). -/
abbrev modeCount : Nat := 16
/-- Ball devices (section 5.1). -/
abbrev deviceCount : Nat := 8
/-- Multiball definitions (R129). -/
abbrev multiballCount : Nat := 4
/-- Trigger numbers run 0..103 (R20). -/
abbrev triggerCount : Nat := 104
/-- The quiet timer holds at this value (R17). -/
abbrev quietHold : Nat := 65535
/-- Most triggers on the pending-trigger list (R41). -/
abbrev pendingTriggers : Nat := 16
/-- Most walks of one root transition (R43). -/
abbrev rootWalks : Nat := 32
/-- Most instances in the mode stack (R66). -/
abbrev stackInstances : Nat := 6
/-- Most saved instances of one player (R80). -/
abbrev savedInstances : Nat := 4
/-- Most orders in one eject queue (R95). -/
abbrev queueOrders : Nat := 8
/-- Most event records (R188). -/
abbrev eventRecords : Nat := 64
/-- Most records one FETCH_EVENTS removes (R190). -/
abbrev fetchRecords : Nat := 8
/-- Slots of the reply queue (R175). -/
abbrev replySlots : Nat := 4
/-- The score limit (R54). -/
abbrev scoreLimit : Nat := 99999999990
/-- The largest base value, mode value and jackpot addition (R22, R62, R26). -/
abbrev pointLimit : Nat := 9999990
/-- The largest jackpot, jackpot base and jackpot cap (R142). -/
abbrev jackpotLimit : Nat := 999999990
/-- The largest bonus unit (R142). -/
abbrev bonusUnitLimit : Nat := 99990
/-- The total multiplier is held here (R53). -/
abbrev multiplierLimit : Nat := 64
/-- The mode factor is held here (R51). -/
abbrev modeFactorLimit : Nat := 8
/-- Most bonus count (R38). -/
abbrev bonusCountLimit : Nat := 999
/-- Milliseconds between two tenths (R71). -/
abbrev tenthMs : Nat := 100
/-- Milliseconds between two counted tilt closures (R158). -/
abbrev tiltWindowMs : Nat := 1000
/-- Milliseconds from one search grant to the next search step (R166). -/
abbrev searchStepMs : Nat := 400
/-- Milliseconds of a search pause (R166). -/
abbrev searchPauseMs : Nat := 5000
/-- Milliseconds of the window after a SEARCH pulse (R107). -/
abbrev searchWindowMs : Nat := 100
/-- The lead byte of a frame (section 12.2). -/
abbrev leadByte : BitVec 8 := 251

end Sys2Proof.Config
end

