-- ==== Sys2Proof/Machine/State.lean ====
section
/-! DEFINITION. The state of the 4610, block by block, as plain data, and the state right after a hard reset.

Each structure below is the state one block owns (section 0.3). Reset values are those the chapters give; a value the
manual does not give is marked DESIGN CHOICE with its row of notes/assumptions. -/

namespace Sys2Proof.Machine

open Sys2Proof

/-! ### Switch Scanner (Chapter 1) -/

/-- The roles of a switch in the order of their codes (R4, R5, R192). DEVICE is an effective role only. -/
inductive Role where
  | playfield | cabinet | tilt | slam | unused | device
  deriving DecidableEq, Repr

/-- The report settings of a switch record (R4). -/
inductive Report where
  | none | close | both
  deriving DecidableEq, Repr

/-- A switch record (R4). -/
structure SwitchRecord where
  closeDebounce : Nat
  openDebounce : Nat
  role : Role
  report : Report
  deriving DecidableEq, Repr

/-- What the Switch Scanner holds for one switch (section 1.1): `raw` and `debounced` are true for closed. -/
structure Switch where
  record : SwitchRecord
  raw : Bool
  debounced : Bool
  count : Nat
  latch : Bool
  deriving DecidableEq, Repr

/-- A switch group (R15). -/
structure Group where
  members : List Nat
  perBall : Bool
  deriving DecidableEq, Repr

/-- A transition that a scan has made and that has not been handed on yet (R2, R11), with the effective role of the
switch at that scan (section 1.4) and the scan's time stamp. -/
structure Transition where
  switch : Nat
  closed : Bool
  role : Role
  stamp : Stamp
  deriving DecidableEq, Repr

/-- The Switch Scanner. `started` is false from a hard reset until the first scan (R18); `waiting` holds the transitions
not handed on yet, in scan order (R11). -/
structure Scanner where
  now : Stamp
  started : Bool
  switches : Vector Switch Config.switchCount
  groups : Vector Group Config.groupCount
  quiet : Nat
  waiting : List Transition
  deriving DecidableEq, Repr

/-! ### Award Engine (Chapter 2) -/

/-- States of an award entry (R22, R23). -/
inductive EntryState where
  | empty | disabled | enabled
  deriving DecidableEq, Repr

/-- The edge of a transition or entry: CLOSE or OPEN (R21). -/
inductive Edge where
  | close | opening
  deriving DecidableEq, Repr

/-- Mode gate kinds (R28). -/
inductive GateKind where
  | any | running | absent
  deriving DecidableEq, Repr

/-- Ball gates (R29). -/
inductive BallGate where
  | any | single | multi
  deriving DecidableEq, Repr

/-- Condition sources (R30). -/
inductive Source where
  | latch | level | flag | groupDone | lockLit
  deriving DecidableEq, Repr

/-- Condition polarities (R31). -/
inductive Polarity where
  | whenSet | whenClear
  deriving DecidableEq, Repr

/-- A present condition: source, operand A, operand B when present, polarity (R22, R30). -/
structure Condition where
  source : Source
  operandA : Nat
  operandB : Option Nat
  polarity : Polarity
  deriving DecidableEq, Repr

/-- Value sources (R49). -/
inductive ValueSource where
  | fixed | jackpot | modeValue | none
  deriving DecidableEq, Repr

/-- A set of multiplier classes (R50). -/
structure Classes where
  playfield : Bool
  mode : Bool
  multiball : Bool
  deriving DecidableEq, Repr

/-- Action kinds, in the order of their codes (R26, section 12.2.1). -/
inductive ActionKind where
  | flagSet | flagClear | flagToggle | latchClear | modeStart | modeStop | modeProgress | jackpotBuild | jackpotReset
  | lockLight | bonusAdd | bonusMultUp | pfMultUp | extraBall | mbStart | addBall | trigger
  deriving DecidableEq, Repr

/-- One action of an entry. -/
structure Action where
  kind : ActionKind
  argument : Nat
  deriving DecidableEq, Repr

/-- What follows a match (R34). -/
inductive Continuation where
  | stop | goOn
  deriving DecidableEq, Repr

/-- An award entry (R22). -/
structure AwardEntry where
  state : EntryState
  trigger : Nat
  edge : Edge
  gateKind : GateKind
  gateMode : Nat
  ballGate : BallGate
  condition : Option Condition
  source : ValueSource
  base : Nat
  classes : Classes
  actions : List Action
  continuation : Continuation
  report : Bool
  deriving DecidableEq, Repr

/-- A root transition in progress: the trigger of its first walk, the walks made so far (R42, R43), and the time stamp of
the work that began it, which the records of its walks carry (R68). -/
structure Root where
  first : Nat
  walks : Nat
  stamp : Stamp
  deriving DecidableEq, Repr

/-- Work that has come to a pause, with the rest of it still to come: the hand-on of closure `transition` at step 5 of R6, after an
arrival that it brought about at `device` (R6, R32); or a request in hand (R175), a TRIGGER whose root has not ended (R185) or a
CLEAR_FAULT after an arrival at `device` (R105). It goes on once no root is in progress, and what it still does carries the time
stamp of its own work, the transition's or `stamp`, that of the request (R10, R112; DEDUCED, notes/assumptions/8.md). -/
inductive PausedWork where
  | closure (transition : Transition) (device : Nat)
  | trigger (stamp : Stamp)
  | clearFault (device : Nat) (stamp : Stamp)
  deriving DecidableEq, Repr

/-- The Award Engine. `triggers` is the pending-trigger list, oldest first (R41); `walking` is the trigger whose walk is
in progress; `paused` is the work that has come to a pause (R32, R175). The chain of a trigger is derived from the table
(R24). -/
structure Engine where
  awards : Vector AwardEntry Config.awardCount
  triggers : List Nat
  root : Option Root
  walking : Option Nat
  paused : Option PausedWork
  deriving DecidableEq, Repr

/-! ### Mode Controller (Chapter 4) -/

/-- What becomes of an instance at ball end (R64). -/
inductive AtBallEnd where
  | ends | saves
  deriving DecidableEq, Repr

/-- A mode definition (R64). -/
structure ModeDef where
  defined : Bool
  priority : Nat
  exclusive : Bool
  duration : Nat
  goal : Nat
  startValue : Nat
  valueStep : Nat
  multiplier : Nat
  lends : Bool
  atBallEnd : AtBallEnd
  endsAtMultiballEnd : Bool
  completionValue : Nat
  completionClasses : Classes
  timerHold : Bool
  deriving DecidableEq, Repr

/-- States of a mode instance (R66). -/
inductive RunState where
  | running | suspended
  deriving DecidableEq, Repr

/-- A mode instance (R66); `remaining` is absent for an untimed mode. -/
structure ModeInst where
  mode : Nat
  state : RunState
  remaining : Option Nat
  progress : Nat
  value : Nat
  order : Nat
  deriving DecidableEq, Repr

/-- A saved instance (section 4.8). -/
structure SavedMode where
  mode : Nat
  remaining : Option Nat
  progress : Nat
  value : Nat
  deriving DecidableEq, Repr

/-- The Mode Controller. The stack is in stack order, top first; `lastTenth` is the time stamp at which the last tenth
was due, so the next is due 100 ms after it (R71). -/
structure Modes where
  defs : Vector ModeDef Config.modeCount
  stack : List ModeInst
  nextOrder : Nat
  deferred : Bool
  lastTenth : Stamp
  deriving DecidableEq, Repr

/-! ### Ball Device Controller (Chapter 5) -/

/-- Device roles, in the order of their codes (section 12.2.2). -/
inductive DeviceRole where
  | unused | trough | shooter | lock | saucer
  deriving DecidableEq, Repr

/-- Counting methods (R88). -/
inductive Counting where
  | positions | entryExit | entryBlind
  deriving DecidableEq, Repr

/-- The overrides of a device record, each absent or a value (R87, R88). -/
structure Overrides where
  counting : Option Counting
  capacity : Option Nat
  pulse : Option Nat
  settle : Option Nat
  confirm : Option Nat
  retryInterval : Option Nat
  retryLimit : Option Nat
  holdOff : Option Nat
  deriving DecidableEq, Repr

/-- A device record (R87). -/
structure DeviceRecord where
  role : DeviceRole
  profile : Nat
  positions : List Nat
  entrySwitch : Option Nat
  exitSwitch : Option Nat
  coil : Nat
  overrides : Overrides
  autoRetry : Bool
  keep : Bool
  keepLimit : Option Nat
  reportArrivals : Bool
  deriving DecidableEq, Repr

/-- Reasons of an eject order, in the order of their codes (R95). -/
inductive Reason where
  | serve | launch | return | release | search | recover | host
  deriving DecidableEq, Repr

/-- An eject order (R95). -/
structure Order where
  reason : Reason
  queued : Stamp
  launch : Bool
  deriving DecidableEq, Repr

/-- Device states, in the order of the table of R97. -/
inductive DeviceState where
  | disabled | idle | ejectWait | pulsing | confirming | retryWait | fault
  deriving DecidableEq, Repr

/-- Evidence kept while the coil is PULSING (R100). -/
inductive Evidence where
  | success | fallback
  deriving DecidableEq, Repr

/-- A running time: it began at the scan stamped `start` and runs out `length` ms later (R88). -/
structure Timer where
  start : Stamp
  length : Nat
  deriving DecidableEq, Repr

/-- One ball device. The unsettled marker is set exactly while `settle` is present (R92, R93); the raw count is derived
from the switches. `timer` is the pulse, window or retry interval of the cycle; `searching` marks a SEARCH cycle (R107);
`arrivals` holds the arrivals recognised and not handed on yet, each with its time stamp (R94). -/
structure Device where
  record : DeviceRecord
  state : DeviceState
  settled : Nat
  accounted : Nat
  entries : Nat
  settle : Option Timer
  retries : Nat
  base : Nat
  queue : List Order
  timer : Option Timer
  evidence : Option Evidence
  searching : Bool
  arrivals : List Stamp
  deriving DecidableEq, Repr

/-- A place in the arbiter's ready line (R99). -/
structure Ready where
  device : Nat
  joined : Stamp
  deriving DecidableEq, Repr

/-- The Ball Device Controller: the devices, the ready line front first, the devices PULSING in the order of their
grants, and device 1's launch-owed count (R99, R108). -/
structure Devices where
  units : Vector Device Config.deviceCount
  ready : List Ready
  granted : List Nat
  launchOwed : Nat
  deriving DecidableEq, Repr

/-! ### Ball Census (Chapter 6) -/

/-- A multiball definition (R129). -/
structure MultiballDef where
  defined : Bool
  target : Nat
  releaseLocked : Bool
  saveTime : Nat
  startMode : Option Nat
  jackpotReset : Bool
  deriving DecidableEq, Repr

/-- Saves left of an active ball-save record (R121). -/
inductive Saves where
  | one | unlimited
  deriving DecidableEq, Repr

/-- An active ball-save record (R121). -/
structure BallSave where
  remaining : Nat
  saves : Saves
  deriving DecidableEq, Repr

/-- The Ball Census. `conflict` is the census state CONFLICT, `multi` the multiball state MULTI; `save` is present while
the ball-save record is active; `lastStarted` is the definition most recently started; `lastTenth` is the time stamp at which the
census's last tenth was due, which follows that of the Mode Controller (R122). -/
structure Census where
  playfield : Nat
  missing : Nat
  conflict : Bool
  locked : Vector Nat Config.deviceCount
  validated : Bool
  save : Option BallSave
  multi : Bool
  lastStarted : Option Nat
  missingReturns : Nat
  defs : Vector MultiballDef Config.multiballCount
  lastTenth : Stamp
  deriving DecidableEq, Repr

/-! ### Game Controller (Chapters 7 and 8) -/

/-- The phases, in the order of their codes (R140, R192). -/
inductive Phase where
  | idle | serve | play | tilt | ballOver
  deriving DecidableEq, Repr

/-- The game parameters (R142). -/
structure Params where
  installed : Nat
  ballsPerGame : Nat
  maxPlayers : Nat
  ballSaveTime : Nat
  searchDelay : Nat
  searchRounds : Nat
  missingReplace : Bool
  tiltWarnings : Nat
  coilBudget : Nat
  factorCap : Nat
  locksNeeded : Nat
  lockLitCarry : Bool
  flagCarry : BitVec 32
  bonusUnit : Nat
  bonusMultCarry : Bool
  jackpotBase : Nat
  jackpotCap : Nat
  buildPercent : Nat
  extraBallLimit : Nat
  thresholds : List Nat
  deriving DecidableEq, Repr

/-- A player record (R145). -/
structure Player where
  score : Nat
  playfieldMult : Nat
  bonusCount : Nat
  bonusMult : Nat
  flags : BitVec 32
  jackpot : Nat
  locksLit : Nat
  locksMade : Nat
  extraBalls : Nat
  saved : List SavedMode
  nextReplay : Nat
  tiltWarnings : Nat
  limitReported : Bool
  deriving DecidableEq, Repr

/-- The search phases (R165). -/
inductive SearchPhase where
  | off | waiting | round | pause
  deriving DecidableEq, Repr

/-- The search state (section 8.4). `began` is the time stamp at which the round began (R166 step 4). -/
structure Search where
  phase : SearchPhase
  round : Nat
  nextDevice : Nat
  inFlight : Option Nat
  lastGrant : Option Stamp
  began : Stamp
  quietMark : Stamp
  deriving DecidableEq, Repr

/-- The Game Controller. The player count is the number of records (R145, R155, R157); `current` is 0 when there is no
current player; `lastTilt` is the time stamp of the last counted tilt closure. -/
structure Game where
  params : Params
  phase : Phase
  players : List Player
  current : Nat
  ballNumber : Nat
  lastTilt : Option Stamp
  search : Search
  deriving DecidableEq, Repr

/-! ### Link Port (Chapter 9) -/

/-- The receiver: HUNT; COLLECT waiting for the length; COLLECT with the length and the bytes collected after it (R173). -/
inductive Receiver where
  | hunt
  | awaitLength
  | collect (length : Nat) (got : List Byte)
  deriving DecidableEq, Repr

/-- A request as the Link Port hands it on: its type, tag and payload bytes (R171). -/
structure Request where
  type : Byte
  tag : Byte
  payload : List Byte
  deriving DecidableEq, Repr

/-- A held slot of the reply queue: a request waiting to be handed on, or a reply waiting to be sent (R175). Both carry
type, tag and payload. -/
inductive Slot where
  | waiting (request : Request)
  | ready (reply : Request)
  deriving DecidableEq, Repr

/-- The Link Port. `frames` holds completed frames (length byte first, check bytes last) not yet taken by R175; `slots`
the held slots, oldest first; `sent` the transmitter's place in the reply it is sending; `inBreak` is set while the
line is in a break and `breakTaken` once that break has caused its soft reset (R174); `restarting` is set from the end
of a RESTART until its soft reset (R178). -/
structure Link where
  receiver : Receiver
  inBreak : Bool
  breakTaken : Bool
  frames : List (List Byte)
  slots : List Slot
  sent : Nat
  restarting : Bool
  deriving DecidableEq, Repr

/-! ### Event Queue (Chapter 11) -/

/-- The events by kind and code (R191, R194). -/
inductive Event where
  | switchClosed | switchOpened
  | awardEntry | awardGranted | awardCompletion
  | triggerLost | walkLimit
  | scoreReplay | scoreLimit
  | modeStarted | modeRefreshed | modeRefused | modeSuspended | modeResumed | modeEnded | modeSaved | modeRestored
  | lockMade
  | multiballStarted | multiballStacked | multiballShort | multiballEnded | multiballUndefined
  | ballValidated | ballRefed | ballSaved | ballDrained | ballSaveEnded | ballEnded
  | deviceArrival | deviceOverfull | deviceQueueFull | deviceRetry | deviceFault | deviceFaultCleared | deviceLockedLost
  | censusFound | censusMissing | censusConflict | censusConflictCleared
  | tiltWarning | tiltTilted | tiltSlam
  | searchRound | searchEnded | searchFailed
  | gameStarted | gameBallStarted | gamePlayerAdded | gameShootAgain | gameOver
  | overflow
  | restartedHard | restartedSoft
  deriving DecidableEq, Repr

/-- An event record (section 11.1). -/
structure EventRecord where
  event : Event
  player : Nat
  subject : Nat
  time : Stamp
  argument : Nat
  value : Nat
  deriving DecidableEq, Repr

/-! ### The whole part -/

/-- The 4610. `time` and `pending` are the model's own: the time stamp of the work in hand, which its event records and
orders carry (R68, R112, R138, R156), and the commands waiting to be taken, first in, first out. -/
structure State where
  scanner : Scanner
  engine : Engine
  modes : Modes
  devices : Devices
  census : Census
  game : Game
  link : Link
  events : List EventRecord
  time : Stamp
  pending : List Instr
  deriving DecidableEq, Repr

/-- The faults of a command: there are none. The manual gives every command of the table its outcome in every state,
so no meaning stops with a fault. -/
inductive Fault where
  deriving DecidableEq, Repr

/-- The refusals of a command. -/
inductive Refusal where
  /-- Raised by an arm of `exec` whose command has no meaning yet; no arm does. Safe: the machine stops. -/
  | notModelled (mnemonic : String)
  deriving DecidableEq, Repr

/-! ### Hard-reset contents -/

/-- The default switch record (R4). -/
def SwitchRecord.default : SwitchRecord := ⟨3, 3, .playfield, .none⟩

/-- A switch after a hard reset (R18). DESIGN CHOICE (notes/assumptions/6.md): the raw and debounced states read open until
the first scan takes them from the contacts. -/
def Switch.reset : Switch := ⟨.default, false, false, 0, false⟩

/-- An empty group (R15). -/
def Group.empty : Group := ⟨[], false⟩

/-- The empty class set. -/
def Classes.none : Classes := ⟨false, false, false⟩

/-- The empty content of an award entry (R22). -/
def AwardEntry.empty : AwardEntry :=
  ⟨.empty, 0, .close, .any, 0, .any, .none, .none, 0, .none, [], .stop, false⟩

/-- The undefined content of a mode definition (R64). -/
def ModeDef.undefined : ModeDef :=
  ⟨false, 0, false, 0, 0, 0, 0, 1, false, .ends, false, 0, .none, true⟩

/-- A record without overrides. -/
def Overrides.none : Overrides := ⟨.none, .none, .none, .none, .none, .none, .none, .none⟩

/-- The hard-reset content of a device record (R87). -/
def DeviceRecord.reset : DeviceRecord :=
  ⟨.unused, 0, [], .none, .none, 0, .none, false, false, .none, false⟩

/-- A device after a hard reset (R113). -/
def Device.reset : Device :=
  ⟨.reset, .disabled, 0, 0, 0, .none, 0, 0, [], .none, .none, false, []⟩

/-- The undefined content of a multiball definition (R129). -/
def MultiballDef.undefined : MultiballDef := ⟨false, 2, false, 0, .none, false⟩

/-- The default game parameters (R142). -/
def Params.default : Params where
  installed := 4
  ballsPerGame := 3
  maxPlayers := 4
  ballSaveTime := 100
  searchDelay := 20
  searchRounds := 5
  missingReplace := true
  tiltWarnings := 2
  coilBudget := 2
  factorCap := 2
  locksNeeded := 3
  lockLitCarry := true
  flagCarry := 0xFFFFFFFF#32
  bonusUnit := 1000
  bonusMultCarry := false
  jackpotBase := 1000000
  jackpotCap := 999999990
  buildPercent := 10
  extraBallLimit := 4
  thresholds := []

/-- The search state after a reset (R169). DESIGN CHOICE (notes/assumptions/6.md): the next device is 1 and the round's
beginning 0, which the manual does not give. -/
def Search.reset : Search := ⟨.off, 0, 1, .none, .none, 0, 0⟩

/-- The Switch Scanner after a hard reset (R18). -/
def Scanner.reset : Scanner :=
  ⟨0, false, Vector.replicate _ .reset, Vector.replicate _ .empty, 0, []⟩

/-- The Award Engine after a hard reset (R46). -/
def Engine.reset : Engine := ⟨Vector.replicate _ .empty, [], .none, .none, .none⟩

/-- The Mode Controller after a hard reset (R86). -/
def Modes.reset : Modes := ⟨Vector.replicate _ .undefined, [], 0, false, 0⟩

/-- The Ball Device Controller after a hard reset (R113). -/
def Devices.reset : Devices := ⟨Vector.replicate _ .reset, [], [], 0⟩

/-- The Ball Census after a hard reset: N is 4 and no device is configured, so PLAYFIELD is 4 (R139). -/
def Census.reset : Census :=
  ⟨4, 0, false, Vector.replicate _ 0, false, .none, false, .none, 0, Vector.replicate _ .undefined, 0⟩

/-- The Game Controller after a hard reset (R157, R161, R169). -/
def Game.reset : Game := ⟨.default, .idle, [], 0, 0, .none, .reset⟩

/-- The Link Port after a hard reset (R178). DESIGN CHOICE (notes/assumptions/47.md): a break in progress ends with the reset, and a
line still low is taken as a break of its own by a further BREAK. -/
def Link.reset : Link := ⟨.hunt, false, false, [], [], 0, false⟩

/-- The part right after a hard reset, with its RESTARTED HARD record in the Event Queue (R191). -/
def State.reset : State where
  scanner := .reset
  engine := .reset
  modes := .reset
  devices := .reset
  census := .reset
  game := .reset
  link := .reset
  events := [⟨.restartedHard, 0, 0, 0, 0, 0⟩]
  time := 0
  pending := []

end Sys2Proof.Machine
end

