-- ==== Sys2Proof/Machine/Ops.lean ====
section
/-! DEFINITION. The named operations over the state: reading and updating the tables of each block, queuing an event record
(Chapter 11), and the codes of events and fields (section 12.1). -/

namespace Sys2Proof.Machine

open Sys2Proof

/-! ### Tables of a fixed length -/

/-- Entry `i` of a table, or `d` when there is no such entry. -/
def readTable {α : Type} {n : Nat} (t : Vector α n) (d : α) (i : Nat) : α := t[i]?.getD d

/-- The table with entry `i` replaced; unchanged when there is no such entry. -/
def writeTable {α : Type} {n : Nat} (t : Vector α n) (i : Nat) (x : α) : Vector α n := t.setIfInBounds i x

/-- The table with `f i x` in place of every entry `x` at index `i`. -/
def mapTable {α β : Type} {n : Nat} (t : Vector α n) (f : Nat → α → β) : Vector β n :=
  Vector.ofFn fun i : Fin n => f i.val t[i]

/-- `f` applied `n` times. -/
def repeated {α : Type} (f : α → α) : Nat → α → α
  | 0, x => x
  | n + 1, x => repeated f n (f x)

/-! ### Block updates -/

/-- The state with its Switch Scanner updated. -/
def State.onScanner (s : State) (f : Scanner → Scanner) : State := { s with scanner := f s.scanner }
/-- The state with its Award Engine updated. -/
def State.onEngine (s : State) (f : Engine → Engine) : State := { s with engine := f s.engine }
/-- The state with its Mode Controller updated. -/
def State.onModes (s : State) (f : Modes → Modes) : State := { s with modes := f s.modes }
/-- The state with its Ball Device Controller updated. -/
def State.onDevices (s : State) (f : Devices → Devices) : State := { s with devices := f s.devices }
/-- The state with its Ball Census updated. -/
def State.onCensus (s : State) (f : Census → Census) : State := { s with census := f s.census }
/-- The state with its Game Controller updated. -/
def State.onGame (s : State) (f : Game → Game) : State := { s with game := f s.game }
/-- The state with its search state updated. -/
def State.onSearch (s : State) (f : Search → Search) : State := s.onGame fun g => { g with search := f g.search }
/-- The state with its Link Port updated. -/
def State.onLink (s : State) (f : Link → Link) : State := { s with link := f s.link }
/-- The state whose work in hand carries time stamp `t`. -/
def State.at (s : State) (t : Stamp) : State := { s with time := t }
/-- The state whose work in hand carries the time stamp of the latest scan. -/
def State.atNow (s : State) : State := s.at s.scanner.now

/-! ### Reading and updating one member of a table -/

/-- Switch `i`. -/
def State.switch (s : State) (i : Nat) : Switch := readTable s.scanner.switches .reset i
/-- The state with switch `i` updated. -/
def State.onSwitch (s : State) (i : Nat) (f : Switch → Switch) : State :=
  s.onScanner fun c => { c with switches := writeTable c.switches i (f (s.switch i)) }
/-- Switch group `g`. -/
def State.group (s : State) (g : Nat) : Group := readTable s.scanner.groups .empty g
/-- Award entry `i`. -/
def State.award (s : State) (i : Nat) : AwardEntry := readTable s.engine.awards .empty i
/-- The definition of mode `m`. -/
def State.modeDef (s : State) (m : Nat) : ModeDef := readTable s.modes.defs .undefined m
/-- Device `d`. -/
def State.device (s : State) (d : Nat) : Device := readTable s.devices.units .reset d
/-- The state with device `d` updated. -/
def State.onDevice (s : State) (d : Nat) (f : Device → Device) : State :=
  s.onDevices fun c => { c with units := writeTable c.units d (f (s.device d)) }
/-- The number of balls held as locks in device `d` (R117). -/
def State.locked (s : State) (d : Nat) : Nat := readTable s.census.locked 0 d
/-- The state with `n` balls held as locks in device `d`. -/
def State.setLocked (s : State) (d n : Nat) : State :=
  s.onCensus fun c => { c with locked := writeTable c.locked d n }
/-- Multiball definition `k`. -/
def State.multiballDef (s : State) (k : Nat) : MultiballDef := readTable s.census.defs .undefined k
/-- The record of player `p`, when it exists (R145); players are counted from 1. -/
def State.player? (s : State) (p : Nat) : Option Player := if p = 0 then none else s.game.players[p - 1]?
/-- The state with player `p`'s record updated, when it exists. -/
def State.onPlayer (s : State) (p : Nat) (f : Player → Player) : State :=
  if p = 0 then s else s.onGame fun g => { g with players := g.players.modify (p - 1) f }
/-- The state with the current player's record updated. -/
def State.onCurrent (s : State) (f : Player → Player) : State := s.onPlayer s.game.current f

/-- A record made with the game-start values of R48 and R145. -/
def Player.start (g : Params) : Player where
  score := 0
  playfieldMult := 1
  bonusCount := 0
  bonusMult := 1
  flags := 0
  jackpot := min g.jackpotBase g.jackpotCap
  locksLit := 0
  locksMade := 0
  extraBalls := 0
  saved := []
  nextReplay := 0
  tiltWarnings := 0
  limitReported := false

/-- The current player's record; the game-start record when there is no current player. -/
def State.current (s : State) : Player := (s.player? s.game.current).getD (.start s.game.params)

/-! ### Phases -/

/-- The phase is SERVE or PLAY: walks are made, latches are set, FLIPEN is asserted (R13, R32, R141). -/
def State.inPlay (s : State) : Bool := s.game.phase == .serve || s.game.phase == .play

/-- A ball is in progress: the phase is SERVE, PLAY or TILT (R125). -/
def State.ballOn (s : State) : Bool := s.inPlay || s.game.phase == .tilt

/-- A game is in progress: any phase but IDLE (R140). -/
def State.gameOn (s : State) : Bool := s.game.phase != .idle

/-! ### Event Queue -/

/-- A record joins the Event Queue, or is counted by an OVERFLOW record when 64 are held (R188, R189). -/
def appendEvent (q : List EventRecord) (r : EventRecord) : List EventRecord :=
  if q.length < Config.eventRecords then q ++ [r]
  else match q.getLast? with
    | none => [r]
    | some l =>
      if l.event = .overflow then
        q.dropLast ++ [{ l with argument := min (l.argument + 1) 65535, value := r.time.toNat }]
      else q.dropLast ++ [⟨.overflow, 0, 0, l.time, 2, r.time.toNat⟩]

/-- An event record of the work in hand is queued for player `player`. -/
def State.emitFor (s : State) (player : Nat) (e : Event) (subject argument value : Nat) : State :=
  { s with events := appendEvent s.events ⟨e, player, subject, s.time, argument, value⟩ }

/-- An event record of the work in hand is queued for the current player, 0 when there is none. -/
def State.emit (s : State) (e : Event) (subject argument value : Nat) : State :=
  s.emitFor s.game.current e subject argument value

/-! ### The reply queue (R175) -/

/-- The oldest request waiting in a slot: the next to be handed on, or the one in hand. -/
def firstWaiting : List Slot → Option Request
  | [] => none
  | .waiting r :: _ => some r
  | .ready _ :: rest => firstWaiting rest

/-- The reply `a` takes the place of the oldest waiting request in its slot. -/
def answerSlot (a : Request) : List Slot → List Slot
  | [] => []
  | .waiting _ :: rest => .ready a :: rest
  | .ready q :: rest => .ready q :: answerSlot a rest

/-- A request is in hand: a block has taken it, and its effects are not yet whole (R175). -/
def State.inHand (s : State) : Bool :=
  match s.engine.paused with
  | some (.trigger _) | some (.clearFault _ _) => true
  | some (.closure _ _) | none => false

/-- The request in hand has ended: its reply of payload `payload` takes its place in its slot (R175). -/
def State.answerInHand (s : State) (payload : List Byte) : State :=
  match firstWaiting s.link.slots with
  | some r => s.onLink fun l => { l with slots := answerSlot ⟨r.type, r.tag, payload⟩ l.slots }
  | none => s

/-! ### Timers -/

/-- The timer has run out at the scan stamped `now` (R88). -/
def Timer.out (t : Timer) (now : Stamp) : Bool := t.length ≤ elapsed now t.start

/-- The state has a running timer that has run out at the latest scan. -/
def State.timeUp (s : State) : Option Timer → Bool
  | none => false
  | some t => t.out s.scanner.now

/-- A timer of `length` ms begun by the work in hand. -/
def State.timer (s : State) (length : Nat) : Timer := ⟨s.time, length⟩

/-! ### Codes (section 12.1) -/

/-- The code of a role (R192). -/
def Role.code : Role → Nat
  | .playfield => 0 | .cabinet => 1 | .tilt => 2 | .slam => 3 | .unused => 4 | .device => 5
/-- The code of an order's reason (R192). -/
def Reason.code : Reason → Nat
  | .serve => 0 | .launch => 1 | .return => 2 | .release => 3 | .search => 4 | .recover => 5 | .host => 6
/-- The code of a run state (R194). -/
def RunState.code : RunState → Nat
  | .running => 0 | .suspended => 1
/-- The code of a phase (R192). -/
def Phase.code : Phase → Nat
  | .idle => 0 | .serve => 1 | .play => 2 | .tilt => 3 | .ballOver => 4

/-- The kind of an event (R194). -/
def Event.kind : Event → Nat
  | .switchClosed | .switchOpened => 1
  | .awardEntry | .awardGranted | .awardCompletion => 2
  | .triggerLost | .walkLimit => 3
  | .scoreReplay | .scoreLimit => 4
  | .modeStarted | .modeRefreshed | .modeRefused | .modeSuspended | .modeResumed | .modeEnded | .modeSaved
  | .modeRestored => 5
  | .lockMade => 6
  | .multiballStarted | .multiballStacked | .multiballShort | .multiballEnded | .multiballUndefined => 7
  | .ballValidated | .ballRefed | .ballSaved | .ballDrained | .ballSaveEnded | .ballEnded => 8
  | .deviceArrival | .deviceOverfull | .deviceQueueFull | .deviceRetry | .deviceFault | .deviceFaultCleared
  | .deviceLockedLost => 9
  | .censusFound | .censusMissing | .censusConflict | .censusConflictCleared => 10
  | .tiltWarning | .tiltTilted | .tiltSlam => 11
  | .searchRound | .searchEnded | .searchFailed => 12
  | .gameStarted | .gameBallStarted | .gamePlayerAdded | .gameShootAgain | .gameOver => 13
  | .overflow => 14
  | .restartedHard | .restartedSoft => 15

/-- The code of an event within its kind (R194). -/
def Event.code : Event → Nat
  | .switchClosed | .awardEntry | .triggerLost | .scoreReplay | .modeStarted | .lockMade | .multiballStarted
  | .ballValidated | .deviceArrival | .censusFound | .tiltWarning | .searchRound | .gameStarted | .overflow
  | .restartedHard => 1
  | .switchOpened | .awardGranted | .walkLimit | .scoreLimit | .modeRefreshed | .multiballStacked | .ballRefed
  | .deviceOverfull | .censusMissing | .tiltTilted | .searchEnded | .gameBallStarted | .restartedSoft => 2
  | .awardCompletion | .modeRefused | .multiballShort | .ballSaved | .deviceQueueFull | .censusConflict | .tiltSlam
  | .searchFailed | .gamePlayerAdded => 3
  | .modeSuspended | .multiballEnded | .ballDrained | .deviceRetry | .censusConflictCleared | .gameShootAgain => 4
  | .modeResumed | .multiballUndefined | .ballSaveEnded | .deviceFault | .gameOver => 5
  | .modeEnded | .ballEnded | .deviceFaultCleared => 6
  | .modeSaved | .deviceLockedLost => 7
  | .modeRestored => 8

end Sys2Proof.Machine
end

