-- ==== Sys2Proof/Machine/Figures.lean ====
section
/-! DEFINITION. What a device record means: the 15 built-in profiles and the effective figures (R88), when a record is
complete (R87), and the effective role that position switches take (R5). -/

namespace Sys2Proof.Machine

open Sys2Proof

/-- The figures of a device (R88); times in ms. -/
structure Figures where
  counting : Counting
  capacity : Nat
  pulse : Nat
  settle : Nat
  confirm : Nat
  retryInterval : Nat
  retryLimit : Nat
  holdOff : Nat
  deriving DecidableEq, Repr

/-- The built-in profiles (R88). Profile 14 has no figures of its own; its figures come from the record. -/
def profileFigures : Nat → Figures
  | 0 => ⟨.positions, 4, 20, 400, 1000, 600, 3, 0⟩
  | 1 => ⟨.positions, 5, 20, 400, 1000, 600, 3, 0⟩
  | 2 => ⟨.positions, 6, 22, 400, 1000, 600, 3, 0⟩
  | 3 => ⟨.positions, 8, 24, 400, 1200, 600, 3, 0⟩
  | 4 => ⟨.positions, 1, 30, 250, 800, 500, 2, 0⟩
  | 5 => ⟨.positions, 1, 12, 300, 600, 500, 3, 1000⟩
  | 6 => ⟨.positions, 1, 18, 300, 600, 500, 3, 1000⟩
  | 7 => ⟨.positions, 1, 25, 250, 700, 500, 4, 500⟩
  | 8 => ⟨.positions, 2, 25, 250, 700, 500, 4, 500⟩
  | 9 => ⟨.positions, 3, 20, 350, 900, 600, 3, 500⟩
  | 10 => ⟨.positions, 4, 20, 350, 900, 600, 3, 500⟩
  | 11 => ⟨.entryExit, 3, 40, 200, 800, 800, 2, 300⟩
  | 12 => ⟨.entryBlind, 3, 20, 300, 1000, 800, 2, 500⟩
  | 13 => ⟨.entryExit, 1, 15, 300, 600, 500, 3, 1000⟩
  | _ => ⟨.positions, 0, 0, 0, 0, 0, 0, 0⟩

/-- The effective figures of a record: the override when present, else the profile's; POSITIONS counting takes its
capacity from the position list (R88). -/
def DeviceRecord.figures (r : DeviceRecord) : Figures :=
  let p := profileFigures r.profile
  let o := r.overrides
  let counting := o.counting.getD p.counting
  { counting := counting
    capacity := if counting = .positions then r.positions.length else o.capacity.getD p.capacity
    pulse := o.pulse.getD p.pulse
    settle := o.settle.getD p.settle
    confirm := o.confirm.getD p.confirm
    retryInterval := o.retryInterval.getD p.retryInterval
    retryLimit := o.retryLimit.getD p.retryLimit
    holdOff := o.holdOff.getD p.holdOff }

/-- A record is complete unless its profile is 14 and a figure that R88 requires for it is absent (R87). -/
def DeviceRecord.complete (r : DeviceRecord) : Bool :=
  r.profile != 14 ||
    (let o := r.overrides
     o.counting.isSome && o.pulse.isSome && o.settle.isSome && o.confirm.isSome && o.retryInterval.isSome &&
      o.retryLimit.isSome && o.holdOff.isSome && (o.counting == some .positions || o.capacity.isSome))

/-- A device is configured when its role is not UNUSED and its record is complete (R87). -/
def DeviceRecord.configured (r : DeviceRecord) : Bool := r.role != .unused && r.complete

/-- The effective keep limit: the record's, or capacity − 1 when the record gives none (R127). -/
def DeviceRecord.keepLimitInForce (r : DeviceRecord) : Nat := r.keepLimit.getD (r.figures.capacity - 1)

/-- Device `d` is configured. -/
def State.configured (s : State) (d : Nat) : Bool := (s.device d).record.configured

/-- The device numbers 0..7, ascending. -/
def deviceNumbers : List Nat := List.range Config.deviceCount

/-- The configured devices that satisfy `p`, ascending. -/
def State.devicesWith (s : State) (p : Nat → Device → Bool) : List Nat :=
  deviceNumbers.filter fun d => s.configured d && p d (s.device d)

/-- The effective role of switch `i`: DEVICE while a configured device names it as a position switch, otherwise the role
in its record (R5). -/
def State.roleOf (s : State) (i : Nat) : Role :=
  if (s.devicesWith fun _ v => v.record.positions.contains i).isEmpty then (s.switch i).record.role else .device

/-- Every switch whose effective role is UNUSED stands debounced open with count 0, at once (R3). -/
def State.quenchUnused (s : State) : State :=
  s.onScanner fun c => { c with
    switches := mapTable c.switches fun i w =>
      if s.roleOf i = .unused then { w with debounced := false, count := 0 } else w }

/-- The raw count of a device with POSITIONS counting (R92). -/
def State.rawCount (s : State) (d : Nat) : Nat :=
  ((s.device d).record.positions.filter fun i => (s.switch i).debounced).length

end Sys2Proof.Machine
end

