-- ==== Sys2Proof/Machine/Orders.lean ====
section
/-! DEFINITION. Eject orders: the ready line, readiness and the shooter interlock (R98, R99), how an order joins a queue
(R96), SEARCH orders and the device a search round takes next (R107, R166), LAUNCH and RECOVER orders (R108, R109), and the
search state's part in a change of phase (R165, R169). -/

namespace Sys2Proof.Machine

open Sys2Proof

/-! ### The ready line -/

/-- A member joins the line behind those already there; among members of one time stamp the lowest device goes first (R99). -/
def joinReady (e : Ready) : List Ready → List Ready
  | [] => [e]
  | r :: rest => if r.joined = e.joined ∧ e.device < r.device then e :: r :: rest else r :: joinReady e rest

/-- Device `d` stands in the ready line. -/
def State.inLine (s : State) (d : Nat) : Bool := s.devices.ready.any fun r => r.device == d

/-- Device `d` joins the ready line at the latest scan's time stamp, keeping its place when it already stands there (R99). -/
def State.joinLine (s : State) (d : Nat) : State :=
  if s.inLine d then s else s.onDevices fun c => { c with ready := joinReady ⟨d, s.scanner.now⟩ c.ready }

/-- Device `d` leaves the ready line. -/
def State.leaveLine (s : State) (d : Nat) : State :=
  s.onDevices fun c => { c with ready := c.ready.filter fun r => r.device != d }

/-! ### Readiness (R98) -/

/-- The shooter interlock: device 1 is not configured, or is IDLE with settled count 0, no settle running and launch owed 0. -/
def State.interlock (s : State) : Bool :=
  !s.configured 1 ||
    ((s.device 1).state == .idle && (s.device 1).settled == 0 && (s.device 1).settle.isNone && s.devices.launchOwed == 0)

/-- The hold-off of an order on device `d` has passed; only a RETURN has one. -/
def State.holdOffPassed (s : State) (d : Nat) (o : Order) : Bool :=
  o.reason != .return || decide ((s.device d).record.figures.holdOff ≤ elapsed s.scanner.now o.queued)

/-- Device `d` is in EJECT_WAIT with a ready head order. -/
def State.headReady (s : State) (d : Nat) : Bool :=
  (s.device d).state == .ejectWait &&
    (match (s.device d).queue.head? with
     | none => false
     | some o => s.holdOffPassed d o && (d != 0 || s.interlock))

/-- Device `d` enters EJECT_WAIT for its head order, and joins the ready line when the order is ready (R98). -/
def State.enterEjectWait (s : State) (d : Nat) : State :=
  let s := s.onDevice d fun v => { v with state := .ejectWait }
  if s.headReady d then s.joinLine d else s

/-- The trough's head order follows the interlock: it leaves the line when the interlock is lost and joins again at the
back when it holds once more (R98). -/
def State.followInterlock (s : State) : State :=
  if (s.device 0).state = .ejectWait then
    if s.headReady 0 then s.joinLine 0 else s.leaveLine 0
  else s

/-! ### SEARCH orders (R107) -/

/-- A SEARCH order waits in the queue of this device. -/
def Device.searchWaits (v : Device) : Bool := v.queue.any fun o => o.reason == .search

/-- A waiting SEARCH order of device `d` is removed with no event, and the device returns to IDLE and leaves the ready
line (R96, R107). -/
def State.dropSearch (s : State) (d : Nat) : State :=
  if (s.device d).searchWaits then
    (s.onDevice d fun v => { v with queue := v.queue.filter fun o => o.reason != .search, state := .idle }).leaveLine d
  else s

/-- Every waiting SEARCH order is removed, the one in flight among them (R107, R167). -/
def State.dropSearches (s : State) : State :=
  (deviceNumbers.foldl State.dropSearch s).onSearch fun x => { x with inFlight := none }

/-- A SEARCH order would be queued on device `d` (R96 case 2). -/
def State.searchable (s : State) (d : Nat) : Bool :=
  s.configured d && (s.device d).state == .idle && (s.device d).queue.isEmpty && (s.device d).settled == 0 &&
    (s.device d).settle.isNone

/-- Step 1 of R166 and what follows it: the lowest qualifying device from the next device up to 7 gets its SEARCH order,
or the round is over. -/
def State.searchNext (s : State) : State :=
  match deviceNumbers.find? fun d => decide (s.game.search.nextDevice ≤ d) && decide (1 ≤ d) && s.searchable d with
  | none => s.onSearch fun x => { x with phase := .pause, inFlight := none }
  | some d =>
    ((s.onDevice d fun v => { v with queue := [⟨.search, s.time, false⟩] }).enterEjectWait d).onSearch fun x =>
      { x with inFlight := some d, nextDevice := d + 1 }

/-! ### Joining a queue (R96) -/

/-- Order `⟨reason, now, launch⟩` joins the queue of device `d` by the cases of R96, for every reason but SEARCH. A waiting
SEARCH order gives way; when it was the one in flight, the search takes its next device at once (R166 step 3). -/
def State.queueOrder (s : State) (d : Nat) (reason : Reason) (launch : Bool) : State :=
  if s.configured d then
    let s1 := s.dropSearch d
    if Config.queueOrders ≤ (s1.device d).queue.length then s1.emit .deviceQueueFull d reason.code 0
    else
      let s2 := s1.onDevice d fun v => { v with queue := v.queue ++ [⟨reason, s.time, launch⟩] }
      let s3 := if (s2.device d).state = .idle then s2.enterEjectWait d else s2
      if s3.game.search.inFlight = some d ∧ (s.device d).searchWaits then s3.searchNext else s3
  else s

/-! ### LAUNCH and RECOVER orders -/

/-- The LAUNCH test of R108. -/
def State.launchTest (s : State) : State :=
  if s.configured 1 ∧ (s.device 1).state = .idle ∧ (s.device 1).queue = [] ∧ 1 ≤ (s.device 1).settled ∧
      (s.device 1).settle = none ∧ 1 ≤ s.devices.launchOwed then
    (s.queueOrder 1 .launch false).onDevices fun c => { c with launchOwed := c.launchOwed - 1 }
  else s

/-- The transit count of device `d`: its settled count less its locked balls (R114). -/
def State.transit (s : State) (d : Nat) : Nat := (s.device d).settled - s.locked d

/-- The recovery comparison of R109 for one device. -/
def State.recoverDevice (s : State) (d : Nat) : State :=
  if s.configured d ∧ (s.device d).state ≠ .fault then
    let orders := ((s.device d).queue.filter fun o => o.reason != .search).length
    repeated (fun s => s.queueOrder d .recover false) (s.transit d - orders) s
  else s

/-- The recovery comparison of R109 over devices 2..7, made in IDLE and BALL_OVER. -/
def State.recover (s : State) : State :=
  if s.game.phase = .idle ∨ s.game.phase = .ballOver then [2, 3, 4, 5, 6, 7].foldl State.recoverDevice s else s

/-- What the Ball Device Controller tests after each change of a device: LAUNCH (R108), the shooter interlock (R98) and
recovery (R109). DESIGN CHOICE (notes/assumptions/43.md): arrivals of the same change that are still due come after these tests,
and those already handed on within the command come before them. -/
def State.settleDevices (s : State) : State := s.launchTest.followInterlock.recover

/-! ### The phase and the search state -/

/-- The search stops: phase OFF, round 0, waiting SEARCH orders removed, no event (R165, R169). -/
def State.searchOff (s : State) : State :=
  s.dropSearches.onSearch fun x => { x with phase := .off, round := 0 }

/-- The search watches: phase WAITING, round 0 (R165). -/
def State.searchWait (s : State) : State := s.onSearch fun x => { x with phase := .waiting, round := 0 }

/-- The phase becomes `p`, and the search phase follows it (R165): OFF at SERVE, BALL_OVER and IDLE; WAITING at PLAY and
at a tilt in SERVE; as it stands at a tilt in PLAY. FLIPEN is derived from the phase (R141). -/
def State.toPhase (s : State) (p : Phase) : State :=
  let old := s.game.phase
  let s := s.onGame fun g => { g with phase := p }
  match p with
  | .idle | .serve | .ballOver => s.searchOff
  | .play => s.searchWait
  | .tilt => if old = .serve then s.searchWait else s

/-- The end of a search by R167: SEARCH ENDED, waiting orders removed, WAITING with round 0, the device quiet mark set. -/
def State.searchEnd (s : State) (cause : Nat) : State :=
  ((s.emit .searchEnded s.game.search.round cause 0).dropSearches.searchWait).onSearch fun x =>
    { x with quietMark := s.time }

/-- A search is in progress: ROUND or PAUSE. -/
def State.searching (s : State) : Bool := s.game.search.phase == .round || s.game.search.phase == .pause

/-- The quiet timer restarts at a PLAYFIELD closure, which ends a search in progress in PLAY or TILT with cause CLOSURE
(R17, R167). -/
def State.playfieldActivity (s : State) : State :=
  let s := s.onScanner fun c => { c with quiet := 0 }
  if (s.game.phase = .play ∨ s.game.phase = .tilt) ∧ s.searching then s.searchEnd 0 else s

/-- A settled count has changed: in PLAY or TILT the device quiet mark is set, and a search in progress ends with cause
COUNT (R165, R167). -/
def State.countActivity (s : State) : State :=
  if s.game.phase = .play ∨ s.game.phase = .tilt then
    if s.searching then s.searchEnd 1 else s.onSearch fun x => { x with quietMark := s.time }
  else s

end Sys2Proof.Machine
end

