-- ==== Sys2Proof/Machine/Flags.lean ====
section
/-! DEFINITION. Figures and output pins derived from the state: the measured counts and the balls in play (R114, R116), and
ATTN, FLIPEN and the eject coil enables (R97, R141, R188). -/

namespace Sys2Proof.Machine

open Sys2Proof

/-- The settled count of device `d` when it is configured, else 0 (R114). -/
def State.countOf (s : State) (d : Nat) : Nat := if s.configured d then (s.device d).settled else 0

/-- TROUGH (R114). -/
def State.trough (s : State) : Nat := s.countOf 0

/-- SHOOTER (R114). -/
def State.shooter (s : State) : Nat := s.countOf 1

/-- The playfield devices 2..7, ascending. -/
def playfieldDevices : List Nat := [2, 3, 4, 5, 6, 7]

/-- The measured total: TROUGH, SHOOTER and the settled counts of devices 2..7 (R114). -/
def State.measured (s : State) : Nat := s.trough + s.shooter + (playfieldDevices.map s.countOf).sum

/-- Balls in play: SHOOTER, PLAYFIELD and the balls in transit in devices 2..7 (R116). -/
def State.bip (s : State) : Nat :=
  s.shooter + s.census.playfield + (playfieldDevices.map fun k => s.countOf k - s.locked k).sum

/-- Owed: the orders in the trough's queue; 0 while the trough is not configured (R116). -/
def State.owed (s : State) : Nat := if s.configured 0 then (s.device 0).queue.length else 0

/-- Balls committed to play (R116). -/
def State.committed (s : State) : Nat := s.bip + s.owed

/-- The devices that are PULSING. -/
def State.pulsingCount (s : State) : Nat := (deviceNumbers.filter fun d => (s.device d).state == .pulsing).length

/-- ATTN is asserted exactly while the Event Queue holds a record (R188). -/
def State.attn (s : State) : Bool := !s.events.isEmpty

/-- FLIPEN is asserted exactly in SERVE and PLAY (R141). -/
def State.flipen (s : State) : Bool := s.inPlay

/-- EJn is asserted exactly while a device whose coil output is `n` is PULSING (R97, section 0.6). -/
def State.coilEnable (s : State) (n : Nat) : Bool :=
  deviceNumbers.any fun d => (s.device d).state == .pulsing && (s.device d).record.coil == n

end Sys2Proof.Machine
end

