-- ==== Sys2Proof/Machine/Score.lean ====
section
/-! DEFINITION. The Score Unit (Chapter 3): the multiplier factors, one award, the addition to the score with its replay
thresholds and limit, the jackpot and the bonus. -/

namespace Sys2Proof.Machine

open Sys2Proof

/-- The factor P of the PLAYFIELD class (R50). -/
def State.factorP (s : State) (c : Classes) : Nat := if c.playfield then s.current.playfieldMult else 1

/-- The loan of one instance to M: the multiplier less 1 of a RUNNING instance whose definition lends (R51). -/
def State.loan (s : State) (i : ModeInst) : Nat :=
  if i.state = .running ∧ (s.modeDef i.mode).lends then (s.modeDef i.mode).multiplier - 1 else 0

/-- The factor M of the MODE class, held at 8 (R51). -/
def State.factorM (s : State) (c : Classes) : Nat :=
  if c.mode then min (1 + (s.modes.stack.map s.loan).sum) Config.modeFactorLimit else 1

/-- The factor F of the MULTIBALL class (R52). -/
def State.factorF (s : State) (c : Classes) : Nat :=
  if c.multiball ∧ 2 ≤ s.bip then min s.bip s.game.params.factorCap else 1

/-- The total multiplier T, held at 64 (R53). -/
def State.multiplier (s : State) (c : Classes) : Nat :=
  min (s.factorP c * s.factorM c * s.factorF c) Config.multiplierLimit

/-- The threshold check of R55 over the thresholds still to come, the first of them having index `i`. -/
def State.replays (s : State) (before after : Nat) : List Nat → Nat → State
  | [], i => s.onCurrent fun p => { p with nextReplay := i }
  | t :: rest, i =>
    if t ≤ after then
      (if before < t then s.emit .scoreReplay (i + 1) 0 t else s).replays before after rest (i + 1)
    else s.onCurrent fun p => { p with nextReplay := i }

/-- `points` are added to the current player's score, held at the score limit: the replay events, then SCORE LIMIT at the
player's first holding (R54, R55). -/
def State.addPoints (s : State) (points : Nat) : State :=
  let before := s.current.score
  let after := min (before + points) Config.scoreLimit
  let i := s.current.nextReplay
  let s := s.onCurrent fun p => { p with score := after }
  let s := s.replays before after (s.game.params.thresholds.drop i) i
  if Config.scoreLimit < before + points ∧ s.current.limitReported = false then
    (s.onCurrent fun p => { p with limitReported := true }).emit .scoreLimit 0 0 (before + points - Config.scoreLimit)
  else s

/-- One award of base `base` with the factors of `c`, without its report (R50 to R55). -/
def State.award1 (s : State) (base : Nat) (c : Classes) : State := s.addPoints (base * s.multiplier c)

/-- One award and its AWARD report (R56). -/
def State.awardReported (s : State) (e : Event) (subject base : Nat) (c : Classes) : State :=
  (s.award1 base c).emit e subject (s.multiplier c) (base * s.multiplier c)

/-- JACKPOT_BUILD (R60). -/
def jackpotBuilt (g : Params) (jackpot amount : Nat) : Nat :=
  min (jackpot + downToTen (jackpot * g.buildPercent / 100) + downToTen amount) g.jackpotCap

/-- The jackpot base held at the cap: game start, JACKPOT_RESET and the multiball-end reset (R48, R61). -/
def jackpotStart (g : Params) : Nat := min g.jackpotBase g.jackpotCap

/-- The bonus of the ball: 0 when it was tilted (R63). -/
def State.bonus (s : State) (tilted : Bool) : Nat :=
  if tilted then 0 else s.current.bonusCount * s.game.params.bonusUnit * s.current.bonusMult

end Sys2Proof.Machine
end

