-- ==== Sys2Proof/Machine/Modes.lean ====
section
/-! DEFINITION. The Mode Controller (Chapter 4): the stack order and the suspension law, starting, stopping, progress and
completion, tenths and timeouts, the endings at multiball end and ball end, saving and restoring. -/

namespace Sys2Proof.Machine

open Sys2Proof

/-- The remaining time an event carries: 0 for an untimed instance (R68). -/
def ModeInst.time (i : ModeInst) : Nat := i.remaining.getD 0

/-- The timer of a new or refreshed instance: absent when the duration is 0 (R66). -/
def ModeDef.timer (d : ModeDef) : Option Nat := if d.duration = 0 then none else some d.duration

/-- The state the law of R67 gives an instance of mode `m` in the stack `stack`: SUSPENDED when the stack holds an instance
of an exclusive mode of strictly higher priority. -/
def State.lawState (s : State) (stack : List ModeInst) (m : Nat) : RunState :=
  if stack.any fun j => (s.modeDef j.mode).exclusive && decide ((s.modeDef m).priority < (s.modeDef j.mode).priority)
  then .suspended else .running

/-- A new or restored instance goes below every instance of the same or higher priority (R66). -/
def State.placed (s : State) (i : ModeInst) : List ModeInst → List ModeInst
  | [] => [i]
  | j :: rest =>
    if (s.modeDef j.mode).priority < (s.modeDef i.mode).priority then i :: j :: rest else j :: s.placed i rest

/-- The stack is replaced. -/
def State.setStack (s : State) (stack : List ModeInst) : State := s.onModes fun c => { c with stack := stack }

/-- The SUSPENDED and RESUMED events of the instances whose state the law alters, in stack order (R67). -/
def State.lawEvents (s : State) (stack : List ModeInst) : State :=
  stack.foldl (fun s' i =>
    if s.lawState stack i.mode = i.state then s'
    else s'.emit (if i.state = .running then .modeSuspended else .modeResumed) i.mode i.time i.value) s

/-- The law of R67 is applied to the stack. -/
def State.applyLaw (s : State) : State :=
  let stack := s.modes.stack
  (s.lawEvents stack).setStack (stack.map fun i => { i with state := s.lawState stack i.mode })

/-- The instance of mode `m` in the stack, when there is one. -/
def State.inst? (s : State) (m : Nat) : Option ModeInst := s.modes.stack.find? fun i => i.mode == m

/-- Every instance that satisfies `p` leaves the stack in stack order, each with MODE ENDED of reason `reason` (R68). The
law is not applied. -/
def State.endInstances (s : State) (p : ModeInst → Bool) (reason : Nat) : State :=
  let leaving := s.modes.stack.filter p
  (leaving.foldl (fun s i => s.emit .modeEnded i.mode reason i.value) s).setStack (s.modes.stack.filter fun i => !p i)

/-- What a mode start came to; the codes of R84's START results. -/
inductive StartResult where
  | started | refreshed | refusedUndefined | refusedFull
  deriving DecidableEq, Repr

/-- MODE_START m (R69): refused, a refresh, refused, or a new instance under the law. -/
def State.modeStart (s : State) (m : Nat) : State × StartResult :=
  let d := s.modeDef m
  if d.defined = false then (s.emit .modeRefused m 0 0, .refusedUndefined)
  else match s.inst? m with
  | some i =>
    let s := s.setStack (s.modes.stack.map fun j => if j.mode = m then { j with remaining := d.timer } else j)
    (s.emit .modeRefreshed m d.duration i.value, .refreshed)
  | none =>
    if Config.stackInstances ≤ s.modes.stack.length then (s.emit .modeRefused m 1 0, .refusedFull)
    else
      let fresh : ModeInst := ⟨m, .running, d.timer, 0, d.startValue, s.modes.nextOrder⟩
      let state := s.lawState (s.placed fresh s.modes.stack) m
      let s := s.onModes fun c =>
        { c with stack := s.placed { fresh with state := state } c.stack, nextOrder := (c.nextOrder + 1) % 65536 }
      ((s.emit .modeStarted m state.code d.startValue).applyLaw, .started)

/-- MODE_STOP m (R77); the answer tells whether an instance was present. -/
def State.modeStop (s : State) (m : Nat) : State × Bool :=
  match s.inst? m with
  | none => (s, false)
  | some _ => ((s.endInstances (fun i => i.mode == m) 2).applyLaw, true)

/-- A trigger joins the pending-trigger list, or is lost when the list is full; outside SERVE and PLAY it is dropped with
no event (R41). -/
def State.appendTrigger (s : State) (t : Nat) : State :=
  if s.inPlay then
    if s.engine.triggers.length < Config.pendingTriggers then
      s.onEngine fun c => { c with triggers := c.triggers ++ [t] }
    else s.emit .triggerLost t (s.engine.walking.getD 255) 0
  else s

/-- The four steps of a completion (R75). -/
def State.modeComplete (s : State) (m : Nat) : State :=
  let d := s.modeDef m
  (((s.awardReported .awardCompletion m d.completionValue d.completionClasses).appendTrigger (88 + m)).endInstances
    (fun i => i.mode == m) 1).applyLaw

/-- What a progress came to; the codes of R84's PROGRESS results. -/
inductive ProgressResult where
  | progressed | completed | notPresent | notRunning
  deriving DecidableEq, Repr

/-- The progress of an instance: one more, held at 255 when there is no goal, with its value stepped and held (R62, R74). -/
def ModeInst.advanced (i : ModeInst) (d : ModeDef) : ModeInst :=
  { i with progress := if d.goal = 0 then min (i.progress + 1) 255 else i.progress + 1
           value := min (i.value + d.valueStep) Config.pointLimit }

/-- MODE_PROGRESS m (R74). -/
def State.modeProgress (s : State) (m : Nat) : State × ProgressResult :=
  let d := s.modeDef m
  match s.inst? m with
  | none => (s, .notPresent)
  | some i =>
    if i.state = .suspended then (s, .notRunning)
    else
      let s := s.setStack (s.modes.stack.map fun j => if j.mode = m then j.advanced d else j)
      if d.goal ≠ 0 ∧ (i.advanced d).progress = d.goal then (s.modeComplete m, .completed) else (s, .progressed)

/-! ### Tenths (R71 to R73) -/

/-- An instance counts at a tenth (R72). -/
def State.counts (s : State) (i : ModeInst) : Bool :=
  i.state == .running && s.game.phase != .tilt && (!(s.modeDef i.mode).timerHold || decide (1 ≤ s.census.playfield))

/-- The remaining time of every instance that counts decreases by 1 (R71). -/
def State.countDown (s : State) : State :=
  s.setStack (s.modes.stack.map fun i =>
    if s.counts i then { i with remaining := i.remaining.map (· - 1) } else i)

/-- The instance's remaining time is 0. -/
def ModeInst.expired (i : ModeInst) : Bool := i.remaining == some 0

/-- Instances whose remaining time is 0 end with reason TIMEOUT, and the law is applied once (R73). DESIGN CHOICE
(notes/assumptions/46.md): so does an instance refreshed to a duration of 1 just before the tenth, of which R76 says that no
expiry occurs. -/
def State.modeTimeouts (s : State) : State :=
  if s.modes.stack.any ModeInst.expired then (s.endInstances ModeInst.expired 0).applyLaw else s

/-! ### Multiball end, ball end and ball start -/

/-- The multiball end handed on by the census: the endings of R78 in SERVE and PLAY, the deferred mark of R79 in TILT. -/
def State.modesMultiballEnd (s : State) : State :=
  if s.game.phase = .tilt then s.onModes fun c => { c with deferred := true }
  else if s.inPlay then (s.endInstances (fun i => (s.modeDef i.mode).endsAtMultiballEnd) 3).applyLaw
  else s

/-- Step 3 of R80 for the instances left, in stack order: each is saved while the current player's list holds fewer than 4,
and otherwise ends with reason BALL_END. -/
def State.saveInstances (s : State) : List ModeInst → State
  | [] => s
  | i :: rest =>
    let saved := s.current.saved
    if saved.length < Config.savedInstances then
      let s := s.onCurrent fun p => { p with saved := saved ++ [⟨i.mode, i.remaining, i.progress, i.value⟩] }
      (s.emit .modeSaved i.mode (saved.length + 1) i.value).saveInstances rest
    else (s.emit .modeEnded i.mode 4 i.value).saveInstances rest

/-- The ball-end handling of R80. -/
def State.modesBallEnd (s : State) : State :=
  let s := if s.modes.deferred then
      (s.endInstances (fun i => (s.modeDef i.mode).endsAtMultiballEnd) 3).onModes fun c => { c with deferred := false }
    else s
  let s := s.endInstances (fun i => (s.modeDef i.mode).atBallEnd == .ends) 4
  (s.saveInstances s.modes.stack).setStack []

/-- One saved instance is placed in the stack with the next start order (R82); its state is found when all are placed. -/
def State.restoreOne (s : State) (v : SavedMode) : State :=
  s.onModes fun c =>
    { c with stack := s.placed ⟨v.mode, .running, v.remaining, v.progress, v.value, c.nextOrder⟩ c.stack
             nextOrder := (c.nextOrder + 1) % 65536 }

/-- The current player's saved instances return to the stack, and the list is emptied (R82). -/
def State.modesRestore (s : State) : State :=
  let s := (s.current.saved.foldl State.restoreOne s).onCurrent fun p => { p with saved := [] }
  let stack := s.modes.stack.map fun i => { i with state := s.lawState s.modes.stack i.mode }
  stack.foldl (fun s i => s.emit .modeRestored i.mode i.state.code i.value) (s.setStack stack)

/-- The stack and every player's saved-mode list are emptied and the deferred mark cleared, with no event (R83). -/
def State.modesGameEnd (s : State) : State :=
  (s.onModes fun c => { c with stack := [], deferred := false }).onGame fun g =>
    { g with players := g.players.map fun p => { p with saved := [] } }

end Sys2Proof.Machine
end

