-- ==== Sys2Proof/Machine/Census.lean ====
section
/-! DEFINITION. The Ball Census (Chapter 6): the recomputation of PLAYFIELD, locked balls, finding and declaring missing balls,
validation and ball save, drains and the ball end they bring, arrivals and lock decisions, multiball. -/

namespace Sys2Proof.Machine

open Sys2Proof

/-! ### The recomputation (R115) -/

/-- `k` balls are taken from MISSING one at a time, each with CENSUS FOUND of cause COUNT; when the device is the trough
each adds 1 to the missing-return count (R115, R123). -/
def State.findByCount (s : State) (subject : Option Nat) : Nat → State
  | 0 => s
  | k + 1 =>
    let s := s.onCensus fun c =>
      { c with missing := c.missing - 1
               missingReturns := if subject = some 0 then min (c.missingReturns + 1) 8 else c.missingReturns }
    (s.emit .censusFound (subject.getD 0) 0 s.census.missing).findByCount subject k

/-- The recomputation of R115. `subject` is the device whose change is recomputed, absent for a change of MISSING, N or a
reset. -/
def State.recompute (s : State) (subject : Option Nat) : State :=
  let n := s.game.params.installed
  let m := s.measured
  if s.census.conflict then
    if n < m then s
    else (s.onCensus fun c => { c with conflict := false, playfield := n - m }).emit .censusConflictCleared
      (subject.getD 0) (n - m) 0
  else
    let s := s.findByCount subject (min (m + s.census.missing - n) s.census.missing)
    if m + s.census.missing ≤ n then s.onCensus fun c => { c with playfield := n - m - c.missing }
    else (s.onCensus fun c => { c with conflict := true, playfield := 0 }).emit .censusConflict (subject.getD 0) (m - n) 0

/-- The LOCKED_LOST test of R117 for device `d`: LOCKED_k is lowered to the settled count. -/
def State.lockedLost (s : State) (d : Nat) : State :=
  let v := (s.device d).settled
  if v < s.locked d then
    (s.setLocked d v).emit .deviceLockedLost d (s.locked d - v) v
  else s

/-- The settled count of device `d` becomes `n`. A change is activity for the search (R167); a fall is tested for lost
locks (R117) and, at the trough, holds the missing-return count (R123); then PLAYFIELD is recomputed (R115). -/
def State.settleAt (s : State) (d n : Nat) : State :=
  let old := (s.device d).settled
  if n = old then s
  else
    let s := (s.onDevice d fun v => { v with settled := n }).countActivity
    let s := if n < old then s.lockedLost d else s
    let s := if n < old ∧ d = 0 then
        s.onCensus fun c => { c with missingReturns := min c.missingReturns (n - (s.device 0).accounted) }
      else s
    s.recompute (some d)

/-! ### Ball save and validation -/

/-- The code of the saves left in an event argument: 1, or 65,535 for UNLIMITED (R192). -/
def Saves.code : Saves → Nat
  | .one => 1 | .unlimited => 65535

/-- An active ball-save record becomes inactive with BALL SAVE_ENDED of cause `cause` (R122). -/
def State.saveEnd (s : State) (cause : Nat) : State :=
  if s.census.save.isSome then (s.onCensus fun c => { c with save := none }).emit .ballSaveEnded 0 cause 0 else s

/-- The remaining time of an active record decreases by 1 at a tenth (R122). -/
def State.saveCountDown (s : State) : State :=
  s.onCensus fun c => { c with save := c.save.map fun r => { r with remaining := r.remaining - 1 } }

/-- A record whose remaining time is 0 becomes inactive with cause EXPIRED (R122). -/
def State.saveExpiry (s : State) : State :=
  if (s.census.save.any fun r => r.remaining == 0) then s.saveEnd 0 else s

/-- The SERVE phase passes to PLAY; any other phase stays (R151). -/
def State.serveToPlay (s : State) : State := if s.game.phase = .serve then s.toPhase .play else s

/-- A PLAYFIELD closure finds a missing ball when MISSING is 1 or more and PLAYFIELD is 0 (R118). -/
def State.foundByClosure (s : State) (switch : Nat) : State :=
  if 1 ≤ s.census.missing ∧ s.census.playfield = 0 then
    let s := s.onCensus fun c => { c with missing := c.missing - 1, playfield := 1 }
    s.emit .censusFound switch 1 s.census.missing
  else s

/-- The first PLAYFIELD closure of the ball in SERVE or PLAY validates it and arms the ball save (R120, R121, R151). -/
def State.validate (s : State) (switch : Nat) : State :=
  if s.inPlay ∧ s.census.validated = false then
    let t := if s.census.save.isSome then 0 else s.game.params.ballSaveTime
    let s := s.onCensus fun c =>
      { c with validated := true, save := if t = 0 then c.save else some ⟨t, .one⟩ }
    (s.emit .ballValidated switch t 0).serveToPlay
  else s

/-- A closure of a PLAYFIELD switch is offered to the census: the finding test, then validation (R118, R120). -/
def State.offerClosure (s : State) (switch : Nat) : State := (s.foundByClosure switch).validate switch

/-! ### Serving and multiball (R131 to R136) -/

/-- One launch serve is queued on the trough (R132). -/
def State.launchServe (s : State) : State := s.queueOrder 0 .serve true

/-- A ball is available for a launch serve: TROUGH − owed is 1 or more (R132). -/
def State.ballAvailable (s : State) : Bool := decide (s.owed < s.trough)

/-- Up to `w` held balls of device `k` are freed, each with a RELEASE order (R132 step 1); the answer carries the number
freed. -/
def State.releaseFrom (s : State) (k w : Nat) : State × Nat :=
  let freed := min w (s.locked k)
  (repeated (fun s => (s.setLocked k (s.locked k - 1)).queueOrder k .release false) freed s, freed)

/-- Step 1 of R132 over the devices of `ks`; the answer carries the number freed. -/
def State.releaseLocked (s : State) (w : Nat) : List Nat → State × Nat
  | [] => (s, 0)
  | k :: rest =>
    let r := s.releaseFrom k w
    let q := r.1.releaseLocked (w - r.2) rest
    (q.1, r.2 + q.2)

/-- Step 2 of R132: launch serves while one is wanted and a ball is available; the answer carries the shortfall. -/
def State.serveFromTrough (s : State) : Nat → State × Nat
  | 0 => (s, 0)
  | w + 1 => if s.ballAvailable then s.launchServe.serveFromTrough w else (s, w + 1)

/-- What the serving procedure came to: the balls released and the shortfall. -/
structure Served where
  released : Nat
  shortfall : Nat
  deriving DecidableEq, Repr

/-- The serving procedure of R132 for `w` balls. -/
def State.servingProcedure (s : State) (w : Nat) (release : Bool) : State × Served :=
  let r := if release then s.releaseLocked w playfieldDevices else (s, 0)
  let q := r.1.serveFromTrough (w - r.2)
  (q.1, ⟨r.2, q.2⟩)

/-- The balls of a start of definition `k`: the procedure of R132 for the need, with MULTIBALL SHORT for a shortfall
(R133 step 2, R134 step 1); the answer carries the balls released. -/
def State.multiballServe (s : State) (k : Nat) : State × Nat :=
  let d := s.multiballDef k
  let r := s.servingProcedure (d.target - s.committed) d.releaseLocked
  (if 1 ≤ r.2.shortfall then r.1.emit .multiballShort k r.2.shortfall 0 else r.1, r.2.released)

/-- The state rises to MULTI when 2 or more balls are committed (R131). -/
def State.multiballRise (s : State) : State :=
  if 2 ≤ s.committed then s.onCensus fun c => { c with multi := true } else s

/-- The start mode of definition `k`, when it has one, is started (R133 step 6, R134 step 2). -/
def State.startModeOf (s : State) (k : Nat) : State :=
  match (s.multiballDef k).startMode with
  | none => s
  | some m => (s.modeStart m).1

/-- MB_START k from SINGLE (R133 steps 2 to 8). -/
def State.multiballStart (s : State) (k : Nat) : State :=
  let d := s.multiballDef k
  let r := s.multiballServe k
  let s := r.1.multiballRise.onCurrent fun p => { p with locksMade := 0, locksLit := 0 }
  let s := if d.saveTime = 0 then s else s.onCensus fun c => { c with save := some ⟨d.saveTime, .unlimited⟩ }
  let s := s.startModeOf k
  (s.emit .multiballStarted k s.committed r.2).onCensus fun c => { c with lastStarted := some k }

/-- MB_START k from MULTI stacks the definition (R134 steps 1 to 4). -/
def State.multiballStack (s : State) (k : Nat) : State :=
  let r := s.multiballServe k
  let s := r.1.startModeOf k
  (s.emit .multiballStacked k s.committed r.2).onCensus fun c => { c with lastStarted := some k }

/-- MB_START k (R133, R134). -/
def State.mbStart (s : State) (k : Nat) : State :=
  if (s.multiballDef k).defined = false then s.emit .multiballUndefined k 0 0
  else if s.census.multi then s.multiballStack k else s.multiballStart k

/-- ADD_BALL (R135). -/
def State.addBall (s : State) : State :=
  if s.ballAvailable ∧ s.committed < 6 then s.launchServe.multiballRise
  else s.emit .multiballShort 255 1 0

/-- The multiball end of R136. -/
def State.multiballEnd (s : State) : State :=
  let s := s.onCensus fun c => { c with multi := false }
  let s := s.emit .multiballEnded (s.census.lastStarted.getD 255) s.committed 0
  let s := if s.census.save.any fun r => r.saves == .unlimited then s.saveEnd 3 else s
  let s := if s.census.lastStarted.any fun k => (s.multiballDef k).jackpotReset then
      s.onGame fun g => { g with players := g.players.map fun p => { p with jackpot := jackpotStart g.params } }
    else s
  s.modesMultiballEnd

/-- The fall test of R131, made at a lost drain and at a declaration of missing balls. -/
def State.multiballFall (s : State) : State :=
  if s.census.multi ∧ s.committed ≤ 1 then s.multiballEnd else s

/-! ### The ball end (R125, R153) -/

/-- The ball end of R153. -/
def State.ballEnd (s : State) : State :=
  let tilted := s.game.phase == .tilt
  let s := (s.saveEnd 4).modesBallEnd
  let bonus := s.bonus tilted
  let s := (s.addPoints bonus).toPhase .ballOver
  (s.emit .ballEnded s.game.ballNumber (if tilted then 1 else 0) bonus).recover

/-- In SERVE, PLAY or TILT the ball ends when no ball is committed (R125). -/
def State.ballEndTest (s : State) : State := if s.ballOn ∧ s.committed = 0 then s.ballEnd else s

/-- A ball has been lost: the fall test, then the ball-end test (R119 step 4, R125). -/
def State.ballLost (s : State) : State := s.multiballFall.ballEndTest

/-- Launch serves for up to `n` declared balls, while a ball is available (R119 step 3). -/
def State.replaceMissing (s : State) (n : Nat) : State := (s.serveFromTrough n).1

/-- The declaration of the playfield balls as missing (R119). -/
def State.declareMissing (s : State) : State :=
  let n := s.census.playfield
  if n = 0 then s
  else
    let s := s.onCensus fun c => { c with missing := c.missing + n, playfield := 0 }
    let s := s.emit .censusMissing 0 n s.census.missing
    let s := if s.game.params.missingReplace then s.replaceMissing n else s
    s.ballLost

/-! ### Arrivals (R123 to R127) -/

/-- A saved drain: a launch serve, one save used unless UNLIMITED, BALL SAVED, and the end of a used record (R124 test 3). -/
def State.saveDrain (s : State) (r : BallSave) : State :=
  let s := s.launchServe
  match r.saves with
  | .unlimited => s.emit .ballSaved 0 (Saves.code .unlimited) r.remaining
  | .one => (s.emit .ballSaved 0 0 r.remaining).saveEnd 1

/-- A lost drain (R124 test 4, R125). -/
def State.lostDrain (s : State) : State := (s.emit .ballDrained 0 s.committed 0).ballLost

/-- A drain: an arrival at the trough, classified by R123 and R124. -/
def State.drain (s : State) : State :=
  if 1 ≤ s.census.missingReturns then s.onCensus fun c => { c with missingReturns := c.missingReturns - 1 }
  else if s.inPlay then
    if s.census.validated = false then
      let s := s.queueOrder 0 .serve false
      s.emit .ballRefed 0 s.owed 0
    else match s.census.save with
      | some r => s.saveDrain r
      | none => s.lostDrain
  else if s.game.phase = .tilt then s.lostDrain
  else s

/-- A RETURN order is queued on device `d` (R126, R127). -/
def State.returnBall (s : State) (d : Nat) : State := s.queueOrder d .return false

/-- A lock made at device `d`, held when keep is yes and there is room, otherwise virtual (R127 step 2); the third lock of
a lock multiball starts definition 0. DESIGN CHOICE (notes/assumptions/54.md): LOCKED_k rises by R127 also where the settled count
has not risen with it, and then stands above the bound of R117. -/
def State.makeLock (s : State) (d : Nat) : State :=
  let s := s.onCurrent fun p => { p with locksLit := p.locksLit - 1, locksMade := min (p.locksMade + 1) 4 }
  let held := (s.device d).record.keep && decide (s.locked d < (s.device d).record.keepLimitInForce)
  let s := if held then s.setLocked d (s.locked d + 1) else s.returnBall d
  let s := s.emit .lockMade d s.current.locksMade (if held then 1 else 0)
  if s.current.locksMade = s.game.params.locksNeeded then s.mbStart 0 else s

/-- The lock decision of R127. -/
def State.lockDecision (s : State) (d : Nat) : State :=
  if s.census.multi then s.returnBall d
  else if 1 ≤ s.current.locksLit then s.makeLock d
  else s.returnBall d

/-- The census deals with an arrival at device `d` by its role and the phase (R123 to R127). -/
def State.censusArrival (s : State) (d : Nat) : State :=
  match (s.device d).record.role with
  | .trough => s.drain
  | .saucer => if s.ballOn then s.returnBall d else s
  | .lock => if s.inPlay then s.lockDecision d else if s.game.phase = .tilt then s.returnBall d else s
  | .shooter | .unused => s

end Sys2Proof.Machine
end

