-- ==== Sys2Proof/Machine/Cycles.lean ====
section
/-! DEFINITION. The eject cycle and the count logic of the ball devices (Chapter 5): grants and pulses, evidence, completion,
failure and retry, faults, entry and exit closures, settling, cancellation. -/

namespace Sys2Proof.Machine

open Sys2Proof

/-- The settle timer of device `d` is restarted with its effective settle time (R92, R93). -/
def State.restartSettle (s : State) (d : Nat) : State :=
  s.onDevice d fun v => { v with settle := some (s.timer v.record.figures.settle) }

/-- `k` balls of device `d` are taken as arrivals still to be handed on: the accounted count stands `k` below the settled
count and rises as each is handed on (R94). -/
def State.dueArrivals (s : State) (d k : Nat) : State :=
  s.onDevice d fun v => { v with accounted := v.settled - k, arrivals := List.replicate k s.time }

/-! ### Completion, failure and evidence -/

/-- The completion of R102. `popped` tells whether the head order leaves the queue now (a SEARCH order left it at its
grant); `k` is the number of held rises taken as arrivals: the settled count less the expected count. -/
def State.complete (s : State) (d : Nat) (popped : Bool) (k : Nat) : State :=
  let head := (s.device d).queue.head?
  let s := s.leaveLine d
  let s := s.onDevices fun c => { c with granted := c.granted.filter (· != d) }
  let s := s.onDevice d fun v =>
    { v with queue := if popped then v.queue.tail else v.queue
             retries := 0, base := 0, timer := none, evidence := none, searching := false, state := .idle }
  let s := if (s.device d).queue.isEmpty then s else s.enterEjectWait d
  let s := if popped then
      (match head with
       | none => s
       | some o =>
         let s := if d = 0 ∧ o.launch ∧ s.configured 1 then
             s.onDevices fun c => { c with launchOwed := min (c.launchOwed + 1) 8 }
           else s
         if d = 0 ∧ o.reason = .serve then s.serveToPlay else s)
    else s
  s.dueArrivals d k

/-- A confirmed order that expected a ball: the expected count is the base count less 1 (R102), and 0 for a base count of 0
(DESIGN CHOICE, notes/assumptions/13.md). -/
def State.confirm (s : State) (d : Nat) : State :=
  s.complete d true ((s.device d).settled - ((s.device d).base - 1))

/-- An order complete without a pulse, in EJECT_WAIT or FAULT: the expected count is the accounted count less 1 (R98,
R106), and 0 for an accounted count of 0 (DESIGN CHOICE, notes/assumptions/13.md). -/
def State.completeFallen (s : State) (d : Nat) : State :=
  s.complete d true ((s.device d).settled - ((s.device d).accounted - 1))

/-- The end of a FAULT by a ball that left by itself: FAULT_CLEARED with argument SELF, then the completion (R106). -/
def State.faultSelf (s : State) (d : Nat) : State := (s.emit .deviceFaultCleared d 1 0).completeFallen d

/-- A failed attempt: RETRY_WAIT, or FAULT with the cycle reconciled (R103). -/
def State.attemptFailed (s : State) (d : Nat) : State :=
  let v := s.device d
  let reason := (v.queue.head?.map fun o => o.reason.code).getD 0
  let s := s.onDevices fun c => { c with granted := c.granted.filter (· != d) }
  if v.record.autoRetry ∧ v.retries < v.record.figures.retryLimit then
    (s.onDevice d fun v =>
      { v with retries := v.retries + 1, state := .retryWait, evidence := none
               timer := some (s.timer v.record.figures.retryInterval) }).emit .deviceRetry d (v.retries + 1) reason
  else
    ((s.onDevice d fun v => { v with state := .fault, evidence := none, timer := none, base := 0 }).emit .deviceFault d
      reason v.retries).dueArrivals d (v.settled - v.base)

/-- Evidence that the ball has left: kept while PULSING, completing the order in CONFIRMING and RETRY_WAIT; not looked for
in a search cycle (R100, R101, R104, R107). -/
def State.success (s : State) (d : Nat) : State :=
  let v := s.device d
  match v.state with
  | .pulsing =>
    if v.searching ∨ v.evidence.isSome then s else s.onDevice d fun v => { v with evidence := some .success }
  | .confirming => if v.searching then s else s.confirm d
  | .retryWait => s.confirm d
  | .disabled | .idle | .ejectWait | .fault => s

/-! ### A changed settled count -/

/-- What the device's state makes of the settled count as it now stands (R94, R98, R101, R104, R106). -/
def State.reactCount (s : State) (d : Nat) : State :=
  let v := s.device d
  match v.state with
  | .idle => if v.settled < v.accounted then s.dueArrivals d 0 else s.dueArrivals d (v.settled - v.accounted)
  | .ejectWait =>
    if v.settled < v.accounted then
      if v.searchWaits then s.dueArrivals d 0 else s.completeFallen d
    else s.dueArrivals d (v.settled - v.accounted)
  | .fault => if v.settled < v.accounted then s.faultSelf d else s
  | .pulsing | .confirming | .retryWait =>
    if v.record.figures.counting = .positions ∧ v.settled < v.base then s.success d else s
  | .disabled => s

/-- The settle timer of device `d` runs out: POSITIONS counting takes the raw count, the ENTRY methods add the pending
entries, held at the capacity with DEVICE OVERFULL (R92, R93). -/
def State.settleOut (s : State) (d : Nat) : State :=
  let v := s.device d
  let f := v.record.figures
  let s := s.onDevice d fun v => { v with settle := none, entries := 0 }
  match f.counting with
  | .positions => (s.settleAt d (s.rawCount d)).reactCount d
  | .entryExit | .entryBlind =>
    let sum := v.settled + v.entries
    let s := if f.capacity < sum then s.emit .deviceOverfull d (sum - f.capacity) 0 else s
    (s.settleAt d (min sum f.capacity)).reactCount d

/-! ### Entry and exit closures (R93, R101, R104, R106) -/

/-- An entry is counted: one more pending entry, and the settle restarts (R93). -/
def State.countEntry (s : State) (d : Nat) : State :=
  (s.onDevice d fun v => { v with entries := v.entries + 1 }).restartSettle d

/-- A closure of the entry switch of device `d`. -/
def State.entryClosure (s : State) (d : Nat) : State :=
  let v := s.device d
  match v.record.figures.counting with
  | .positions => s.restartSettle d
  | .entryExit => s.countEntry d
  | .entryBlind =>
    if v.searching then s.countEntry d
    else match v.state with
      | .pulsing => s.onDevice d fun v => { v with evidence := some .fallback }
      | .confirming => s.attemptFailed d
      | .disabled | .idle | .ejectWait | .retryWait | .fault => s.countEntry d

/-- A closure of the exit switch of device `d`. -/
def State.exitClosure (s : State) (d : Nat) : State :=
  let v := s.device d
  match v.record.figures.counting with
  | .positions => s.success d
  | .entryBlind => s
  | .entryExit =>
    match v.state with
    | .disabled => s
    | .idle | .ejectWait => (s.settleAt d (v.settled - 1)).reactCount d
    | .fault => (s.settleAt d (v.settled - 1)).faultSelf d
    | .pulsing | .confirming | .retryWait =>
      if v.searching ∨ v.evidence.isSome then s else (s.settleAt d (v.settled - 1)).success d

/-- A closure of switch `i` is handed to device `d` as entry and as exit evidence where its record names it (R6 step 5). -/
def State.deviceEvidence (i : Nat) (s : State) (d : Nat) : State :=
  let s := if s.configured d ∧ (s.device d).record.entrySwitch = some i then s.entryClosure d else s
  if s.configured d ∧ (s.device d).record.exitSwitch = some i then s.exitClosure d else s

/-- A closure of switch `i` is handed to every device that names it, in ascending device order (R6 step 5). -/
def State.handToDevices (s : State) (i : Nat) : State :=
  (deviceNumbers.foldl (State.deviceEvidence i) s).settleDevices

/-- A transition of a position switch restarts the settle of every configured device that names it, in ascending order
(R9, R92); a closure of a shooter position switch is also evidence for the trough (R101, R104). DESIGN CHOICE
(notes/assumptions/60.md): where another configured device names the switch as its entry or exit switch, as R89 allows, that device is
handed nothing, since R9 names the position devices alone, although R92, R93, R101, R104 and R106 speak of every closure of an entry or
exit switch. -/
def State.positionTransition (s : State) (i : Nat) (closed : Bool) : State :=
  let s := (s.devicesWith fun _ v => v.record.positions.contains i).foldl State.restartSettle s
  let s := if closed ∧ s.configured 1 ∧ (s.device 1).record.positions.contains i ∧ s.configured 0 ∧
      (s.device 0).record.figures.counting = .positions then s.success 0 else s
  s.settleDevices

/-! ### Grants, pulses and windows -/

/-- A grant: device `d` leaves the line and enters PULSING for its effective pulse time (R99). A first pulse takes the base
count (R100); a SEARCH order leaves the queue and its grant is recorded by the search (R107, R166). -/
def State.grant (s : State) (d : Nat) : State :=
  let v := s.device d
  let s := s.leaveLine d
  let s := s.onDevices fun c => { c with granted := c.granted ++ [d] }
  let s := s.onDevice d fun v =>
    { v with state := .pulsing, timer := some (s.timer v.record.figures.pulse), evidence := none
             base := if v.state = .retryWait then v.base else if v.searchWaits then 0 else v.settled
             searching := v.searchWaits
             queue := v.queue.filter fun o => o.reason != .search }
  if v.searchWaits ∧ s.game.search.inFlight = some d then
    s.onSearch fun x => { x with inFlight := none, lastGrant := some s.time }
  else s

/-- The arbiter grants the front of the ready line when fewer devices are PULSING than the coil budget (R99). -/
def State.arbiterGrant (s : State) : State :=
  match s.devices.ready with
  | [] => s
  | r :: _ => if s.pulsingCount < s.game.params.coilBudget then (s.grant r.device).settleDevices else s

/-- The pulse of device `d` ends: the coil is released, and the device goes on by the evidence kept (R100, R107). -/
def State.endPulse (s : State) (d : Nat) : State :=
  let v := s.device d
  let s := s.onDevices fun c => { c with granted := c.granted.filter (· != d) }
  if v.searching then
    s.onDevice d fun v => { v with state := .confirming, timer := some (s.timer Config.searchWindowMs) }
  else match v.evidence with
    | some .success => s.confirm d
    | some .fallback => s.attemptFailed d
    | none => s.onDevice d fun v => { v with state := .confirming, timer := some (s.timer v.record.figures.confirm) }

/-- The confirm window of device `d` ends without evidence: a blind device's ball is taken to have left, any other attempt
has failed (R101, R103). -/
def State.endWindow (s : State) (d : Nat) : State :=
  let v := s.device d
  if v.record.figures.counting = .entryBlind then (s.settleAt d (v.settled - 1)).confirm d else s.attemptFailed d

/-- The 100 ms after a SEARCH pulse end: the cycle completes with expected count 0 (R107). -/
def State.endSearchWindow (s : State) (d : Nat) : State := s.complete d false (s.device d).settled

/-- Pulses beyond a lowered coil budget are cut short, latest grant first, each as though its pulse had ended (R99). -/
def State.cutPulses (s : State) : State :=
  let beyond := s.devices.granted.drop s.game.params.coilBudget
  (beyond.reverse.foldl State.endPulse s).settleDevices

/-! ### Cancellation, load and reset -/

/-- A device put back with an empty queue and no cycle: IDLE when configured, DISABLED when not. -/
def Device.cleared (v : Device) : Device :=
  { v with state := if v.record.configured then .idle else .disabled
           queue := [], retries := 0, base := 0, timer := none, evidence := none, searching := false, arrivals := [] }

/-- Every device by `f`, with the ready line, the grants and the launch-owed count emptied. -/
def State.clearDevices (s : State) (f : Nat → Device → Device) : State :=
  s.onDevices fun c => { units := mapTable c.units f, ready := [], granted := [], launchOwed := 0 }

/-- The cancellation of R110. -/
def State.cancelDevices (s : State) : State :=
  s.clearDevices fun _ v => { v.cleared with accounted := v.settled }

/-- What a soft reset makes of device `d`: POSITIONS counts are re-measured, ENTRY counts kept with their pending entries
discarded (R113). -/
def State.deviceAfterReset (s : State) (d : Nat) (v : Device) : Device :=
  let n := if v.record.configured ∧ v.record.figures.counting = .positions then s.rawCount d else v.settled
  { v.cleared with settled := n, accounted := n, entries := 0, settle := none }

end Sys2Proof.Machine
end

