-- ==== Sys2Proof/Machine/Awards.lean ====
section
/-! DEFINITION. The Award Engine (Chapter 2): chains, gates and conditions, matches and actions, walks, roots and the
pending-trigger list; and the hand-on of an arrival (R94), which ends in a walk. -/

namespace Sys2Proof.Machine

open Sys2Proof

/-! ### Chains (R24) -/

/-- The chain of trigger `t`: the indices of the DISABLED and ENABLED entries that name it, ascending. -/
def State.chain (s : State) (t : Nat) : List Nat :=
  (List.range Config.awardCount).filter fun i => (s.award i).state != .empty && (s.award i).trigger == t

/-! ### Latches and groups (R14, R16) -/

/-- The latch of switch `i` is set (R16). -/
def State.latched (s : State) (i : Nat) : Bool := (s.switch i).latch

/-- The activity latches of the switches in `l` are cleared (R14). -/
def State.clearLatches (s : State) (l : List Nat) : State :=
  s.onScanner fun c => { c with
    switches := mapTable c.switches fun i w => if l.contains i then { w with latch := false } else w }

/-- All 72 latches are cleared (R14). -/
def State.clearAllLatches (s : State) : State :=
  s.onScanner fun c => { c with switches := mapTable c.switches fun _ w => { w with latch := false } }

/-- Group `g` is configured and every member's latch is set (R16). -/
def State.groupDone (s : State) (g : Nat) : Bool :=
  !(s.group g).members.isEmpty && (s.group g).members.all s.latched

/-! ### Gates and conditions (R28 to R31) -/

/-- The mode gate (R28). -/
def State.modeGate (s : State) (e : AwardEntry) : Bool :=
  match e.gateKind with
  | .any => true
  | .running => (s.inst? e.gateMode).any fun i => i.state == .running
  | .absent => (s.inst? e.gateMode).isNone

/-- The ball gate (R29). -/
def State.ballGate (s : State) (e : AwardEntry) : Bool :=
  match e.ballGate with
  | .any => true
  | .single => !s.census.multi
  | .multi => s.census.multi

/-- The value of one operand of a source (R30). -/
def State.operandValue (s : State) (source : Source) (x : Nat) : Bool :=
  match source with
  | .latch => s.latched x
  | .level => (s.switch x).debounced
  | .flag => s.current.flags.getLsbD x
  | .groupDone => s.groupDone x
  | .lockLit => decide (1 ≤ s.current.locksLit)

/-- The condition: the operands combined by OR, then the polarity; an absent condition passes (R31). -/
def State.conditionPasses (s : State) (c : Option Condition) : Bool :=
  match c with
  | none => true
  | some c =>
    let value := s.operandValue c.source c.operandA ||
      (c.source != .lockLit && c.operandB.any (s.operandValue c.source))
    match c.polarity with
    | .whenSet => value
    | .whenClear => !value

/-- An entry reached by a walk of `edge` matches (R33). -/
def State.entryMatches (s : State) (edge : Edge) (e : AwardEntry) : Bool :=
  e.state == .enabled && e.edge == edge && s.modeGate e && s.ballGate e && s.conditionPasses e.condition

/-! ### Matches (R34 to R40, R49) -/

/-- The base of a matched entry; absent for value source NONE (R49). -/
def State.entryBase (s : State) (e : AwardEntry) : Option Nat :=
  match e.source with
  | .fixed => some e.base
  | .jackpot => some s.current.jackpot
  | .modeValue => some (if e.gateKind = .running then ((s.inst? e.gateMode).map ModeInst.value).getD 0 else 0)
  | .none => none

/-- The field `locks_lit` after LOCK_LIGHT n: the sum with locks_made does not exceed L (R37). -/
def lockLit (needed made lit n : Nat) : Nat := max lit (min (lit + n) (needed - made))

/-- One action of a matched entry (R35 to R40). -/
def State.act (s : State) (a : Action) : State :=
  let x := a.argument
  match a.kind with
  | .flagSet => s.onCurrent fun p => { p with flags := p.flags ||| BitVec.twoPow 32 x }
  | .flagClear => s.onCurrent fun p => { p with flags := p.flags &&& ~~~BitVec.twoPow 32 x }
  | .flagToggle => s.onCurrent fun p => { p with flags := p.flags ^^^ BitVec.twoPow 32 x }
  | .latchClear => s.clearLatches (s.group x).members
  | .modeStart => (s.modeStart x).1
  | .modeStop => (s.modeStop x).1
  | .modeProgress => (s.modeProgress x).1
  | .jackpotBuild => s.onCurrent fun p => { p with jackpot := jackpotBuilt s.game.params p.jackpot x }
  | .jackpotReset => s.onCurrent fun p => { p with jackpot := jackpotStart s.game.params }
  | .lockLight => s.onCurrent fun p =>
      { p with locksLit := lockLit s.game.params.locksNeeded p.locksMade p.locksLit x }
  | .bonusAdd => s.onCurrent fun p => { p with bonusCount := max p.bonusCount (min (p.bonusCount + x) Config.bonusCountLimit) }
  | .bonusMultUp => s.onCurrent fun p => { p with bonusMult := max p.bonusMult (min (p.bonusMult + 1) 10) }
  | .pfMultUp => s.onCurrent fun p => { p with playfieldMult := max p.playfieldMult (min (p.playfieldMult + 1) 5) }
  | .extraBall => s.onCurrent fun p =>
      { p with extraBalls := max p.extraBalls (min (p.extraBalls + 1) s.game.params.extraBallLimit) }
  | .mbStart => s.mbStart x
  | .addBall => s.addBall
  | .trigger => s.appendTrigger x

/-- The points and the report of a match of entry `i` (R34 steps 1 and 2). -/
def State.matchPoints (s : State) (i : Nat) (e : AwardEntry) : State :=
  match s.entryBase e with
  | none => s
  | some b => if e.report then s.awardReported .awardEntry i b e.classes else s.award1 b e.classes

/-- Points, report and actions of a match of entry `i` (R34 steps 1 to 3). -/
def State.carryOut (s : State) (i : Nat) (e : AwardEntry) : State := e.actions.foldl State.act (s.matchPoints i e)

/-- The visiting of the rest of a chain (R33, R34 step 4). -/
def State.walkChain (s : State) (edge : Edge) : List Nat → State
  | [] => s
  | i :: rest =>
    let e := s.award i
    if s.entryMatches edge e then
      match e.continuation with
      | .stop => s.carryOut i e
      | .goOn => (s.carryOut i e).walkChain edge rest
    else s.walkChain edge rest

/-- The walk of trigger `t` with edge `edge` (R33). -/
def State.walk (s : State) (t : Nat) (edge : Edge) : State :=
  ((s.onEngine fun c => { c with walking := some t }).walkChain edge (s.chain t)).onEngine fun c =>
    { c with walking := none }

/-! ### Roots (R32, R42, R43) -/

/-- What follows a walk: the root ends when the list is empty; after its 32nd walk the list is emptied with ENGINE
WALK_LIMIT (R42, R43). -/
def State.afterWalk (s : State) : State :=
  match s.engine.root with
  | none => s
  | some r =>
    if s.engine.triggers = [] then s.onEngine fun c => { c with root := none }
    else if Config.rootWalks ≤ r.walks then
      (s.emit .walkLimit r.first s.engine.triggers.length 0).onEngine fun c => { c with triggers := [], root := none }
    else s

/-- One pending walk of the root in progress: the oldest trigger of the list is walked with edge CLOSE, or, outside SERVE
and PLAY, the list is emptied with no event and the root ends (R32, R42, R45). DESIGN CHOICE (notes/assumptions/58.md): the records
of the walk carry the time stamp of the work that began the root, also where a later request has appended the trigger. -/
def State.pendingWalk (s : State) : State :=
  match s.engine.root, s.engine.triggers with
  | none, _ => s
  | some _, [] => s.onEngine fun c => { c with root := none }
  | some r, t :: rest =>
    if s.inPlay then
      (((s.at r.stamp).onEngine fun c =>
        { c with triggers := rest, root := some { r with walks := r.walks + 1 } }).walk t .close).afterWalk
    else s.onEngine fun c => { c with triggers := [], root := none }

/-- The root in progress is worked to its end; it makes at most 32 walks (R43). -/
def State.finishRoot (s : State) : State := repeated State.pendingWalk Config.rootWalks s

/-- A direct walk asked for while no root is in progress, and the root it begins; not made outside SERVE and PLAY (R32).
With `breather` the root pauses after this walk when triggers are pending. -/
def State.directWalk (s : State) (t : Nat) (edge : Edge) (breather : Bool) : State :=
  if s.inPlay then
    let s := ((s.onEngine fun c => { c with root := some ⟨t, 1, s.time⟩ }).walk t edge).afterWalk
    if breather then s else s.finishRoot
  else s

/-- A trigger that joined the list while no root was in progress begins a root with its own walk (R42). With `breather` the root
pauses before that walk, so that requests and tenths can be taken between its walks (R57, R70, R190). -/
def State.rootFromList (s : State) (breather : Bool) : State :=
  match s.engine.root, s.engine.triggers with
  | none, t :: _ =>
    let s := s.onEngine fun c => { c with root := some ⟨t, 0, s.time⟩ }
    if breather then s else s.finishRoot
  | _, _ => s

/-! ### Arrivals (R94) -/

/-- The hand-on of one arrival at device `d`, when one is due: DEVICE ARRIVAL, the census, then the walk of trigger
80 + d (R94). -/
def State.takeArrival (s : State) (d : Nat) (breather : Bool) : State :=
  match (s.device d).arrivals with
  | [] => s
  | t :: rest =>
    let s := (s.onDevice d fun v =>
      { v with arrivals := rest, accounted := min (v.accounted + 1) v.settled }).at t
    let s := if (s.device d).record.reportArrivals then s.emit .deviceArrival d (s.device d).accounted 0 else s
    (s.censusArrival d).directWalk (80 + d) .close breather

/-- The arrivals due at device `d` are handed on, one after another, each whole (R94). -/
def State.takeArrivals (s : State) (d : Nat) : State :=
  repeated (fun s => s.takeArrival d false) (s.device d).arrivals.length s

/-- The arrivals due at device `d` are handed on within other work. With `breather` one is, and that work pauses as `w`, so that
what comes at the moment between two walks can be taken before the work goes on (R70). -/
def State.arrivalsWithin (breather : Bool) (w : PausedWork) (s : State) (d : Nat) : State :=
  if breather && !(s.device d).arrivals.isEmpty then
    (s.takeArrival d true).onEngine fun c => { c with paused := some w }
  else s.takeArrivals d

/-! ### The rest of a closure's hand-on (R6 steps 5 and 6, R32) -/

/-- Closure `t` is handed to device `d` as evidence, with the arrivals it brings about (R6 step 5); not while the hand-on pauses. -/
def State.evidenceThenArrivals (breather : Bool) (t : Transition) (s : State) (d : Nat) : State :=
  if s.engine.paused.isSome then s
  else (State.deviceEvidence t.switch (s.at t.stamp) d).arrivalsWithin breather (.closure t d) d

/-- What follows the evidence: the tests of the devices, then the closure's own walk (R6 step 6); not while the hand-on pauses. -/
def State.ownWalk (breather : Bool) (t : Transition) (s : State) : State :=
  if s.engine.paused.isSome then s
  else ((s.at t.stamp).settleDevices.directWalk t.switch .close breather).settleDevices

/-- Closure `t` is handed to the devices of `l`, and is then walked (R6 steps 5 and 6). -/
def State.evidenceAndWalk (breather : Bool) (t : Transition) (l : List Nat) (s : State) : State :=
  (l.foldl (State.evidenceThenArrivals breather t) s).ownWalk breather t

/-! ### Requests that stay in hand (R105, R175, R185) -/

/-- A TRIGGER t taken with an empty list: the direct walk and the root it begins (R44, R185). With `breather` the request stays in
hand while its root pauses, so that a tenth can be taken between the walks (R70). -/
def State.triggerRoot (breather : Bool) (s : State) (t : Nat) : State :=
  let walked := s.directWalk t .close breather
  if walked.engine.root.isSome then walked.onEngine fun c => { c with paused := some (.trigger s.time) } else walked.settleDevices

/-- The end of a FAULT by the host, once its arrivals have been taken: the retry count returns to 0, and the head order enters
EJECT_WAIT, with FAULT_CLEARED of argument HOST and the time stamp `stamp` of the request (R105, R112). A device not in FAULT is left
as it is. -/
def State.faultCleared (s : State) (d : Nat) (stamp : Stamp) : State :=
  if (s.device d).state = .fault then
    let s := (s.at stamp).onDevice d fun v => { v with retries := 0, state := .idle }
    let s := if (s.device d).queue.isEmpty then s else s.enterEjectWait d
    (s.emit .deviceFaultCleared d 0 0).settleDevices
  else s

/-- A CLEAR_FAULT d in hand, of time stamp `stamp`: the arrivals due at device `d` are handed on, and then its FAULT is over (R105).
With `breather` the request stays in hand while it pauses after an arrival (R70), and keeps its time stamp (R112). -/
def State.faultArrivals (breather : Bool) (s : State) (d : Nat) (stamp : Stamp) : State :=
  let s := s.arrivalsWithin breather (.clearFault d stamp) d
  if s.engine.paused.isSome then s else s.faultCleared d stamp

/-! ### Work that has paused -/

/-- Work that has paused goes on once the root it waits for has ended: a hand-on with the other arrivals of its device, the devices
above it, then the closure's own walk (R6, R32); a TRIGGER with its reply OK and WALKED (R185); a CLEAR_FAULT with the arrivals
left, and with its reply OK when it ends (R105). With `breather` each arrival left is followed by a pause of its own (R70). The work
goes on with the time stamp it had, also where a later scan has been made meanwhile (R10, R112). -/
def State.resume (breather : Bool) (s : State) : State :=
  match s.engine.paused with
  | none => s
  | some w =>
    let s := s.onEngine fun c => { c with paused := none }
    match w with
    | .closure t d =>
      (s.arrivalsWithin breather (.closure t d) d).evidenceAndWalk breather t (deviceNumbers.filter fun e => decide (d < e))
    | .trigger stamp => (s.at stamp).settleDevices.answerInHand [0, 0]
    | .clearFault d stamp =>
      let s := s.faultArrivals breather d stamp
      if s.inHand then s else s.answerInHand [0]

/-- The root in progress and the work that waits for it are worked to their end (R32). -/
def State.finishWork (s : State) : State := s.finishRoot.resume false

/-- Nothing is left to catch up: no root is in progress, no work waits for one, and no arrival is due. -/
def State.quietEngine (s : State) : Bool :=
  s.engine.root.isNone && s.engine.paused.isNone && deviceNumbers.all fun d => (s.device d).arrivals.isEmpty

/-- The work that comes before another hand-on or other work of the Ball Device Controller: the root and the work in progress are
brought to their end, and the arrivals due are handed on (R32, R94). DESIGN CHOICE (notes/assumptions/48.md): those of several
devices in ascending device order. -/
def State.catchUp (s : State) : State :=
  if s.quietEngine then s else (deviceNumbers.foldl State.takeArrivals s.finishWork).settleDevices

/-- ARRIVAL (R94): the next arrival due at the device is handed on. With none due the command changes nothing. -/
def execArrival (device : Nat) (breather : Bool) (s : State) : Host.Outcome State Fault Refusal :=
  .next (if (s.device device).arrivals.isEmpty then s
    else (s.finishWork.takeArrival device breather).settleDevices)

end Sys2Proof.Machine
end

