-- ==== Sys2Proof/Machine/Scanner.lean ====
section
/-! DEFINITION. The Switch Scanner (Chapter 1): the scan and its debounce, and the hand-on of a transition by the role of its
switch, with the tilt warnings, the tilt and the slam that TILT and SLAM closures bring (sections 8.1 to 8.3). -/

namespace Sys2Proof.Machine

open Sys2Proof

/-! ### The contacts as a scan reads them (R1) -/

/-- The column outputs while column `c` is read: COLc alone is driven (R1). -/
def columnDrive (c : Nat) : BitVec 8 := BitVec.twoPow 8 c

/-- The row returns while the column outputs are `drive`: ROWr reads closed when its contact with a driven column is closed
(R1). -/
def rowReturns (k : Contacts) (drive : BitVec 8) : BitVec 8 :=
  (List.range 8).foldl (fun rows c => if drive.getLsbD c then rows ||| readTable k.columns 0 c else rows) 0

/-- The one raw sample of switch `i` in a scan that drives COL0 to COL7 one at a time and samples DIN0 to DIN7 once: switch
c × 8 + r is read on ROWr while COLc is driven, and switch 64 + n on DINn (R1). -/
def sampleOf (k : Contacts) (i : Nat) : Bool :=
  if i < 64 then (rowReturns k (columnDrive (i / 8))).getLsbD (i % 8) else k.direct.getLsbD (i - 64)

/-! ### The scan (R1, R2, R3, R17, R18) -/

/-- The debounce of one switch by one sample (R2, R3); the flag tells whether it makes a transition. -/
def Switch.debounce (w : Switch) (role : Role) (sample : Bool) : Switch × Bool :=
  if role = .unused then ({ w with raw := sample, debounced := false, count := 0 }, false)
  else if sample = w.debounced then ({ w with raw := sample, count := 0 }, false)
  else
    let time := if w.debounced then w.record.openDebounce else w.record.closeDebounce
    if time ≤ w.count + 1 then ({ w with raw := sample, debounced := sample, count := 0 }, true)
    else ({ w with raw := sample, count := w.count + 1 }, false)

/-- The first sample after a hard reset gives the debounced state directly, with no transition (R18). -/
def Switch.firstSample (w : Switch) (role : Role) (sample : Bool) : Switch :=
  { w with raw := sample, debounced := sample && role != .unused, count := 0 }

/-- The transition that switch `i` makes at the scan stamped `t`, if any. -/
def State.transitionAt (s : State) (contacts : Contacts) (t : Stamp) (i : Nat) : Option Transition :=
  if ((s.switch i).debounce (s.roleOf i) (sampleOf contacts i)).2 then
    some ⟨i, sampleOf contacts i, s.roleOf i, t⟩
  else none

/-- One scan of the contacts (R1, R2, R17, R18). -/
def State.scan (s : State) (contacts : Contacts) : State :=
  let quiet := min (s.scanner.quiet + 1) Config.quietHold
  if s.scanner.started then
    let t := s.scanner.now + 1
    s.onScanner fun c => { c with
      now := t
      switches := mapTable c.switches fun i w => (w.debounce (s.roleOf i) (sampleOf contacts i)).1
      quiet := quiet
      waiting := c.waiting ++ (List.range Config.switchCount).filterMap (s.transitionAt contacts t) }
  else
    s.onScanner fun c => { c with
      now := 0
      started := true
      switches := mapTable c.switches fun i w => w.firstSample (s.roleOf i) (sampleOf contacts i)
      quiet := quiet }

/-- SWITCH_SCAN (R1): one full scan of the contacts. -/
def execSwitchScan (contacts : Contacts) (s : State) : Host.Outcome State Fault Refusal :=
  .next (s.scan contacts)

/-! ### Taking a transition -/

/-- The transition that is handed on when switch `i`'s is asked for: the first waiting of that switch, when it comes from
the oldest scan still waiting (R11). -/
def State.waitingOf (s : State) (i : Nat) : Option Transition :=
  match s.scanner.waiting with
  | [] => none
  | h :: rest => (h :: rest).find? fun t => t.switch == i && t.stamp == h.stamp

/-- The waiting transition of switch `i` that satisfies `p`, if that is the one to be handed on. -/
def State.dueTransition (s : State) (i : Nat) (p : Transition → Bool) : Option Transition :=
  (s.waitingOf i).filter p

/-- The state in which transition `t` is being handed on: earlier work is finished (R11, R32), the transition waits no
longer, and the work in hand carries its time stamp (R10). -/
def State.handingOn (s : State) (t : Transition) : State :=
  (s.catchUp.onScanner fun c => { c with waiting := c.waiting.erase t }).at t.stamp

/-- A transition of switch `i` that satisfies `p` is handed on by `f`; with none due nothing changes. -/
def State.handOn (s : State) (i : Nat) (p : Transition → Bool) (f : Transition → State → State) : State :=
  match s.dueTransition i p with
  | none => s
  | some t => f t (s.handingOn t)

/-! ### The hand-on (R6 to R10) -/

/-- The SWITCH event that the report setting calls for (R10). DESIGN CHOICE (notes/assumptions/42.md): the setting is read from the
record as it stands at the hand-on, not at the scan. -/
def State.reportSwitch (s : State) (t : Transition) : State :=
  match (s.switch t.switch).record.report, t.closed with
  | .close, true | .both, true => s.emitFor 0 .switchClosed t.switch t.role.code 0
  | .both, false => s.emitFor 0 .switchOpened t.switch t.role.code 0
  | _, _ => s

/-- A closure of a PLAYFIELD or CABINET switch is handed on (R6, R7). -/
def State.closure (breather : Bool) (t : Transition) (s : State) : State :=
  let s := if s.inPlay then s.onSwitch t.switch fun w => { w with latch := true } else s
  let s := s.reportSwitch t
  let s := if t.role = .playfield then s.playfieldActivity.offerClosure t.switch else s
  s.evidenceAndWalk breather t deviceNumbers

/-- An opening of a PLAYFIELD or CABINET switch is handed on (R7). Openings of entry and exit switches are not used by the
Ball Device Controller (R93). -/
def State.opening (breather : Bool) (t : Transition) (s : State) : State :=
  ((s.reportSwitch t).directWalk t.switch .opening breather).settleDevices

/-- The transition is one of a switch whose effective role was PLAYFIELD or CABINET. -/
def Transition.walked (t : Transition) : Bool := t.role == .playfield || t.role == .cabinet

/-- SWITCH_CLOSURE (R6, R7): a waiting closure of a PLAYFIELD or CABINET switch is handed on. -/
def execSwitchClosure (switch : Nat) (breather : Bool) (s : State) : Host.Outcome State Fault Refusal :=
  .next (s.handOn switch (fun t => t.closed && t.walked) (State.closure breather))

/-- SWITCH_OPENING (R7): a waiting opening of a PLAYFIELD or CABINET switch is handed on. -/
def execSwitchOpening (switch : Nat) (breather : Bool) (s : State) : Host.Outcome State Fault Refusal :=
  .next (s.handOn switch (fun t => !t.closed && t.walked) (State.opening breather))

/-! ### Tilt (R158, R159) -/

/-- A tilt closure of the work in hand is counted: the last counted one is absent or at least 1,000 ms before (R158). -/
def State.tiltCounts (s : State) : Bool :=
  match s.game.lastTilt with
  | none => true
  | some t => decide (Config.tiltWindowMs ≤ elapsed s.time t)

/-- The ball is tilted by switch `i` (R159). -/
def State.tilt (s : State) (i : Nat) : State :=
  let s := (s.toPhase .tilt).emit .tiltTilted i s.current.tiltWarnings 0
  (s.onEngine fun c => { c with triggers := [] }).saveEnd 2

/-- A TILT closure reaches the Game Controller (R158). -/
def State.tiltClosure (s : State) (i : Nat) : State :=
  if s.inPlay ∧ s.tiltCounts then
    let s := s.onGame fun g => { g with lastTilt := some s.time }
    let n := s.current.tiltWarnings + 1
    if n ≤ s.game.params.tiltWarnings then
      (s.onCurrent fun p => { p with tiltWarnings := n }).emit .tiltWarning i n (s.game.params.tiltWarnings - n)
    else s.tilt i
  else s

/-- TILT_CLOSURE (R8, R158): reported, handed to the devices that name the switch, then to the Game Controller. DESIGN CHOICE
(notes/assumptions/59.md): arrivals that the closure has brought about as evidence stay due, and are handed on after the Game
Controller has taken it. -/
def execTiltClosure (switch : Nat) (s : State) : Host.Outcome State Fault Refusal :=
  .next (s.handOn switch (fun t => t.closed && t.role == .tilt) fun t s =>
    ((s.reportSwitch t).handToDevices t.switch).tiltClosure t.switch)

/-! ### Slam and the end of a game (R162, R163) -/

/-- The end of a game by slam (`slam` the switch) or by END_GAME (R162). -/
def State.endGame (s : State) (slam : Option Nat) : State :=
  let s := s.cancelDevices.modesGameEnd.onCensus fun c =>
    { c with multi := false, save := none, validated := false, missingReturns := 0 }
  let s := match slam with
    | some i => s.emit .tiltSlam i 0 0
    | none => s
  let s := s.emitFor 0 .gameOver 0 (if slam.isSome then 1 else 2) 0
  let s := (s.toPhase .idle).onGame fun g => { g with current := 0 }
  s.recover

/-- SLAM_CLOSURE (R8, R163): reported, handed to the devices that name the switch, then ending the game in a game phase. DESIGN
CHOICE (notes/assumptions/59.md): arrivals that the closure has brought about as evidence stay due, so that the end of the game sets
them aside (R110). -/
def execSlamClosure (switch : Nat) (s : State) : Host.Outcome State Fault Refusal :=
  .next (s.handOn switch (fun t => t.closed && t.role == .slam) fun t s =>
    let s := (s.reportSwitch t).handToDevices t.switch
    if s.gameOn then s.endGame (some t.switch) else s)

/-- TILT_SLAM_OPENING (R8): reported when the setting is BOTH; the Ball Device Controller does not use openings (R93). -/
def execTiltSlamOpening (switch : Nat) (s : State) : Host.Outcome State Fault Refusal :=
  .next (s.handOn switch (fun t => !t.closed && (t.role == .tilt || t.role == .slam)) fun t s => s.reportSwitch t)

/-- DEVICE_SWITCH_TRANSITION (R9): reported, then handed to the count logic of the devices that name the switch as a
position switch. DESIGN CHOICE (notes/assumptions/60.md): a device that names it as its entry or exit switch takes no evidence. -/
def execDeviceSwitchTransition (switch : Nat) (s : State) : Host.Outcome State Fault Refusal :=
  .next (s.handOn switch (fun t => t.role == .device) fun t s =>
    (s.reportSwitch t).positionTransition t.switch t.closed)

end Sys2Proof.Machine
end

