-- ==== Sys2Proof/Machine/Clock.lean ====
section
/-! DEFINITION. The commands of the part's own clocks: tenths and what expires at them (R71, R73, R122), the expiries and grants
of the Ball Device Controller (R92, R98 to R107), and ball search (R165, R166, R168).

Each command names one expiry. It acts when that expiry has come about; otherwise it changes nothing
(notes/assumptions/2.md). -/

namespace Sys2Proof.Machine

open Sys2Proof

/-! ### Tenths -/

/-- A tenth is due when the last one was due at `last`: 100 ms have passed since (R71, R122). -/
def State.tenthDue (s : State) (last : Stamp) : Bool := Config.tenthMs ≤ elapsed s.scanner.now last

/-- An arrival is being handled: it is whole only with the root of its walk (R94), which one of the triggers 80..87 begins. -/
def State.inArrival (s : State) : Bool := s.engine.root.any fun r => decide (80 ≤ r.first ∧ r.first < 88)

/-- The tenth of the Mode Controller, when it is due: timers that count go down by 1 and those that reach 0 time out (R71, R73). Its
records carry the time stamp at which the tenth was due, however late it is taken. -/
def State.modesTenth (s : State) : State :=
  if s.tenthDue s.modes.lastTenth then
    let s := s.onModes fun c => { c with lastTenth := c.lastTenth + 100 }
    (s.at s.modes.lastTenth).countDown.modeTimeouts
  else s

/-- The tenth of the Ball Census, when it is due, between arrivals and never within the handling of one: the ball save goes down by
1 and expires at 0 (R122). Its records carry the time stamp at which the tenth was due (R138). DESIGN CHOICE
(notes/assumptions/57.md): one that an arrival holds back stays due, and is taken by a later TENTH. -/
def State.censusTenth (s : State) : State :=
  if s.tenthDue s.census.lastTenth && !s.inArrival then
    let s := s.onCensus fun c => { c with lastTenth := c.lastTenth + 100 }
    (s.at s.census.lastTenth).saveCountDown.saveExpiry
  else s

/-- TENTH (R71, R122). -/
def execTenth (s : State) : Host.Outcome State Fault Refusal :=
  .next s.modesTenth.censusTenth

/-- MODE_TIMEOUT (R73): the instances whose remaining time is 0 end with reason TIMEOUT and the law is applied once, at the time
stamp of the tenth last due (notes/assumptions/9.md). -/
def execModeTimeout (s : State) : Host.Outcome State Fault Refusal :=
  .next (if s.modes.stack.any ModeInst.expired then (s.at s.modes.lastTenth).modeTimeouts else s)

/-- BALL_SAVE_EXPIRED (R122): an active record whose remaining time is 0 becomes inactive with cause EXPIRED, at the time stamp
of the census's tenth last due (notes/assumptions/9.md), and never within the handling of an arrival. -/
def execBallSaveExpired (s : State) : Host.Outcome State Fault Refusal :=
  .next (if (s.census.save.any fun r => r.remaining == 0) && !s.inArrival then (s.at s.census.lastTenth).saveExpiry else s)

/-! ### Ball devices -/

/-- An event `f` of the Ball Device Controller is taken when it is due, after the work that comes before it (R94); when it
is not due nothing changes. DESIGN CHOICE (notes/assumptions/43.md): the LAUNCH test and the RECOVER comparison are made at the
event, before the arrivals that it brings about are handed on. -/
def State.deviceEvent (s : State) (due : State → Bool) (f : State → State) : State :=
  let ready := s.catchUp.atNow
  if due ready then (f ready).settleDevices else s

/-- The settle timer of device `d` has run out (R92, R93). -/
def State.settleDue (d : Nat) (s : State) : Bool := s.configured d && s.timeUp (s.device d).settle

/-- SETTLE_EXPIRED (R92, R93). -/
def execSettleExpired (device : Nat) (s : State) : Host.Outcome State Fault Refusal :=
  .next (s.deviceEvent (State.settleDue device) fun s => s.settleOut device)

/-- Device `d` waits for a hold-off that has run out (R98). -/
def State.holdOffDue (d : Nat) (s : State) : Bool := s.headReady d && !s.inLine d

/-- HOLD_OFF_EXPIRED (R98): the device joins the ready line. -/
def execHoldOffExpired (device : Nat) (s : State) : Host.Outcome State Fault Refusal :=
  .next (s.deviceEvent (State.holdOffDue device) fun s => s.joinLine device)

/-- The arbiter can grant (R99). -/
def State.grantDue (s : State) : Bool :=
  !s.devices.ready.isEmpty && decide (s.pulsingCount < s.game.params.coilBudget)

/-- COIL_GRANT (R99). -/
def execCoilGrant (s : State) : Host.Outcome State Fault Refusal :=
  .next (s.deviceEvent State.grantDue State.arbiterGrant)

/-- Device `d` is in state `st`, in a search cycle or not as `searching` says, and its time has run out. -/
def State.cycleDue (d : Nat) (st : DeviceState) (searching : Bool) (s : State) : Bool :=
  (s.device d).state == st && (s.device d).searching == searching && s.timeUp (s.device d).timer

/-- PULSE_END (R100): the pulse time of an order or of a SEARCH order has run. -/
def execPulseEnd (device : Nat) (s : State) : Host.Outcome State Fault Refusal :=
  .next (s.deviceEvent (fun s => s.cycleDue device .pulsing false || s.cycleDue device .pulsing true)
    fun s => s.endPulse device)

/-- CONFIRM_WINDOW_END (R101, R103). -/
def execConfirmWindowEnd (device : Nat) (s : State) : Host.Outcome State Fault Refusal :=
  .next (s.deviceEvent (State.cycleDue device .confirming false) fun s => s.endWindow device)

/-- The retry interval has run out: the device joins the ready line and stays in RETRY_WAIT (R104). -/
def State.retryReady (s : State) (d : Nat) : State := (s.onDevice d fun v => { v with timer := none }).joinLine d

/-- RETRY_INTERVAL_END (R104). -/
def execRetryIntervalEnd (device : Nat) (s : State) : Host.Outcome State Fault Refusal :=
  .next (s.deviceEvent (State.cycleDue device .retryWait false) fun s => s.retryReady device)

/-- SEARCH_WINDOW_END (R107). -/
def execSearchWindowEnd (device : Nat) (s : State) : Host.Outcome State Fault Refusal :=
  .next (s.deviceEvent (State.cycleDue device .confirming true) fun s => s.endSearchWindow device)

/-! ### Ball search -/

/-- The arming conditions of R165 other than the two clocks. -/
def State.searchConditions (s : State) : Bool :=
  decide (1 ≤ s.census.playfield) && !s.census.conflict &&
    (s.devicesWith fun _ v => v.state != .idle && v.state != .fault).isEmpty

/-- The two quiet clocks of R165 have reached the search delay. -/
def State.searchClocks (s : State) : Bool :=
  decide (s.game.params.searchDelay * 1000 ≤ s.scanner.quiet) &&
    decide (s.game.params.searchDelay * 1000 ≤ elapsed s.scanner.now s.game.search.quietMark)

/-- A round begins: SEARCH ROUND, next device 1, the first step (R166). -/
def State.beginRound (s : State) (round : Nat) : State :=
  ((s.onSearch fun x => { x with
      phase := .round, round := round, nextDevice := 1, inFlight := none, lastGrant := none, began := s.time }).emit
    .searchRound round 0 0).searchNext

/-- The search arms (R165). -/
def State.armDue (s : State) : Bool :=
  s.game.search.phase == .waiting && s.searchConditions && s.searchClocks

/-- SEARCH_ARM (R165, R166). -/
def execSearchArm (s : State) : Host.Outcome State Fault Refusal :=
  .next (s.deviceEvent State.armDue fun s => s.beginRound 1)

/-- 400 ms have passed since the last grant of the round (R166 step 2). -/
def State.stepDue (s : State) : Bool :=
  s.game.search.phase == .round && s.game.search.inFlight.isNone &&
    s.game.search.lastGrant.any fun t => decide (Config.searchStepMs ≤ elapsed s.scanner.now t)

/-- SEARCH_STEP (R166). -/
def execSearchStep (s : State) : Host.Outcome State Fault Refusal :=
  .next (s.deviceEvent State.stepDue State.searchNext)

/-- The pause has lasted 5,000 ms from the last grant of the round, or from its beginning when it granted nothing (R166
step 4). -/
def State.pauseDue (s : State) : Bool :=
  s.game.search.phase == .pause &&
    decide (Config.searchPauseMs ≤ elapsed s.scanner.now (s.game.search.lastGrant.getD s.game.search.began))

/-- The failure of a search (R168). -/
def State.searchFail (s : State) : State :=
  let s := (s.emit .searchFailed s.game.search.round s.census.playfield 0).declareMissing
  if s.game.phase = .play ∨ s.game.phase = .tilt then s.searchWait.onSearch fun x => { x with quietMark := s.time } else s

/-- The end of a pause: the search ends with cause CONDITION, begins its next round, or fails (R166). -/
def State.pauseEnd (s : State) : State :=
  if s.searchConditions = false then s.searchEnd 2
  else if s.game.search.round < s.game.params.searchRounds then s.beginRound (s.game.search.round + 1)
  else s.searchFail

/-- SEARCH_PAUSE_END (R166, R168). -/
def execSearchPauseEnd (s : State) : Host.Outcome State Fault Refusal :=
  .next (s.deviceEvent State.pauseDue State.pauseEnd)

end Sys2Proof.Machine
end

