-- ==== Sys2Proof/Machine/Game.lean ====
section
/-! DEFINITION. The Game Controller's frame of a game (Chapter 7) and the two resets of the whole part: the configuration checks
of START_GAME, game start, ball start, the next ball and game over, soft and hard reset. -/

namespace Sys2Proof.Machine

open Sys2Proof

/-! ### Ball start (R146, R150) -/

/-- The per-ball reset of a player record (R145, R146). -/
def Player.ballReset (p : Player) (g : Params) : Player :=
  { p with
    playfieldMult := 1
    bonusCount := 0
    bonusMult := if g.bonusMultCarry then p.bonusMult else 1
    flags := p.flags &&& g.flagCarry
    locksLit := if g.lockLitCarry then p.locksLit else 0
    tiltWarnings := 0 }

/-- The latches of every group whose per-ball setting is yes are cleared (R14). -/
def State.clearPerBall (s : State) : State :=
  s.clearLatches (s.scanner.groups.toList.flatMap fun g => if g.perBall then g.members else [])

/-- The search and tilt state of a new ball (R161, R165). -/
def State.freshBall (s : State) : State :=
  (s.searchOff.onSearch fun x => { x with quietMark := s.time }).onGame fun g => { g with lastTilt := none }

/-- The ball start of R150. -/
def State.ballStart (s : State) : State :=
  let s := s.onCurrent fun p => p.ballReset s.game.params
  let s := s.clearPerBall.onCensus fun c => { c with validated := false, missingReturns := 0 }
  let s := (s.freshBall.toPhase .serve).modesRestore
  let s := s.emit .gameBallStarted s.game.ballNumber s.game.players.length 0
  if 1 ≤ s.shooter then s.toPhase .play else s.queueOrder 0 .serve false

/-! ### The configuration checks of START_GAME (R148) -/

/-- A failed check: its number, its subject and its detail. -/
structure CheckFailure where
  check : Nat
  subject : Nat
  detail : Nat
  deriving DecidableEq, Repr

/-- The switches a record names, as a position, entry or exit switch. -/
def DeviceRecord.names (r : DeviceRecord) (i : Nat) : Bool :=
  r.positions.contains i || r.entrySwitch == some i || r.exitSwitch == some i

/-- The second of the devices that satisfy `p`, ascending: the higher of the lowest pair (R148 checks 3 and 4). -/
def State.secondDevice (s : State) (p : Nat → Device → Bool) : Option Nat := (s.devicesWith p)[1]?

/-- The kind and number of the first thing named by entry `e` that does not exist, as the two bytes of check 6: in the order
of the entry's fields (R25, R193). -/
def State.missingThing (s : State) (e : AwardEntry) : Option Nat :=
  let mode := fun m => if (s.modeDef m).defined then none else some m
  let group := fun g => if (s.group g).members.isEmpty then some (256 + g) else none
  let start := fun k => if (s.multiballDef k).defined then none else some (512 + k)
  let gate := if e.gateKind = .any then none else mode e.gateMode
  let cond := match e.condition with
    | some c => if c.source = .groupDone then (group c.operandA).or (c.operandB.bind group) else none
    | none => none
  let action := fun (a : Action) => match a.kind with
    | .modeStart | .modeStop | .modeProgress => mode a.argument
    | .latchClear => group a.argument
    | .mbStart => start a.argument
    | _ => none
  (gate.or cond).or (e.actions.findSome? action)

/-- Check 1: device 0 is configured as the TROUGH, counting by POSITIONS. -/
def State.check1 (s : State) : Option CheckFailure :=
  if s.configured 0 ∧ (s.device 0).record.role = .trough ∧ (s.device 0).record.figures.counting = .positions then none
  else some ⟨1, 0, 0⟩

/-- Check 2: N is at most the trough's effective capacity. -/
def State.check2 (s : State) : Option CheckFailure :=
  let capacity := (s.device 0).record.figures.capacity
  if s.game.params.installed ≤ capacity then none else some ⟨2, 0, capacity⟩

/-- Check 3: no switch is named by two configured devices. -/
def State.check3 (s : State) : Option CheckFailure :=
  (List.range Config.switchCount).findSome? fun i => (s.secondDevice fun _ v => v.record.names i).map fun d => ⟨3, i, d⟩

/-- Check 4: no two configured devices have the same coil output. -/
def State.check4 (s : State) : Option CheckFailure :=
  (List.range 8).findSome? fun n => (s.secondDevice fun _ v => v.record.coil == n).map fun d => ⟨4, n, d⟩

/-- Check 5: every device whose role is not UNUSED is configured. -/
def State.check5 (s : State) : Option CheckFailure :=
  (deviceNumbers.find? fun d => (s.device d).record.role != .unused && !s.configured d).map fun d => ⟨5, d, 0⟩

/-- Check 6: every DISABLED or ENABLED entry names only things that exist. -/
def State.check6 (s : State) : Option CheckFailure :=
  (List.range Config.awardCount).findSome? fun i =>
    if (s.award i).state = .empty then none else (s.missingThing (s.award i)).map fun d => ⟨6, i, d⟩

/-- Check 7: TROUGH + SHOOTER is 1 or more. -/
def State.check7 (s : State) : Option CheckFailure := if 1 ≤ s.trough + s.shooter then none else some ⟨7, 0, 0⟩

/-- The first check that fails (R148). -/
def State.configFailure (s : State) : Option CheckFailure :=
  s.check1.or <| s.check2.or <| s.check3.or <| s.check4.or <| s.check5.or <| s.check6.or s.check7

/-! ### Game start, next ball and game over -/

/-- The census's game start (R137). -/
def State.censusGameStart (s : State) : State :=
  let s := (s.onCensus fun c => { c with missing := 0 }).recompute none
  s.onCensus fun c =>
    { c with multi := false, save := none, validated := false, missingReturns := 0, lastStarted := none }

/-- A game starts (R149). -/
def State.gameStart (s : State) : State :=
  let s := s.onGame fun g => { g with players := [.start g.params], current := 1, ballNumber := 1 }
  let s := (s.clearAllLatches.onScanner fun c => { c with quiet := 0 }).freshBall
  let s := s.censusGameStart.onModes fun c => { c with nextOrder := 0, deferred := false }
  (s.emit .gameStarted 0 s.game.params.installed 0).ballStart

/-- The game is over with reason NORMAL (R155). -/
def State.gameOver (s : State) : State :=
  let s := (s.toPhase .idle).emitFor 0 .gameOver 0 0 0
  (s.modesGameEnd.onGame fun g => { g with current := 0 }).recover

/-- NEXT_BALL in BALL_OVER (R154). -/
def State.nextBall (s : State) : State :=
  let g := s.game
  if 1 ≤ s.current.extraBalls then
    let s := s.onCurrent fun p => { p with extraBalls := p.extraBalls - 1 }
    (s.emit .gameShootAgain g.ballNumber s.current.extraBalls 0).ballStart
  else if g.current < g.players.length then (s.onGame fun g => { g with current := g.current + 1 }).ballStart
  else if g.ballNumber + 1 ≤ g.params.ballsPerGame then
    (s.onGame fun g => { g with current := 1, ballNumber := g.ballNumber + 1 }).ballStart
  else s.gameOver

/-! ### Resets -/

/-- The Link Port at a soft reset: HUNT, no partial frame, every slot freed (R178). A break in progress goes on. -/
def Link.softReset (l : Link) : Link :=
  { l with receiver := .hunt, frames := [], slots := [], sent := 0, restarting := false }

/-- Every locked count is held at its device's settled count, with DEVICE LOCKED_LOST where it is lowered (R139). DESIGN CHOICE
(notes/assumptions/53.md): the devices are taken in ascending order. -/
def State.holdLocked (s : State) : State := deviceNumbers.foldl State.lockedLost s

/-- The census at a soft reset: MISSING 0, and PLAYFIELD recomputed from the NORMAL state (R139). -/
def State.censusSoftReset (s : State) : State :=
  (s.holdLocked.onCensus fun c =>
    { c with missing := 0, conflict := false, multi := false, save := none, validated := false, missingReturns := 0
             lastStarted := none }).recompute none

/-- The soft reset of the whole part; `cause` is 0 for RESTART and 1 for a break (R187, R191 and each block's own rule). DESIGN
CHOICE (notes/assumptions/45.md): a transition made before the reset and not yet handed on keeps waiting, and is handed on in
IDLE after it, and a hand-on that has come to a pause ends with its root. A request in hand is overtaken (R178). -/
def State.softReset (s : State) (cause : Nat) : State :=
  let s := s.atNow
  let s := ({ s with events := [] } : State).emitFor 0 .restartedSoft 0 cause 0
  let s := s.onLink Link.softReset
  let s := s.clearAllLatches.onScanner fun c => { c with quiet := 0 }
  let s := s.onEngine fun c => { c with triggers := [], root := none, walking := none, paused := none }
  let s := s.onModes fun c => { c with stack := [], nextOrder := 0, deferred := false }
  let s := s.onGame fun g =>
    { g with phase := .idle, players := [], current := 0, ballNumber := 0, lastTilt := none, search := .reset }
  let s := s.clearDevices s.deviceAfterReset
  s.censusSoftReset.recover

/-- HARD_RESET (R18, R46, R86, R113, R139, R142, R157, R178, R191): every table and piece of state takes its hard-reset
content, and a RESTARTED HARD record is queued. The commands still waiting are those of the world outside. -/
def execHardReset (s : State) : Host.Outcome State Fault Refusal :=
  .next { State.reset with pending := s.pending }

end Sys2Proof.Machine
end

