-- ==== Sys2Proof/Machine/Operands.lean ====
section
/-! DEFINITION. Fields and frames of the link (Chapters 9 and 12): little-endian fields, codes read from a payload, the checks and
holding of R177, the outcomes of a reply, and the check of a frame. -/

namespace Sys2Proof.Machine

open Sys2Proof

/-! ### Fields (R192) -/

/-- The number whose bytes are `l`, least significant byte first. -/
def leNat : List Byte → Nat
  | [] => 0
  | b :: rest => b.toNat + 256 * leNat rest

/-- The `width` bytes of `n`, least significant byte first. -/
def leBytes : Nat → Nat → List Byte
  | 0, _ => []
  | width + 1, n => BitVec.ofNat 8 n :: leBytes width (n / 256)

/-- The field of `width` bytes at offset `at_` of payload `p`. -/
def fieldAt (p : List Byte) (at_ width : Nat) : Nat := leNat ((p.drop at_).take width)

/-- The 1-byte field at offset `at_`. -/
def byteAt (p : List Byte) (at_ : Nat) : Nat := fieldAt p at_ 1

/-- A 1-byte field. -/
def u8 (n : Nat) : List Byte := leBytes 1 n
/-- A 2-byte field: a time, the quiet timer, an event argument. -/
def u16 (n : Nat) : List Byte := leBytes 2 n
/-- A 4-byte field: a time stamp, or flags. -/
def u32 (n : BitVec 32) : List Byte := leBytes 4 n.toNat
/-- A 6-byte field: points. -/
def u48 (n : Nat) : List Byte := leBytes 6 n
/-- Yes or no, on or off, a present mark. -/
def mark (b : Bool) : List Byte := u8 (if b then 1 else 0)
/-- A mark before the value it marks, whose bytes are left out when it is absent. -/
def optional {α : Type} (x : Option α) (f : α → List Byte) : List Byte := mark x.isSome ++ (x.map f).getD []

/-- A field's code is that of yes or no. -/
def isMark (n : Nat) : Bool := decide (n ≤ 1)

/-- A class set as its code (R192). -/
def Classes.code (c : Classes) : Nat :=
  (if c.playfield then 1 else 0) + (if c.mode then 2 else 0) + (if c.multiball then 4 else 0)

/-- The class set of a code below 8. -/
def classesOf (n : Nat) : Classes := ⟨n.testBit 0, n.testBit 1, n.testBit 2⟩

/-- A record of the Event Queue on the line (R194). DESIGN CHOICE (notes/assumptions/55.md): an argument above 65,535 is sent as its
two low bytes. -/
def EventRecord.bytes (r : EventRecord) : List Byte :=
  u8 r.event.kind ++ u8 r.event.code ++ u8 r.player ++ u8 r.subject ++ u32 r.time ++ u16 r.argument ++ u48 r.value

/-! ### Checks and holding (R177) -/

/-- The lowest field that fails its check, from fields and whether they pass, in field order. -/
def firstBad (checks : List (Nat × Bool)) : Option Nat := (checks.find? fun c => !c.2).map (·.1)

/-- A quantity held to its range. -/
def held (lo hi n : Nat) : Nat := max lo (min n hi)

/-- A point quantity held at the top of its range and rounded down to a multiple of 10. -/
def heldPoints (hi n : Nat) : Nat := downToTen (min n hi)

/-! ### Answers (R176, R193) -/

/-- The answer of a request: its outcome and what the outcome calls for. -/
inductive Answer where
  | ok (data : List Byte)
  | clamped (data : List Byte)
  | notApplied
  | unknownType
  | length
  | range (field : Nat)
  | phase
  | config (check subject detail : Nat)
  | full
  deriving DecidableEq, Repr

/-- The payload of the reply that carries an answer (R193). -/
def Answer.bytes : Answer → List Byte
  | .ok data => u8 0 ++ data
  | .clamped data => u8 1 ++ data
  | .notApplied => u8 2
  | .unknownType => [3, 1, 0, 0, 0, 0]
  | .length => [3, 2, 0, 0, 0, 0]
  | .range field => [3, 3] ++ u8 field ++ [0, 0, 0]
  | .phase => [3, 4, 0, 0, 0, 0]
  | .config check subject detail => [3, 5] ++ u8 check ++ u8 subject ++ u16 detail
  | .full => [3, 6, 0, 0, 0, 0]

/-- OK, or CLAMPED when a quantity was held or rounded (R177). -/
def Answer.applied (heldAny : Bool) (data : List Byte := []) : Answer := if heldAny then .clamped data else .ok data

/-! ### The check of a frame (R172) -/

/-- One shift of the check register toward its low end. -/
def crcShift (r : BitVec 16) : BitVec 16 := if r.getLsbD 0 then (r >>> 1) ^^^ 0xA001#16 else r >>> 1

/-- One byte is taken into the check register. -/
def crcByte (r : BitVec 16) (b : Byte) : BitVec 16 := repeated crcShift 8 (r ^^^ b.setWidth 16)

/-- The check register after the bytes `l`, from 0. -/
def crcRegister (l : List Byte) : BitVec 16 := l.foldl crcByte 0

/-- The two check bytes of a frame whose length, type, tag and payload bytes are `l`: the complement, low byte first. -/
def checkBytes (l : List Byte) : List Byte := u16 (~~~crcRegister l).toNat

/-- The bytes of a frame (R171): lead, length, type, tag, payload, check. -/
def frameBytes (r : Request) : List Byte :=
  let body := u8 (r.payload.length + 2) ++ [r.type, r.tag] ++ r.payload
  Config.leadByte :: body ++ checkBytes body

/-- The request of a completed frame, given from its length byte on, when its check agrees (R172). -/
def readFrame (frame : List Byte) : Option Request :=
  let body := frame.take (frame.length - 2)
  if frame.drop (frame.length - 2) = checkBytes body then
    match body with
    | _ :: type :: tag :: payload => some ⟨type, tag, payload⟩
    | _ => none
  else none

end Sys2Proof.Machine
end

