-- ==== Sys2Proof/Machine/Link.lean ====
section
/-! DEFINITION. The Link Port (Chapter 9): the receiver, breaks, the reply queue, and how a request is handed on and answered. -/

namespace Sys2Proof.Machine

open Sys2Proof

/-! ### The receiver (R173) -/

/-- The byte taken where the receiver waits for a length. -/
def Link.lengthByte (l : Link) (b : Byte) : Link :=
  if 2 ≤ b.toNat ∧ b.toNat ≤ 250 then { l with receiver := .collect b.toNat [] }
  else if b = Config.leadByte then l
  else { l with receiver := .hunt }

/-- A byte added to the partial frame; with the second check byte the frame is complete and the receiver enters HUNT. -/
def Link.dataByte (l : Link) (n : Nat) (got : List Byte) (b : Byte) : Link :=
  if n + 2 ≤ got.length + 1 then
    { l with receiver := .hunt, frames := l.frames ++ [BitVec.ofNat 8 n :: (got ++ [b])] }
  else { l with receiver := .collect n (got ++ [b]) }

/-- A correctly framed byte is taken by the receiver's state; none is taken while a break lasts (R173, R174). -/
def Link.takeByte (l : Link) (b : Byte) : Link :=
  if l.inBreak then l
  else match l.receiver with
    | .hunt => if b = Config.leadByte then { l with receiver := .awaitLength } else l
    | .awaitLength => l.lengthByte b
    | .collect n got => l.dataByte n got b

/-- The partial frame, if any, is discarded and the receiver enters HUNT (R173). -/
def Link.discardPartial (l : Link) : Link := { l with receiver := .hunt }

/-- BYTE_RECEIVED (R173). -/
def execByteReceived (byte : Byte) (s : State) : Host.Outcome State Fault Refusal :=
  .next (s.onLink fun l => l.takeByte byte)

/-- FRAMING_ERROR (R173): the byte is discarded, with the partial frame in COLLECT. -/
def execFramingError (s : State) : Host.Outcome State Fault Refusal :=
  .next (s.onLink Link.discardPartial)

/-- INTER_BYTE_GAP (R173): more than 2 ms within a frame discards the partial frame. -/
def execInterByteGap (s : State) : Host.Outcome State Fault Refusal :=
  .next (s.onLink Link.discardPartial)

/-! ### Breaks (R174) -/

/-- BREAK (R174): the partial frame is discarded, and no byte is taken until the line returns high. -/
def execLineBreak (s : State) : Host.Outcome State Fault Refusal :=
  .next (s.onLink fun l => if l.inBreak then l else { l.discardPartial with inBreak := true, breakTaken := false })

/-- LONG_BREAK (R174): a break reaching 500 ms causes one soft reset, however long it lasts. -/
def execLongBreak (s : State) : Host.Outcome State Fault Refusal :=
  .next (if s.link.inBreak ∧ s.link.breakTaken = false then
    (s.onLink fun l => { l with breakTaken := true }).softReset 1 else s)

/-- BREAK_END (R174): the receiver takes bytes again, in HUNT. -/
def execLineBreakEnd (s : State) : Host.Outcome State Fault Refusal :=
  .next (s.onLink fun l => if l.inBreak then { l.discardPartial with inBreak := false, breakTaken := false } else l)

/-! ### The reply queue (R175, R178) -/

/-- A request is accepted into a free slot; with all four held, or once a RESTART has ended, it is discarded silently. -/
def Link.accept (l : Link) (r : Request) : Link :=
  if l.slots.length < Config.replySlots ∧ l.restarting = false then { l with slots := l.slots ++ [.waiting r] } else l

/-- The oldest completed frame is taken: accepted when intact and a slot is free, otherwise discarded silently. -/
def Link.takeFrame (l : Link) : Link :=
  match l.frames with
  | [] => l
  | f :: rest =>
    match readFrame f with
    | some r => ({ l with frames := rest } : Link).accept r
    | none => { l with frames := rest }

/-- REQUEST_FRAME (R175). -/
def execRequestFrame (s : State) : Host.Outcome State Fault Refusal :=
  .next (s.onLink Link.takeFrame)

/-- A whole frame can arrive at once: no break lasts, no frame is half taken, none completed earlier waits to be taken, and a slot
is free (R173, R174, R175). -/
def Link.takesWhole (l : Link) : Bool :=
  !l.inBreak && l.receiver == .hunt && l.frames.isEmpty && decide (l.slots.length < Config.replySlots)

/-- The Link Port with request `r` as the one to be handed on next: `r` is the oldest waiting request, or none waits and
`r` arrives as a whole frame and finds a free slot. Absent when `r` cannot be handed on (R175, R178; DESIGN CHOICE,
notes/assumptions/1.md). -/
def Link.toHandOn (l : Link) (r : Request) : Option Link :=
  if l.restarting then none
  else match firstWaiting l.slots with
    | some q => if q = r then some l else none
    | none => if l.takesWhole then some { l with slots := l.slots ++ [.waiting r] } else none

/-- The requests that are taken between walks as TRIGGER is, and so never within the hand-on of a transition (section 10.1, R44):
END_GAME, TRIGGER, GRANT, MODE_CONTROL, SET_PLAYER, CLEAR_LATCHES, STATUS, READ_PLAYER, READ_MODES and READ_SWITCHES. -/
def betweenWalks (type : Byte) : Bool := [12, 13, 14, 15, 16, 19, 20, 21, 22, 25].contains type.toNat

/-- The work that has come to a pause holds back a request of this type: every request while one is in hand (R175), and those taken
between walks within the hand-on of a closure (R44). -/
def State.holdsBack (s : State) (type : Byte) : Bool :=
  s.inHand || (s.engine.paused.isSome && betweenWalks type)

/-- The state in which request `r` is being handed on, if it can be (R44, R175). -/
def State.toHandOn (s : State) (r : Request) : Option State :=
  if s.holdsBack r.type then none
  else (s.link.toHandOn r).map fun l => ({ s with link := l } : State).atNow

/-- The reply with answer `a` is placed in the slot of request `r`, ready to send (R175, R193). -/
def State.reply (s : State) (r : Request) (a : Answer) : State :=
  s.onLink fun l => { l with slots := answerSlot ⟨r.type, r.tag, a.bytes⟩ l.slots }

/-- A request of type `type` is handed on to `f`, which takes the payload and gives the state and the answer. One that stays in hand
is answered when it ends, by State.resume. A request that cannot be handed on changes nothing. -/
def State.request (s : State) (type tag : Byte) (payload : List Byte) (f : List Byte → State → State × Answer) : State :=
  match s.toHandOn ⟨type, tag, payload⟩ with
  | none => s
  | some ready =>
    if (f payload ready).1.inHand then (f payload ready).1
    else (f payload ready).1.reply ⟨type, tag, payload⟩ (f payload ready).2

/-- UNKNOWN_TYPE (R175, R193): a request of type 0 or 28..255 is ended with REJECTED UNKNOWN_TYPE. -/
def execUnknownType (type tag : Byte) (payload : List Byte) (s : State) : Host.Outcome State Fault Refusal :=
  .next (if type.toNat = 0 ∨ 28 ≤ type.toNat then s.request type tag payload fun _ s => (s, .unknownType) else s)

/-- One byte of the oldest ready reply leaves TXD; with the last, its second check byte, its slot is free (R171, R175). -/
def Link.sendByte (l : Link) : Link :=
  match l.slots with
  | .ready r :: rest =>
    if l.sent < r.payload.length + 5 then { l with sent := l.sent + 1 } else { l with slots := rest, sent := 0 }
  | _ => l

/-- The oldest ready reply is sent to its end: the bytes of it still to go leave TXD one after another, its slot is free when the
last has left, and the soft reset follows the reply of a RESTART (R175, R178). DESIGN CHOICE (notes/assumptions/44.md): no row of
the table stands for one byte leaving TXD, so REPLY_SENT stands for the leaving of all that are still to go. -/
def State.replySent (s : State) : State :=
  match s.link.slots with
  | .ready r :: _ =>
    let s := s.onLink (repeated Link.sendByte (r.payload.length + 5 - s.link.sent + 1))
    if s.link.restarting ∧ r.type = 27 ∧ r.payload = [0] then s.softReset 0 else s
  | _ => s

/-- REPLY_SENT (R175, R178, R187). -/
def execReplySent (s : State) : Host.Outcome State Fault Refusal :=
  .next s.replySent

/-- An idle step of the part, with no command waiting: the root in progress makes its next pending walk (R42); work whose root has
ended goes on (R32, R185); otherwise the transmitter sends a byte of the oldest ready reply, but for its last, whose sending is
REPLY_SENT (R175). -/
def State.idle (s : State) : State :=
  if s.engine.root.isSome then s.pendingWalk
  else if s.engine.paused.isSome then s.resume true
  else match s.link.slots with
    | .ready r :: _ =>
      if s.link.sent < r.payload.length + 5 then s.onLink Link.sendByte else s
    | _ => s

/-- The byte that TXD is sending next: the byte at the transmitter's place in the oldest ready reply (R171, R175). -/
def State.txByte (s : State) : Option Byte :=
  match s.link.slots with
  | .ready r :: _ => (frameBytes r)[s.link.sent]?
  | _ => none

end Sys2Proof.Machine
end

