-- ==== Sys2Proof/Machine/Loads.lean ====
section
/-! DEFINITION. The requests that load or clear configuration: SET_GAME (R143), SET_SWITCH (R12), SET_GROUP (R15),
SET_MODE (R65), SET_MULTIBALL (R130), SET_AWARD (R25, R26) and CLEAR_TABLES (R184). SET_DEVICE has a file of its own. -/

namespace Sys2Proof.Machine

open Sys2Proof

/-- A configuration load outside IDLE is answered NOT_APPLIED before anything else; then the length, then the range checks
(R176, R179). -/
def State.load (s : State) (lengthOk : Bool) (bad : Option Nat) (apply : State → State × Answer) : State × Answer :=
  if s.game.phase ≠ .idle then (s, .notApplied)
  else if lengthOk = false then (s, .length)
  else match bad with
    | some field => (s, .range field)
    | none => apply s

/-! ### SET_SWITCH -/

/-- The role of a SET_SWITCH role code; DEVICE is refused (R12). -/
def roleOfCode : Nat → Role
  | 1 => .cabinet | 2 => .tilt | 3 => .slam | 4 => .unused | _ => .playfield

/-- The report setting of a code (R4). -/
def reportOfCode : Nat → Report
  | 1 => .close | 2 => .both | _ => .none

/-- SET_SWITCH by its payload: switch, close debounce, open debounce, role, report (R12). -/
def loadSwitch (p : List Byte) (s : State) : State × Answer :=
  let i := byteAt p 0
  let close := fieldAt p 1 2
  let opening := fieldAt p 3 2
  s.load (p.length == 7)
    (firstBad [(1, decide (i < Config.switchCount)), (4, decide (byteAt p 5 < 5)), (5, decide (byteAt p 6 < 3))])
    fun s =>
      let record : SwitchRecord :=
        ⟨held 1 32 close, held 1 32 opening, roleOfCode (byteAt p 5), reportOfCode (byteAt p 6)⟩
      ((s.onSwitch i fun w => { w with record := record }).quenchUnused,
        .applied (record.closeDebounce != close || record.openDebounce != opening))

/-- SET_SWITCH (R12). -/
def execSetSwitch (tag : Byte) (payload : List Byte) (s : State) : Host.Outcome State Fault Refusal :=
  .next (s.request 2 tag payload loadSwitch)

/-! ### SET_GROUP -/

/-- The field number of the first member of `l` that stands earlier in the list, `l` starting at field `n` (R15). -/
def firstRepeat (seen : List Nat) : List Nat → Nat → Option Nat
  | [], _ => none
  | x :: rest, n => if seen.contains x then some n else firstRepeat (x :: seen) rest (n + 1)

/-- SET_GROUP by its payload: group, per-ball setting, member count, members (R15). -/
def loadGroup (p : List Byte) (s : State) : State × Answer :=
  let g := byteAt p 0
  let members := (p.drop 3).map BitVec.toNat
  let ranges := firstBad ([(1, decide (g < Config.groupCount)), (2, isMark (byteAt p 1)),
    (3, decide (byteAt p 2 ≤ Config.groupMembers))] ++
    members.zipIdx.map fun x => (4 + x.2, decide (x.1 < Config.switchCount)))
  s.load (decide (3 ≤ p.length) && p.length == 3 + byteAt p 2) (ranges.or (firstRepeat [] members 4)) fun s =>
    (s.onScanner fun c => { c with groups := writeTable c.groups g ⟨members, byteAt p 1 == 1⟩ }, .ok [])

/-- SET_GROUP (R15). -/
def execSetGroup (tag : Byte) (payload : List Byte) (s : State) : Host.Outcome State Fault Refusal :=
  .next (s.request 3 tag payload loadGroup)

/-! ### SET_MODE -/

/-- The definition a SET_MODE payload carries, with its quantities held (R65 step 4). -/
def modeDefOf (p : List Byte) : ModeDef where
  defined := byteAt p 1 == 1
  priority := min (byteAt p 2) 15
  exclusive := byteAt p 3 == 1
  duration := min (fieldAt p 4 2) 6000
  goal := byteAt p 6
  startValue := heldPoints Config.pointLimit (fieldAt p 7 6)
  valueStep := heldPoints Config.pointLimit (fieldAt p 13 6)
  multiplier := held 1 4 (byteAt p 19)
  lends := byteAt p 20 == 1
  atBallEnd := if byteAt p 21 = 1 then .saves else .ends
  endsAtMultiballEnd := byteAt p 22 == 1
  completionValue := heldPoints Config.pointLimit (fieldAt p 23 6)
  completionClasses := classesOf (byteAt p 29)
  timerHold := byteAt p 30 == 1

/-- A quantity of a SET_MODE payload was held or rounded. -/
def modeDefHeld (p : List Byte) : Bool :=
  let d := modeDefOf p
  d.priority != byteAt p 2 || d.duration != fieldAt p 4 2 || d.startValue != fieldAt p 7 6 ||
    d.valueStep != fieldAt p 13 6 || d.multiplier != byteAt p 19 || d.completionValue != fieldAt p 23 6

/-- SET_MODE by its payload: the mode, then every field of R64 in its order (R65). -/
def loadMode (p : List Byte) (s : State) : State × Answer :=
  let m := byteAt p 0
  s.load (p.length == 31)
    (firstBad [(1, decide (m < Config.modeCount)), (2, isMark (byteAt p 1)), (4, isMark (byteAt p 3)),
      (10, isMark (byteAt p 20)), (11, decide (byteAt p 21 < 2)), (12, isMark (byteAt p 22)),
      (14, decide (byteAt p 29 < 8)), (15, isMark (byteAt p 30))])
    fun s =>
      let d := modeDefOf p
      (s.onModes fun c => { c with defs := writeTable c.defs m (if d.defined then d else .undefined) },
        .applied (d.defined && modeDefHeld p))

/-- SET_MODE (R65). -/
def execSetMode (tag : Byte) (payload : List Byte) (s : State) : Host.Outcome State Fault Refusal :=
  .next (s.request 5 tag payload loadMode)

/-! ### SET_MULTIBALL -/

/-- SET_MULTIBALL by its payload: definition, defined, target, release locked, save time, start mode with its mark,
jackpot reset (R129, R130). -/
def loadMultiball (p : List Byte) (s : State) : State × Answer :=
  let k := byteAt p 0
  let present := byteAt p 6 != 0
  let last := if present then 8 else 7
  let mode := if present then some (byteAt p 7) else none
  s.load (decide (7 ≤ p.length) && p.length == last + 1)
    (firstBad [(1, decide (k < Config.multiballCount)), (2, isMark (byteAt p 1)), (4, isMark (byteAt p 3)),
      (6, isMark (byteAt p 6)), (7, mode.all fun m => decide (m < Config.modeCount)), (8, isMark (byteAt p last))])
    fun s =>
      let d : MultiballDef :=
        { defined := byteAt p 1 == 1, target := held 2 6 (byteAt p 2), releaseLocked := byteAt p 3 == 1
          saveTime := min (fieldAt p 4 2) 300, startMode := mode, jackpotReset := byteAt p last == 1 }
      (s.onCensus fun c => { c with defs := writeTable c.defs k (if d.defined then d else .undefined) },
        .applied (d.defined && (d.target != byteAt p 2 || d.saveTime != fieldAt p 4 2)))

/-- SET_MULTIBALL (R130). -/
def execSetMultiball (tag : Byte) (payload : List Byte) (s : State) : Host.Outcome State Fault Refusal :=
  .next (s.request 6 tag payload loadMultiball)

/-! ### SET_AWARD (R25, R26, section 12.2.1) -/

/-- The kind of an action code (section 12.2.1). -/
def actionKindOfCode : Nat → ActionKind
  | 0 => .flagSet | 1 => .flagClear | 2 => .flagToggle | 3 => .latchClear | 4 => .modeStart | 5 => .modeStop
  | 6 => .modeProgress | 7 => .jackpotBuild | 8 => .jackpotReset | 9 => .lockLight | 10 => .bonusAdd | 11 => .bonusMultUp
  | 12 => .pfMultUp | 13 => .extraBall | 14 => .mbStart | 15 => .addBall | _ => .trigger

/-- The code of an action kind (section 12.2.1). -/
def ActionKind.code : ActionKind → Nat
  | .flagSet => 0 | .flagClear => 1 | .flagToggle => 2 | .latchClear => 3 | .modeStart => 4 | .modeStop => 5
  | .modeProgress => 6 | .jackpotBuild => 7 | .jackpotReset => 8 | .lockLight => 9 | .bonusAdd => 10 | .bonusMultUp => 11
  | .pfMultUp => 12 | .extraBall => 13 | .mbStart => 14 | .addBall => 15 | .trigger => 16

/-- A structural argument lies in its kind's range; every other argument passes (R26). -/
def ActionKind.argumentOk : ActionKind → Nat → Bool
  | .flagSet, x | .flagClear, x | .flagToggle, x => decide (x ≤ 31)
  | .latchClear, x => decide (x ≤ 7)
  | .modeStart, x | .modeStop, x | .modeProgress, x => decide (x ≤ 15)
  | .mbStart, x => decide (x ≤ 3)
  | .trigger, x => decide (72 ≤ x) && decide (x ≤ 79)
  | .jackpotBuild, _ | .jackpotReset, _ | .lockLight, _ | .bonusAdd, _ | .bonusMultUp, _ | .pfMultUp, _ | .extraBall, _
  | .addBall, _ => true

/-- The argument as stored: quantities held, ignored arguments 0 (R26). -/
def ActionKind.stored : ActionKind → Nat → Nat
  | .jackpotBuild, x => min x Config.pointLimit
  | .lockLight, x => min x 4
  | .bonusAdd, x => min x Config.bonusCountLimit
  | .jackpotReset, _ | .bonusMultUp, _ | .pfMultUp, _ | .extraBall, _ | .addBall, _ => 0
  | .flagSet, x | .flagClear, x | .flagToggle, x | .latchClear, x | .modeStart, x | .modeStop, x | .modeProgress, x
  | .mbStart, x | .trigger, x => x

/-- The kind's argument is a quantity, which a load may hold (R26). -/
def ActionKind.quantity : ActionKind → Bool
  | .jackpotBuild | .lockLight | .bonusAdd => true
  | _ => false

/-- The condition source of a code. -/
def sourceOfCode : Nat → Source
  | 1 => .level | 2 => .flag | 3 => .groupDone | 4 => .lockLit | _ => .latch

/-- The code of a condition source. -/
def Source.code : Source → Nat
  | .latch => 0 | .level => 1 | .flag => 2 | .groupDone => 3 | .lockLit => 4

/-- An operand lies in its source's range; LOCK_LIT ignores its operands (R30). -/
def Source.operandOk : Source → Nat → Bool
  | .latch, x | .level, x => decide (x < Config.switchCount)
  | .flag, x => decide (x ≤ 31)
  | .groupDone, x => decide (x < Config.groupCount)
  | .lockLit, _ => true

/-- An operand as stored: 0 when its source ignores it (R26). -/
def Source.stored (source : Source) (x : Nat) : Nat := if source = .lockLit then 0 else x

/-- A SET_AWARD payload cut into its parts; `conditionSize` is the number of bytes its condition takes after its mark. -/
structure AwardParts where
  conditionSize : Nat
  tail : Nat
  count : Nat
  deriving DecidableEq, Repr

/-- The parts of a SET_AWARD payload, from its present marks (section 12.2.1). -/
def awardParts (p : List Byte) : AwardParts :=
  let size := if byteAt p 7 = 0 then 0 else if byteAt p 10 = 0 then 4 else 5
  ⟨size, 8 + size, byteAt p (8 + size + 10)⟩

/-- The length of a SET_AWARD payload agrees with its marks and its action count. -/
def awardLengthOk (p : List Byte) : Bool :=
  let a := awardParts p
  decide (19 + a.conditionSize ≤ p.length) && p.length == 19 + a.conditionSize + 7 * a.count

/-- The kind code and argument of action `j` (from 0) of a SET_AWARD payload. -/
def awardAction (p : List Byte) (j : Nat) : Nat × Nat :=
  let at_ := (awardParts p).tail + 11 + 7 * j
  (byteAt p at_, fieldAt p (at_ + 1) 6)

/-- The condition a SET_AWARD payload carries, before storing. -/
def awardCondition (p : List Byte) : Option Condition :=
  let a := awardParts p
  if a.conditionSize = 0 then none
  else
    let source := sourceOfCode (byteAt p 8)
    let b := if a.conditionSize = 5 then some (source.stored (byteAt p 11)) else none
    some ⟨source, source.stored (byteAt p 9), b, if byteAt p (a.tail - 1) = 1 then .whenClear else .whenSet⟩

/-- The checks of R25 step 3 over a condition's fields. -/
def conditionChecks (p : List Byte) : List (Nat × Bool) :=
  let a := awardParts p
  if a.conditionSize = 0 then []
  else
    let source := sourceOfCode (byteAt p 8)
    [(9, decide (byteAt p 8 < 5)), (10, source.operandOk (byteAt p 9)), (11, isMark (byteAt p 10)),
      (12, a.conditionSize != 5 || source.operandOk (byteAt p 11)), (13, decide (byteAt p (a.tail - 1) < 2))]

/-- The checks of R25 step 3 over the actions' fields. -/
def actionChecks (p : List Byte) : List (Nat × Bool) :=
  (List.range (min (awardParts p).count 4)).flatMap fun j =>
    let a := awardAction p j
    [(20 + 2 * j, decide (a.1 < 17)), (21 + 2 * j, (actionKindOfCode a.1).argumentOk a.2)]

/-- The lowest out-of-range field of a SET_AWARD payload (R25 step 3). -/
def awardBad (p : List Byte) : Option Nat :=
  let t := (awardParts p).tail
  firstBad ([(2, decide (byteAt p 1 < 3)), (3, decide (byteAt p 2 < Config.triggerCount)), (4, decide (byteAt p 3 < 2)),
      (5, decide (byteAt p 4 < 3)), (6, byteAt p 4 == 0 || decide (byteAt p 5 < Config.modeCount)),
      (7, decide (byteAt p 6 < 3)), (8, isMark (byteAt p 7))] ++ conditionChecks p ++
    [(14, decide (byteAt p t < 4)), (16, decide (byteAt p (t + 7) < 8)), (17, decide (byteAt p (t + 8) < 2)),
      (18, isMark (byteAt p (t + 9))), (19, decide (byteAt p (t + 10) ≤ 4))] ++ actionChecks p)

/-- The entry a SET_AWARD payload carries, as stored (R26). -/
def awardOf (p : List Byte) : AwardEntry :=
  let t := (awardParts p).tail
  { state := if byteAt p 1 = 2 then .enabled else if byteAt p 1 = 1 then .disabled else .empty
    trigger := byteAt p 2
    edge := if byteAt p 3 = 1 then .opening else .close
    gateKind := if byteAt p 4 = 2 then .absent else if byteAt p 4 = 1 then .running else .any
    gateMode := if byteAt p 4 = 0 then 0 else byteAt p 5
    ballGate := if byteAt p 6 = 2 then .multi else if byteAt p 6 = 1 then .single else .any
    condition := awardCondition p
    source := match byteAt p t with | 0 => .fixed | 1 => .jackpot | 2 => .modeValue | _ => .none
    base := heldPoints Config.pointLimit (fieldAt p (t + 1) 6)
    classes := classesOf (byteAt p (t + 7))
    actions := (List.range (awardParts p).count).map fun j =>
      let a := awardAction p j
      ⟨actionKindOfCode a.1, (actionKindOfCode a.1).stored a.2⟩
    continuation := if byteAt p (t + 8) = 1 then .goOn else .stop
    report := byteAt p (t + 9) == 1 }

/-- A value of a SET_AWARD payload was held or rounded (R26). -/
def awardHeld (p : List Byte) : Bool :=
  (awardOf p).base != fieldAt p ((awardParts p).tail + 1) 6 ||
    (List.range (awardParts p).count).any fun j =>
      let a := awardAction p j
      (actionKindOfCode a.1).quantity && (actionKindOfCode a.1).stored a.2 != a.2

/-- SET_AWARD by its payload (R25, R26). The chains follow the table (R24). -/
def loadAward (p : List Byte) (s : State) : State × Answer :=
  s.load (awardLengthOk p) (awardBad p) fun s =>
    let e := awardOf p
    let stored := if e.state = .empty then AwardEntry.empty else e
    (s.onEngine fun c => { c with awards := writeTable c.awards (byteAt p 0) stored },
      .applied (e.state != .empty && awardHeld p))

/-- SET_AWARD (R25). -/
def execSetAward (tag : Byte) (payload : List Byte) (s : State) : Host.Outcome State Fault Refusal :=
  .next (s.request 7 tag payload loadAward)

/-! ### CLEAR_TABLES -/

/-- CLEAR_TABLES by its payload, a selection: AWARDS, MODES, GROUPS, MULTIBALL, ALL (R184). -/
def clearTables (p : List Byte) (s : State) : State × Answer :=
  let sel := byteAt p 0
  s.load (p.length == 1) (firstBad [(1, decide (sel < 5))]) fun s =>
    let s := if sel = 0 ∨ sel = 4 then s.onEngine fun c => { c with awards := Engine.reset.awards } else s
    let s := if sel = 1 ∨ sel = 4 then s.onModes fun c => { c with defs := Modes.reset.defs } else s
    let s := if sel = 2 ∨ sel = 4 then s.onScanner fun c => { c with groups := Scanner.reset.groups } else s
    (if sel = 3 ∨ sel = 4 then s.onCensus fun c => { c with defs := Census.reset.defs } else s, .ok [])

/-- CLEAR_TABLES (R184). -/
def execClearTables (tag : Byte) (payload : List Byte) (s : State) : Host.Outcome State Fault Refusal :=
  .next (s.request 8 tag payload clearTables)

/-! ### SET_GAME -/

/-- The thresholds a SET_GAME payload carries, before holding. -/
def thresholdsOf (p : List Byte) : List Nat := (List.range (byteAt p 38)).map fun j => fieldAt p (39 + 6 * j) 6

/-- The parameters a SET_GAME payload carries, in the order of R142, with their quantities held (R143 step 4). -/
def paramsOf (p : List Byte) : Params where
  installed := held 1 8 (byteAt p 0)
  ballsPerGame := held 1 9 (byteAt p 1)
  maxPlayers := held 1 4 (byteAt p 2)
  ballSaveTime := min (fieldAt p 3 2) 300
  searchDelay := held 5 60 (byteAt p 5)
  searchRounds := held 1 9 (byteAt p 6)
  missingReplace := byteAt p 7 == 1
  tiltWarnings := min (byteAt p 8) 5
  coilBudget := held 1 3 (byteAt p 9)
  factorCap := held 1 4 (byteAt p 10)
  locksNeeded := held 1 4 (byteAt p 11)
  lockLitCarry := byteAt p 12 == 1
  flagCarry := BitVec.ofNat 32 (fieldAt p 13 4)
  bonusUnit := heldPoints Config.bonusUnitLimit (fieldAt p 17 6)
  bonusMultCarry := byteAt p 23 == 1
  jackpotBase := heldPoints Config.jackpotLimit (fieldAt p 24 6)
  jackpotCap := heldPoints Config.jackpotLimit (fieldAt p 30 6)
  buildPercent := min (byteAt p 36) 50
  extraBallLimit := min (byteAt p 37) 9
  thresholds := (thresholdsOf p).map (heldPoints Config.scoreLimit)

/-- A quantity of a SET_GAME payload was held or rounded. -/
def paramsHeld (p : List Byte) : Bool :=
  let g := paramsOf p
  g.installed != byteAt p 0 || g.ballsPerGame != byteAt p 1 || g.maxPlayers != byteAt p 2 ||
    g.ballSaveTime != fieldAt p 3 2 || g.searchDelay != byteAt p 5 || g.searchRounds != byteAt p 6 ||
    g.tiltWarnings != byteAt p 8 || g.coilBudget != byteAt p 9 || g.factorCap != byteAt p 10 ||
    g.locksNeeded != byteAt p 11 || g.bonusUnit != fieldAt p 17 6 || g.jackpotBase != fieldAt p 24 6 ||
    g.jackpotCap != fieldAt p 30 6 || g.buildPercent != byteAt p 36 || g.extraBallLimit != byteAt p 37 ||
    g.thresholds != thresholdsOf p

/-- The field number of the first threshold of `l` that is not strictly above the one before it, `l` starting at field `n`
with `prev` before it (R143 step 5). -/
def firstUnordered : Option Nat → List Nat → Nat → Option Nat
  | _, [], _ => none
  | prev, t :: rest, n => if prev.any fun q => decide (t ≤ q) then some n else firstUnordered (some t) rest (n + 1)

/-- The parameters are replaced at once: a new N recomputes PLAYFIELD, a new coil budget cuts pulses beyond it (R143 step 6,
R144). DESIGN CHOICE (notes/assumptions/56.md): where both change, the recomputation comes before the cuts. -/
def State.setParams (s : State) (g : Params) : State :=
  let old := s.game.params
  let s := s.catchUp.atNow.onGame fun c => { c with params := g }
  let s := if g.installed = old.installed then s else s.recompute none
  if g.coilBudget = old.coilBudget then s else s.cutPulses

/-- SET_GAME by its payload (R143). -/
def loadGame (p : List Byte) (s : State) : State × Answer :=
  s.load (decide (39 ≤ p.length) && p.length == 39 + 6 * byteAt p 38)
    ((firstBad [(7, isMark (byteAt p 7)), (12, isMark (byteAt p 12)), (15, isMark (byteAt p 23)),
      (20, decide (byteAt p 38 ≤ 4))]).or (firstUnordered none (paramsOf p).thresholds 21))
    fun s => (s.setParams (paramsOf p), .applied (paramsHeld p))

/-- SET_GAME (R143). -/
def execSetGame (tag : Byte) (payload : List Byte) (s : State) : Host.Outcome State Fault Refusal :=
  .next (s.request 1 tag payload loadGame)

end Sys2Proof.Machine
end

