-- ==== Sys2Proof/Machine/LoadDevice.lean ====
section
/-! DEFINITION. SET_DEVICE (R89, R90, section 12.2.2): the payload with its present marks, its checks, the record it stores, and
what a load does to the device at once. -/

namespace Sys2Proof.Machine

open Sys2Proof

/-! ### The payload -/

/-- A present mark and the value it marks; `next` is the offset of the byte after them. -/
structure Marked where
  mark : Nat
  value : Option Nat
  next : Nat
  deriving DecidableEq, Repr

/-- The mark at offset `at_` of payload `p` and its value of `width` bytes, left out when the mark is 0 (R192). -/
def markedAt (p : List Byte) (at_ width : Nat) : Marked :=
  if byteAt p at_ = 0 then ⟨0, none, at_ + 1⟩ else ⟨byteAt p at_, some (fieldAt p (at_ + 1) width), at_ + 1 + width⟩

/-- A SET_DEVICE payload cut into its fields (section 12.2.2). -/
structure DevicePayload where
  device : Nat
  role : Nat
  profile : Nat
  coil : Nat
  autoRetry : Nat
  keep : Nat
  keepLimit : Marked
  report : Nat
  entrySwitch : Marked
  exitSwitch : Marked
  counting : Marked
  capacity : Marked
  pulse : Marked
  settle : Marked
  confirm : Marked
  retryInterval : Marked
  retryLimit : Marked
  holdOff : Marked
  count : Nat
  positions : List Nat
  deriving DecidableEq, Repr

/-- The fields of a SET_DEVICE payload. -/
def devicePayload (p : List Byte) : DevicePayload :=
  let keepLimit := markedAt p 6 1
  let entry := markedAt p (keepLimit.next + 1) 1
  let exit := markedAt p entry.next 1
  let counting := markedAt p exit.next 1
  let capacity := markedAt p counting.next 1
  let pulse := markedAt p capacity.next 2
  let settle := markedAt p pulse.next 2
  let confirm := markedAt p settle.next 2
  let interval := markedAt p confirm.next 2
  let limit := markedAt p interval.next 1
  let holdOff := markedAt p limit.next 2
  { device := byteAt p 0, role := byteAt p 1, profile := byteAt p 2, coil := byteAt p 3, autoRetry := byteAt p 4
    keep := byteAt p 5, keepLimit := keepLimit, report := byteAt p keepLimit.next, entrySwitch := entry
    exitSwitch := exit, counting := counting, capacity := capacity, pulse := pulse, settle := settle
    confirm := confirm, retryInterval := interval, retryLimit := limit, holdOff := holdOff
    count := byteAt p holdOff.next, positions := (p.drop (holdOff.next + 1)).map BitVec.toNat }

/-- The payload's length agrees with its marks and its position-switch count (R89 step 2). -/
def deviceLengthOk (p : List Byte) : Bool :=
  let f := devicePayload p
  decide (f.holdOff.next < p.length) && f.positions.length == f.count

/-! ### The checks of R89 -/

/-- The role of a code (section 12.2.2). -/
def deviceRoleOfCode : Nat → DeviceRole
  | 1 => .trough | 2 => .shooter | 3 => .lock | 4 => .saucer | _ => .unused

/-- The code of a device role (section 12.2.2). -/
def DeviceRole.code : DeviceRole → Nat
  | .unused => 0 | .trough => 1 | .shooter => 2 | .lock => 3 | .saucer => 4

/-- A role code that names a role which device `d` may have (R87). -/
def deviceRoleOk (d code : Nat) : Bool :=
  code == 0 || (if d = 0 then code == 1 else if d = 1 then code == 2 else code == 3 || code == 4)

/-- The counting method of a code (section 12.2.2). -/
def countingOfCode : Nat → Counting
  | 1 => .entryExit | 2 => .entryBlind | _ => .positions

/-- The code of a counting method (section 12.2.2). -/
def Counting.code : Counting → Nat
  | .positions => 0 | .entryExit => 1 | .entryBlind => 2

/-- Most position switches of device `d` (R87), which is also its highest capacity override (R88). -/
def mostBalls (d : Nat) : Nat := if d = 0 then 8 else 4

/-- An entry or exit switch in range and not in the device's own position list (R89 step 3). -/
def DevicePayload.ballSwitchOk (f : DevicePayload) (m : Marked) : Bool :=
  m.value.all fun i => decide (i < Config.switchCount) && !f.positions.contains i

/-- The checks of R89 step 3 over the position switches, from field 31 on. -/
def positionChecks (seen : List Nat) : List Nat → Nat → List (Nat × Bool)
  | [], _ => []
  | i :: rest, n => (n, decide (i < Config.switchCount) && !seen.contains i) :: positionChecks (i :: seen) rest (n + 1)

/-- The checks of R89 step 3, in field order. DESIGN CHOICE (notes/assumptions/51.md): a counting override given with a profile
other than 14 fails at its present mark, field 14. -/
def DevicePayload.structural (f : DevicePayload) : List (Nat × Bool) :=
  [(1, decide (f.device < Config.deviceCount)), (2, deviceRoleOk f.device f.role), (3, decide (f.profile ≤ 14)),
    (4, decide (f.coil < 8)), (5, isMark f.autoRetry), (6, isMark f.keep), (7, isMark f.keepLimit.mark),
    (9, isMark f.report), (10, isMark f.entrySwitch.mark), (11, f.ballSwitchOk f.entrySwitch),
    (12, isMark f.exitSwitch.mark), (13, f.ballSwitchOk f.exitSwitch),
    (14, isMark f.counting.mark && (f.counting.value.isNone || f.profile == 14)),
    (15, f.counting.value.all fun c => decide (c < 3)), (16, isMark f.capacity.mark), (18, isMark f.pulse.mark),
    (20, isMark f.settle.mark), (22, isMark f.confirm.mark), (24, isMark f.retryInterval.mark),
    (26, isMark f.retryLimit.mark), (28, isMark f.holdOff.mark), (30, decide (f.count ≤ mostBalls f.device))] ++
  positionChecks [] f.positions 31

/-- The effective counting that the payload calls for; absent for a profile-14 record without a counting method. -/
def DevicePayload.effectiveCounting (f : DevicePayload) : Option Counting :=
  match f.counting.value with
  | some c => some (countingOfCode c)
  | none => if f.profile = 14 then none else some (profileFigures f.profile).counting

/-- The checks of R89 step 4, in field order. -/
def DevicePayload.counted (f : DevicePayload) : List (Nat × Bool) :=
  match f.effectiveCounting with
  | none => []
  | some .positions => [(30, f.role == 0 || decide (1 ≤ f.count))]
  | some .entryExit =>
    [(10, f.entrySwitch.value.isSome), (12, f.exitSwitch.value.isSome),
      (13, f.exitSwitch.value.isNone || f.exitSwitch.value != f.entrySwitch.value), (30, f.count == 0)]
  | some .entryBlind => [(10, f.entrySwitch.value.isSome), (30, f.count == 0)]

/-! ### The record as stored (R89 step 5) -/

/-- The record of the payload with its quantities held, for a role other than UNUSED. Keep and keep limit are stored only
for a LOCK device (R87); a capacity override of a POSITIONS device is stored as given (R89 step 5). DESIGN CHOICE
(notes/assumptions/52.md): the keep limit of a LOCK record of profile 14 without a counting method is held by the length of its
position list less 1, and that of one with an ENTRY method and no capacity to 0. -/
def DevicePayload.recordHeld (f : DevicePayload) : DeviceRecord :=
  let role := deviceRoleOfCode f.role
  let capacity := if f.effectiveCounting = some .positions then f.capacity.value
    else f.capacity.value.map (held 1 (mostBalls f.device))
  let r : DeviceRecord :=
    { role := role, profile := f.profile, positions := f.positions, entrySwitch := f.entrySwitch.value
      exitSwitch := f.exitSwitch.value, coil := f.coil
      overrides :=
        { counting := f.counting.value.map countingOfCode, capacity := capacity
          pulse := f.pulse.value.map (held 5 100), settle := f.settle.value.map (held 50 2000)
          confirm := f.confirm.value.map (held 200 5000), retryInterval := f.retryInterval.value.map (held 200 3000)
          retryLimit := f.retryLimit.value.map (min 7), holdOff := f.holdOff.value.map (min 5000) }
      autoRetry := f.autoRetry == 1, keep := role == .lock && f.keep == 1, keepLimit := none
      reportArrivals := f.report == 1 }
  { r with keepLimit := if role = .lock then f.keepLimit.value.map (min (r.figures.capacity - 1)) else none }

/-- The record stored: the hard-reset content for role UNUSED (R89). -/
def DevicePayload.stored (f : DevicePayload) : DeviceRecord := if f.role = 0 then .reset else f.recordHeld

/-- A value of the payload was held, in a record whose role is not UNUSED (R89 step 5). -/
def DevicePayload.wasHeld (f : DevicePayload) : Bool :=
  let r := f.recordHeld
  let o := r.overrides
  f.role != 0 &&
    (o.capacity != f.capacity.value || o.pulse != f.pulse.value || o.settle != f.settle.value ||
      o.confirm != f.confirm.value || o.retryInterval != f.retryInterval.value || o.retryLimit != f.retryLimit.value ||
      o.holdOff != f.holdOff.value || (r.role == .lock && r.keepLimit != f.keepLimit.value))

/-! ### What a load does (R90) -/

/-- The device's counting is an ENTRY method that it keeps through the load, having been configured before (R90). -/
def keepsCount (old new : DeviceRecord) : Bool :=
  old.configured && new.configured && old.figures.counting == new.figures.counting && new.figures.counting != .positions

/-- The device after its cycle has ended and its record has been replaced, with the counts of an ENTRY method kept or not
(R90); the counts of a POSITIONS device are measured next. -/
def Device.load (v : Device) (r : DeviceRecord) : Device :=
  let n := if keepsCount v.record r then min v.settled r.figures.capacity else 0
  { ({ v with record := r } : Device).cleared with
    settled := n
    accounted := n
    entries := if keepsCount v.record r then v.entries else 0
    settle := if keepsCount v.record r then v.settle else none }

/-- A configured POSITIONS device is measured from its switches, with no settle running and no arrival (R90). -/
def State.measure (s : State) (d : Nat) : State :=
  if s.configured d ∧ (s.device d).record.figures.counting = .positions then
    s.onDevice d fun v => { v with settled := s.rawCount d, accounted := s.rawCount d }
  else s

/-- The census brings its locked count for the device into line (R90). -/
def State.alignLocked (s : State) (d : Nat) : State :=
  if (s.device d).record.role = .lock then s.lockedLost d else s.setLocked d 0

/-- A record is loaded into device `d` (R90). -/
def State.loadDevice (s : State) (d : Nat) (r : DeviceRecord) : State :=
  let s := s.catchUp.atNow
  let old := (s.device d).settled
  let s := (s.leaveLine d).onDevices fun c =>
    { c with granted := c.granted.filter (· != d), launchOwed := if d = 1 then 0 else c.launchOwed }
  let s := (s.onDevice d fun v => v.load r).quenchUnused.measure d
  let s := if d = 0 ∧ (s.device 0).settled < old then s.onCensus fun c => { c with missingReturns := 0 } else s
  ((s.alignLocked d).recompute (some d)).settleDevices

/-- SET_DEVICE by its payload (R89). -/
def setDevice (p : List Byte) (s : State) : State × Answer :=
  let f := devicePayload p
  s.load (deviceLengthOk p) ((firstBad f.structural).or (firstBad f.counted)) fun s =>
    (s.loadDevice f.device f.stored, .applied f.wasHeld)

/-- SET_DEVICE (R89, R90). -/
def execSetDevice (tag : Byte) (payload : List Byte) (s : State) : Host.Outcome State Fault Refusal :=
  .next (s.request 4 tag payload setDevice)

end Sys2Proof.Machine
end

