-- ==== Sys2Proof/Machine/Control.lean ====
section
/-! DEFINITION. The requests that drive a game and the part: START_GAME, ADD_PLAYER, NEXT_BALL, END_GAME, TRIGGER, GRANT,
MODE_CONTROL, SET_PLAYER, EJECT, CLEAR_FAULT, CLEAR_LATCHES and RESTART (Chapter 10 and the rules it names). -/

namespace Sys2Proof.Machine

open Sys2Proof

/-- The default order of checks of R177: the length, then the ranges, then what `taken` makes of the phase and the rest. -/
def State.checked (s : State) (lengthOk : Bool) (bad : Option Nat) (taken : State × Answer) : State × Answer :=
  if lengthOk = false then (s, .length)
  else match bad with
    | some field => (s, .range field)
    | none => taken

/-- A player or score request: NOT_APPLIED in TILT, REJECTED PHASE in IDLE and BALL_OVER, taken in SERVE and PLAY (R179). -/
def State.scored (s : State) (taken : State × Answer) : State × Answer :=
  match s.game.phase with
  | .tilt => (s, .notApplied)
  | .idle | .ballOver => (s, .phase)
  | .serve | .play => taken

/-! ### The frame of a game -/

/-- START_GAME by its payload (R148, R149). -/
def startGame (p : List Byte) (s : State) : State × Answer :=
  s.checked (p.length == 0) none <|
    if s.game.phase ≠ .idle then (s, .phase)
    else match s.configFailure with
      | some f => (s, .config f.check f.subject f.detail)
      | none => (s.catchUp.atNow.gameStart.settleDevices, .ok [])

/-- START_GAME (R148, R149). -/
def execStartGame (tag : Byte) (payload : List Byte) (s : State) : Host.Outcome State Fault Refusal :=
  .next (s.request 9 tag payload startGame)

/-- A player can be added: SERVE, PLAY or BALL_OVER on ball 1, below the max players parameter (R152). -/
def State.canAddPlayer (s : State) : Bool :=
  (s.inPlay || s.game.phase == .ballOver) && s.game.ballNumber == 1 &&
    decide (s.game.players.length < s.game.params.maxPlayers)

/-- ADD_PLAYER by its payload (R152). -/
def addPlayer (p : List Byte) (s : State) : State × Answer :=
  s.checked (p.length == 0) none <|
    if s.canAddPlayer then
      let n := s.game.players.length + 1
      ((s.onGame fun g => { g with players := g.players ++ [.start g.params] }).emitFor n .gamePlayerAdded n n 0, .ok [])
    else (s, .phase)

/-- ADD_PLAYER (R152). -/
def execAddPlayer (tag : Byte) (payload : List Byte) (s : State) : Host.Outcome State Fault Refusal :=
  .next (s.request 10 tag payload addPlayer)

/-- NEXT_BALL by its payload (R154). -/
def nextBallRequest (p : List Byte) (s : State) : State × Answer :=
  s.checked (p.length == 0) none <|
    if s.game.phase = .ballOver then (s.catchUp.atNow.nextBall.settleDevices, .ok []) else (s, .phase)

/-- NEXT_BALL (R154). -/
def execNextBall (tag : Byte) (payload : List Byte) (s : State) : Host.Outcome State Fault Refusal :=
  .next (s.request 11 tag payload nextBallRequest)

/-- END_GAME by its payload (R164): the game ends by the steps of R162 with reason HOST. -/
def endGameRequest (p : List Byte) (s : State) : State × Answer :=
  s.checked (p.length == 0) none <|
    if s.gameOn then (s.endGame none, .ok []) else (s, .phase)

/-- END_GAME (R164). -/
def execEndGame (tag : Byte) (payload : List Byte) (s : State) : Host.Outcome State Fault Refusal :=
  .next (s.request 12 tag payload endGameRequest)

/-! ### Triggers, grants and modes -/

/-- TRIGGER t in SERVE and PLAY (R44, R185): walked as a root of its own with result 0 (WALKED), appended with result 1
(PENDING), or dropped with TRIGGER_LOST and result 2 (DROPPED). The request ends when its root has ended, so no request comes
between its walks (R175, R185). -/
def State.hostTrigger (breather : Bool) (s : State) (t : Nat) : State × Answer :=
  if s.engine.triggers = [] then (s.triggerRoot breather t, .ok (u8 0))
  else (s.appendTrigger t, .ok (u8 (if s.engine.triggers.length < Config.pendingTriggers then 1 else 2)))

/-- TRIGGER by its payload, a virtual trigger 72..79 (R185). -/
def trigger (breather : Bool) (p : List Byte) (s : State) : State × Answer :=
  let t := byteAt p 0
  s.checked (p.length == 1) (firstBad [(1, decide (72 ≤ t) && decide (t ≤ 79))]) (s.scored (s.hostTrigger breather t))

/-- TRIGGER (R185). -/
def execTriggerRequest (tag : Byte) (payload : BreathingPayload) (s : State) : Host.Outcome State Fault Refusal :=
  .next (s.request 13 tag payload.bytes (trigger payload.breather))

/-- GRANT of base `n` with classes `c` (R58, R186): the award and its report; the answer carries T, A and the score. -/
def State.grantPoints (s : State) (n : Nat) (c : Classes) : State × Answer :=
  let base := heldPoints Config.pointLimit n
  let after := s.awardReported .awardGranted 255 base c
  (after, .applied (base != n) (u8 (s.multiplier c) ++ u48 (base * s.multiplier c) ++ u48 after.current.score))

/-- GRANT by its payload: the base and the class set (R186). -/
def grant (p : List Byte) (s : State) : State × Answer :=
  s.checked (p.length == 7) (firstBad [(2, decide (byteAt p 6 < 8))])
    (s.scored (s.grantPoints (fieldAt p 0 6) (classesOf (byteAt p 6))))

/-- GRANT (R58, R186). -/
def execGrantRequest (tag : Byte) (payload : List Byte) (s : State) : Host.Outcome State Fault Refusal :=
  .next (s.request 14 tag payload grant)

/-- The result code of a start, in the order R84 lists them. -/
def StartResult.code : StartResult → Nat
  | .started => 0 | .refreshed => 1 | .refusedUndefined => 2 | .refusedFull => 3

/-- The result code of a progress, in the order R84 lists them. -/
def ProgressResult.code : ProgressResult → Nat
  | .progressed => 0 | .completed => 1 | .notPresent => 2 | .notRunning => 3

/-- The operation of a MODE_CONTROL on mode `m`, START 0, STOP 1 or PROGRESS 2, with its result code (R84). DESIGN CHOICE
(notes/assumptions/49.md): the result codes of each operation are numbered by its own list, from 0. -/
def State.modeOperation (s : State) (m op : Nat) : State × Nat :=
  match op with
  | 0 => ((s.modeStart m).1, (s.modeStart m).2.code)
  | 1 => ((s.modeStop m).1, if (s.modeStop m).2 then 0 else 1)
  | _ => ((s.modeProgress m).1, (s.modeProgress m).2.code)

/-- MODE_CONTROL by its payload: the mode and the operation (R84). A trigger that a completion raises while no root is in
progress begins a root of its own, which pauses before its first walk with `breather`. -/
def modeControl (breather : Bool) (p : List Byte) (s : State) : State × Answer :=
  let r := s.modeOperation (byteAt p 0) (byteAt p 1)
  s.checked (p.length == 2) (firstBad [(1, decide (byteAt p 0 < Config.modeCount)), (2, decide (byteAt p 1 < 3))])
    (s.scored ((r.1.rootFromList breather).settleDevices, .ok (u8 r.2)))

/-- MODE_CONTROL (R84). -/
def execModeControl (tag : Byte) (payload : BreathingPayload) (s : State) : Host.Outcome State Fault Refusal :=
  .next (s.request 15 tag payload.bytes (modeControl payload.breather))

/-! ### SET_PLAYER -/

/-- The fields of SET_PLAYER, in the order of their codes (R147). -/
inductive PlayerField where
  | score | jackpot | bonusCount | bonusMult | playfieldMult | flags | locksLit | locksMade | extraBalls
  deriving DecidableEq, Repr

/-- The field of a code below 9. -/
def playerFieldOfCode : Nat → PlayerField
  | 0 => .score | 1 => .jackpot | 2 => .bonusCount | 3 => .bonusMult | 4 => .playfieldMult | 5 => .flags
  | 6 => .locksLit | 7 => .locksMade | _ => .extraBalls

/-- The value `n` as R147 holds it for a field of record `q`; the flags stand in the low four bytes. -/
def heldField (g : Params) (q : Player) (n : Nat) : PlayerField → Nat
  | .score => max q.score (heldPoints Config.scoreLimit n)
  | .jackpot => heldPoints g.jackpotCap n
  | .bonusCount => min n Config.bonusCountLimit
  | .bonusMult => held 1 10 n
  | .playfieldMult => held 1 5 n
  | .flags => n
  | .locksLit => min (min n 4) (g.locksNeeded - q.locksMade)
  | .locksMade => min (min n 4) (g.locksNeeded - q.locksLit)
  | .extraBalls => min n 9

/-- Record `q` with the field written. -/
def Player.write (q : Player) (n : Nat) : PlayerField → Player
  | .score => { q with score := n }
  | .jackpot => { q with jackpot := n }
  | .bonusCount => { q with bonusCount := n }
  | .bonusMult => { q with bonusMult := n }
  | .playfieldMult => { q with playfieldMult := n }
  | .flags => { q with flags := BitVec.ofNat 32 n }
  | .locksLit => { q with locksLit := n }
  | .locksMade => { q with locksMade := n }
  | .extraBalls => { q with extraBalls := n }

/-- One field of player `i`'s record is written with the held value (R147). -/
def State.writePlayer (s : State) (i : Nat) (f : PlayerField) (n : Nat) : State × Answer :=
  match s.player? i with
  | none => (s, .range 1)
  | some q =>
    let v := heldField s.game.params q n f
    (s.onPlayer i fun q => q.write v f, .applied (v != n))

/-- SET_PLAYER by its payload: the player, the field code and the value (R147). -/
def setPlayer (p : List Byte) (s : State) : State × Answer :=
  let i := byteAt p 0
  s.checked (p.length == 8)
    (firstBad [(1, decide (1 ≤ i) && decide (i ≤ 4) && (!s.gameOn || decide (i ≤ s.game.players.length))),
      (2, decide (byteAt p 1 < 9))])
    (s.scored (s.writePlayer i (playerFieldOfCode (byteAt p 1)) (fieldAt p 2 6)))

/-- SET_PLAYER (R147). -/
def execSetPlayer (tag : Byte) (payload : List Byte) (s : State) : Host.Outcome State Fault Refusal :=
  .next (s.request 16 tag payload setPlayer)

/-! ### Devices -/

/-- EJECT d (R111): REJECTED CONFIG when the device is not configured, REJECTED FULL when its queue holds 8 orders,
otherwise a HOST order. -/
def State.hostEject (s : State) (d : Nat) : State × Answer :=
  if s.configured d = false then (s, .config 0 d 0)
  else
    let s := s.catchUp.atNow
    if Config.queueOrders ≤ (s.device d).queue.length then (s, .full)
    else ((s.queueOrder d .host false).settleDevices, .ok [])

/-- A device number 0..7 in the one field of a payload. -/
def deviceField (p : List Byte) : Option Nat := firstBad [(1, decide (byteAt p 0 < Config.deviceCount))]

/-- EJECT by its payload, a device (R111). -/
def eject (p : List Byte) (s : State) : State × Answer :=
  s.checked (p.length == 1) (deviceField p) (s.hostEject (byteAt p 0))

/-- EJECT (R111). -/
def execEjectRequest (tag : Byte) (payload : List Byte) (s : State) : Host.Outcome State Fault Refusal :=
  .next (s.request 17 tag payload eject)

/-- The end of a FAULT by the host (R105): the held rises are taken as arrivals, and then the FAULT is over. The roots of the
arrivals end before the request does (R175), and its FAULT_CLEARED carries the time stamp of the request in hand (R112). -/
def State.faultHost (breather : Bool) (s : State) (d : Nat) : State :=
  (s.dueArrivals d ((s.device d).settled - (s.device d).accounted)).faultArrivals breather d s.time

/-- CLEAR_FAULT d (R105). -/
def State.faultClear (breather : Bool) (s : State) (d : Nat) : State :=
  if (s.device d).state = .fault then s.catchUp.atNow.faultHost breather d else s

/-- CLEAR_FAULT by its payload, a device (R105). -/
def clearFault (breather : Bool) (p : List Byte) (s : State) : State × Answer :=
  s.checked (p.length == 1) (deviceField p) (s.faultClear breather (byteAt p 0), .ok [])

/-- CLEAR_FAULT (R105). -/
def execClearFault (tag : Byte) (payload : BreathingPayload) (s : State) : Host.Outcome State Fault Refusal :=
  .next (s.request 18 tag payload.bytes (clearFault payload.breather))

/-! ### Latches and restart -/

/-- CLEAR_LATCHES by its payload: the selector, ALL 0 or GROUP 1, and the group (R183). -/
def clearLatchesRequest (p : List Byte) (s : State) : State × Answer :=
  let g := byteAt p 1
  s.checked (p.length == 2)
    (firstBad [(1, decide (byteAt p 0 < 2)), (2, byteAt p 0 == 0 || decide (g < Config.groupCount))])
    (if byteAt p 0 = 0 then s.clearAllLatches else s.clearLatches (s.group g).members, .ok [])

/-- CLEAR_LATCHES (R183). -/
def execClearLatches (tag : Byte) (payload : List Byte) (s : State) : Host.Outcome State Fault Refusal :=
  .next (s.request 19 tag payload clearLatchesRequest)

/-- RESTART by its payload (R187): from its end on no request is handed on and no frame accepted (R178). -/
def restart (p : List Byte) (s : State) : State × Answer :=
  s.checked (p.length == 0) none (s.onLink fun l => { l with restarting := true }, .ok [])

/-- RESTART (R187, R178). -/
def execRestartRequest (tag : Byte) (payload : List Byte) (s : State) : Host.Outcome State Fault Refusal :=
  .next (s.request 27 tag payload restart)

end Sys2Proof.Machine
end

