-- ==== Sys2Proof/Machine/Reads.lean ====
section
/-! DEFINITION. The requests that read: STATUS (R180), READ_PLAYER (R181), READ_MODES (R85), READ_DEVICE (R91), READ_AWARD (R27),
READ_SWITCHES (R182) and FETCH_EVENTS (R190), with the layout of each reply's data (section 12.1). -/

namespace Sys2Proof.Machine

open Sys2Proof

/-- A 1-byte count, held at 255. -/
def count8 (n : Nat) : List Byte := u8 (min n 255)

/-! ### STATUS -/

/-- The code of a device state, in the order of R97. -/
def DeviceState.code : DeviceState → Nat
  | .disabled => 0 | .idle => 1 | .ejectWait => 2 | .pulsing => 3 | .confirming => 4 | .retryWait => 5 | .fault => 6

/-- The code of a search phase, in the order of R165. -/
def SearchPhase.code : SearchPhase → Nat
  | .off => 0 | .waiting => 1 | .round => 2 | .pause => 3

/-- The time and game items of STATUS (R180). DESIGN CHOICE (notes/assumptions/50.md): FLIPEN asserted is sent as 1. -/
def State.statusGame (s : State) : List Byte :=
  u32 s.scanner.now ++ u8 s.game.phase.code ++ mark s.flipen ++ u8 s.game.players.length ++ u8 s.game.current ++
    u8 s.game.ballNumber

/-- The census items of STATUS (R180). DESIGN CHOICE (notes/assumptions/50.md): an active ball-save record is sent as 1. -/
def State.statusCensus (s : State) : List Byte :=
  mark s.census.conflict ++ u8 s.game.params.installed ++ u8 s.trough ++ u8 s.shooter ++ u8 s.census.playfield ++
    u8 s.census.missing ++ u8 s.measured ++ u8 s.bip ++ u8 s.owed ++ mark s.census.multi ++
    u8 (s.census.lastStarted.getD 255) ++ mark s.census.validated ++ u8 s.census.missingReturns ++
    (match s.census.save with
     | none => mark false ++ u16 0 ++ u8 0
     | some r => mark true ++ u16 r.remaining ++ u8 (if r.saves = .unlimited then 255 else 1))

/-- The items of one device in STATUS (R180). -/
def State.statusDevice (s : State) (d : Nat) : List Byte :=
  u8 (s.device d).state.code ++ u8 (s.device d).settled ++ u8 (s.locked d) ++ u8 (s.device d).queue.length

/-- The search, engine and event items of STATUS (R180). -/
def State.statusRest (s : State) : List Byte :=
  u8 s.pulsingCount ++ u8 s.game.search.phase.code ++ u8 s.game.search.round ++ u32 s.game.search.quietMark ++
    u16 s.scanner.quiet ++ u8 s.engine.triggers.length ++ u8 s.events.length

/-- The snapshot of STATUS (R180). -/
def State.statusData (s : State) : List Byte :=
  s.statusGame ++ s.statusCensus ++ deviceNumbers.flatMap s.statusDevice ++ s.statusRest

/-- A read: it changes no state and is answered OK with the data. -/
def State.readBack (s : State) (lengthOk : Bool) (bad : Option Nat) (data : List Byte) : State × Answer :=
  s.checked lengthOk bad (s, .ok data)

/-- STATUS by its payload (R180). -/
def status (p : List Byte) (s : State) : State × Answer := s.readBack (p.length == 0) none s.statusData

/-- STATUS (R180). -/
def execReadStatus (tag : Byte) (payload : List Byte) (s : State) : Host.Outcome State Fault Refusal :=
  .next (s.request 20 tag payload status)

/-! ### READ_PLAYER -/

/-- A player record as READ_PLAYER carries it, with the current mark (R181). -/
def Player.bytes (q : Player) (current : Bool) : List Byte :=
  u48 q.score ++ u8 q.playfieldMult ++ u16 q.bonusCount ++ u8 q.bonusMult ++ u32 q.flags ++ u48 q.jackpot ++
    u8 q.locksLit ++ u8 q.locksMade ++ u8 q.extraBalls ++ u8 q.nextReplay ++ u8 q.tiltWarnings ++ mark q.limitReported ++
    u8 q.saved.length ++ mark current

/-- The data of READ_PLAYER: the present mark and the record, every field 0 when there is none (R181). -/
def State.playerData (s : State) (i : Nat) : List Byte :=
  match s.player? i with
  | some q => mark true ++ q.bytes (s.game.current == i)
  | none => List.replicate 29 0

/-- READ_PLAYER by its payload, a player 1..4 (R181). -/
def readPlayer (p : List Byte) (s : State) : State × Answer :=
  s.readBack (p.length == 1) (firstBad [(1, decide (1 ≤ byteAt p 0) && decide (byteAt p 0 ≤ 4))])
    (s.playerData (byteAt p 0))

/-- READ_PLAYER (R181). -/
def execReadPlayer (tag : Byte) (payload : List Byte) (s : State) : Host.Outcome State Fault Refusal :=
  .next (s.request 21 tag payload readPlayer)

/-! ### READ_MODES -/

/-- An instance as READ_MODES carries it (R85). -/
def ModeInst.bytes (i : ModeInst) : List Byte :=
  u8 i.mode ++ u8 i.state.code ++ u16 i.time ++ u8 i.progress ++ u48 i.value ++ u16 i.order

/-- A saved instance as READ_MODES carries it (R85). -/
def SavedMode.bytes (v : SavedMode) : List Byte :=
  u8 v.mode ++ u16 (v.remaining.getD 0) ++ u8 v.progress ++ u48 v.value

/-- A mode definition as READ_MODES carries it: every field of R64 in its order (R85). -/
def ModeDef.bytes (d : ModeDef) : List Byte :=
  mark d.defined ++ u8 d.priority ++ mark d.exclusive ++ u16 d.duration ++ u8 d.goal ++ u48 d.startValue ++
    u48 d.valueStep ++ u8 d.multiplier ++ mark d.lends ++ mark (d.atBallEnd == .saves) ++ mark d.endsAtMultiballEnd ++
    u48 d.completionValue ++ u8 d.completionClasses.code ++ mark d.timerHold

/-- The data of READ_MODES for selector stack 0, saved list 1 or definition 2, and its number (R85). DESIGN CHOICE
(notes/assumptions/50.md): the deferred multiball-end mark is sent as 1 where it is set. -/
def State.modesData (s : State) (selector n : Nat) : List Byte :=
  match selector with
  | 0 => mark s.modes.deferred ++ u8 s.modes.stack.length ++ s.modes.stack.flatMap ModeInst.bytes
  | 1 =>
    let saved := ((s.player? n).map Player.saved).getD []
    u8 saved.length ++ saved.flatMap SavedMode.bytes
  | _ => (s.modeDef n).bytes

/-- READ_MODES by its payload: the selector and the number, which the stack ignores (R85, section 12.1). -/
def readModes (p : List Byte) (s : State) : State × Answer :=
  let n := byteAt p 1
  s.readBack (p.length == 2)
    (firstBad [(1, decide (byteAt p 0 < 3)),
      (2, match byteAt p 0 with
        | 1 => decide (1 ≤ n) && decide (n ≤ 4)
        | 2 => decide (n < Config.modeCount)
        | _ => true)])
    (s.modesData (byteAt p 0) n)

/-- READ_MODES (R85). -/
def execReadModes (tag : Byte) (payload : List Byte) (s : State) : Host.Outcome State Fault Refusal :=
  .next (s.request 22 tag payload readModes)

/-! ### READ_DEVICE -/

/-- The overrides of a record, each with its mark, in the order of R88. -/
def Overrides.bytes (o : Overrides) : List Byte :=
  optional (o.counting.map Counting.code) u8 ++ optional o.capacity u8 ++ optional o.pulse u16 ++
    optional o.settle u16 ++ optional o.confirm u16 ++ optional o.retryInterval u16 ++ optional o.retryLimit u8 ++
    optional o.holdOff u16

/-- A device record as READ_DEVICE carries it: every field of R87 in its order. -/
def DeviceRecord.bytes (r : DeviceRecord) : List Byte :=
  u8 r.role.code ++ u8 r.profile ++ u8 r.positions.length ++ r.positions.flatMap u8 ++ optional r.entrySwitch u8 ++
    optional r.exitSwitch u8 ++ u8 r.coil ++ r.overrides.bytes ++ mark r.autoRetry ++ mark r.keep ++
    optional r.keepLimit u8 ++ mark r.reportArrivals

/-- Configured yes, or no with the cause: role UNUSED 0, record incomplete 1 (R91). -/
def DeviceRecord.configuredBytes (r : DeviceRecord) : List Byte :=
  if r.configured then mark true else mark false ++ u8 (if r.role = .unused then 0 else 1)

/-- The effective figures, each 0 when the device is DISABLED (R91). -/
def DeviceRecord.figureBytes (r : DeviceRecord) : List Byte :=
  if r.configured then
    let f := r.figures
    u8 f.counting.code ++ u8 f.capacity ++ u16 f.pulse ++ u16 f.settle ++ u16 f.confirm ++ u16 f.retryInterval ++
      u8 f.retryLimit ++ u16 f.holdOff ++ u8 r.keepLimitInForce
  else List.replicate 14 0

/-- The raw count of a POSITIONS device or the pending entries of an ENTRY device; 0 when the device is DISABLED (R91). -/
def State.unsettledCount (s : State) (d : Nat) : Nat :=
  if s.configured d then
    (if (s.device d).record.figures.counting = .positions then s.rawCount d else (s.device d).entries)
  else 0

/-- An eject order as READ_DEVICE carries it (R91). -/
def Order.bytes (o : Order) : List Byte := u8 o.reason.code ++ u32 o.queued ++ mark o.launch

/-- The data of READ_DEVICE (R91). -/
def State.deviceData (s : State) (d : Nat) : List Byte :=
  let v := s.device d
  v.record.bytes ++ v.record.configuredBytes ++ v.record.figureBytes ++ u8 v.state.code ++ u8 v.settled ++
    mark v.settle.isSome ++ count8 (s.unsettledCount d) ++ u8 v.accounted ++ u8 (s.locked d) ++ u8 v.retries ++
    u8 v.base ++ mark (s.inLine d) ++ u8 (if d = 1 then s.devices.launchOwed else 0) ++ u8 v.queue.length ++
    v.queue.flatMap Order.bytes

/-- READ_DEVICE by its payload, a device (R91). -/
def readDevice (p : List Byte) (s : State) : State × Answer :=
  s.readBack (p.length == 1) (deviceField p) (s.deviceData (byteAt p 0))

/-- READ_DEVICE (R91). -/
def execReadDevice (tag : Byte) (payload : List Byte) (s : State) : Host.Outcome State Fault Refusal :=
  .next (s.request 23 tag payload readDevice)

/-! ### READ_AWARD -/

/-- The codes of the enumerations of an entry (section 12.2.1). -/
def EntryState.code : EntryState → Nat
  | .empty => 0 | .disabled => 1 | .enabled => 2
/-- The code of an edge. -/
def Edge.code : Edge → Nat
  | .close => 0 | .opening => 1
/-- The code of a mode gate kind. -/
def GateKind.code : GateKind → Nat
  | .any => 0 | .running => 1 | .absent => 2
/-- The code of a ball gate. -/
def BallGate.code : BallGate → Nat
  | .any => 0 | .single => 1 | .multi => 2
/-- The code of a polarity. -/
def Polarity.code : Polarity → Nat
  | .whenSet => 0 | .whenClear => 1
/-- The code of a value source. -/
def ValueSource.code : ValueSource → Nat
  | .fixed => 0 | .jackpot => 1 | .modeValue => 2 | .none => 3

/-- A condition after its present mark (section 12.2.1). -/
def Condition.bytes (c : Condition) : List Byte :=
  u8 c.source.code ++ u8 c.operandA ++ optional c.operandB u8 ++ u8 c.polarity.code

/-- An action: its kind and its argument (section 12.2.1). -/
def Action.bytes (a : Action) : List Byte := u8 a.kind.code ++ leBytes 6 a.argument

/-- An entry as the SET_AWARD payload of index `i` (section 12.2.1). -/
def AwardEntry.bytes (e : AwardEntry) (i : Nat) : List Byte :=
  u8 i ++ u8 e.state.code ++ u8 e.trigger ++ u8 e.edge.code ++ u8 e.gateKind.code ++ u8 e.gateMode ++
    u8 e.ballGate.code ++ optional e.condition Condition.bytes ++ u8 e.source.code ++ u48 e.base ++ u8 e.classes.code ++
    u8 (if e.continuation = .goOn then 1 else 0) ++ mark e.report ++ u8 e.actions.length ++ e.actions.flatMap Action.bytes

/-- The next entry of the chain that entry `i` is in; absent for the last of its chain and for an EMPTY entry (R27). -/
def State.successor (s : State) (i : Nat) : Option Nat :=
  if (s.award i).state = .empty then none else (s.chain (s.award i).trigger).find? fun j => decide (i < j)

/-- READ_AWARD by its payload, an index: the entry as stored and its successor (R27, R193). -/
def readAward (p : List Byte) (s : State) : State × Answer :=
  let i := byteAt p 0
  s.readBack (p.length == 1) none
    ((s.award i).bytes i ++ mark (s.successor i).isSome ++ u8 ((s.successor i).getD 0))

/-- READ_AWARD (R27). -/
def execReadAward (tag : Byte) (payload : List Byte) (s : State) : Host.Outcome State Fault Refusal :=
  .next (s.request 24 tag payload readAward)

/-! ### READ_SWITCHES -/

/-- One switch as READ_SWITCHES carries it: debounced state, latch, effective role; an UNUSED switch reads open (R182). DESIGN
CHOICE (notes/assumptions/50.md): closed and set are sent as 1. -/
def State.switchData (s : State) (i : Nat) : List Byte :=
  mark ((s.switch i).debounced && s.roleOf i != .unused) ++ mark (s.switch i).latch ++ u8 (s.roleOf i).code

/-- READ_SWITCHES by its payload (R182). -/
def readSwitches (p : List Byte) (s : State) : State × Answer :=
  s.readBack (p.length == 0) none ((List.range Config.switchCount).flatMap s.switchData)

/-- READ_SWITCHES (R182). -/
def execReadSwitches (tag : Byte) (payload : List Byte) (s : State) : Host.Outcome State Fault Refusal :=
  .next (s.request 25 tag payload readSwitches)

/-! ### FETCH_EVENTS -/

/-- FETCH_EVENTS by its payload: up to 8 records leave the head of the queue (R190, R194). -/
def fetch (p : List Byte) (s : State) : State × Answer :=
  let taken := s.events.take Config.fetchRecords
  let left := s.events.drop Config.fetchRecords
  s.checked (p.length == 0) none
    ({ s with events := left }, .ok (u8 taken.length ++ u8 left.length ++ taken.flatMap EventRecord.bytes))

/-- FETCH_EVENTS (R190). -/
def execFetchEvents (tag : Byte) (payload : List Byte) (s : State) : Host.Outcome State Fault Refusal :=
  .next (s.request 26 tag payload fetch)

end Sys2Proof.Machine
end

