-- ==== Sys2Proof/Machine/Dispatch.lean ====
section
/-! DEFINITION. What each command does: one arm for each row of spec/opcode_table.json. -/

namespace Sys2Proof.Machine

open Sys2Proof

/-- The effect of a command on everything but the queue of waiting commands. -/
def exec (i : Instr) (s : State) : Host.Outcome State Fault Refusal :=
  match i with
  | .hardReset => Sys2Proof.Machine.execHardReset s
  | .switchScan contacts => Sys2Proof.Machine.execSwitchScan contacts s
  | .switchClosure switch breather => Sys2Proof.Machine.execSwitchClosure switch breather s
  | .switchOpening switch breather => Sys2Proof.Machine.execSwitchOpening switch breather s
  | .tiltClosure switch => Sys2Proof.Machine.execTiltClosure switch s
  | .slamClosure switch => Sys2Proof.Machine.execSlamClosure switch s
  | .tiltSlamOpening switch => Sys2Proof.Machine.execTiltSlamOpening switch s
  | .deviceSwitchTransition switch => Sys2Proof.Machine.execDeviceSwitchTransition switch s
  | .tenth => Sys2Proof.Machine.execTenth s
  | .modeTimeout => Sys2Proof.Machine.execModeTimeout s
  | .ballSaveExpired => Sys2Proof.Machine.execBallSaveExpired s
  | .settleExpired device => Sys2Proof.Machine.execSettleExpired device s
  | .arrival device breather => Sys2Proof.Machine.execArrival device breather s
  | .holdOffExpired device => Sys2Proof.Machine.execHoldOffExpired device s
  | .coilGrant => Sys2Proof.Machine.execCoilGrant s
  | .pulseEnd device => Sys2Proof.Machine.execPulseEnd device s
  | .confirmWindowEnd device => Sys2Proof.Machine.execConfirmWindowEnd device s
  | .retryIntervalEnd device => Sys2Proof.Machine.execRetryIntervalEnd device s
  | .searchWindowEnd device => Sys2Proof.Machine.execSearchWindowEnd device s
  | .searchArm => Sys2Proof.Machine.execSearchArm s
  | .searchStep => Sys2Proof.Machine.execSearchStep s
  | .searchPauseEnd => Sys2Proof.Machine.execSearchPauseEnd s
  | .requestFrame => Sys2Proof.Machine.execRequestFrame s
  | .interByteGap => Sys2Proof.Machine.execInterByteGap s
  | .lineBreak => Sys2Proof.Machine.execLineBreak s
  | .longBreak => Sys2Proof.Machine.execLongBreak s
  | .replySent => Sys2Proof.Machine.execReplySent s
  | .unknownType type tag payload => Sys2Proof.Machine.execUnknownType type tag payload s
  | .setGame tag payload => Sys2Proof.Machine.execSetGame tag payload s
  | .setSwitch tag payload => Sys2Proof.Machine.execSetSwitch tag payload s
  | .setGroup tag payload => Sys2Proof.Machine.execSetGroup tag payload s
  | .setDevice tag payload => Sys2Proof.Machine.execSetDevice tag payload s
  | .setMode tag payload => Sys2Proof.Machine.execSetMode tag payload s
  | .setMultiball tag payload => Sys2Proof.Machine.execSetMultiball tag payload s
  | .setAward tag payload => Sys2Proof.Machine.execSetAward tag payload s
  | .clearTables tag payload => Sys2Proof.Machine.execClearTables tag payload s
  | .startGame tag payload => Sys2Proof.Machine.execStartGame tag payload s
  | .addPlayer tag payload => Sys2Proof.Machine.execAddPlayer tag payload s
  | .nextBall tag payload => Sys2Proof.Machine.execNextBall tag payload s
  | .endGame tag payload => Sys2Proof.Machine.execEndGame tag payload s
  | .triggerRequest tag payload => Sys2Proof.Machine.execTriggerRequest tag payload s
  | .grantRequest tag payload => Sys2Proof.Machine.execGrantRequest tag payload s
  | .modeControl tag payload => Sys2Proof.Machine.execModeControl tag payload s
  | .setPlayer tag payload => Sys2Proof.Machine.execSetPlayer tag payload s
  | .ejectRequest tag payload => Sys2Proof.Machine.execEjectRequest tag payload s
  | .clearFault tag payload => Sys2Proof.Machine.execClearFault tag payload s
  | .clearLatches tag payload => Sys2Proof.Machine.execClearLatches tag payload s
  | .readStatus tag payload => Sys2Proof.Machine.execReadStatus tag payload s
  | .readPlayer tag payload => Sys2Proof.Machine.execReadPlayer tag payload s
  | .readModes tag payload => Sys2Proof.Machine.execReadModes tag payload s
  | .readDevice tag payload => Sys2Proof.Machine.execReadDevice tag payload s
  | .readAward tag payload => Sys2Proof.Machine.execReadAward tag payload s
  | .readSwitches tag payload => Sys2Proof.Machine.execReadSwitches tag payload s
  | .fetchEvents tag payload => Sys2Proof.Machine.execFetchEvents tag payload s
  | .restartRequest tag payload => Sys2Proof.Machine.execRestartRequest tag payload s
  | .byteReceived byte => Sys2Proof.Machine.execByteReceived byte s
  | .framingError => Sys2Proof.Machine.execFramingError s
  | .lineBreakEnd => Sys2Proof.Machine.execLineBreakEnd s

end Sys2Proof.Machine
end

