-- ==== Sys2Proof/Machine/Step.lean ====
section
/-! DEFINITION. One step of the part: the command at the front of the queue is taken; with none waiting the part works on by
itself (the model's reading of an idle step, notes/assumptions/3.md). -/

namespace Sys2Proof.Machine

open Sys2Proof

/-- One step: the command at the front of the queue is carried out on the state with the queue's rest; on an empty queue
the part makes a pending walk of the root in progress, or sends a byte of a reply, or idles. -/
def step (s : State) : Host.Outcome State Fault Refusal :=
  match s.pending with
  | [] => .next s.idle
  | c :: rest => exec c { s with pending := rest }

/-- The state with the command that `w` spells put at the front of its queue; unchanged where `w` spells none. -/
def State.withFetchWord (s : State) (nbits w : Nat) : State :=
  match decodeTableWord nbits w with
  | none => s
  | some c => { s with pending := c :: s.pending }

end Sys2Proof.Machine
end

