-- ==== Sys2Proof/Machine/Payloads.lean ====
section
/-! DEFINITION. The payloads that carry a record whole, for the seven requests that load one, and when a record lies in its ranges
so that a load stores it as it stands. The encoders are written from the layouts of sections 12.1 and 12.2; the decoders stand in
Loads.lean and LoadDevice.lean. -/

namespace Sys2Proof.Machine

open Sys2Proof

/-- The code of a report setting (R4). -/
def Report.code : Report → Nat
  | .none => 0 | .close => 1 | .both => 2

/-- The SET_SWITCH payload of record `r` for switch `i` (R12). -/
def SwitchRecord.payload (r : SwitchRecord) (i : Nat) : List Byte :=
  u8 i ++ u16 r.closeDebounce ++ u16 r.openDebounce ++ u8 r.role.code ++ u8 r.report.code

/-- A switch record in its ranges (R4). -/
def SwitchRecord.inRange (r : SwitchRecord) : Bool :=
  decide (1 ≤ r.closeDebounce) && decide (r.closeDebounce ≤ 32) && decide (1 ≤ r.openDebounce) &&
    decide (r.openDebounce ≤ 32) && r.role != .device

/-- The SET_GROUP payload of group `r` as group `g` (R15). -/
def Group.payload (r : Group) (g : Nat) : List Byte :=
  u8 g ++ mark r.perBall ++ u8 r.members.length ++ r.members.flatMap u8

/-- A group in its ranges: at most 8 distinct switches (R15). -/
def Group.inRange (r : Group) : Bool :=
  decide (r.members.length ≤ Config.groupMembers) && r.members.all (fun i => decide (i < Config.switchCount)) &&
    decide r.members.Nodup

/-- A point value that is at most `hi` and a multiple of 10. -/
def pointsOk (hi n : Nat) : Bool := decide (n ≤ hi) && n % 10 == 0

/-- The SET_MODE payload of definition `d` for mode `m` (R64, R65). -/
def ModeDef.payload (d : ModeDef) (m : Nat) : List Byte := u8 m ++ d.bytes

/-- A mode definition that is defined and in its ranges (R64). -/
def ModeDef.inRange (d : ModeDef) : Bool :=
  d.defined && decide (d.priority ≤ 15) && decide (d.duration ≤ 6000) && decide (d.goal ≤ 255) &&
    pointsOk Config.pointLimit d.startValue && pointsOk Config.pointLimit d.valueStep && decide (1 ≤ d.multiplier) &&
    decide (d.multiplier ≤ 4) && pointsOk Config.pointLimit d.completionValue

/-- The SET_MULTIBALL payload of definition `d` as definition `k` (R129, R130). -/
def MultiballDef.payload (d : MultiballDef) (k : Nat) : List Byte :=
  u8 k ++ mark d.defined ++ u8 d.target ++ mark d.releaseLocked ++ u16 d.saveTime ++ optional d.startMode u8 ++
    mark d.jackpotReset

/-- A multiball definition that is defined and in its ranges (R129). -/
def MultiballDef.inRange (d : MultiballDef) : Bool :=
  d.defined && decide (2 ≤ d.target) && decide (d.target ≤ 6) && decide (d.saveTime ≤ 300) &&
    d.startMode.all fun m => decide (m < Config.modeCount)

/-- The SET_AWARD payload of entry `e` at index `i` (section 12.2.1). -/
def AwardEntry.payload (e : AwardEntry) (i : Nat) : List Byte := e.bytes i

/-- A condition in its ranges, with operands its source ignores at 0 (R26, R30). -/
def Condition.inRange (c : Condition) : Bool :=
  c.source.operandOk c.operandA && c.source.stored c.operandA == c.operandA &&
    c.operandB.all fun b => c.source.operandOk b && c.source.stored b == b

/-- An action in its range, with an argument its kind ignores at 0 (R26). -/
def Action.inRange (a : Action) : Bool := a.kind.argumentOk a.argument && a.kind.stored a.argument == a.argument

/-- An entry that is not EMPTY and in its ranges (R22, R26). -/
def AwardEntry.inRange (e : AwardEntry) : Bool :=
  e.state != .empty && decide (e.trigger < Config.triggerCount) && decide (e.gateMode < Config.modeCount) &&
    (e.gateKind != .any || e.gateMode == 0) && e.condition.all Condition.inRange &&
    pointsOk Config.pointLimit e.base && decide (e.actions.length ≤ 4) && e.actions.all Action.inRange

/-- The SET_DEVICE payload of record `r` for device `d` (section 12.2.2). -/
def DeviceRecord.payload (r : DeviceRecord) (d : Nat) : List Byte :=
  u8 d ++ u8 r.role.code ++ u8 r.profile ++ u8 r.coil ++ mark r.autoRetry ++ mark r.keep ++ optional r.keepLimit u8 ++
    mark r.reportArrivals ++ optional r.entrySwitch u8 ++ optional r.exitSwitch u8 ++ r.overrides.bytes ++
    u8 r.positions.length ++ r.positions.flatMap u8

/-- A value that is absent or lies in `lo..hi`. -/
def within (lo hi : Nat) (x : Option Nat) : Bool := x.all fun n => decide (lo ≤ n) && decide (n ≤ hi)

/-- The overrides of a record of device `d` in their ranges; a capacity override of a POSITIONS device may be any byte (R88,
R89). -/
def Overrides.inRange (o : Overrides) (d : Nat) (positions : Bool) : Bool :=
  (if positions then within 0 255 o.capacity else within 1 (mostBalls d) o.capacity) && within 5 100 o.pulse &&
    within 50 2000 o.settle && within 200 5000 o.confirm && within 200 3000 o.retryInterval && within 0 7 o.retryLimit &&
    within 0 5000 o.holdOff

/-- The counting method a record calls for; absent for a profile-14 record without one (R89 step 4). -/
def DeviceRecord.methodGiven (r : DeviceRecord) : Option Counting :=
  match r.overrides.counting with
  | some c => some c
  | none => if r.profile = 14 then none else some (profileFigures r.profile).counting

/-- The switches of a record agree with its counting method (R89 step 4). -/
def DeviceRecord.switchesOk (r : DeviceRecord) : Bool :=
  match r.methodGiven with
  | none => true
  | some .positions => !r.positions.isEmpty
  | some .entryExit =>
    r.positions.isEmpty && r.entrySwitch.isSome && r.exitSwitch.isSome && r.exitSwitch != r.entrySwitch
  | some .entryBlind => r.positions.isEmpty && r.entrySwitch.isSome

/-- An entry or exit switch of a record in range and not in its position list (R89 step 3). -/
def DeviceRecord.ballSwitchOk (r : DeviceRecord) (x : Option Nat) : Bool :=
  x.all fun i => decide (i < Config.switchCount) && !r.positions.contains i

/-- A record for device `d` with a role other than UNUSED that passes the checks of R89 and lies in its ranges. -/
def DeviceRecord.inRange (r : DeviceRecord) (d : Nat) : Bool :=
  r.role != .unused && deviceRoleOk d r.role.code && decide (r.profile ≤ 14) && decide (r.coil < 8) &&
    decide (r.positions.length ≤ mostBalls d) && r.positions.all (fun i => decide (i < Config.switchCount)) &&
    decide r.positions.Nodup && r.ballSwitchOk r.entrySwitch && r.ballSwitchOk r.exitSwitch &&
    (r.overrides.counting.isNone || r.profile == 14) && r.overrides.inRange d (r.methodGiven == some .positions) &&
    r.switchesOk && (r.role == .lock || (!r.keep && r.keepLimit.isNone)) &&
    r.keepLimit.all fun n => decide (n ≤ r.figures.capacity - 1)

/-- The SET_GAME payload of the parameters, in the order of R142 (section 12.1). -/
def Params.payload (g : Params) : List Byte :=
  u8 g.installed ++ u8 g.ballsPerGame ++ u8 g.maxPlayers ++ u16 g.ballSaveTime ++ u8 g.searchDelay ++ u8 g.searchRounds ++
    mark g.missingReplace ++ u8 g.tiltWarnings ++ u8 g.coilBudget ++ u8 g.factorCap ++ u8 g.locksNeeded ++
    mark g.lockLitCarry ++ u32 g.flagCarry ++ u48 g.bonusUnit ++ mark g.bonusMultCarry ++ u48 g.jackpotBase ++
    u48 g.jackpotCap ++ u8 g.buildPercent ++ u8 g.extraBallLimit ++ u8 g.thresholds.length ++ g.thresholds.flatMap u48

/-- Parameters in their ranges, with thresholds that are strictly ascending (R142). -/
def Params.inRange (g : Params) : Bool :=
  decide (1 ≤ g.installed) && decide (g.installed ≤ 8) && decide (1 ≤ g.ballsPerGame) && decide (g.ballsPerGame ≤ 9) &&
    decide (1 ≤ g.maxPlayers) && decide (g.maxPlayers ≤ 4) && decide (g.ballSaveTime ≤ 300) &&
    decide (5 ≤ g.searchDelay) && decide (g.searchDelay ≤ 60) && decide (1 ≤ g.searchRounds) &&
    decide (g.searchRounds ≤ 9) && decide (g.tiltWarnings ≤ 5) && decide (1 ≤ g.coilBudget) &&
    decide (g.coilBudget ≤ 3) && decide (1 ≤ g.factorCap) && decide (g.factorCap ≤ 4) && decide (1 ≤ g.locksNeeded) &&
    decide (g.locksNeeded ≤ 4) && pointsOk Config.bonusUnitLimit g.bonusUnit &&
    pointsOk Config.jackpotLimit g.jackpotBase && pointsOk Config.jackpotLimit g.jackpotCap &&
    decide (g.buildPercent ≤ 50) && decide (g.extraBallLimit ≤ 9) && decide (g.thresholds.length ≤ 4) &&
    g.thresholds.all (pointsOk Config.scoreLimit) && decide (g.thresholds.Pairwise (· < ·))

end Sys2Proof.Machine
end

