-- ==== Sys2Proof/WellFormed.lean ====
section
/-! DEFINITION. Well-formed commands: those that the world outside and the part's own clocks can bring about. -/

namespace Sys2Proof

/-- A payload that one frame can carry: a frame's length byte counts the type, the tag and the payload and is at most 250
(R171). -/
def payloadFits (payload : List Byte) : Bool := decide (payload.length ≤ 248)

/-- The switch exists (R1). -/
def switchExists (switch : Nat) : Bool := decide (switch < Config.switchCount)

/-- The device exists (section 5.1). -/
def deviceExists (device : Nat) : Bool := decide (device < Config.deviceCount)

/-- A type that names no request: 0 or 28..255 (R193). -/
def typeUnknown (type : Byte) : Bool := type == 0 || decide (28 ≤ type.toNat)

/-- The command is well formed: its switch and device exist, its payload fits a frame, and an unknown type is unknown. -/
def Instr.wellFormed : Instr → Bool
  | .hardReset | .switchScan _ | .tenth | .modeTimeout | .ballSaveExpired | .coilGrant | .searchArm | .searchStep
  | .searchPauseEnd | .requestFrame | .interByteGap | .lineBreak | .longBreak | .replySent | .byteReceived _
  | .framingError | .lineBreakEnd => true
  | .switchClosure i _ | .switchOpening i _ | .tiltClosure i | .slamClosure i | .tiltSlamOpening i
  | .deviceSwitchTransition i => switchExists i
  | .settleExpired d | .arrival d _ | .holdOffExpired d | .pulseEnd d | .confirmWindowEnd d | .retryIntervalEnd d
  | .searchWindowEnd d => deviceExists d
  | .unknownType type _ payload => typeUnknown type && payloadFits payload
  | .setGame _ p | .setSwitch _ p | .setGroup _ p | .setDevice _ p | .setMode _ p | .setMultiball _ p | .setAward _ p
  | .clearTables _ p | .startGame _ p | .addPlayer _ p | .nextBall _ p | .endGame _ p | .triggerRequest _ ⟨p, _⟩
  | .grantRequest _ p | .modeControl _ ⟨p, _⟩ | .setPlayer _ p | .ejectRequest _ p | .clearFault _ ⟨p, _⟩ | .clearLatches _ p
  | .readStatus _ p | .readPlayer _ p | .readModes _ p | .readDevice _ p | .readAward _ p | .readSwitches _ p
  | .fetchEvents _ p | .restartRequest _ p => payloadFits p

/-- The request that a command carries, with its type number (section 12.2); absent for the other commands. -/
def Instr.request? : Instr → Option (Byte × Byte × List Byte)
  | .unknownType type tag p => some (type, tag, p)
  | .setGame tag p => some (1, tag, p)
  | .setSwitch tag p => some (2, tag, p)
  | .setGroup tag p => some (3, tag, p)
  | .setDevice tag p => some (4, tag, p)
  | .setMode tag p => some (5, tag, p)
  | .setMultiball tag p => some (6, tag, p)
  | .setAward tag p => some (7, tag, p)
  | .clearTables tag p => some (8, tag, p)
  | .startGame tag p => some (9, tag, p)
  | .addPlayer tag p => some (10, tag, p)
  | .nextBall tag p => some (11, tag, p)
  | .endGame tag p => some (12, tag, p)
  | .triggerRequest tag p => some (13, tag, p.bytes)
  | .grantRequest tag p => some (14, tag, p)
  | .modeControl tag p => some (15, tag, p.bytes)
  | .setPlayer tag p => some (16, tag, p)
  | .ejectRequest tag p => some (17, tag, p)
  | .clearFault tag p => some (18, tag, p.bytes)
  | .clearLatches tag p => some (19, tag, p)
  | .readStatus tag p => some (20, tag, p)
  | .readPlayer tag p => some (21, tag, p)
  | .readModes tag p => some (22, tag, p)
  | .readDevice tag p => some (23, tag, p)
  | .readAward tag p => some (24, tag, p)
  | .readSwitches tag p => some (25, tag, p)
  | .fetchEvents tag p => some (26, tag, p)
  | .restartRequest tag p => some (27, tag, p)
  | .hardReset | .switchScan _ | .switchClosure _ _ | .switchOpening _ _ | .tiltClosure _ | .slamClosure _
  | .tiltSlamOpening _ | .deviceSwitchTransition _ | .tenth | .modeTimeout | .ballSaveExpired | .settleExpired _
  | .arrival _ _ | .holdOffExpired _ | .coilGrant | .pulseEnd _ | .confirmWindowEnd _ | .retryIntervalEnd _
  | .searchWindowEnd _ | .searchArm | .searchStep | .searchPauseEnd | .requestFrame | .interByteGap | .lineBreak
  | .longBreak | .replySent | .byteReceived _ | .framingError | .lineBreakEnd => none

end Sys2Proof
end

