-- ==== Sys2Proof/Safety.lean ====
section
/-! DEFINITION. The terms in which statements about the 4610 are made: the invariants that every step keeps, what it is for
configuration to stay as loaded, and what it is for a request to be handed on and answered. -/

namespace Sys2Proof.Machine

open Sys2Proof

/-! ### Invariants -/

/-- The law of the census (R115, R180): in NORMAL the measured total, PLAYFIELD and MISSING sum to N; in CONFLICT the measured
total is above N and PLAYFIELD and MISSING are both 0. -/
abbrev State.CensusLaw (s : State) : Prop :=
  (s.census.conflict = false → s.measured + s.census.playfield + s.census.missing = s.game.params.installed) ∧
    (s.census.conflict = true →
      s.game.params.installed < s.measured ∧ s.census.playfield = 0 ∧ s.census.missing = 0)

/-- The Event Queue holds at most 64 records (R188, R189). -/
abbrev State.EventsHeld (s : State) : Prop := s.events.length ≤ Config.eventRecords

/-- The pending-trigger list holds at most 16 triggers (R41). -/
abbrev State.TriggersHeld (s : State) : Prop := s.engine.triggers.length ≤ Config.pendingTriggers

/-- At most 4 slots of the reply queue are held (R175). -/
abbrev State.SlotsHeld (s : State) : Prop := s.link.slots.length ≤ Config.replySlots

/-- Every eject queue holds at most 8 orders (R95, R96). -/
abbrev State.QueuesHeld (s : State) : Prop := ∀ d < Config.deviceCount, (s.device d).queue.length ≤ Config.queueOrders

/-- The mode stack holds at most 6 instances and is empty between balls, and every saved-mode list holds at most 4 (R66, R80,
R83). -/
abbrev State.StackHeld (s : State) : Prop :=
  s.modes.stack.length ≤ Config.stackInstances ∧
    (s.game.phase = .idle ∨ s.game.phase = .ballOver → s.modes.stack = []) ∧
    ∀ q ∈ s.game.players, q.saved.length ≤ Config.savedInstances

/-- Every score is at most the score limit (R54, R145). -/
abbrev State.ScoresHeld (s : State) : Prop := ∀ q ∈ s.game.players, q.score ≤ Config.scoreLimit

/-- A device in this state may stand in the ready line: its head order is ready, or its retry interval has run out (R99). -/
def DeviceState.mayWait : DeviceState → Bool
  | .ejectWait | .retryWait => true
  | .disabled | .idle | .pulsing | .confirming | .fault => false

/-- The coil budget law (R99): the devices PULSING are those granted, each once, and never more than the budget; the ready
line holds each device once, in EJECT_WAIT or RETRY_WAIT; and a SEARCH order waits only in EJECT_WAIT. -/
abbrev State.CoilLaw (s : State) : Prop :=
  s.devices.granted.Nodup ∧ s.devices.granted.length ≤ s.game.params.coilBudget ∧
    (∀ d ∈ s.devices.granted, d < Config.deviceCount) ∧
    (∀ d < Config.deviceCount, (s.device d).state = .pulsing ↔ d ∈ s.devices.granted) ∧
    (s.devices.ready.map Ready.device).Nodup ∧
    (∀ r ∈ s.devices.ready, r.device < Config.deviceCount ∧ (s.device r.device).state.mayWait = true) ∧
    ∀ d < Config.deviceCount, (s.device d).searchWaits = true → (s.device d).state = .ejectWait

/-- The law of the search (R165, R166): the search is OFF exactly outside PLAY and TILT, and a SEARCH order is in flight only
in ROUND. -/
abbrev State.SearchLaw (s : State) : Prop :=
  (s.game.search.phase = .off ↔ s.game.phase ≠ .play ∧ s.game.phase ≠ .tilt) ∧
    (s.game.search.inFlight ≠ none → s.game.search.phase = .round)

/-! ### Configuration as loaded -/

/-- All that SET_… requests load is the same in both states: parameters, switch records, groups, device records, award entries,
mode definitions and multiball definitions. -/
def State.SameSettings (s t : State) : Prop :=
  t.game.params = s.game.params ∧ (∀ i, (t.switch i).record = (s.switch i).record) ∧
    t.scanner.groups = s.scanner.groups ∧ (∀ d, (t.device d).record = (s.device d).record) ∧
    t.engine.awards = s.engine.awards ∧ t.modes.defs = s.modes.defs ∧ t.census.defs = s.census.defs

/-- A command of the part's own clocks or a hand-on: one that neither samples the switches nor comes over the link. -/
def ownWork : Instr → Bool
  | .switchClosure _ _ | .switchOpening _ _ | .tiltClosure _ | .slamClosure _ | .tiltSlamOpening _
  | .deviceSwitchTransition _ | .tenth | .modeTimeout | .ballSaveExpired | .settleExpired _ | .arrival _ _
  | .holdOffExpired _ | .coilGrant | .pulseEnd _ | .confirmWindowEnd _ | .retryIntervalEnd _ | .searchWindowEnd _
  | .searchArm | .searchStep | .searchPauseEnd => true
  | .hardReset | .switchScan _ | .requestFrame | .interByteGap | .lineBreak | .longBreak | .replySent | .byteReceived _
  | .framingError | .lineBreakEnd | .unknownType _ _ _ | .setGame _ _ | .setSwitch _ _ | .setGroup _ _ | .setDevice _ _
  | .setMode _ _ | .setMultiball _ _ | .setAward _ _ | .clearTables _ _ | .startGame _ _ | .addPlayer _ _ | .nextBall _ _
  | .endGame _ _ | .triggerRequest _ _ | .grantRequest _ _ | .modeControl _ _ | .setPlayer _ _ | .ejectRequest _ _
  | .clearFault _ _ | .clearLatches _ _ | .readStatus _ _ | .readPlayer _ _ | .readModes _ _ | .readDevice _ _
  | .readAward _ _ | .readSwitches _ _ | .fetchEvents _ _ | .restartRequest _ _ => false

/-! ### Requests -/

/-- Request `r` can be handed on: no RESTART has ended, no request is in hand, `r` is not one that waits for a hand-on in progress,
and `r` is the oldest waiting request, or none waits, nothing else of the link is under way and a slot is free for `r` to arrive in
whole (R44, R174, R175, R178). -/
def State.Offers (s : State) (r : Request) : Prop :=
  s.link.restarting = false ∧ s.inHand = false ∧ (betweenWalks r.type = true → s.engine.paused = none) ∧
    (firstWaiting s.link.slots = some r ∨
      firstWaiting s.link.slots = none ∧ s.link.slots.length < Config.replySlots ∧ s.link.inBreak = false ∧
        s.link.receiver = .hunt ∧ s.link.frames = [])

/-- The replay thresholds of `g` that player `q` reaches with score `score`, from the next one on (R55). -/
def Params.reached (g : Params) (q : Player) (score : Nat) : List Nat :=
  (g.thresholds.drop q.nextReplay).takeWhile fun x => decide (x ≤ score)

/-- The record of player `q` once `points` have been added to its score: held at the score limit, with the thresholds reached
counted and the first holding marked (R54, R55). -/
def Player.plus (q : Player) (g : Params) (points : Nat) : Player :=
  { q with
    score := min (q.score + points) 99999999990
    nextReplay := q.nextReplay + (g.reached q (min (q.score + points) 99999999990)).length
    limitReported := q.limitReported || decide (99999999990 < q.score + points) }

/-- The SCORE records of an addition of `points` to the score of the current player's record `q` by work stamped `at_`: a REPLAY for
each threshold crossed, then LIMIT at the first holding (R54, R55). -/
def State.scoreRecords (s : State) (q : Player) (at_ : Stamp) (points : Nat) : List EventRecord :=
  (((s.game.params.reached q (min (q.score + points) 99999999990)).zipIdx.filter fun x => decide (q.score < x.1)).map
      fun x => ⟨.scoreReplay, s.game.current, q.nextReplay + x.2 + 1, at_, 0, x.1⟩) ++
    if 99999999990 < q.score + points ∧ q.limitReported = false then
      [⟨.scoreLimit, s.game.current, 0, at_, 0, q.score + points - 99999999990⟩] else []

/-- An entry that awards its base, and does nothing else, when a walk with edge `edge` reaches it and its condition passes: ENABLED,
of that edge, with open gates, value source FIXED and no action (R28, R29, R33, R34, R49). -/
abbrev AwardEntry.Plain (e : AwardEntry) (edge : Edge) : Prop :=
  e.state = .enabled ∧ e.edge = edge ∧ e.gateKind = .any ∧ e.ballGate = .any ∧ e.source = .fixed ∧ e.actions = []

/-- The walk of a chain of the plain entry `i` alone, by work stamped `at_` that found record `q` of the current player and the
Event Queue `before`, is what last changed the points from `s` to `t`: the base times the total multiplier is added to that player's
score and to no other, and the SCORE records and, when the entry says so, AWARD ENTRY are queued (R33, R34, R54, R55, R56). -/
def State.EntryAwarded (s t : State) (i : Nat) (q : Player) (at_ : Stamp) (before : List EventRecord) : Prop :=
  let e := s.award i
  let factor := t.multiplier e.classes
  let points := e.base * factor
  t.player? s.game.current = some (q.plus s.game.params points) ∧
    (∀ k, k ≠ s.game.current → t.player? k = s.player? k) ∧
    t.events = List.foldl appendEvent before (s.scoreRecords q at_ points ++
      if e.report = true then [⟨.awardEntry, s.game.current, i, at_, factor, points⟩] else [])

/-- The slots once request `r` has been answered with a reply of payload `payload`, in the place of its request (R175). -/
def answered (slots : List Slot) (r : Request) (payload : List Byte) : List Slot :=
  match firstWaiting slots with
  | some _ => answerSlot ⟨r.type, r.tag, payload⟩ slots
  | none => slots ++ [.ready ⟨r.type, r.tag, payload⟩]

/-- The Link Port once request `r` has been answered with `payload`; nothing else of it changes. -/
def State.answeredLink (s : State) (r : Request) (payload : List Byte) : Link :=
  { s.link with slots := answered s.link.slots r payload }

/-- The slots with request `r` in hand: it keeps its slot, or takes the free one in which it arrives (R175). -/
def takenInHand (slots : List Slot) (r : Request) : List Slot :=
  match firstWaiting slots with
  | some _ => slots
  | none => slots ++ [.waiting r]

/-- The Link Port of `t` is that of `s`, but for the reply of a request in hand that has ended meanwhile, in the place of its
request (R175). -/
def State.LinkKept (s t : State) : Prop :=
  t.link = s.link ∨ s.inHand = true ∧ t.inHand = false ∧ ∃ r payload, firstWaiting s.link.slots = some r ∧
    t.link = { s.link with slots := answerSlot ⟨r.type, r.tag, payload⟩ s.link.slots }

/-- The state with request `r` answered by `payload` and nothing else changed but the time stamp of the work in hand. -/
def State.onlyAnswered (s : State) (r : Request) (payload : List Byte) : State :=
  { s with link := s.answeredLink r payload, time := s.scanner.now }

/-! ### Hand-ons -/

/-- Transition `tr` has been handed on: it waits no longer, and the link, but for the reply of a request in hand, the configuration
and what the scans have sampled stand as they were (R6 to R11, R175). -/
def State.HandedOn (s t : State) (tr : Transition) : Prop :=
  t.scanner.waiting = s.scanner.waiting.erase tr ∧ t.scanner.now = s.scanner.now ∧ s.LinkKept t ∧ s.SameSettings t ∧
    ∀ i, (t.switch i).raw = (s.switch i).raw ∧ (t.switch i).debounced = (s.switch i).debounced ∧
      (t.switch i).count = (s.switch i).count

/-- The Event Queue of `s` with the record that the report setting of the switch calls for, once `tr` is handed on (R10; the setting
is read at the hand-on, notes/assumptions/42.md). -/
def State.reportedEvents (s : State) (tr : Transition) : List EventRecord :=
  let report := (s.switch tr.switch).record.report
  if tr.closed = true ∧ report ≠ .none then
    appendEvent s.events ⟨.switchClosed, 0, tr.switch, tr.stamp, tr.role.code, 0⟩
  else if tr.closed = false ∧ report = .both then
    appendEvent s.events ⟨.switchOpened, 0, tr.switch, tr.stamp, tr.role.code, 0⟩
  else s.events

/-- The records of `t` are those of `s` with the report of `tr`, and behind it what else the hand-on led to (R6 to R10). -/
def State.ReportedFirst (s t : State) (tr : Transition) : Prop :=
  ∃ more, t.events = List.foldl appendEvent (s.reportedEvents tr) more

/-- No configured device names switch `i` as its entry or exit switch. -/
def State.NoDeviceNames (s : State) (i : Nat) : Prop :=
  ∀ d < Config.deviceCount, s.configured d = true →
    (s.device d).record.entrySwitch ≠ some i ∧ (s.device d).record.exitSwitch ≠ some i

/-! ### Devices and ball starts -/

/-- Device `d` of `t` has completed the head order that it had in `s` with no held rise left: the order has left the queue, in which
RECOVER and LAUNCH orders may follow it, the cycle is over, and every ball counted is accounted for (R102). -/
def State.OrderCompleted (s t : State) (d : Nat) : Prop :=
  let w := t.device d
  w.retries = 0 ∧ w.base = 0 ∧ w.timer = none ∧ w.evidence = none ∧ w.searching = false ∧
    w.accounted = w.settled ∧ w.arrivals = [] ∧ (w.state = if w.queue = [] then .idle else .ejectWait) ∧
    ∃ more, w.queue = (s.device d).queue.tail ++ more ∧ (∀ o ∈ more, o.reason = .recover ∨ o.reason = .launch) ∧
      (s.ballOn = true → (d = 1 → s.devices.launchOwed = 0) → more = [])

/-- The trough's queue after step 7 of a ball start: with the shooter lane empty one SERVE order without the launch flag is queued,
unless the queue is full; a SEARCH order has left it with the phase (R96, R150, R165). -/
def State.servedQueue (s : State) : List Order :=
  let kept := (s.device 0).queue.filter fun o => o.reason != .search
  if 1 ≤ s.shooter ∨ 8 ≤ kept.length then kept else kept ++ [⟨.serve, s.scanner.now, false⟩]

/-- The last records of a ball start of player `p`, one of `players`, on ball `ball` at stamp `at_`, with `stack` restored: MODE
RESTORED for each instance in stack order, then GAME BALL_STARTED (R82, R150). -/
def ballStartRecords (stack : List ModeInst) (p ball players : Nat) (at_ : Stamp) : List EventRecord :=
  stack.map (fun i => ⟨.modeRestored, p, i.mode, at_, if i.state = .running then 0 else 1, i.value⟩) ++
    [⟨.gameBallStarted, p, ball, at_, players, 0⟩]

/-- The instances that saved list `saved` becomes, in list order: each with what it was saved with, the next start order and the
state of the law of R67 (R82). -/
def State.restored (s : State) (saved : List SavedMode) : List ModeInst :=
  let below := fun (v w : SavedMode) => (s.modeDef v.mode).priority < (s.modeDef w.mode).priority
  saved.zipIdx.map fun x =>
    { mode := x.1.mode, remaining := x.1.remaining, progress := x.1.progress, value := x.1.value
      order := (s.modes.nextOrder + x.2) % 65536
      state := if ∃ w ∈ saved, (s.modeDef w.mode).exclusive = true ∧ below x.1 w then .suspended else .running }

/-! ### The end of a game and the soft reset -/

/-- The game of `s` has been ended by slam or END_GAME (R162): no cycle, no orders of the game, an empty stack, no current
player, phase IDLE with the search off, and the players' records kept without their saved modes. -/
def State.GameEnded (s t : State) : Prop :=
  t.game.phase = .idle ∧ t.flipen = false ∧ t.game.current = 0 ∧ t.game.ballNumber = s.game.ballNumber ∧
    t.game.players = s.game.players.map (fun q => { q with saved := [] }) ∧
    t.game.search.phase = .off ∧ t.game.search.round = 0 ∧ t.modes.stack = [] ∧ t.modes.deferred = false ∧
    t.census.multi = false ∧ t.census.save = none ∧ t.census.validated = false ∧ t.census.missingReturns = 0 ∧
    t.pulsingCount = 0 ∧ t.devices.launchOwed = 0 ∧ (t.device 0).queue = [] ∧ (t.device 1).queue = [] ∧
    ∀ d < Config.deviceCount, (t.device d).retries = 0 ∧ (t.device d).accounted = (t.device d).settled ∧
      ∀ o ∈ (t.device d).queue, o.reason = .recover

/-- What the Switch Scanner and the Ball Device Controller keep and lose at a soft reset (R19, R113). -/
def State.DevicesReset (s t : State) : Prop :=
  (∀ i, (t.switch i).latch = false ∧ (t.switch i).debounced = (s.switch i).debounced ∧
      (t.switch i).count = (s.switch i).count) ∧
    t.scanner.quiet = 0 ∧ t.pulsingCount = 0 ∧ t.devices.launchOwed = 0 ∧ (t.device 0).queue = [] ∧
    (t.device 1).queue = [] ∧
    ∀ d < Config.deviceCount, (t.device d).retries = 0 ∧ (t.device d).base = 0 ∧ (t.device d).settle = none ∧
      (t.device d).entries = 0 ∧ (t.device d).accounted = (t.device d).settled ∧
      (∀ o ∈ (t.device d).queue, o.reason = .recover) ∧
      (t.device d).settled =
        if s.configured d = true ∧ (s.device d).record.figures.counting = .positions then s.rawCount d
        else (s.device d).settled

/-- What a soft reset leaves of the balls (R139): every locked count is held at its device's settled count as re-measured, and the
census is found afresh from the measured total with nothing missing. -/
def State.CensusMeasured (s t : State) : Prop :=
  (∀ d < Config.deviceCount, t.locked d = min (s.locked d) (t.device d).settled) ∧
    (t.census.conflict = true ↔ s.game.params.installed < t.measured) ∧
    t.census.playfield = s.game.params.installed - t.measured

/-- State `t` is what a soft reset of cause `cause` makes of `s`; that work which has paused ends with its root is the model's
choice (notes/assumptions/45.md) (R19, R46, R86, R113, R139, R157, R169, R178, R191). -/
def State.SoftResetOf (s t : State) (cause : Nat) : Prop :=
  s.SameSettings t ∧ s.DevicesReset t ∧ s.CensusMeasured t ∧
    t.game.phase = .idle ∧ t.flipen = false ∧ t.game.players = [] ∧ t.game.current = 0 ∧ t.game.ballNumber = 0 ∧
    t.game.lastTilt = none ∧ t.game.search.phase = .off ∧ t.game.search.round = 0 ∧ t.game.search.quietMark = 0 ∧
    t.engine.triggers = [] ∧ t.engine.root = none ∧ t.engine.paused = none ∧
    t.modes.stack = [] ∧ t.modes.nextOrder = 0 ∧ t.modes.deferred = false ∧
    t.modes.lastTenth = s.modes.lastTenth ∧ t.census.lastTenth = s.census.lastTenth ∧ t.census.missing = 0 ∧ t.census.save = none ∧ t.census.multi = false ∧ t.census.validated = false ∧
    t.census.missingReturns = 0 ∧ t.census.lastStarted = none ∧
    t.link.receiver = .hunt ∧ t.link.slots = [] ∧ t.link.restarting = false ∧
    t.events.head? = some ⟨.restartedSoft, 0, 0, s.scanner.now, cause, 0⟩

/-! ### Invariants together -/

/-- Every collection of the part stays within what the part holds. -/
abbrev State.CollectionsHeld (s : State) : Prop :=
  s.EventsHeld ∧ s.TriggersHeld ∧ s.SlotsHeld ∧ s.QueuesHeld ∧ s.ScoresHeld

end Sys2Proof.Machine
end

