-- ==== Sys2Proof/Certificates/Slice0/Obligations.lean ====
section
/-! DEFINITION. The statements about the 4610: what each command does and leaves alone, what each block keeps, and the invariants
that every step keeps. Each docstring names the rules of spec/ it rests on. -/

open Sys2Proof Sys2Proof.Machine

/-! ### Steps and resets -/

/-- A step takes the command at the front of the queue; with none waiting the part works on by itself (the idle step is the
model's choice, notes/assumptions/3.md). -/
def Obligations.StepRunsFrontCommand : Prop :=
  (∀ (c : Instr) (rest : List Instr) (s : State), s.pending = c :: rest → step s = exec c { s with pending := rest }) ∧
    ∀ s : State, s.pending = [] → step s = .next s.idle

/-- Every command answers a next state in every state, and leaves the queue of waiting commands alone; a command of the part's own
clocks and a hand-on leave the link, but for the reply of a request in hand that ends meanwhile, the configuration, the time stamp
and what the scans have sampled as they are (sections 0.3 and 0.4). That a command which is not due changes nothing, and so answers
in every state, is the model's choice (notes/assumptions/2.md), and so are a request that stays in hand (notes/assumptions/4.md),
the queue of waiting commands (notes/assumptions/7.md) and its outliving a HARD_RESET (notes/assumptions/22.md). -/
def Obligations.EveryCommandAnswersNext : Prop :=
  ∀ (c : Instr) (s : State), ∃ t, exec c s = .next t ∧ t.pending = s.pending ∧
    (ownWork c = true → s.LinkKept t ∧ s.SameSettings t ∧ t.scanner.now = s.scanner.now ∧
      t.scanner.started = s.scanner.started ∧
      ∀ i, (t.switch i).raw = (s.switch i).raw ∧ (t.switch i).debounced = (s.switch i).debounced ∧
        (t.switch i).count = (s.switch i).count)

/-- The state after a hard reset holds the values the chapters give (R4, R15, R18, R46, R86, R113, R139, R142, R157, R169,
R178, R191), and HARD_RESET returns to it from every state. The last clause is the model's choice: that HARD_RESET is one moment,
which the waiting commands outlive and after which ATTN is asserted at once (notes/assumptions/22.md), and that it ends in the
whole of the reset state, values that the manual does not give among them (notes/assumptions/6.md). -/
def Obligations.HardResetRestoresAll : Prop :=
  let r := State.reset
  (∀ i < 72, (r.switch i).record = ⟨3, 3, .playfield, .none⟩ ∧ (r.switch i).latch = false ∧ (r.switch i).count = 0) ∧
  (∀ g < 8, (r.group g).members = [] ∧ (r.group g).perBall = false) ∧ r.scanner.quiet = 0 ∧
  (∀ i < 256, (r.award i).state = .empty) ∧ r.engine.triggers = [] ∧ r.engine.root = none ∧ r.engine.paused = none ∧
  (∀ m < 16, (r.modeDef m).defined = false) ∧ r.modes.stack = [] ∧ r.modes.nextOrder = 0 ∧ r.modes.deferred = false ∧
  r.modes.lastTenth = 0 ∧ r.census.lastTenth = 0 ∧
  (∀ d < 8, (r.device d).state = .disabled ∧ (r.device d).record.role = .unused ∧ (r.device d).queue = [] ∧
    (r.device d).settled = 0 ∧ (r.device d).accounted = 0 ∧ (r.device d).entries = 0 ∧ (r.device d).settle = none ∧
    (r.device d).retries = 0 ∧ (r.device d).base = 0 ∧ r.locked d = 0) ∧
  r.devices.ready = [] ∧ r.devices.launchOwed = 0 ∧ (∀ n < 8, r.coilEnable n = false) ∧
  r.census.playfield = 4 ∧ r.census.missing = 0 ∧ r.census.conflict = false ∧ r.census.multi = false ∧
  r.census.save = none ∧ r.census.validated = false ∧ r.census.missingReturns = 0 ∧ r.census.lastStarted = none ∧
  (∀ k < 4, (r.multiballDef k).defined = false) ∧
  r.game.params =
    { installed := 4, ballsPerGame := 3, maxPlayers := 4, ballSaveTime := 100, searchDelay := 20, searchRounds := 5
      missingReplace := true, tiltWarnings := 2, coilBudget := 2, factorCap := 2, locksNeeded := 3, lockLitCarry := true
      flagCarry := 0xFFFFFFFF, bonusUnit := 1000, bonusMultCarry := false, jackpotBase := 1000000
      jackpotCap := 999999990, buildPercent := 10, extraBallLimit := 4, thresholds := [] } ∧
  r.game.phase = .idle ∧ r.flipen = false ∧ r.game.players = [] ∧ r.game.current = 0 ∧ r.game.ballNumber = 0 ∧
  r.game.lastTilt = none ∧ r.game.search.phase = .off ∧ r.game.search.round = 0 ∧ r.game.search.inFlight = none ∧
  r.game.search.lastGrant = none ∧ r.game.search.quietMark = 0 ∧
  r.link.receiver = .hunt ∧ r.link.slots = [] ∧ r.events = [⟨.restartedHard, 0, 0, 0, 0, 0⟩] ∧ r.attn = true ∧
  ∀ s : State, exec .hardReset s = .next { r with pending := s.pending }

/-- A break that reaches 500 ms causes one soft reset, which leaves the break itself going on; a second LONG_BREAK of the same
break does nothing. The last byte of a reply frees its slot; when it is the reply of a RESTART that has ended, the soft reset
follows (R174, R175, R178, R187, R191). REPLY_SENT stands for the leaving of all the bytes still to go, wherever the transmitter
stands in the reply: that is the model's choice (notes/assumptions/44.md). After a soft reset each locked count is held at its
device's settled count and the census is measured afresh (R139). That a hand-on which has come to a pause ends with its root at the
reset is the model's choice too (notes/assumptions/45.md). -/
def Obligations.SoftResetsFollow : Prop :=
  ((∀ s : State, s.link.inBreak = true → s.link.breakTaken = false →
      ∃ t, exec .longBreak s = .next t ∧ s.SoftResetOf t 1 ∧ t.link.inBreak = true ∧ t.link.breakTaken = true) ∧
    ∀ s : State, s.link.inBreak = true → s.link.breakTaken = true → exec .longBreak s = .next s) ∧
  (∀ (s : State) (r : Request) (rest : List Slot), s.link.slots = .ready r :: rest →
    (s.link.restarting = false ∨ r.type ≠ 27 ∨ r.payload ≠ [0]) →
    exec .replySent s = .next { s with link := { s.link with slots := rest, sent := 0 } }) ∧
  ∀ (s : State) (tag : Byte) (rest : List Slot), s.link.slots = .ready ⟨27, tag, [0]⟩ :: rest →
    s.link.restarting = true → ∃ t, exec .replySent s = .next t ∧ s.SoftResetOf t 0

/-! ### Scans -/

/-- A scan reads each switch once, switch c × 8 + r as the contact of COLc and ROWr and switch 64 + n as DINn; it advances the time
stamp and the quiet timer, debounces each switch by R2 and R3, makes its transitions waiting, and changes nothing else (R1, R2,
R3, R17). The first scan after a hard reset is stamped 0 and takes the debounced states from the contacts with no transition
(R18). That the transitions of one scan are listed in switch order is the model's choice (notes/assumptions/5.md): R11 lets
either be handed on first. -/
def Obligations.ScanDebounces : Prop :=
  let sample := fun (contacts : Contacts) (i : Nat) =>
    if i < 64 then (readTable contacts.columns 0 (i / 8)).getLsbD (i % 8) else contacts.direct.getLsbD (i - 64)
  (∀ (contacts : Contacts) (s : State), s.scanner.started = true →
      ∃ t, exec (.switchScan contacts) s = .next t ∧ t = { s with scanner := t.scanner } ∧
        t.scanner.started = true ∧ t.scanner.groups = s.scanner.groups ∧
        t.scanner.now = s.scanner.now + 1 ∧ t.scanner.quiet = min (s.scanner.quiet + 1) 65535 ∧
        t.scanner.waiting = s.scanner.waiting ++ (List.range 72).filterMap (fun i =>
          if s.roleOf i ≠ .unused ∧ (t.switch i).debounced ≠ (s.switch i).debounced then
            some ⟨i, sample contacts i, s.roleOf i, s.scanner.now + 1⟩ else none) ∧
        ∀ i < 72,
          let w := s.switch i
          let v := t.switch i
          let time := if w.debounced = true then w.record.openDebounce else w.record.closeDebounce
          v.record = w.record ∧ v.latch = w.latch ∧ v.raw = sample contacts i ∧
          (s.roleOf i = .unused → v.debounced = false ∧ v.count = 0) ∧
          (s.roleOf i ≠ .unused →
            (sample contacts i = w.debounced → v.debounced = w.debounced ∧ v.count = 0) ∧
            (sample contacts i ≠ w.debounced → w.count + 1 < time →
              v.debounced = w.debounced ∧ v.count = w.count + 1) ∧
            (sample contacts i ≠ w.debounced → time ≤ w.count + 1 →
              v.debounced = sample contacts i ∧ v.count = 0))) ∧
  ∀ (contacts : Contacts) (s : State), s.scanner.started = false →
    ∃ t, exec (.switchScan contacts) s = .next t ∧ t = { s with scanner := t.scanner } ∧
      t.scanner.started = true ∧ t.scanner.now = 0 ∧ t.scanner.waiting = s.scanner.waiting ∧
      t.scanner.groups = s.scanner.groups ∧ t.scanner.quiet = min (s.scanner.quiet + 1) 65535 ∧
      ∀ i < 72, (t.switch i).raw = sample contacts i ∧ (t.switch i).count = 0 ∧
        (t.switch i).debounced = (sample contacts i && s.roleOf i != .unused) ∧
        (t.switch i).latch = (s.switch i).latch ∧ (t.switch i).record = (s.switch i).record

/-! ### Transitions handed on -/

/-- Each of the six hand-ons takes the transition it names out of the waiting ones, whatever the transition leads to, and leaves
the link, but for the reply of a request in hand that ends before it (R175), the configuration and the sampled switches alone
(R6 to R9, R11). With nothing to catch up, a closure whose report
setting is CLOSE or BOTH queues SWITCH CLOSED and an opening whose setting is BOTH queues SWITCH OPENED, in every phase and before
any other record it leads to (R10). That the setting is read at the hand-on is the model's choice (notes/assumptions/42.md), and so
is a request that stays in hand (notes/assumptions/4.md). -/
def Obligations.HandOnTakesTransition : Prop :=
  ∀ (i : Nat) (b : Bool) (s : State) (tr : Transition), s.waitingOf i = some tr →
    let handedOn := fun (t : State) => s.HandedOn t tr ∧ (s.quietEngine = true → s.ReportedFirst t tr)
    (tr.closed = true → tr.role = .playfield ∨ tr.role = .cabinet →
      ∃ t, exec (.switchClosure i b) s = .next t ∧ handedOn t) ∧
    (tr.closed = false → tr.role = .playfield ∨ tr.role = .cabinet →
      ∃ t, exec (.switchOpening i b) s = .next t ∧ handedOn t) ∧
    (tr.closed = true → tr.role = .tilt → ∃ t, exec (.tiltClosure i) s = .next t ∧ handedOn t) ∧
    (tr.closed = true → tr.role = .slam → ∃ t, exec (.slamClosure i) s = .next t ∧ handedOn t) ∧
    (tr.closed = false → tr.role = .tilt ∨ tr.role = .slam →
      ∃ t, exec (.tiltSlamOpening i) s = .next t ∧ handedOn t) ∧
    (tr.role = .device → ∃ t, exec (.deviceSwitchTransition i) s = .next t ∧ handedOn t)

/-- A closure in SERVE or PLAY of a switch that no device names sets that latch alone and then walks its trigger with edge CLOSE: an
empty chain does nothing, and a chain of one plain entry of that edge awards its base, behind every other record of the closure; a
LATCH condition on the switch itself passes (R6, R13, R21, R30, R33, R34). A PLAYFIELD closure restarts the quiet timer, finds a
missing ball, validates the ball and arms the ball save; a CABINET closure leaves the census and the quiet timer alone and queues no
record but its own report (R6, R7, R10, R13, R17, R118, R120, R121, R151). Where one device names the switch, as its entry or as its
exit switch, the closure is what its counting method and its state make of it: an entry counted, a ball that left by itself,
evidence kept, an order completed or an attempt failed (R92, R93, R101, R104, R106). In the second clause every ball of the device
is accounted for, so that no arrival follows. These are the model's choices: that the report setting is read at the hand-on
(notes/assumptions/42.md), that a second exit closure of one pulse is ignored (notes/assumptions/18.md), and what a completed order
expects at a base or an accounted count of 0 (notes/assumptions/13.md). The time stamp of SCORE and AWARD records is DEDUCED
(notes/assumptions/8.md). -/
def Obligations.ClosureInPlay : Prop :=
  (∀ (i : Nat) (b : Bool) (s : State) (tr : Transition), s.waitingOf i = some tr → tr.closed = true →
    tr.role = .playfield ∨ tr.role = .cabinet → s.quietEngine = true → s.inPlay = true → s.engine.triggers = [] →
    s.NoDeviceNames i → s.chain i = [] →
    ∃ t, exec (.switchClosure i b) s = .next t ∧ (i < 72 → (t.switch i).latch = true) ∧
      (∀ j, j ≠ i → (t.switch j).latch = (s.switch j).latch) ∧ t.game.players = s.game.players ∧
      t.engine.triggers = [] ∧ t.engine.root = none ∧ t.modes = s.modes ∧
      (tr.role = .cabinet → t.census = s.census ∧ t.scanner.quiet = s.scanner.quiet ∧ t.game.phase = s.game.phase ∧
        t.events = s.reportedEvents tr) ∧
      (tr.role = .playfield → t.scanner.quiet = 0 ∧ t.census.validated = true ∧
        t.game.phase = (if s.census.validated = true then s.game.phase else .play) ∧
        (t.census.missing, t.census.playfield) =
          (if 1 ≤ s.census.missing ∧ s.census.playfield = 0 then (s.census.missing - 1, 1)
            else (s.census.missing, s.census.playfield)) ∧
        t.census.save =
          (if s.census.validated = false ∧ s.census.save = none ∧ s.game.params.ballSaveTime ≠ 0 then
            some ⟨s.game.params.ballSaveTime, .one⟩ else s.census.save))) ∧
  (∀ (i k : Nat) (b : Bool) (s : State) (tr : Transition) (q : Player), i < 72 → s.waitingOf i = some tr →
    tr.closed = true → tr.role = .playfield ∨ tr.role = .cabinet → s.quietEngine = true → s.inPlay = true →
    s.engine.triggers = [] → s.NoDeviceNames i → s.chain i = [k] → s.player? s.game.current = some q →
    let e := s.award k
    (e.Plain .close → e.condition = none ∨ e.condition = some ⟨.latch, i, none, .whenSet⟩ →
      ∃ t, exec (.switchClosure i b) s = .next t ∧ t.engine.triggers = [] ∧ t.engine.root = none ∧ t.modes = s.modes ∧
        (t.switch i).latch = true ∧
        (tr.role = .cabinet → t.census = s.census ∧ s.EntryAwarded t k q tr.stamp (s.reportedEvents tr)) ∧
        (tr.role = .playfield → t.census.validated = true ∧
          ∃ more, s.EntryAwarded t k q tr.stamp (List.foldl appendEvent (s.reportedEvents tr) more))) ∧
    (e.edge = .opening → ∃ t, exec (.switchClosure i b) s = .next t ∧ t.engine.root = none ∧
      t.game.players = s.game.players ∧ (tr.role = .cabinet → t.events = s.reportedEvents tr))) ∧
  ∀ (i d : Nat) (b : Bool) (s : State) (tr : Transition), s.waitingOf i = some tr → tr.closed = true →
    tr.role = .playfield ∨ tr.role = .cabinet → s.quietEngine = true → s.inPlay = true →
    s.engine.triggers = [] → s.chain i = [] → d < 8 → s.configured d = true →
    (d = 1 → s.devices.launchOwed = 0) → (s.device d).searchWaits = false →
    (∀ e < 8, e ≠ d → s.configured e = true →
      (s.device e).record.entrySwitch ≠ some i ∧ (s.device e).record.exitSwitch ≠ some i) →
    let v := s.device d
    let f := v.record.figures
    let settle := some ⟨tr.stamp, f.settle⟩
    let cycling := v.state = .pulsing ∨ v.state = .confirming ∨ v.state = .retryWait
    ∃ t, exec (.switchClosure i b) s = .next t ∧
      let w := t.device d
      let completed := w.queue = v.queue.tail ∧ w.retries = 0 ∧ w.base = 0 ∧ w.timer = none ∧ w.evidence = none ∧
        w.accounted = w.settled ∧ (w.state = if v.queue.tail = [] then .idle else .ejectWait)
      (v.record.entrySwitch = some i → v.record.exitSwitch ≠ some i →
        (f.counting = .positions → w = { v with settle := settle }) ∧
        (f.counting = .entryExit → w = { v with entries := v.entries + 1, settle := settle }) ∧
        (f.counting = .entryBlind → v.searching = true ∨ v.state ≠ .pulsing ∧ v.state ≠ .confirming →
          w = { v with entries := v.entries + 1, settle := settle }) ∧
        (f.counting = .entryBlind → v.searching = false → v.state = .pulsing → w = { v with evidence := some .fallback }) ∧
        (f.counting = .entryBlind → v.searching = false → v.state = .confirming → v.settled ≤ v.base →
          w.entries = v.entries ∧ w.settle = v.settle ∧ w.settled = v.settled ∧ w.queue = v.queue ∧
          if v.record.autoRetry = true ∧ v.retries < f.retryLimit then
            w.state = .retryWait ∧ w.retries = v.retries + 1 ∧ w.timer = some ⟨tr.stamp, f.retryInterval⟩
          else w.state = .fault ∧ w.retries = v.retries)) ∧
      (v.record.exitSwitch = some i → v.record.entrySwitch ≠ some i →
        (f.counting = .entryBlind → w = v) ∧
        (f.counting = .positions → v.state = .pulsing → v.searching = false → v.evidence = none →
          w = { v with evidence := some .success }) ∧
        (f.counting = .positions → ¬cycling ∨ v.searching = true ∧ v.state ≠ .retryWait → w = v) ∧
        (f.counting = .entryExit → v.state = .idle → v.settled ≤ v.accounted →
          w.settled = v.settled - 1 ∧ w.accounted = v.settled - 1 ∧ w.queue = v.queue) ∧
        (f.counting = .entryExit → v.state = .ejectWait → v.settled ≤ v.accounted → w.settled = v.settled - 1 ∧
          (v.settled - 1 < v.accounted → completed)) ∧
        (f.counting = .entryExit → v.state = .fault → v.settled ≤ v.accounted → w.settled = v.settled - 1 ∧ completed) ∧
        (f.counting = .entryExit → v.state = .pulsing → v.searching = false → v.evidence = none →
          w = { v with settled := v.settled - 1, evidence := some .success }) ∧
        (f.counting = .entryExit → v.state = .confirming ∨ v.state = .retryWait → v.searching = false → v.evidence = none →
          v.settled ≤ v.base → w.settled = v.settled - 1 ∧ completed) ∧
        (f.counting = .entryExit → cycling → v.searching = true ∨ v.evidence ≠ none → w = v))

/-- Outside SERVE and PLAY a PLAYFIELD or CABINET transition sets no latch and is not walked: no player's flags, locks, bonus
or multipliers change, and no player's score, where the scores are within their limit (R6, R13, R32, R56, R160). -/
def Obligations.TransitionOutOfPlayNotWalked : Prop :=
  ∀ (i : Nat) (b : Bool) (s : State) (tr : Transition), s.waitingOf i = some tr →
    tr.role = .playfield ∨ tr.role = .cabinet → s.inPlay = false →
    ∃ t, exec (if tr.closed = true then .switchClosure i b else .switchOpening i b) s = .next t ∧ t.inPlay = false ∧
      (∀ j, (t.switch j).latch = (s.switch j).latch) ∧
      t.game.players.map (fun q => (q.flags, q.locksLit, q.locksMade, q.bonusCount, q.bonusMult, q.playfieldMult)) =
        s.game.players.map (fun q => (q.flags, q.locksLit, q.locksMade, q.bonusCount, q.bonusMult, q.playfieldMult)) ∧
      (s.ScoresHeld → t.game.players.map Player.score = s.game.players.map Player.score)

/-- An opening is reported when the setting is BOTH and sets no latch, restarts no quiet timer, is not offered to the census and
leaves every count, timer and evidence of the devices alone. In SERVE and PLAY it is walked with edge OPEN: an empty chain does
nothing, and a chain of one plain entry of that edge awards its base, where one of edge CLOSE is passed over; no walk, no root and
no trigger is left of it (R7, R21, R32, R33, R34). In IDLE and BALL_OVER the devices may be recovered after it (R109), its report
standing before any record of that. One of a TILT or SLAM switch does nothing else at all (R7, R8, R10). That an opening which R7 or
R8 hands to a device has no effect there is the model's reading of R93 (notes/assumptions/17.md), and that the report setting is
read at the hand-on is the model's choice (notes/assumptions/42.md). The time stamp of SCORE and AWARD records is DEDUCED
(notes/assumptions/8.md). -/
def Obligations.OpeningsReported : Prop :=
  let untouched := fun (s t : State) => ∀ d < 8,
    let v := s.device d
    let w := t.device d
    w.settled = v.settled ∧ w.accounted = v.accounted ∧ w.arrivals = v.arrivals ∧ w.settle = v.settle ∧
      w.entries = v.entries ∧ w.evidence = v.evidence ∧ w.base = v.base ∧ w.retries = v.retries ∧ w.timer = v.timer
  (∀ (i : Nat) (b : Bool) (s : State) (tr : Transition), s.waitingOf i = some tr → tr.closed = false →
    tr.role = .playfield ∨ tr.role = .cabinet → s.quietEngine = true →
    (s.inPlay = true ∧ s.engine.triggers = [] ∧ s.chain i = [] ∨ s.game.phase = .tilt) →
    ∃ t, exec (.switchOpening i b) s = .next t ∧ t.scanner = { s.scanner with waiting := s.scanner.waiting.erase tr } ∧
      t.census = s.census ∧ t.game = s.game ∧ t.modes = s.modes ∧
      (t.events =
        if (s.switch i).record.report = .both then
          appendEvent s.events ⟨.switchOpened, 0, i, tr.stamp, tr.role.code, 0⟩ else s.events) ∧ untouched s t) ∧
  (∀ (i k : Nat) (b : Bool) (s : State) (tr : Transition) (q : Player), s.waitingOf i = some tr → tr.closed = false →
    tr.role = .playfield ∨ tr.role = .cabinet → s.quietEngine = true → s.inPlay = true → s.engine.triggers = [] →
    s.chain i = [k] → s.player? s.game.current = some q →
    ∃ t, exec (.switchOpening i b) s = .next t ∧ t.scanner = { s.scanner with waiting := s.scanner.waiting.erase tr } ∧
      t.census = s.census ∧ t.modes = s.modes ∧ t.engine = { s.engine with walking := none } ∧ untouched s t ∧
      ((s.award k).Plain .opening → (s.award k).condition = none → s.EntryAwarded t k q tr.stamp (s.reportedEvents tr)) ∧
      ((s.award k).edge = .close → t.game = s.game ∧ t.events = s.reportedEvents tr)) ∧
  (∀ (i : Nat) (b : Bool) (s : State) (tr : Transition), s.waitingOf i = some tr → tr.closed = false →
    tr.role = .playfield ∨ tr.role = .cabinet → s.quietEngine = true →
    s.game.phase = .idle ∨ s.game.phase = .ballOver → s.SearchLaw →
    ∃ t, exec (.switchOpening i b) s = .next t ∧ t.scanner = { s.scanner with waiting := s.scanner.waiting.erase tr } ∧
      t.census = s.census ∧ t.game = s.game ∧ t.modes = s.modes ∧ t.engine = s.engine ∧
      (∃ more, t.events = List.foldl appendEvent
        (if (s.switch i).record.report = .both then
          appendEvent s.events ⟨.switchOpened, 0, i, tr.stamp, tr.role.code, 0⟩ else s.events) more) ∧ untouched s t) ∧
  ∀ (i : Nat) (s : State) (tr : Transition), s.waitingOf i = some tr → tr.closed = false →
    tr.role = .tilt ∨ tr.role = .slam → s.quietEngine = true →
    exec (.tiltSlamOpening i) s = .next { s with
      scanner := { s.scanner with waiting := s.scanner.waiting.erase tr }
      time := tr.stamp
      events :=
        if (s.switch i).record.report = .both then
          appendEvent s.events ⟨.switchOpened, 0, i, tr.stamp, tr.role.code, 0⟩ else s.events }

/-- A TILT closure out of play, or less than 1,000 ms after the last counted one, changes no field of the players or the tilt state;
one that is counted gives a warning while the parameter allows it, and otherwise tilts the ball (R158, R159, R141). That the players
and the phase do not depend on arrivals which the closure brings about where the switch is also a device's entry or exit switch is
the model's choice: they stay due until after the Game Controller has taken the closure (notes/assumptions/59.md). -/
def Obligations.TiltClosureWarnsOrTilts : Prop :=
  ∀ (i : Nat) (s : State) (tr : Transition), s.waitingOf i = some tr → tr.closed = true → tr.role = .tilt →
    s.quietEngine = true →
    ((s.inPlay = false ∨ ∃ l, s.game.lastTilt = some l ∧ elapsed tr.stamp l < 1000) →
      ∃ t, exec (.tiltClosure i) s = .next t ∧ t.game.players = s.game.players ∧ t.game.lastTilt = s.game.lastTilt ∧
        (t.game.phase = .tilt ↔ s.game.phase = .tilt)) ∧
    (s.inPlay = true → (∀ l, s.game.lastTilt = some l → 1000 ≤ elapsed tr.stamp l) →
      ∀ q, s.player? s.game.current = some q →
      (q.tiltWarnings + 1 ≤ s.game.params.tiltWarnings →
        ∃ t, exec (.tiltClosure i) s = .next t ∧ t.inPlay = true ∧ t.game.lastTilt = some tr.stamp ∧
          t.game.players =
            s.game.players.modify (s.game.current - 1) fun q => { q with tiltWarnings := q.tiltWarnings + 1 }) ∧
      (s.game.params.tiltWarnings < q.tiltWarnings + 1 →
        ∃ t, exec (.tiltClosure i) s = .next t ∧ t.game.phase = .tilt ∧ t.flipen = false ∧
          t.game.lastTilt = some tr.stamp ∧ t.game.players = s.game.players ∧ t.engine.triggers = [] ∧
          t.census.save = none))

/-- A SLAM closure in a game phase, and END_GAME in a game phase, end the game by R162; in IDLE the closure does nothing to the game
and END_GAME is answered REJECTED PHASE (R162, R163, R164, R110). The players stand but for their saved modes. That arrivals due are
set aside by END_GAME and a slam, and not handed on, is DEDUCED (notes/assumptions/12.md), and that those which a SLAM closure
itself brings about as device evidence stay due until then is the model's choice (notes/assumptions/59.md). -/
def Obligations.SlamAndEndGameEndTheGame : Prop :=
  (∀ (i : Nat) (s : State) (tr : Transition), s.waitingOf i = some tr → tr.closed = true → tr.role = .slam →
    s.quietEngine = true →
    (s.game.phase ≠ .idle → ∃ t, exec (.slamClosure i) s = .next t ∧ s.GameEnded t) ∧
    (s.game.phase = .idle → s.SearchLaw →
      ∃ t, exec (.slamClosure i) s = .next t ∧ t.game = s.game ∧ t.modes = s.modes)) ∧
  ∀ (tag : Byte) (s : State), s.Offers ⟨12, tag, []⟩ →
    (s.game.phase ≠ .idle → ∃ t, exec (.endGame tag []) s = .next t ∧ s.GameEnded t ∧
      t.link = s.answeredLink ⟨12, tag, []⟩ [0]) ∧
    (s.game.phase = .idle →
      exec (.endGame tag []) s = .next (s.onlyAnswered ⟨12, tag, []⟩ [3, 4, 0, 0, 0, 0]))

/-- A transition of a DEVICE switch restarts the settle of exactly the configured devices that name it as a position switch, and
changes no settled count, no latch, no quiet timer and nothing of the census (R9, R92). That a device which names the switch as its
entry or exit switch is handed nothing is the model's choice (notes/assumptions/60.md); that the devices are those whose records name
the switch at the hand-on is DEDUCED (notes/assumptions/5.md). -/
def Obligations.DeviceTransitionRestartsSettle : Prop :=
  ∀ (i : Nat) (s : State) (tr : Transition), s.waitingOf i = some tr → tr.role = .device → s.quietEngine = true →
    ∃ t, exec (.deviceSwitchTransition i) s = .next t ∧ t.census = s.census ∧
      t.scanner = { s.scanner with waiting := s.scanner.waiting.erase tr } ∧
      ∀ d < 8, (t.device d).settled = (s.device d).settled ∧
        (t.device d).settle =
          if s.configured d = true ∧ i ∈ (s.device d).record.positions then
            some ⟨tr.stamp, (s.device d).record.figures.settle⟩ else (s.device d).settle

/-! ### Tenths and expiries -/

/-- A tenth takes 1 from the remaining time of each instance that counts by R72 and from an active ball save; instances and a save
that come to 0 leave, and every record of the tenth carries the time stamp at which it was due, however late it is taken. The census
takes its tenth at the same time stamps, but never within the handling of an arrival, which is whole only with the root of its walk
(R68, R71, R72, R73, R94, R122, R138). That a tenth taken late stamps its records with the time at which it was due is DEDUCED
(notes/assumptions/8.md). These are the model's choices: that TENTH itself takes out what comes to 0, and that MODE_TIMEOUT and
BALL_SAVE_EXPIRED act only on what stands at 0 for another cause (notes/assumptions/9.md), that an instance refreshed to 1 just
before a tenth leaves with it (notes/assumptions/46.md), and that a census tenth which an arrival holds back stays due for a later
TENTH (notes/assumptions/57.md). -/
def Obligations.TenthsCountDown : Prop :=
  let inArrival := fun (s : State) => ∃ r, s.engine.root = some r ∧ 80 ≤ r.first ∧ r.first < 88
  (∀ s : State, ∃ t, exec .tenth s = .next t ∧ t.game = s.game ∧ t.devices = s.devices ∧ t.scanner = s.scanner ∧
    t.engine = s.engine ∧ t.link = s.link ∧
    (∀ r ∈ t.events, r ∈ s.events ∨ r.event = .overflow ∨ r.time =
      (if r.event = .ballSaveEnded then s.census.lastTenth else s.modes.lastTenth) + 100) ∧
    (elapsed s.scanner.now s.modes.lastTenth < 100 → t.modes = s.modes) ∧
    (100 ≤ elapsed s.scanner.now s.modes.lastTenth → t.modes.lastTenth = s.modes.lastTenth + 100 ∧
      t.modes.stack.map (fun i => (i.mode, i.remaining, i.progress, i.value, i.order)) =
        ((s.modes.stack.map fun i =>
          if i.state = .running ∧ s.game.phase ≠ .tilt ∧
              ((s.modeDef i.mode).timerHold = false ∨ 1 ≤ s.census.playfield) then
            { i with remaining := i.remaining.map (· - 1) } else i).filter fun i => i.remaining != some 0).map
          fun i => (i.mode, i.remaining, i.progress, i.value, i.order)) ∧
    (elapsed s.scanner.now s.census.lastTenth < 100 ∨ inArrival s → t.census = s.census) ∧
    (100 ≤ elapsed s.scanner.now s.census.lastTenth → ¬inArrival s →
      t.census = { s.census with
        lastTenth := s.census.lastTenth + 100
        save := s.census.save.bind fun r =>
          if r.remaining ≤ 1 then none else some { r with remaining := r.remaining - 1 } })) ∧
  (∀ s : State, (∃ i ∈ s.modes.stack, i.remaining = some 0) →
    ∃ t, exec .modeTimeout s = .next t ∧
      (∀ r ∈ t.events, r ∈ s.events ∨ r.event = .overflow ∨ r.time = s.modes.lastTenth) ∧
      t.game = s.game ∧ t.census = s.census ∧ t.devices = s.devices ∧
      t.scanner = s.scanner ∧ t.engine = s.engine ∧ t.link = s.link ∧
      t.modes.stack.map (fun i => (i.mode, i.remaining, i.progress, i.value, i.order)) =
        (s.modes.stack.filter fun i => i.remaining != some 0).map
          fun i => (i.mode, i.remaining, i.progress, i.value, i.order)) ∧
  ∀ (s : State) (r : BallSave), s.census.save = some r → r.remaining = 0 →
    (inArrival s → exec .ballSaveExpired s = .next s) ∧
    (¬inArrival s → exec .ballSaveExpired s = .next { s with
      time := s.census.lastTenth
      census := { s.census with save := none }
      events := appendEvent s.events ⟨.ballSaveEnded, s.game.current, 0, s.census.lastTenth, 0, 0⟩ })

/-- When a settle timer runs out the settled count takes the raw count, or adds the pending entries held at the capacity, with
DEVICE OVERFULL (R92, R93). In IDLE and EJECT_WAIT a rise becomes arrivals still to be handed on, and in every other state it is
held (R94). A fall below the accounted count lowers it in IDLE, completes the head order with no pulse in EJECT_WAIT (R98), and in
FAULT ends the fault, with FAULT_CLEARED of argument SELF (R106). A POSITIONS device's fall below its base count is success: kept
while PULSING, and completing the order in CONFIRMING and RETRY_WAIT (R101, R102, R104). A fall below LOCKED_k lowers it, with
DEVICE LOCKED_LOST (R117). A SEARCH order waits in EJECT_WAIT only (R96, R107), as StepKeepsCoilLaw has it. That arrivals stay due
for a command of their own each is DEDUCED (notes/assumptions/10.md). -/
def Obligations.SettleTakesCount : Prop :=
  ∀ (d : Nat) (s : State) (tm : Timer), d < 8 → s.quietEngine = true → s.configured d = true →
    (s.device d).settle = some tm → tm.length ≤ elapsed s.scanner.now tm.start →
    let f := (s.device d).record.figures
    let n := if f.counting = .positions then s.rawCount d
      else min ((s.device d).settled + (s.device d).entries) f.capacity
    ∃ t, exec (.settleExpired d) s = .next t ∧ s.SameSettings t ∧ (t.device d).settle = none ∧
      (t.device d).entries = 0 ∧ (t.device d).settled = n ∧
      (∀ e < 8, e ≠ d → (t.device e).settled = (s.device e).settled ∧ t.locked e = s.locked e) ∧
      let v := s.device d
      let w := t.device d
      let due := w.accounted = min v.accounted n ∧ w.arrivals = List.replicate (n - v.accounted) s.scanner.now
      let sameCycle := w.state = v.state ∧ w.retries = v.retries ∧ w.base = v.base ∧ w.timer = v.timer ∧
        w.searching = v.searching ∧ v.queue <+: w.queue ∧ (s.ballOn = true → w.queue = v.queue)
      let heldBack := w.accounted = v.accounted ∧ w.arrivals = []
      let queued := fun (r : EventRecord) => ∃ before after, t.events = List.foldl appendEvent s.events (before ++ [r] ++ after)
      let shown := f.counting = .positions ∧ n < v.base
      (f.counting ≠ .positions → f.capacity < v.settled + v.entries →
        queued ⟨.deviceOverfull, s.game.current, d, s.scanner.now, v.settled + v.entries - f.capacity, 0⟩) ∧
      (n < v.settled → n < s.locked d → t.locked d = n ∧
        queued ⟨.deviceLockedLost, s.game.current, d, s.scanner.now, s.locked d - n, n⟩) ∧
      (v.settled ≤ n ∨ s.locked d ≤ n → t.locked d = s.locked d) ∧
      (v.state = .idle → due) ∧
      (v.state = .ejectWait → v.accounted ≤ n ∨ v.searchWaits = true → due) ∧
      (v.searchWaits = false →
        (v.state = .ejectWait → n < v.accounted → s.OrderCompleted t d) ∧
        (v.state = .fault → v.accounted ≤ n → sameCycle ∧ heldBack) ∧
        (v.state = .fault → n < v.accounted → s.OrderCompleted t d ∧
          queued ⟨.deviceFaultCleared, s.game.current, d, s.scanner.now, 1, 0⟩) ∧
        (v.state = .pulsing ∨ v.state = .confirming ∨ v.state = .retryWait → ¬shown → sameCycle ∧ heldBack ∧
          w.evidence = v.evidence) ∧
        (v.searching = false → shown →
          (v.state = .pulsing → v.evidence = none → sameCycle ∧ heldBack ∧ w.evidence = some .success) ∧
          (v.state = .confirming ∨ v.state = .retryWait → s.OrderCompleted t d)))

/-- An arrival due at a device is taken once: it is due no longer and the accounted count rises by 1, while no settled count changes
(R94). In SERVE and PLAY trigger 80 + d is then walked with edge CLOSE: at a SHOOTER or a SAUCER a chain of one plain entry of that
edge awards its base, behind DEVICE ARRIVAL, and one of edge OPEN is passed over (R33, R34, R94, R126). That arrivals due wait for a
command of their own each, and carry the time stamp at which they came about, is DEDUCED (notes/assumptions/8.md,
notes/assumptions/10.md). -/
def Obligations.ArrivalAccounted : Prop :=
  (∀ (d k : Nat) (b : Bool) (s : State) (t0 : Stamp) (rest : List Stamp) (q : Player), d < 8 → s.engine.root = none →
    s.engine.paused = none → s.engine.triggers = [] → s.inPlay = true → (s.device d).arrivals = t0 :: rest →
    s.chain (80 + d) = [k] → s.player? s.game.current = some q →
    let v := s.device d
    v.record.role = .shooter ∨ v.record.role = .saucer ∧ v.queue.length < 8 →
    let reported := List.foldl appendEvent s.events (if v.record.reportArrivals = true then
      [⟨.deviceArrival, s.game.current, d, t0, min (v.accounted + 1) v.settled, 0⟩] else [])
    ∃ t, exec (.arrival d b) s = .next t ∧ t.engine.root = none ∧ t.engine.triggers = [] ∧ t.modes = s.modes ∧
      t.game.phase = s.game.phase ∧
      ((s.award k).Plain .close → (s.award k).condition = none → s.EntryAwarded t k q t0 reported) ∧
      ((s.award k).edge = .opening → t.game.players = s.game.players ∧ t.events = reported)) ∧
  ∀ (d : Nat) (b : Bool) (s : State) (t0 : Stamp) (rest : List Stamp), d < 8 → s.engine.paused = none →
    (s.device d).arrivals = t0 :: rest →
    ∃ t, exec (.arrival d b) s = .next t ∧ s.SameSettings t ∧ t.link = s.link ∧
      (t.device d).arrivals = rest ∧ (t.device d).accounted = min ((s.device d).accounted + 1) (s.device d).settled ∧
      ∀ e < 8, (t.device e).settled = (s.device e).settled

/-- A drain that is not a missing return, a refeed or saved is lost. With no ball committed it ends the ball, in SINGLE and in
MULTI: BALL_OVER with the bonus added, 0 for a tilted ball. With one ball committed in MULTI it ends the multiball and not the ball;
with more it ends neither. A drain under an active ball save is saved by a launch serve, one before validation is fed again, and one
that is the return of a missing ball only lowers the missing-return count (R63, R123, R124, R125, R136, R153). In SERVE and PLAY a
drain that ends neither the ball nor a multiball is followed by the walk of trigger 80: a chain of one plain entry of edge CLOSE
awards its base behind every other record of the drain (R33, R34, R94). The time stamp of SCORE and AWARD records and of the SERVE
order is DEDUCED (notes/assumptions/8.md); that TRANSIT is 0 where more balls are locked than counted, which the balls committed
rest on, is the model's choice (notes/assumptions/54.md). -/
def Obligations.DrainLostOrSaved : Prop :=
  (∀ (k : Nat) (b : Bool) (s : State) (t0 : Stamp) (rest : List Stamp) (q : Player),
    (s.device 0).record.role = .trough → s.engine.root = none → s.engine.paused = none → s.engine.triggers = [] →
    s.inPlay = true → (s.device 0).arrivals = t0 :: rest → s.chain 80 = [k] → s.player? s.game.current = some q →
    1 ≤ s.census.missingReturns ∨ s.census.validated = false ∨ s.census.save ≠ none ∨
      1 ≤ s.committed ∧ (s.census.multi = false ∨ 2 ≤ s.committed) →
    (s.award k).Plain .close → (s.award k).condition = none →
    ∃ t more, exec (.arrival 0 b) s = .next t ∧ t.engine.root = none ∧ t.game.phase = s.game.phase ∧
      s.EntryAwarded t k q t0 (List.foldl appendEvent s.events more)) ∧
  ∀ (b : Bool) (s : State) (t0 : Stamp) (rest : List Stamp), s.configured 0 = true → (s.device 0).record.role = .trough →
    s.engine.root = none → s.engine.paused = none → (s.device 0).arrivals = t0 :: rest →
    let lost := s.census.missingReturns = 0 ∧
      (s.game.phase = .tilt ∨ s.inPlay = true ∧ s.census.validated = true ∧ s.census.save = none)
    let fed := fun (launch : Bool) => (s.device 0).queue ++ [⟨.serve, t0, launch⟩]
    (∀ q, lost → s.player? s.game.current = some q → s.committed = 0 →
      ∃ t q', exec (.arrival 0 b) s = .next t ∧ t.game.phase = .ballOver ∧ t.flipen = false ∧ t.modes.stack = [] ∧
        t.census.multi = false ∧
        t.census.save = none ∧ t.game.search.phase = .off ∧ t.game.current = s.game.current ∧
        t.game.ballNumber = s.game.ballNumber ∧ t.player? s.game.current = some q' ∧
        q'.score = min (q.score + (if s.game.phase = .tilt then 0
          else q.bonusCount * s.game.params.bonusUnit * q.bonusMult)) 99999999990) ∧
    (s.engine.triggers = [] → s.chain 80 = [] →
      (lost → 1 ≤ s.committed → s.census.multi = false ∨ 2 ≤ s.committed →
        ∃ t, exec (.arrival 0 b) s = .next t ∧ t.game = s.game ∧ t.census = s.census ∧ t.modes = s.modes ∧
          (t.device 0).queue = (s.device 0).queue) ∧
      (lost → s.committed = 1 → s.census.multi = true →
        let jackpotReset := ∃ k, s.census.lastStarted = some k ∧ (s.multiballDef k).jackpotReset = true
        ∃ t, exec (.arrival 0 b) s = .next t ∧ t.game.phase = s.game.phase ∧
          t.census = { s.census with
            multi := false
            save := if (s.census.save.map BallSave.saves) = some .unlimited then none else s.census.save } ∧
          (jackpotReset → t.game.players = s.game.players.map
            fun q => { q with jackpot := min s.game.params.jackpotBase s.game.params.jackpotCap }) ∧
          (¬jackpotReset → t.game.players = s.game.players) ∧
          (s.game.phase = .tilt → t.modes = { s.modes with deferred := true }) ∧
          (s.game.phase ≠ .tilt → t.modes.deferred = s.modes.deferred ∧ t.modes.stack.map ModeInst.mode =
            (s.modes.stack.map ModeInst.mode).filter fun m => !(s.modeDef m).endsAtMultiballEnd)) ∧
      (1 ≤ s.census.missingReturns → ∃ t, exec (.arrival 0 b) s = .next t ∧ t.game.phase = s.game.phase ∧
        t.game.players = s.game.players ∧ t.modes = s.modes ∧ (t.device 0).queue = (s.device 0).queue ∧
        t.census = { s.census with missingReturns := s.census.missingReturns - 1 }) ∧
      (s.inPlay = true → s.census.missingReturns = 0 → (s.device 0).searchWaits = false → (s.device 0).queue.length < 8 →
        (s.census.validated = false →
          ∃ t, exec (.arrival 0 b) s = .next t ∧ t.game.phase = s.game.phase ∧ t.game.players = s.game.players ∧
            t.modes = s.modes ∧ (t.device 0).queue = fed false ∧ t.census = s.census) ∧
        ∀ r, s.census.validated = true → s.census.save = some r →
          ∃ t, exec (.arrival 0 b) s = .next t ∧ t.game.phase = s.game.phase ∧ t.game.players = s.game.players ∧
            t.modes = s.modes ∧ (t.device 0).queue = fed true ∧
            t.census = { s.census with save := if r.saves = .one then none else some r }))

/-- An arrival at a LOCK device with a lock lit in SINGLE makes a lock, held while keep and the keep limit allow it and otherwise
virtual with a RETURN order; with none lit, and at a SAUCER, the ball gets a RETURN order (R126, R127). The lock that brings
locks_made to the number needed starts multiball definition 0, when it is defined, from SINGLE: the locks are used up, the
definition's ball save is armed and the state rises with 2 or more balls committed (R121, R127, R131, R133). No SEARCH order waits
on the device or on the trough, where R107 queues none. The walk of trigger 80 + d follows, and a chain of one plain entry awards
its base behind every other record of the arrival. It sees the lock already made: with the one lit lock used up, a LOCK_LIT
condition finds it clear, and locks_made stands one higher (R30, R33, R34, R94). The time stamp of SCORE and AWARD records and of
the RETURN order of a LOCK is DEDUCED (notes/assumptions/8.md); that a lock counts also where the locked count then stands above the
settled count is the model's choice (notes/assumptions/54.md). -/
def Obligations.LockOrReturnDecided : Prop :=
  (∀ (d k : Nat) (b : Bool) (s : State) (t0 : Stamp) (rest : List Stamp) (q : Player), d < 8 → s.engine.root = none →
    s.engine.paused = none → s.engine.triggers = [] → s.inPlay = true → (s.device d).arrivals = t0 :: rest →
    s.chain (80 + d) = [k] → s.player? s.game.current = some q → (s.award k).Plain .close →
    let awarded := fun (q' : Player) => ∃ t more, exec (.arrival d b) s = .next t ∧ t.engine.root = none ∧
      s.EntryAwarded t k q' t0 (List.foldl appendEvent s.events more)
    ((s.device d).record.role = .lock → s.census.multi = false → 1 ≤ q.locksLit → q.locksMade < 4 →
      q.locksMade + 1 ≠ s.game.params.locksNeeded →
      (s.award k).condition = none ∨ q.locksLit = 1 ∧ (s.award k).condition = some ⟨.lockLit, 0, none, .whenClear⟩ →
      awarded { q with locksLit := q.locksLit - 1, locksMade := q.locksMade + 1 }) ∧
    ((s.device d).record.role = .saucer ∨ (s.device d).record.role = .lock ∧ (s.census.multi = true ∨ q.locksLit = 0) →
      (s.award k).condition = none → awarded q)) ∧
  ∀ (d : Nat) (b : Bool) (s : State) (t0 : Stamp) (rest : List Stamp) (q : Player), 2 ≤ d → d < 8 →
    s.configured d = true → s.engine.root = none → s.engine.paused = none → s.engine.triggers = [] → s.chain (80 + d) = [] →
    s.inPlay = true →
    s.player? s.game.current = some q → (s.device d).arrivals = t0 :: rest → (s.device d).searchWaits = false →
    (s.device 0).searchWaits = false →
    (s.device d).queue.length < 8 →
    let returned := (s.device d).queue ++ [⟨.return, t0, false⟩]
    ((s.device d).record.role = .lock → s.census.multi = false → 1 ≤ q.locksLit → q.locksMade < 4 →
      let kept := (s.device d).record.keep = true ∧ s.locked d < (s.device d).record.keepLimitInForce
      let k := s.multiballDef 0
      ∃ t, exec (.arrival d b) s = .next t ∧
        (q.locksMade + 1 ≠ s.game.params.locksNeeded ∨ k.releaseLocked = false →
          t.locked d = (if kept then s.locked d + 1 else s.locked d) ∧
          (t.device d).queue = if kept then (s.device d).queue else returned) ∧
        (q.locksMade + 1 ≠ s.game.params.locksNeeded ∨ k.defined = false →
          t.game.players = s.game.players.modify (s.game.current - 1)
            (fun q => { q with locksLit := q.locksLit - 1, locksMade := q.locksMade + 1 }) ∧
          t.census = { s.census with locked := t.census.locked } ∧ t.modes = s.modes) ∧
        (q.locksMade + 1 = s.game.params.locksNeeded → k.defined = true →
          t.game.players = s.game.players.modify (s.game.current - 1)
            (fun q => { q with locksLit := 0, locksMade := 0 }) ∧
          t.census.lastStarted = some 0 ∧ (t.census.multi = true ↔ 2 ≤ t.committed) ∧
          t.census.save = (if k.saveTime = 0 then s.census.save else some ⟨k.saveTime, .unlimited⟩) ∧
          (k.startMode = none → t.modes = s.modes))) ∧
    ((s.device d).record.role = .lock → s.census.multi = true ∨ q.locksLit = 0 →
      ∃ t, exec (.arrival d b) s = .next t ∧ t.game.players = s.game.players ∧ t.locked d = s.locked d ∧
        (t.device d).queue = returned) ∧
    ((s.device d).record.role = .saucer →
      ∃ t, exec (.arrival d b) s = .next t ∧ t.game.players = s.game.players ∧ t.census = s.census ∧
        (t.device d).queue = returned)

/-! ### Eject cycles -/

/-- A head order whose hold-off has passed, and whose shooter interlock holds when it is the trough's, puts its device into the
ready line, where it stays in EJECT_WAIT (R98). That a grant is a command of its own, so that none follows at once, is DEDUCED
(notes/assumptions/19.md). -/
def Obligations.HoldOffJoinsReadyLine : Prop :=
  ∀ (d : Nat) (s : State) (o : Order), d < 8 → s.quietEngine = true → (s.device d).state = .ejectWait →
    (s.device d).queue.head? = some o → (s.device d).searchWaits = false →
    (o.reason = .return → (s.device d).record.figures.holdOff ≤ elapsed s.scanner.now o.queued) →
    (d = 0 → s.interlock = true) → s.inLine d = false → s.SearchLaw →
    ∃ t, exec (.holdOffExpired d) s = .next t ∧ t.inLine d = true ∧ (t.device d).state = .ejectWait ∧
      t.census = s.census ∧ t.game = s.game ∧ ∀ e < 8, (t.device e).settled = (s.device e).settled

/-- With fewer devices PULSING than the coil budget, the front of the ready line leaves it and is PULSING for its pulse time with
its coil energized; the base count is taken at a first pulse, kept at a retry, and 0 for a SEARCH (R97, R99, R100, R107). -/
def Obligations.GrantPulsesCoil : Prop :=
  ∀ (s : State) (r : Ready) (rest : List Ready), s.quietEngine = true → s.devices.ready = r :: rest → r.device < 8 →
    s.pulsingCount < s.game.params.coilBudget →
    let v := s.device r.device
    ∃ t, exec .coilGrant s = .next t ∧ (t.device r.device).state = .pulsing ∧ t.coilEnable v.record.coil = true ∧
      t.inLine r.device = false ∧ (t.device r.device).timer = some ⟨s.scanner.now, v.record.figures.pulse⟩ ∧
      (t.device r.device).evidence = none ∧ (t.device r.device).searching = v.searchWaits ∧
      (t.device r.device).base =
        (if v.state = .retryWait then v.base else if v.searchWaits = true then 0 else v.settled) ∧
      (t.device r.device).searchWaits = false ∧ (t.device r.device).settled = v.settled ∧ t.census = s.census

/-- At the end of its pulse a device is no longer PULSING: a SEARCH cycle waits 100 ms, kept success completes the order, kept
fallback fails the attempt, and otherwise the confirm window begins (R100, R101, R107). -/
def Obligations.PulseEndReleasesCoil : Prop :=
  ∀ (d : Nat) (s : State) (tm : Timer), d < 8 → s.quietEngine = true → (s.device d).state = .pulsing →
    (s.device d).searchWaits = false → (s.device d).timer = some tm → tm.length ≤ elapsed s.scanner.now tm.start →
    let v := s.device d
    ∃ t, exec (.pulseEnd d) s = .next t ∧
      (v.searching = true → (t.device d).state = .confirming ∧ (t.device d).timer = some ⟨s.scanner.now, 100⟩) ∧
      (v.searching = false →
        (v.evidence = none → (t.device d).state = .confirming ∧
          (t.device d).timer = some ⟨s.scanner.now, v.record.figures.confirm⟩ ∧ (t.device d).base = v.base) ∧
        (v.evidence = some .success → ((t.device d).state = .idle ∨ (t.device d).state = .ejectWait) ∧
          (t.device d).retries = 0 ∧ (t.device d).base = 0) ∧
        (v.evidence = some .fallback → (t.device d).state = .retryWait ∨ (t.device d).state = .fault)) ∧
      ∀ e < 8, (t.device e).settled = (s.device e).settled

/-- At the end of the confirm window a POSITIONS or ENTRY_EXIT attempt has failed: RETRY_WAIT with one more retry while the retry
limit allows it, else FAULT; a blind device's ball is taken to have left (R101, R103), a count of 0 staying 0 by the model's choice
(notes/assumptions/13.md). That the arrivals of FAULT stay due for a command of their own each is DEDUCED
(notes/assumptions/10.md). -/
def Obligations.ConfirmWindowEndDecides : Prop :=
  ∀ (d : Nat) (s : State) (tm : Timer), d < 8 → s.quietEngine = true → (s.device d).state = .confirming →
    (s.device d).searching = false → (s.device d).searchWaits = false → (s.device d).timer = some tm →
    tm.length ≤ elapsed s.scanner.now tm.start →
    let v := s.device d
    let f := v.record.figures
    ∃ t, exec (.confirmWindowEnd d) s = .next t ∧
      (f.counting ≠ .entryBlind → (t.device d).settled = v.settled ∧
        (v.record.autoRetry = true ∧ v.retries < f.retryLimit →
          (t.device d).state = .retryWait ∧ (t.device d).retries = v.retries + 1 ∧
            (t.device d).timer = some ⟨s.scanner.now, f.retryInterval⟩) ∧
        (¬(v.record.autoRetry = true ∧ v.retries < f.retryLimit) →
          (t.device d).state = .fault ∧ (t.device d).retries = v.retries ∧ (t.device d).timer = none ∧
            (t.device d).arrivals = List.replicate (v.settled - v.base) s.scanner.now)) ∧
      (f.counting = .entryBlind → (t.device d).settled = v.settled - 1 ∧ (t.device d).retries = 0 ∧
        ((t.device d).state = .idle ∨ (t.device d).state = .ejectWait)) ∧
      ∀ e < 8, e ≠ d → (t.device e).settled = (s.device e).settled

/-- When the retry interval runs out the device joins the ready line and stays in RETRY_WAIT; when the 100 ms after a SEARCH pulse
run out the cycle is complete and any ball counted meanwhile is due as an arrival (R104, R107), for a command of its own, as the
grant to the device in the line is (DEDUCED, notes/assumptions/10.md, notes/assumptions/19.md). -/
def Obligations.RetryAndSearchWindowsEnd : Prop :=
  ∀ (d : Nat) (s : State) (tm : Timer), d < 8 → s.quietEngine = true → (s.device d).timer = some tm →
    tm.length ≤ elapsed s.scanner.now tm.start →
    ((s.device d).state = .retryWait → (s.device d).searching = false → (s.device d).searchWaits = false →
      ∃ t, exec (.retryIntervalEnd d) s = .next t ∧ (t.device d).state = .retryWait ∧ t.inLine d = true ∧
        (t.device d).timer = none ∧ (t.device d).settled = (s.device d).settled) ∧
    ((s.device d).state = .confirming → (s.device d).searching = true →
      ∃ t, exec (.searchWindowEnd d) s = .next t ∧ ((t.device d).state = .idle ∨ (t.device d).state = .ejectWait) ∧
        (t.device d).searching = false ∧ (t.device d).accounted = 0 ∧
        (t.device d).arrivals = List.replicate (s.device d).settled s.scanner.now ∧
        (t.device d).settled = (s.device d).settled)

/-! ### Ball search -/

/-- The search arms when its conditions and both clocks hold, and 400 ms after a search grant the round goes on: the lowest
qualifying device from the next one gets a SEARCH order, and with none left the round passes to PAUSE (R165, R166). -/
def Obligations.SearchArmsAndSteps : Prop :=
  let placed := fun (s t : State) (from_ : Nat) =>
    (∀ d, from_ ≤ d → d < 8 → s.searchable d = true → (∀ e, from_ ≤ e → e < d → s.searchable e = false) →
      t.game.search.phase = .round ∧ t.game.search.inFlight = some d ∧ t.game.search.nextDevice = d + 1 ∧
        (t.device d).queue = [⟨.search, s.scanner.now, false⟩] ∧ (t.device d).state = .ejectWait) ∧
    ((∀ d, from_ ≤ d → d < 8 → s.searchable d = false) →
      t.game.search.phase = .pause ∧ t.game.search.inFlight = none)
  (∀ s : State, s.quietEngine = true → s.game.search.phase = .waiting → 1 ≤ s.census.playfield →
    s.census.conflict = false →
    (∀ d < 8, s.configured d = true → (s.device d).state = .idle ∨ (s.device d).state = .fault) →
    s.game.params.searchDelay * 1000 ≤ s.scanner.quiet →
    s.game.params.searchDelay * 1000 ≤ elapsed s.scanner.now s.game.search.quietMark →
    ∃ t, exec .searchArm s = .next t ∧ t.game.search.round = 1 ∧ t.census = s.census ∧ placed s t 1) ∧
  ∀ (s : State) (g : Stamp), s.quietEngine = true → s.game.search.phase = .round → s.game.search.inFlight = none →
    s.game.search.lastGrant = some g → 400 ≤ elapsed s.scanner.now g → 1 ≤ s.game.search.nextDevice →
    ∃ t, exec .searchStep s = .next t ∧ t.game.search.round = s.game.search.round ∧ t.census = s.census ∧
      placed s t s.game.search.nextDevice

/-- At the end of a pause the search ends when an arming condition fails, goes on to the next round while rounds are left, and
otherwise fails: every PLAYFIELD ball is declared missing (R166, R167, R168, R119). -/
def Obligations.SearchPauseEnds : Prop :=
  ∀ s : State, s.quietEngine = true → s.game.search.phase = .pause →
    5000 ≤ elapsed s.scanner.now (s.game.search.lastGrant.getD s.game.search.began) →
    let holds := 1 ≤ s.census.playfield ∧ s.census.conflict = false ∧
      ∀ d < 8, s.configured d = true → (s.device d).state = .idle ∨ (s.device d).state = .fault
    (¬holds → ∃ t, exec .searchPauseEnd s = .next t ∧ t.game.search.phase = .waiting ∧ t.game.search.round = 0 ∧
      t.game.search.quietMark = s.scanner.now ∧ t.census = s.census) ∧
    (holds → s.game.search.round < s.game.params.searchRounds →
      ∃ t, exec .searchPauseEnd s = .next t ∧ t.game.search.round = s.game.search.round + 1 ∧
        (t.game.search.phase = .round ∨ t.game.search.phase = .pause) ∧ t.game.search.began = s.scanner.now ∧
        t.census = s.census) ∧
    (holds → s.game.params.searchRounds ≤ s.game.search.round →
      ∃ t, exec .searchPauseEnd s = .next t ∧ t.census.playfield = 0 ∧
        t.census.missing = s.census.missing + s.census.playfield ∧
        (s.game.phase = .play ∨ s.game.phase = .tilt → t.game.search.round = 0 ∧
          (t.game.search.phase = .waiting ∧ t.game.search.quietMark = s.scanner.now ∨ t.game.phase = .ballOver)))

/-! ### The link -/

/-- The receiver takes a correctly framed byte by its state, and takes none while a break lasts (R173, R174). A framing error, a
gap and a break discard the partial frame; the end of a break lets the receiver take bytes again in HUNT. -/
def Obligations.ReceiverFollowsTheLine : Prop :=
  let put := fun (s : State) (r : Receiver) => { s with link := { s.link with receiver := r } }
  (∀ (b : Byte) (s : State), s.link.inBreak = true → exec (.byteReceived b) s = .next s) ∧
  (∀ (b : Byte) (s : State), s.link.inBreak = false →
    (s.link.receiver = .hunt → exec (.byteReceived b) s = .next (put s (if b = 251 then .awaitLength else .hunt))) ∧
    (s.link.receiver = .awaitLength → exec (.byteReceived b) s = .next (put s
      (if 2 ≤ b.toNat ∧ b.toNat ≤ 250 then .collect b.toNat [] else if b = 251 then .awaitLength else .hunt))) ∧
    ∀ (n : Nat) (got : List Byte), s.link.receiver = .collect n got →
      (got.length + 1 < n + 2 → exec (.byteReceived b) s = .next (put s (.collect n (got ++ [b])))) ∧
      (got.length + 1 = n + 2 → exec (.byteReceived b) s = .next { s with link := { s.link with
        receiver := .hunt, frames := s.link.frames ++ [BitVec.ofNat 8 n :: (got ++ [b])] } })) ∧
  (∀ s : State, exec .framingError s = .next (put s .hunt) ∧ exec .interByteGap s = .next (put s .hunt)) ∧
  (∀ s : State, s.link.inBreak = false → exec .lineBreak s = .next { s with link := { s.link with
    receiver := .hunt, inBreak := true, breakTaken := false } }) ∧
  ∀ s : State, s.link.inBreak = true → exec .lineBreakEnd s = .next { s with link := { s.link with
    receiver := .hunt, inBreak := false, breakTaken := false } }

/-- Every request frame that the host can send arrives whole: fed byte by byte to a receiver in HUNT and then taken by the Link
Port, its type, tag and payload stand in a waiting slot exactly as they were sent (R171, R172, R173, R175). -/
def Obligations.FrameRoundTrip : Prop :=
  ∀ (s : State) (r : Request), r.payload.length ≤ 248 → s.link.inBreak = false → s.link.restarting = false →
    s.link.receiver = .hunt → s.link.frames = [] → s.link.slots.length < 4 →
    Host.Core.run Sys2Proof.core (frameBytes r).length { s with pending := (frameBytes r).map Instr.byteReceived ++ [.requestFrame] } =
        .next { s with
          pending := [.requestFrame]
          link := { s.link with frames := [(frameBytes r).tail] } } ∧
      Host.Core.run Sys2Proof.core ((frameBytes r).length + 1)
          { s with pending := (frameBytes r).map Instr.byteReceived ++ [.requestFrame] } =
        .next { s with pending := [], link := { s.link with slots := s.link.slots ++ [.waiting r] } }

/-- A completed frame is taken: an intact one joins a free slot, and one whose check bytes differ, or that finds four slots held
or a RESTART ended, is discarded silently (R172, R175, R178). -/
def Obligations.RequestFrameAccepted : Prop :=
  ∀ (s : State) (body check : List Byte) (rest : List (List Byte)), check.length = 2 →
    s.link.frames = (body ++ check) :: rest →
    (∀ n type tag payload, body = n :: type :: tag :: payload → check = checkBytes body → s.link.slots.length < 4 →
      s.link.restarting = false →
      exec .requestFrame s = .next { s with link := { s.link with
        frames := rest, slots := s.link.slots ++ [.waiting ⟨type, tag, payload⟩] } }) ∧
    (check ≠ checkBytes body ∨ 4 ≤ s.link.slots.length ∨ s.link.restarting = true →
      exec .requestFrame s = .next { s with link := { s.link with frames := rest } })

/-- A request handed on gets exactly one reply, of its type and tag, in the place of its request: at once, or, for a TRIGGER or
CLEAR_FAULT that has come to a pause, when it ends, and until then it is in hand and keeps its slot. One that cannot be handed
on changes nothing (R175, R176, R178, R193; how a request command meets the queue is the model's choice, notes/assumptions/1.md, and
so is the pause, notes/assumptions/4.md). -/
def Obligations.RequestAnsweredInPlace : Prop :=
  (∀ (c : Instr) (type tag : Byte) (p : List Byte) (s : State), c.request? = some (type, tag, p) → c.wellFormed = true →
    (s.Offers ⟨type, tag, p⟩ → ∃ t, exec c s = .next t ∧ t.link.frames = s.link.frames ∧
      t.link.receiver = s.link.receiver ∧ t.link.sent = s.link.sent ∧
      (t.inHand = false ∧ (∃ o data, o.toNat ≤ 3 ∧ t.link.slots = answered s.link.slots ⟨type, tag, p⟩ (o :: data)) ∨
        (type = 13 ∧ t.engine.root ≠ none ∨ type = 18) ∧ t.inHand = true ∧
          t.link.slots = takenInHand s.link.slots ⟨type, tag, p⟩)) ∧
    (¬s.Offers ⟨type, tag, p⟩ → exec c s = .next s)) ∧
  ∀ (s : State) (r : Request), s.inHand = true → firstWaiting s.link.slots = some r →
    (s.engine.root ≠ none → s.idle.inHand = true ∧ s.idle.link = s.link) ∧
    (s.engine.root = none → s.idle.inHand = true ∧ s.idle.link = s.link ∨
      s.idle.inHand = false ∧ ∃ data, s.idle.link =
        { s.link with slots := answerSlot ⟨r.type, r.tag, 0 :: data⟩ s.link.slots })

/-- RESTART is answered OK and only marks the link, in every phase; with a payload it is answered REJECTED LENGTH; a request of
type 0 or 28..255 is answered REJECTED UNKNOWN_TYPE (R187, R178, R193). -/
def Obligations.RestartAndUnknownTypeAnswered : Prop :=
  (∀ (tag : Byte) (s : State), s.Offers ⟨27, tag, []⟩ → exec (.restartRequest tag []) s = .next { s with
    time := s.scanner.now
    link := { s.answeredLink ⟨27, tag, []⟩ [0] with restarting := true } }) ∧
  (∀ (tag : Byte) (p : List Byte) (s : State), p ≠ [] → s.Offers ⟨27, tag, p⟩ →
    exec (.restartRequest tag p) s = .next (s.onlyAnswered ⟨27, tag, p⟩ [3, 2, 0, 0, 0, 0])) ∧
  ∀ (type tag : Byte) (p : List Byte) (s : State), type.toNat = 0 ∨ 28 ≤ type.toNat → s.Offers ⟨type, tag, p⟩ →
    exec (.unknownType type tag p) s = .next (s.onlyAnswered ⟨type, tag, p⟩ [3, 1, 0, 0, 0, 0])

/-! ### Loads -/

/-- Outside IDLE every configuration load is answered NOT_APPLIED, whatever its payload, and nothing else changes. TRIGGER, GRANT,
MODE_CONTROL and SET_PLAYER with payloads that pass their checks are answered NOT_APPLIED in TILT and REJECTED PHASE in IDLE and
BALL_OVER, with nothing done (R160, R176, R179). -/
def Obligations.RequestsFollowPhase : Prop :=
  (∀ (c : Instr) (type tag : Byte) (p : List Byte) (s : State), c.request? = some (type, tag, p) →
      c.wellFormed = true → 1 ≤ type.toNat → type.toNat ≤ 8 → s.game.phase ≠ .idle → s.Offers ⟨type, tag, p⟩ →
      exec c s = .next (s.onlyAnswered ⟨type, tag, p⟩ [2])) ∧
  ∀ (tag : Byte) (s : State), s.inPlay = false →
    let reply := if s.game.phase = .tilt then [2] else [3, 4, 0, 0, 0, 0]
    (∀ (v : Byte) (b : Bool), 72 ≤ v.toNat → v.toNat ≤ 79 → s.Offers ⟨13, tag, [v]⟩ →
      exec (.triggerRequest tag ⟨[v], b⟩) s = .next (s.onlyAnswered ⟨13, tag, [v]⟩ reply)) ∧
    (∀ (n : Nat) (c : Classes), s.Offers ⟨14, tag, u48 n ++ u8 c.code⟩ →
      exec (.grantRequest tag (u48 n ++ u8 c.code)) s = .next (s.onlyAnswered ⟨14, tag, u48 n ++ u8 c.code⟩ reply)) ∧
    (∀ (m op : Byte) (b : Bool), m.toNat < 16 → op.toNat < 3 → s.Offers ⟨15, tag, [m, op]⟩ →
      exec (.modeControl tag ⟨[m, op], b⟩) s = .next (s.onlyAnswered ⟨15, tag, [m, op]⟩ reply)) ∧
    ∀ (i f : Byte) (n : Nat), 1 ≤ i.toNat → i.toNat ≤ 4 →
      (s.game.phase ≠ .idle → i.toNat ≤ s.game.players.length) → f.toNat < 9 →
      s.Offers ⟨16, tag, [i, f] ++ u48 n⟩ →
      exec (.setPlayer tag ([i, f] ++ u48 n)) s = .next (s.onlyAnswered ⟨16, tag, [i, f] ++ u48 n⟩ reply)

/-- SET_SWITCH in IDLE stores the role and report given and the debounce times held to 1..32, with CLAMPED when one was held; a
switch whose role is UNUSED stands open with count 0, and nothing else changes: no other record, no latch and no raw state, no
group, no waiting transition, no timer, and nothing outside the Switch Scanner (R12, R3, R4). -/
def Obligations.SetSwitchLoads : Prop :=
  ∀ (tag : Byte) (s : State) (i close opening : Nat) (role : Role) (report : Report), s.game.phase = .idle → i < 72 →
    close < 65536 → opening < 65536 → role ≠ .device →
    let p := (SwitchRecord.mk close opening role report).payload i
    let held32 := fun n => max 1 (min n 32)
    s.Offers ⟨2, tag, p⟩ →
    ∃ t, exec (.setSwitch tag p) s = .next t ∧
      t = { s with scanner := t.scanner, link := t.link, time := s.scanner.now } ∧
      t.link = s.answeredLink ⟨2, tag, p⟩ [if held32 close = close ∧ held32 opening = opening then 0 else 1] ∧
      t.scanner = { s.scanner with switches := t.scanner.switches } ∧
      (t.switch i).record = ⟨held32 close, held32 opening, role, report⟩ ∧
      (∀ j, j ≠ i → (t.switch j).record = (s.switch j).record) ∧
      (∀ j, (t.switch j).latch = (s.switch j).latch ∧ (t.switch j).raw = (s.switch j).raw) ∧
      ∀ j < 72, if t.roleOf j = .unused then (t.switch j).debounced = false ∧ (t.switch j).count = 0
        else (t.switch j).debounced = (s.switch j).debounced ∧ (t.switch j).count = (s.switch j).count

/-- SET_GROUP and SET_MULTIBALL in IDLE store exactly the group or definition that the payload carries, and nothing else changes
(R15, R130). -/
def Obligations.SetGroupAndMultiballLoad : Prop :=
  (∀ (tag : Byte) (s : State) (g : Nat) (r : Group), s.game.phase = .idle → g < 8 → r.inRange = true →
    s.Offers ⟨3, tag, r.payload g⟩ →
    exec (.setGroup tag (r.payload g)) s = .next { s.onlyAnswered ⟨3, tag, r.payload g⟩ [0] with
      scanner := { s.scanner with groups := writeTable s.scanner.groups g r } }) ∧
  ∀ (tag : Byte) (s : State) (k : Nat) (d : MultiballDef), s.game.phase = .idle → k < 4 → d.inRange = true →
    s.Offers ⟨6, tag, d.payload k⟩ →
    exec (.setMultiball tag (d.payload k)) s = .next { s.onlyAnswered ⟨6, tag, d.payload k⟩ [0] with
      census := { s.census with defs := writeTable s.census.defs k d } }

/-- SET_MODE in IDLE stores exactly the definition that the payload carries, every field of it, and READ_MODES then returns the
same bytes (R64, R65, R85). -/
def Obligations.SetModeRoundTrip : Prop :=
  ∀ (tag tag' : Byte) (s : State) (m : Nat) (d : ModeDef), s.game.phase = .idle → m < 16 → d.inRange = true →
    s.Offers ⟨5, tag, d.payload m⟩ →
    ∃ t, exec (.setMode tag (d.payload m)) s = .next t ∧
      t = { s.onlyAnswered ⟨5, tag, d.payload m⟩ [0] with
        modes := { s.modes with defs := writeTable s.modes.defs m d } } ∧
      (t.Offers ⟨22, tag', [2, BitVec.ofNat 8 m]⟩ →
        exec (.readModes tag' [2, BitVec.ofNat 8 m]) t =
          .next (t.onlyAnswered ⟨22, tag', [2, BitVec.ofNat 8 m]⟩ (0 :: d.bytes)))

/-- SET_AWARD in IDLE stores exactly the entry that the payload carries, with its condition and its actions, and nothing else
changes (R22, R25, R26, section 12.2.1). -/
def Obligations.SetAwardStoresEntry : Prop :=
  ∀ (tag : Byte) (s : State) (i : Nat) (e : AwardEntry), s.game.phase = .idle → i < 256 → e.inRange = true →
    s.Offers ⟨7, tag, e.payload i⟩ →
    exec (.setAward tag (e.payload i)) s = .next { s.onlyAnswered ⟨7, tag, e.payload i⟩ [0] with
      engine := { s.engine with awards := writeTable s.engine.awards i e } }

/-- SET_DEVICE in IDLE stores exactly the record that the payload carries and ends the device's cycle; its counts, locks and state
are set by R90, and no other device's record or settled count changes (R87, R89, R90, section 12.2.2). Two of its clauses are the
model's: that an ENTRY method's kept count leaves every ball accounted for, so that the accounted count equals the settled count
(DEDUCED, notes/assumptions/28.md), and that a LOCK record of profile 14 without an effective capacity keeps a keep limit as
notes/assumptions/52.md holds it, with OK (DESIGN CHOICE). -/
def Obligations.SetDeviceLoadsRecord : Prop :=
  ∀ (tag : Byte) (s : State) (d : Nat) (r : DeviceRecord), s.game.phase = .idle → s.quietEngine = true → d < 8 →
    s.SearchLaw → r.inRange d = true → s.Offers ⟨4, tag, r.payload d⟩ →
    ∃ t, exec (.setDevice tag (r.payload d)) s = .next t ∧ t.link = s.answeredLink ⟨4, tag, r.payload d⟩ [0] ∧
      (t.device d).record = r ∧ (t.device d).retries = 0 ∧ (t.device d).timer = none ∧
      (∀ o ∈ (t.device d).queue, o.reason = .recover) ∧
      ((t.device d).state = if r.configured = false then .disabled
        else if (t.device d).queue = [] then .idle else .ejectWait) ∧
      (t.device d).accounted = (t.device d).settled ∧
      ((t.device d).settled =
        if r.configured = false then 0
        else if r.figures.counting = .positions then t.rawCount d
        else if (s.device d).record.configured = true ∧ (s.device d).record.figures.counting = r.figures.counting then
          min (s.device d).settled r.figures.capacity else 0) ∧
      (t.locked d = if r.role = .lock then min (s.locked d) (t.device d).settled else 0) ∧
      (d = 1 → t.devices.launchOwed = 0) ∧
      ∀ e < 8, e ≠ d → (t.device e).record = (s.device e).record ∧ (t.device e).settled = (s.device e).settled

/-- SET_GAME in IDLE stores exactly the parameters that the payload carries, thresholds included; with N and the coil budget
unchanged nothing else changes, and no other part of the configuration ever does: switch records, groups, device records, award
entries, mode and multiball definitions (R142, R143, R144). -/
def Obligations.SetGameLoadsParams : Prop :=
  ∀ (tag : Byte) (s : State) (g : Params), s.game.phase = .idle → s.quietEngine = true → g.inRange = true →
    s.Offers ⟨1, tag, g.payload⟩ →
    ∃ t, exec (.setGame tag g.payload) s = .next t ∧ t.game.params = g ∧ t.link = s.answeredLink ⟨1, tag, g.payload⟩ [0] ∧
      State.SameSettings { s with game := { s.game with params := g } } t ∧
      t.game.players = s.game.players ∧ t.scanner = s.scanner ∧ t.engine = s.engine ∧ t.modes = s.modes ∧
      (g.installed = s.game.params.installed → g.coilBudget = s.game.params.coilBudget →
        t = { s.onlyAnswered ⟨1, tag, g.payload⟩ [0] with game := { s.game with params := g } })

/-- CLEAR_TABLES in IDLE returns the selected tables to their hard-reset contents and nothing else; a selection that names none is
answered REJECTED RANGE (R184). -/
def Obligations.ClearTablesClears : Prop :=
  ∀ (tag sel : Byte) (s : State), s.game.phase = .idle → s.Offers ⟨8, tag, [sel]⟩ →
    (5 ≤ sel.toNat → exec (.clearTables tag [sel]) s = .next (s.onlyAnswered ⟨8, tag, [sel]⟩ [3, 3, 1, 0, 0, 0])) ∧
    (sel.toNat < 5 → exec (.clearTables tag [sel]) s = .next { s.onlyAnswered ⟨8, tag, [sel]⟩ [0] with
      engine := { s.engine with
        awards := if sel = 0 ∨ sel = 4 then Vector.replicate _ .empty else s.engine.awards }
      modes := { s.modes with defs := if sel = 1 ∨ sel = 4 then Vector.replicate _ .undefined else s.modes.defs }
      scanner := { s.scanner with
        groups := if sel = 2 ∨ sel = 4 then Vector.replicate _ .empty else s.scanner.groups }
      census := { s.census with
        defs := if sel = 3 ∨ sel = 4 then Vector.replicate _ .undefined else s.census.defs } })

/-! ### The frame of a game -/

/-- START_GAME in IDLE whose configuration passes the seven checks of R148 makes one player, clears the latches and the census's
game state, and starts ball 1: with the shooter lane empty one SERVE order joins the trough's queue, and otherwise the phase is PLAY
at once. The first check that fails is answered REJECTED CONFIG with nothing changed, and outside IDLE the request is answered
REJECTED PHASE (R148, R149, R150). That a failed check is answered from the state as it stands, with work in
progress unfinished, and the details of checks 3, 4 and 6, are the model's choice (notes/assumptions/33.md). -/
def Obligations.StartGameStarts : Prop :=
  ∀ (tag : Byte) (s : State), s.Offers ⟨9, tag, []⟩ →
    let refused := fun (check subject detail : Nat) => exec (.startGame tag []) s =
      .next (s.onlyAnswered ⟨9, tag, []⟩ ([3, 5] ++ u8 check ++ u8 subject ++ u16 detail))
    let trough := (s.device 0).record
    let check1 := s.configured 0 = true ∧ trough.role = .trough ∧ trough.figures.counting = .positions
    let check2 := s.game.params.installed ≤ trough.figures.capacity
    let alone := fun (p : DeviceRecord → Prop) => ∀ d e, d < e → e < 8 → s.configured d = true → s.configured e = true →
      ¬(p (s.device d).record ∧ p (s.device e).record)
    let check3 := ∀ i < 72, alone fun r => i ∈ r.positions ∨ r.entrySwitch = some i ∨ r.exitSwitch = some i
    let check4 := ∀ n < 8, alone fun r => r.coil = n
    let check5 := ∀ d < 8, (s.device d).record.role ≠ .unused → s.configured d = true
    let mode := fun m => (s.modeDef m).defined = true
    let group := fun g => (s.group g).members ≠ []
    let check6 := ∀ i < 256, (s.award i).state ≠ .empty →
      ((s.award i).gateKind ≠ .any → mode (s.award i).gateMode) ∧
      (∀ c, (s.award i).condition = some c → c.source = .groupDone →
        group c.operandA ∧ ∀ x, c.operandB = some x → group x) ∧
      ∀ a ∈ (s.award i).actions,
        (a.kind = .modeStart ∨ a.kind = .modeStop ∨ a.kind = .modeProgress → mode a.argument) ∧
        (a.kind = .latchClear → group a.argument) ∧ (a.kind = .mbStart → (s.multiballDef a.argument).defined = true)
    let check7 := 1 ≤ s.trough + s.shooter
    (s.game.phase ≠ .idle → exec (.startGame tag []) s = .next (s.onlyAnswered ⟨9, tag, []⟩ [3, 4, 0, 0, 0, 0])) ∧
    (s.game.phase = .idle → (¬check1 → refused 1 0 0) ∧
      (check1 → ¬check2 → refused 2 0 trough.figures.capacity) ∧
      (check1 → check2 → ¬check3 → ∃ i d, i < 72 ∧ d < 8 ∧ refused 3 i d) ∧
      (check1 → check2 → check3 → ¬check4 → ∃ n d, n < 8 ∧ d < 8 ∧ refused 4 n d) ∧
      (check1 → check2 → check3 → check4 → ¬check5 → ∃ d, d < 8 ∧ s.configured d = false ∧ refused 5 d 0) ∧
      (check1 → check2 → check3 → check4 → check5 → ¬check6 → ∃ i x, i < 256 ∧ refused 6 i x) ∧
      (check1 → check2 → check3 → check4 → check5 → check6 → ¬check7 → refused 7 0 0)) ∧
    (s.game.phase = .idle → check1 → check2 → check3 → check4 → check5 → check6 → check7 → s.quietEngine = true →
      ∃ t, exec (.startGame tag []) s = .next t ∧ t.link = s.answeredLink ⟨9, tag, []⟩ [0] ∧ s.SameSettings t ∧
        t.game.phase = (if 1 ≤ s.shooter then .play else .serve) ∧ t.flipen = true ∧
        t.game.players = [.start s.game.params] ∧ t.game.current = 1 ∧ t.game.ballNumber = 1 ∧
        t.game.lastTilt = none ∧ (∀ i, (t.switch i).latch = false) ∧ t.scanner.quiet = 0 ∧
        t.census.missing = 0 ∧ t.census.multi = false ∧ t.census.save = none ∧ t.census.validated = false ∧
        t.census.missingReturns = 0 ∧ t.census.lastStarted = none ∧ t.census.locked = s.census.locked ∧
        t.modes.nextOrder = 0 ∧ t.modes.deferred = false ∧ (s.modes.stack = [] → t.modes.stack = []) ∧
        (t.device 0).queue = s.servedQueue ∧
        ∃ before after, t.events = List.foldl appendEvent s.events (before ++
          [⟨.gameStarted, 1, 0, s.scanner.now, s.game.params.installed, 0⟩] ++
          ballStartRecords t.modes.stack 1 1 1 s.scanner.now ++ after))

/-- ADD_PLAYER in SERVE, PLAY or BALL_OVER on ball 1 below the max players parameter makes one more record with the game-start
values and queues GAME PLAYER_ADDED; in every other case it is answered REJECTED PHASE and nothing changes (R152). -/
def Obligations.AddPlayerAdds : Prop :=
  ∀ (tag : Byte) (s : State), s.Offers ⟨10, tag, []⟩ →
    let n := s.game.players.length + 1
    let accepted := (s.game.phase = .serve ∨ s.game.phase = .play ∨ s.game.phase = .ballOver) ∧ s.game.ballNumber = 1 ∧
      s.game.players.length < s.game.params.maxPlayers
    (accepted → exec (.addPlayer tag []) s = .next { s.onlyAnswered ⟨10, tag, []⟩ [0] with
      game := { s.game with players := s.game.players ++ [.start s.game.params] }
      events := appendEvent s.events ⟨.gamePlayerAdded, n, n, s.scanner.now, n, 0⟩ }) ∧
    (¬accepted → exec (.addPlayer tag []) s = .next (s.onlyAnswered ⟨10, tag, []⟩ [3, 4, 0, 0, 0, 0]))

/-- NEXT_BALL in BALL_OVER plays an extra ball, else passes to the next player, else to player 1 of the next ball, else ends the
game. A ball start resets the current player's per-ball fields and the latches of the members of the per-ball groups, returns the
saved modes to the stack with MODE RESTORED for each before GAME BALL_STARTED, and queues one SERVE order on the trough or, with a
ball in the shooter lane, begins in PLAY. In every other phase the answer is REJECTED PHASE
(R14, R66, R82, R146, R150, R154, R155). -/
def Obligations.NextBallMovesOn : Prop :=
  ∀ (tag : Byte) (s : State), s.Offers ⟨11, tag, []⟩ →
    (s.game.phase ≠ .ballOver → exec (.nextBall tag []) s = .next (s.onlyAnswered ⟨11, tag, []⟩ [3, 4, 0, 0, 0, 0])) ∧
    (∀ q, s.game.phase = .ballOver → s.quietEngine = true → s.player? s.game.current = some q →
      let started := fun (t : State) (p ball extra : Nat) =>
        t.inPlay = true ∧ t.game.current = p ∧ t.game.ballNumber = ball ∧ t.census.validated = false ∧
          t.game.lastTilt = none ∧ t.game.phase = (if 1 ≤ s.shooter then .play else .serve) ∧
          (s.configured 0 = true → (t.device 0).queue = s.servedQueue) ∧
          (∀ i < 72, (t.switch i).latch = true ↔
            (s.switch i).latch = true ∧ ∀ g < 8, (s.group g).perBall = true → i ∉ (s.group g).members) ∧
          (∃ before after, t.events = List.foldl appendEvent s.events (before ++
            ballStartRecords t.modes.stack p ball s.game.players.length s.scanner.now ++ after)) ∧
          (∀ q, s.player? p = some q → s.modes.stack = [] → s.modes.nextOrder < 65536 →
            t.modes.nextOrder = (s.modes.nextOrder + q.saved.length) % 65536 ∧ t.modes.stack.Perm (s.restored q.saved) ∧
            (q.saved.Pairwise (fun v w => (s.modeDef w.mode).priority ≤ (s.modeDef v.mode).priority) →
              t.modes.stack = s.restored q.saved)) ∧
          ∀ q, s.player? p = some q → ∃ q', t.player? p = some q' ∧ q'.score = q.score ∧ q'.playfieldMult = 1 ∧
            q'.bonusCount = 0 ∧ q'.bonusMult = (if s.game.params.bonusMultCarry = true then q.bonusMult else 1) ∧
            q'.flags = q.flags &&& s.game.params.flagCarry ∧
            q'.locksLit = (if s.game.params.lockLitCarry = true then q.locksLit else 0) ∧
            q'.locksMade = q.locksMade ∧ q'.tiltWarnings = 0 ∧ q'.extraBalls = q.extraBalls - extra ∧ q'.saved = []
      ∃ t, exec (.nextBall tag []) s = .next t ∧ t.link = s.answeredLink ⟨11, tag, []⟩ [0] ∧
        (1 ≤ q.extraBalls → started t s.game.current s.game.ballNumber 1) ∧
        (q.extraBalls = 0 → s.game.current < s.game.players.length →
          started t (s.game.current + 1) s.game.ballNumber 0) ∧
        (q.extraBalls = 0 → s.game.players.length ≤ s.game.current →
          s.game.ballNumber + 1 ≤ s.game.params.ballsPerGame → started t 1 (s.game.ballNumber + 1) 0) ∧
        (q.extraBalls = 0 → s.game.players.length ≤ s.game.current →
          s.game.params.ballsPerGame < s.game.ballNumber + 1 →
          t.game.phase = .idle ∧ t.flipen = false ∧ t.game.current = 0 ∧ t.game.ballNumber = s.game.ballNumber ∧
            t.game.players = s.game.players.map fun q => { q with saved := [] }))

/-! ### Triggers, grants, modes and player fields -/

/-- TRIGGER in SERVE and PLAY: with an empty list the trigger is walked and its root ends before the reply WALKED; with 1 to 15
triggers waiting it is appended, PENDING; with 16 it is dropped with TRIGGER_LOST (R41, R42, R43, R44, R185, R192). The result
codes, numbered in the order of R185's table (notes/assumptions/30.md), and the time of the TRIGGER_LOST record
(notes/assumptions/8.md) are DEDUCED. The operand b is the model's choice (notes/assumptions/4.md): with it the request stays in
hand while its root pauses between two walks, and at most 32 idle steps lead to the state in which it ends without it. -/
def Obligations.TriggerWalksOrWaits : Prop :=
  ∀ (tag v : Byte) (b : Bool) (s : State), s.inPlay = true → 72 ≤ v.toNat → v.toNat ≤ 79 → s.Offers ⟨13, tag, [v]⟩ →
    (s.engine.triggers = [] → ∃ t, exec (.triggerRequest tag ⟨[v], false⟩) s = .next t ∧ t.engine.root = none ∧
      t.engine.triggers = [] ∧ t.link = s.answeredLink ⟨13, tag, [v]⟩ [0, 0] ∧ s.SameSettings t ∧
      (s.chain v.toNat = [] → t.game.players = s.game.players ∧ t.census = s.census ∧ t.modes = s.modes ∧
        t.scanner = s.scanner) ∧
      ∃ t', exec (.triggerRequest tag ⟨[v], true⟩) s = .next t' ∧ t'.inHand = t'.engine.root.isSome ∧
        ∃ n ≤ 32, repeated State.idle n t' = t) ∧
    (s.engine.triggers ≠ [] → s.engine.triggers.length < 16 →
      exec (.triggerRequest tag ⟨[v], b⟩) s = .next { s.onlyAnswered ⟨13, tag, [v]⟩ [0, 1] with
        engine := { s.engine with triggers := s.engine.triggers ++ [v.toNat] } }) ∧
    (16 ≤ s.engine.triggers.length →
      exec (.triggerRequest tag ⟨[v], b⟩) s = .next { s.onlyAnswered ⟨13, tag, [v]⟩ [0, 2] with
        events := appendEvent s.events
          ⟨.triggerLost, s.game.current, v.toNat, s.scanner.now, s.engine.walking.getD 255, 0⟩ })

/-- The walk of a TRIGGER. A chain of one ENABLED FIXED entry of the edge, with open gates, a condition that passes and no action,
adds the base times the total multiplier to the current player's score, held at the limit, and reports the replay thresholds
crossed, the first holding at the limit, then the award when the entry says so. An entry that is DISABLED, of the other edge, behind
a closed gate or with a condition that fails does nothing (R28, R29, R30, R31, R33, R34, R49, R54, R55, R56). An entry's actions are
done one after another, as ActionsWriteFields says of each. CONTINUE goes on to the next entry, which sees what the actions have
written, and STOP does not; a trigger that an action raises is walked after the walk in progress (R33, R34, R40, R42). With the
operand b (notes/assumptions/4.md, the model's choice) the root pauses between the two walks. The time stamp of SCORE and AWARD
records (notes/assumptions/8.md) and the result code of WALKED (notes/assumptions/30.md) are DEDUCED. -/
def Obligations.WalkAwardsFixedEntry : Prop :=
  ∀ (tag v : Byte) (b : Bool) (s : State) (i : Nat) (q : Player), s.inPlay = true → 72 ≤ v.toNat → v.toNat ≤ 79 →
    s.Offers ⟨13, tag, [v]⟩ → s.engine.triggers = [] → s.player? s.game.current = some q →
    let e := s.award i
    let points := fun (e : AwardEntry) => e.base * s.multiplier e.classes
    let modeGate := e.gateKind = .any ∨
      e.gateKind = .running ∧ (s.inst? e.gateMode).map ModeInst.state = some .running ∨
      e.gateKind = .absent ∧ s.inst? e.gateMode = none
    let ballGate := e.ballGate = .any ∨ e.ballGate = (if s.census.multi = true then .multi else .single)
    let holds := fun (c : Condition) (x : Nat) =>
      c.source = .latch ∧ (s.switch x).latch = true ∨ c.source = .level ∧ (s.switch x).debounced = true ∨
      c.source = .flag ∧ q.flags.getLsbD x = true ∨ c.source = .lockLit ∧ 1 ≤ q.locksLit ∨
      c.source = .groupDone ∧ (s.group x).members ≠ [] ∧ ∀ j ∈ (s.group x).members, (s.switch j).latch = true
    let condition := ∀ c, e.condition = some c →
      (c.polarity = .whenSet ↔ holds c c.operandA ∨ ∃ x, c.operandB = some x ∧ holds c x)
    let passes := e.state = .enabled ∧ e.edge = .close ∧ modeGate ∧ ballGate ∧ condition
    let ended := fun (t : State) => t.link = s.answeredLink ⟨13, tag, [v]⟩ [0, 0] ∧ t.engine.root = none
    (s.chain v.toNat = [i] → passes → e.source = .fixed → e.actions = [] →
      ∃ t, exec (.triggerRequest tag ⟨[v], b⟩) s = .next t ∧ ended t ∧
        t.player? s.game.current = some (q.plus s.game.params (points e)) ∧
        (∀ k, k ≠ s.game.current → t.player? k = s.player? k) ∧ t.census = s.census ∧ t.modes = s.modes ∧
        t.events = List.foldl appendEvent s.events (s.scoreRecords q s.scanner.now (points e) ++
          if e.report = true then
            [⟨.awardEntry, s.game.current, i, s.scanner.now, s.multiplier e.classes, points e⟩] else [])) ∧
    (s.chain v.toNat = [i] → ¬passes → ∃ t, exec (.triggerRequest tag ⟨[v], b⟩) s = .next t ∧ ended t ∧
      t.game.players = s.game.players ∧ t.events = s.events ∧ t.census = s.census ∧ t.modes = s.modes) ∧
    (s.chain v.toNat = [i] → passes → e.source = .none →
      (∀ a ∈ e.actions, a.kind ≠ .trigger ∧ a.kind ≠ .modeProgress) →
      let done := e.actions.foldl State.act { s with time := s.scanner.now }
      ∃ t, exec (.triggerRequest tag ⟨[v], b⟩) s = .next t ∧ ended t ∧ t.game.players = done.game.players ∧
        t.census = done.census ∧ t.modes = done.modes ∧ t.scanner = done.scanner ∧ t.events = done.events) ∧
    ∀ (j k u x : Nat), s.chain v.toNat = [i, j] → s.chain u = [k] → 72 ≤ u → u ≤ 79 → x < 32 → passes →
      e.source = .none → e.actions = [⟨.flagSet, x⟩, ⟨.trigger, u⟩] →
      let plain := fun (e : AwardEntry) => e.state = .enabled ∧ e.edge = .close ∧ e.gateKind = .any ∧ e.ballGate = .any ∧
        e.source = .fixed ∧ e.actions = []
      plain (s.award j) → (s.award j).condition = some ⟨.flag, x, none, .whenSet⟩ →
      plain (s.award k) → (s.award k).condition = none →
      let lit := { q with flags := q.flags ||| 1#32 <<< x }
      let first := if e.continuation = .goOn then lit.plus s.game.params (points (s.award j)) else lit
      let second := first.plus s.game.params (points (s.award k))
      ∃ t t', exec (.triggerRequest tag ⟨[v], false⟩) s = .next t ∧ ended t ∧ t.player? s.game.current = some second ∧
        exec (.triggerRequest tag ⟨[v], true⟩) s = .next t' ∧ t'.inHand = true ∧
        t'.player? s.game.current = some first ∧ t'.engine.triggers = [u] ∧
        t'.engine.root = some ⟨v.toNat, 1, s.scanner.now⟩ ∧ t'.idle.player? s.game.current = some second

/-- The actions on the player's own fields write that field of the current player, held as their rules say, and nothing else;
LATCH_CLEAR clears the latches of a group's members and nothing else (R35, R36, R37, R38, R60, R61). MB_START of an undefined
definition only reports it; of a defined one it frees held balls and serves from the trough up to the target, and from SINGLE it
uses up the locks, arms the ball save and raises the state with 2 or more balls committed, while in MULTI it stacks; ADD_BALL serves
one ball or reports that it cannot (R131, R132, R133, R134, R135). That records and orders carry the one time stamp of the work in
hand is DEDUCED (notes/assumptions/8.md). -/
def Obligations.ActionsWriteFields : Prop :=
  ∀ (s : State) (q : Player) (x : Nat), s.player? s.game.current = some q →
    let g := s.game.params
    let built := min (q.jackpot + q.jackpot * g.buildPercent / 100 / 10 * 10 + x / 10 * 10) g.jackpotCap
    let balls := if q.extraBalls < g.extraBallLimit then q.extraBalls + 1 else q.extraBalls
    let written := fun (k : ActionKind) (q' : Player) => s.act ⟨k, x⟩ =
      { s with game := { s.game with players := s.game.players.set (s.game.current - 1) q' } }
    (x < 32 → written .flagSet { q with flags := q.flags ||| 1#32 <<< x } ∧
      written .flagClear { q with flags := q.flags &&& ~~~(1#32 <<< x) } ∧
      written .flagToggle { q with flags := q.flags ^^^ 1#32 <<< x }) ∧
    written .jackpotBuild { q with jackpot := built } ∧
    written .jackpotReset { q with jackpot := min g.jackpotBase g.jackpotCap } ∧
    (q.locksMade + q.locksLit ≤ g.locksNeeded →
      written .lockLight { q with locksLit := min (q.locksLit + x) (g.locksNeeded - q.locksMade) }) ∧
    (q.bonusCount ≤ 999 → written .bonusAdd { q with bonusCount := min (q.bonusCount + x) 999 }) ∧
    (q.bonusMult ≤ 10 → written .bonusMultUp { q with bonusMult := min (q.bonusMult + 1) 10 }) ∧
    (q.playfieldMult ≤ 5 → written .pfMultUp { q with playfieldMult := min (q.playfieldMult + 1) 5 }) ∧
    written .extraBall { q with extraBalls := balls } ∧
    (∃ t, s.act ⟨.latchClear, x⟩ = t ∧ t = { s with scanner := { s.scanner with switches := t.scanner.switches } } ∧
      ∀ i < 72, t.switch i =
        if i ∈ (s.group x).members then { s.switch i with latch := false } else s.switch i) ∧
    let event := fun (k : Event) (subject argument value : Nat) =>
      (⟨k, s.game.current, subject, s.time, argument, value⟩ : EventRecord)
    let d := s.multiballDef x
    let need := d.target - s.committed
    let before := fun (k : Nat) => if d.releaseLocked = true then ((List.range k).drop 2 |>.map s.locked).sum else 0
    let released := min need (before 8)
    let served := min (need - released) (s.trough - s.owed)
    let fed := fun (n : Nat) => (s.device 0).queue ++ List.replicate n ⟨.serve, s.time, true⟩
    (d.defined = false → s.act ⟨.mbStart, x⟩ =
      { s with events := appendEvent s.events (event .multiballUndefined x 0 0) }) ∧
    ((∀ k < 8, (s.device k).searchWaits = false ∧ s.locked k ≤ s.countOf k) → s.trough ≤ 8 →
      (d.defined = true →
        let t := s.act ⟨.mbStart, x⟩
        t.committed = s.committed + released + served ∧ (t.device 0).queue = fed served ∧
        (∀ k, 2 ≤ k → k < 8 →
          let freed := min (before (k + 1) - before k) (need - before k)
          t.locked k = s.locked k - freed ∧ (t.device k).queue = (s.device k).queue ++
            List.replicate (min freed (8 - (s.device k).queue.length)) ⟨.release, s.time, false⟩) ∧
        t.census.lastStarted = some x ∧ (d.startMode = none → t.modes = s.modes) ∧
        (∀ m, d.startMode = some m → (s.modeDef m).defined = true →
          s.inst? m ≠ none ∨ s.modes.stack.length < 6 →
          (t.inst? m).map ModeInst.remaining =
            some (if (s.modeDef m).duration = 0 then none else some (s.modeDef m).duration)) ∧
        (t.events.length < 64 →
          (1 ≤ need - released - served → event .multiballShort x (need - released - served) 0 ∈ t.events) ∧
          t.events.getLast? =
            some (event (if s.census.multi = true then .multiballStacked else .multiballStarted) x t.committed released)) ∧
        (s.census.multi = true → t.census.multi = true ∧ t.game = s.game ∧ t.census.save = s.census.save) ∧
        (s.census.multi = false → (t.census.multi = true ↔ 2 ≤ t.committed) ∧
          t.game.players = s.game.players.set (s.game.current - 1) { q with locksMade := 0, locksLit := 0 } ∧
          t.census.save = if d.saveTime = 0 then s.census.save else some ⟨d.saveTime, .unlimited⟩)) ∧
      (s.owed < s.trough → s.committed < 6 →
        let t := s.act ⟨.addBall, x⟩
        t.committed = s.committed + 1 ∧ (t.device 0).queue = fed 1 ∧ t.events = s.events ∧ t.game = s.game ∧
          t.modes = s.modes ∧ t.census = { s.census with multi := s.census.multi || decide (1 ≤ s.committed) })) ∧
    (s.trough ≤ s.owed ∨ 6 ≤ s.committed →
      s.act ⟨.addBall, x⟩ = { s with events := appendEvent s.events (event .multiballShort 255 1 0) })

/-- GRANT in SERVE and PLAY holds and rounds its base, adds the base times the total multiplier to the current player's score, held
at the limit, queues its SCORE records and AWARD GRANTED, and answers T, A and the score after it; CLAMPED when the base was held or
rounded (R54, R55, R56, R58, R186). T is P × M × F held at 64: P the playfield multiplier, M what the RUNNING modes lend, held at 8,
and F the balls in play, held at the factor cap, each 1 where the class set omits it (R50, R51, R52, R53). The time stamp of SCORE
and AWARD records is DEDUCED (notes/assumptions/8.md), and a device with more balls locked than counted has none in play by the
model's choice (notes/assumptions/54.md). -/
def Obligations.GrantAwards : Prop :=
  ∀ (tag : Byte) (s : State) (n : Nat) (c : Classes) (q : Player), s.inPlay = true → n < 281474976710656 →
    s.player? s.game.current = some q →
    let p := u48 n ++ u8 c.code
    let base := min n 9999990 / 10 * 10
    let lent := s.modes.stack.filter fun i => i.state == .running && (s.modeDef i.mode).lends
    let bip := s.shooter + s.census.playfield + ([2, 3, 4, 5, 6, 7].map fun k => s.countOf k - s.locked k).sum
    let factorP := if c.playfield = true then q.playfieldMult else 1
    let factorM := if c.mode = true then min (1 + (lent.map fun i => (s.modeDef i.mode).multiplier - 1).sum) 8 else 1
    let factorF := if c.multiball = true ∧ 2 ≤ bip then min bip s.game.params.factorCap else 1
    let total := min (factorP * factorM * factorF) 64
    let points := base * total
    let score := min (q.score + points) 99999999990
    s.Offers ⟨14, tag, p⟩ →
    ∃ t, exec (.grantRequest tag p) s = .next t ∧ t.player? s.game.current = some (q.plus s.game.params points) ∧
      (∀ k, k ≠ s.game.current → t.player? k = s.player? k) ∧
      t.link = s.answeredLink ⟨14, tag, p⟩ ([if base = n then 0 else 1] ++ u8 total ++ u48 points ++ u48 score) ∧
      t.events = List.foldl appendEvent s.events (s.scoreRecords q s.scanner.now points ++
        [⟨.awardGranted, s.game.current, 255, s.scanner.now, total, points⟩]) ∧
      t.engine = s.engine ∧ t.modes = s.modes ∧ t.census = s.census ∧ t.devices = s.devices ∧ t.scanner = s.scanner

/-- MODE_CONTROL START in SERVE and PLAY: refused for an undefined mode or a full stack, a refresh of an instance present, else a
new instance with the values of R66 and the state of R67; the result code says which (R66, R67, R69, R84). Its number is the place
in R84's list for START (DEDUCED, notes/assumptions/30.md; one list for each operation, DESIGN CHOICE, notes/assumptions/49.md). -/
def Obligations.ModeControlStarts : Prop :=
  ∀ (tag m : Byte) (b : Bool) (s : State), s.inPlay = true → s.engine.triggers = [] → m.toNat < 16 →
    s.Offers ⟨15, tag, [m, 0]⟩ →
    let d := s.modeDef m.toNat
    let time := if d.duration = 0 then none else some d.duration
    ∃ t, exec (.modeControl tag ⟨[m, 0], b⟩) s = .next t ∧ t.game.players = s.game.players ∧ t.census = s.census ∧
      t.scanner = s.scanner ∧
      (d.defined = false → t.link = s.answeredLink ⟨15, tag, [m, 0]⟩ [0, 2] ∧ t.modes = s.modes) ∧
      (∀ i, d.defined = true → s.inst? m.toNat = some i →
        t.link = s.answeredLink ⟨15, tag, [m, 0]⟩ [0, 1] ∧ t.inst? m.toNat = some { i with remaining := time } ∧
          t.modes.nextOrder = s.modes.nextOrder) ∧
      (d.defined = true → s.inst? m.toNat = none → 6 ≤ s.modes.stack.length →
        t.link = s.answeredLink ⟨15, tag, [m, 0]⟩ [0, 3] ∧ t.modes = s.modes) ∧
      (d.defined = true → s.inst? m.toNat = none → s.modes.stack.length < 6 →
        t.link = s.answeredLink ⟨15, tag, [m, 0]⟩ [0, 0] ∧ t.modes.stack.length = s.modes.stack.length + 1 ∧
          t.modes.nextOrder = (s.modes.nextOrder + 1) % 65536 ∧
          t.inst? m.toNat = some
            { mode := m.toNat, remaining := time, progress := 0, value := d.startValue, order := s.modes.nextOrder
              state :=
                if ∃ j ∈ s.modes.stack, (s.modeDef j.mode).exclusive = true ∧
                  d.priority < (s.modeDef j.mode).priority then .suspended else .running })

/-- MODE_CONTROL STOP takes the instance out of the stack, and PROGRESS advances a RUNNING instance by one and by its value step,
completing it at its goal; without an instance, and for a SUSPENDED one, nothing is done (R74, R75, R77, R84). A completion awards
the completion value times the total multiplier, with its SCORE records and AWARD COMPLETION before any other record (R56, R59), and
its trigger begins a root of its own (R42, R75). The result codes, numbered from 0 for each operation, are the model's choice
(notes/assumptions/30.md, notes/assumptions/49.md), and so is the operand b: with it the request ends before the root's first walk,
which then waits, and without it the root has ended before the reply (notes/assumptions/4.md, notes/assumptions/35.md). The time
stamp of SCORE and AWARD records is DEDUCED (notes/assumptions/8.md). -/
def Obligations.ModeControlStopsAndProgresses : Prop :=
  ∀ (tag m : Byte) (b : Bool) (s : State), s.inPlay = true → s.engine.triggers = [] → s.engine.root = none → m.toNat < 16 →
    (s.Offers ⟨15, tag, [m, 1]⟩ →
      (∀ i, s.inst? m.toNat = some i → ∃ t, exec (.modeControl tag ⟨[m, 1], b⟩) s = .next t ∧ t.inst? m.toNat = none ∧
        t.modes.stack.map ModeInst.mode = (s.modes.stack.filter fun j => j.mode != m.toNat).map ModeInst.mode ∧
        t.game.players = s.game.players ∧ t.link = s.answeredLink ⟨15, tag, [m, 1]⟩ [0, 0]) ∧
      (s.inst? m.toNat = none → ∃ t, exec (.modeControl tag ⟨[m, 1], b⟩) s = .next t ∧ t.modes = s.modes ∧
        t.game.players = s.game.players ∧ t.link = s.answeredLink ⟨15, tag, [m, 1]⟩ [0, 1])) ∧
    (s.Offers ⟨15, tag, [m, 2]⟩ →
      let d := s.modeDef m.toNat
      (∀ i, s.inst? m.toNat = some i → i.state = .running → d.goal = 0 ∨ i.progress + 1 ≠ d.goal →
        ∃ t, exec (.modeControl tag ⟨[m, 2], b⟩) s = .next t ∧ t.game.players = s.game.players ∧
          t.link = s.answeredLink ⟨15, tag, [m, 2]⟩ [0, 0] ∧
          t.inst? m.toNat = some { i with
            progress := if d.goal = 0 then min (i.progress + 1) 255 else i.progress + 1
            value := min (i.value + d.valueStep) 9999990 }) ∧
      (∀ i, s.inst? m.toNat = some i → i.state = .running → d.goal ≠ 0 → i.progress + 1 = d.goal →
        ∃ t, exec (.modeControl tag ⟨[m, 2], b⟩) s = .next t ∧ t.link = s.answeredLink ⟨15, tag, [m, 2]⟩ [0, 1] ∧
          (b = true ∨ s.chain (88 + m.toNat) = [] → t.inst? m.toNat = none ∧
            ∀ q, s.player? s.game.current = some q →
              let factor := s.multiplier d.completionClasses
              let points := d.completionValue * factor
              t.player? s.game.current = some (q.plus s.game.params points) ∧
              (∀ k, k ≠ s.game.current → t.player? k = s.player? k) ∧
              ∃ more, t.events = List.foldl appendEvent s.events (s.scoreRecords q s.scanner.now points ++
                [⟨.awardCompletion, s.game.current, m.toNat, s.scanner.now, factor, points⟩] ++ more)) ∧
          (b = false → t.engine.root = none ∧ t.engine.triggers = []) ∧
          (b = true → t.engine.root = some ⟨88 + m.toNat, 0, s.scanner.now⟩ ∧ t.engine.triggers = [88 + m.toNat])) ∧
      (∀ i, s.inst? m.toNat = some i → i.state = .suspended →
        ∃ t, exec (.modeControl tag ⟨[m, 2], b⟩) s = .next t ∧ t.modes = s.modes ∧ t.game.players = s.game.players ∧
          t.link = s.answeredLink ⟨15, tag, [m, 2]⟩ [0, 3]) ∧
      (s.inst? m.toNat = none → ∃ t, exec (.modeControl tag ⟨[m, 2], b⟩) s = .next t ∧ t.modes = s.modes ∧
        t.game.players = s.game.players ∧ t.link = s.answeredLink ⟨15, tag, [m, 2]⟩ [0, 2]))

/-- SET_PLAYER in SERVE and PLAY writes the one field named, held as the table of R147 says, with CLAMPED when it was held or
rounded, and nothing else (R147). -/
def Obligations.SetPlayerWrites : Prop :=
  ∀ (tag i f : Byte) (s : State) (n : Nat) (q : Player), s.inPlay = true → 1 ≤ i.toNat → i.toNat ≤ 4 →
    s.player? i.toNat = some q → n < 281474976710656 →
    let p := [i, f] ++ u48 n
    let g := s.game.params
    s.Offers ⟨16, tag, p⟩ →
    let written := fun (v : Nat) (q' : Player) => exec (.setPlayer tag p) s = .next
      { s.onlyAnswered ⟨16, tag, p⟩ [if v = n then 0 else 1] with
        game := { s.game with players := s.game.players.set (i.toNat - 1) q' } }
    (f = 0 → let v := max q.score (min n 99999999990 / 10 * 10); written v { q with score := v }) ∧
    (f = 1 → let v := min n g.jackpotCap / 10 * 10; written v { q with jackpot := v }) ∧
    (f = 2 → let v := min n 999; written v { q with bonusCount := v }) ∧
    (f = 3 → let v := max 1 (min n 10); written v { q with bonusMult := v }) ∧
    (f = 4 → let v := max 1 (min n 5); written v { q with playfieldMult := v }) ∧
    (f = 5 → written n { q with flags := BitVec.ofNat 32 n }) ∧
    (f = 6 → let v := min (min n 4) (g.locksNeeded - q.locksMade); written v { q with locksLit := v }) ∧
    (f = 7 → let v := min (min n 4) (g.locksNeeded - q.locksLit); written v { q with locksMade := v }) ∧
    (f = 8 → let v := min n 9; written v { q with extraBalls := v })

/-! ### Device requests, latches and events -/

/-- EJECT queues a HOST order behind the orders of a configured device; it is refused for a device that is not configured and for
a queue of 8 orders (R95, R96, R111). -/
def Obligations.EjectQueuesHostOrder : Prop :=
  ∀ (tag d : Byte) (s : State), d.toNat < 8 → s.Offers ⟨17, tag, [d]⟩ →
    (s.configured d.toNat = false →
      exec (.ejectRequest tag [d]) s = .next (s.onlyAnswered ⟨17, tag, [d]⟩ [3, 5, 0, d, 0, 0])) ∧
    (s.configured d.toNat = true → s.quietEngine = true → 8 ≤ (s.device d.toNat).queue.length →
      exec (.ejectRequest tag [d]) s = .next (s.onlyAnswered ⟨17, tag, [d]⟩ [3, 6, 0, 0, 0, 0])) ∧
    (s.configured d.toNat = true → s.quietEngine = true → (s.device d.toNat).queue.length < 8 →
      (s.device d.toNat).searchWaits = false →
      ∃ t more, exec (.ejectRequest tag [d]) s = .next t ∧ t.link = s.answeredLink ⟨17, tag, [d]⟩ [0] ∧
        (t.device d.toNat).queue = (s.device d.toNat).queue ++ [⟨.host, s.scanner.now, false⟩] ++ more ∧
        (∀ o ∈ more, o.reason = .recover) ∧ t.census = s.census ∧ t.game.players = s.game.players ∧
        ((s.device d.toNat).state = .idle → (t.device d.toNat).state = .ejectWait) ∧
        ((s.device d.toNat).state ≠ .idle → (t.device d.toNat).state = (s.device d.toNat).state))

/-- CLEAR_FAULT takes a device out of FAULT into EJECT_WAIT for its head order, with the retry count at 0 and every counted ball
accounted for, and queues one FAULT_CLEARED record of argument HOST with the time stamp of the request; a device not in FAULT is
left as it is (R105, R112). The operand b is the model's choice (notes/assumptions/4.md): with it the request stays in hand after
each arrival, and idle steps lead to the state in which it ends without it. That the arrivals are handed on within the request is
DEDUCED (notes/assumptions/10.md). Where a request in hand has no arrival left, the idle step ends it (the model's choice,
notes/assumptions/3.md), and FAULT_CLEARED carries the request's time stamp whatever scans have come since (DEDUCED,
notes/assumptions/8.md). -/
def Obligations.ClearFaultRestarts : Prop :=
  ∀ (tag d : Byte) (b : Bool) (s : State), d.toNat < 8 →
    let cleared := fun (stamp : Stamp) => (⟨.deviceFaultCleared, s.game.current, d.toNat, stamp, 0, 0⟩ : EventRecord)
    (s.Offers ⟨18, tag, [d]⟩ →
      ((s.device d.toNat).state ≠ .fault → exec (.clearFault tag ⟨[d], b⟩) s = .next (s.onlyAnswered ⟨18, tag, [d]⟩ [0])) ∧
      ((s.device d.toNat).state = .fault → s.quietEngine = true → (s.device d.toNat).queue ≠ [] →
        (s.device d.toNat).searchWaits = false →
        ∃ t, exec (.clearFault tag ⟨[d], false⟩) s = .next t ∧ t.link = s.answeredLink ⟨18, tag, [d]⟩ [0] ∧
          (t.device d.toNat).state = .ejectWait ∧ (t.device d.toNat).retries = 0 ∧
          (t.device d.toNat).accounted = (t.device d.toNat).settled ∧
          (t.device d.toNat).settled = (s.device d.toNat).settled ∧
          (∃ before after, t.events = List.foldl appendEvent s.events (before ++ [cleared s.scanner.now] ++ after)) ∧
          ((s.device d.toNat).settled ≤ (s.device d.toNat).accounted → s.ballOn = true →
            t.events = appendEvent s.events (cleared s.scanner.now)) ∧
          ∃ t', exec (.clearFault tag ⟨[d], true⟩) s = .next t' ∧
            t'.inHand = decide ((s.device d.toNat).accounted < (s.device d.toNat).settled) ∧
            ∃ n, repeated State.idle n t' = t)) ∧
    ∀ stamp, s.pending = [] → s.engine.root = none → s.engine.paused = some (.clearFault d.toNat stamp) →
      firstWaiting s.link.slots = some ⟨18, tag, [d]⟩ → (s.device d.toNat).state = .fault →
      (s.device d.toNat).arrivals = [] → (s.device d.toNat).queue ≠ [] → (s.device d.toNat).searchWaits = false →
      ∃ t, step s = .next t ∧ t.inHand = false ∧ t.link = s.answeredLink ⟨18, tag, [d]⟩ [0] ∧
        (t.device d.toNat).state = .ejectWait ∧ (t.device d.toNat).retries = 0 ∧
        (∃ after, t.events = List.foldl appendEvent (appendEvent s.events (cleared stamp)) after) ∧
        (s.ballOn = true → t.events = appendEvent s.events (cleared stamp))

/-- CLEAR_LATCHES, in every phase, clears every latch, or those of one group's members, and changes nothing else; a selector or a
group out of range is answered REJECTED RANGE with its field number, and the group is ignored with selector ALL (R183). -/
def Obligations.ClearLatchesClears : Prop :=
  ∀ (tag sel g : Byte) (s : State), s.Offers ⟨19, tag, [sel, g]⟩ →
    (2 ≤ sel.toNat →
      exec (.clearLatches tag [sel, g]) s = .next (s.onlyAnswered ⟨19, tag, [sel, g]⟩ [3, 3, 1, 0, 0, 0])) ∧
    (sel = 1 → 8 ≤ g.toNat →
      exec (.clearLatches tag [sel, g]) s = .next (s.onlyAnswered ⟨19, tag, [sel, g]⟩ [3, 3, 2, 0, 0, 0])) ∧
    (sel = 0 ∨ sel = 1 ∧ g.toNat < 8 →
      ∃ t, exec (.clearLatches tag [sel, g]) s = .next t ∧
        t = { s.onlyAnswered ⟨19, tag, [sel, g]⟩ [0] with scanner := { s.scanner with switches := t.scanner.switches } } ∧
        ∀ i < 72, t.switch i =
          if sel = 0 ∨ i ∈ (s.group g.toNat).members then { s.switch i with latch := false } else s.switch i)

/-- The six reads, with payloads that pass their checks, answer OK with their data in every phase and change no state (R27, R85,
R91, R180, R181, R182). The items of each reply stand in the order of its rule, a code being the place in the list that gives it.
The bytes of the data, with the index 0 for no successor, 255 for no last definition and for UNLIMITED saves, the cause byte only
after configured no, and pending entries held at 255, are the model's reading of lists that the manual gives without offsets
(notes/assumptions/31.md), and so is 1 for FLIPEN asserted, an active ball save, the deferred mark set, a closed switch and a set
latch (notes/assumptions/50.md). That a device is unsettled exactly while its settle timer runs is DEDUCED
(notes/assumptions/20.md), and one with more balls locked than counted has none in play by the model's choice
(notes/assumptions/54.md). -/
def Obligations.ReadsChangeNothing : Prop :=
  ∀ (tag : Byte) (s : State),
    let statusDevice := fun (d : Nat) =>
      u8 ([DeviceState.disabled, .idle, .ejectWait, .pulsing, .confirming, .retryWait, .fault].idxOf (s.device d).state) ++
        u8 (s.device d).settled ++ u8 (s.locked d) ++ u8 (s.device d).queue.length
    let bip := s.countOf 1 + s.census.playfield + ([2, 3, 4, 5, 6, 7].map fun k => s.countOf k - s.locked k).sum
    let status := u32 s.scanner.now ++
      u8 ([Phase.idle, .serve, .play, .tilt, .ballOver].idxOf s.game.phase) ++
      mark (s.game.phase == .serve || s.game.phase == .play) ++ u8 s.game.players.length ++ u8 s.game.current ++
      u8 s.game.ballNumber ++ mark s.census.conflict ++ u8 s.game.params.installed ++ u8 (s.countOf 0) ++ u8 (s.countOf 1) ++
      u8 s.census.playfield ++ u8 s.census.missing ++ u8 ((List.range 8).map s.countOf).sum ++ u8 bip ++
      u8 (if s.configured 0 = true then (s.device 0).queue.length else 0) ++ mark s.census.multi ++
      u8 (s.census.lastStarted.getD 255) ++ mark s.census.validated ++ u8 s.census.missingReturns ++
      (match s.census.save with
        | none => [0, 0, 0, 0]
        | some r => mark true ++ u16 r.remaining ++ u8 (if r.saves = .one then 1 else 255)) ++
      (List.range 8).flatMap statusDevice ++
      u8 ((List.range 8).filter fun d => (s.device d).state == .pulsing).length ++
      u8 ([SearchPhase.off, .waiting, .round, .pause].idxOf s.game.search.phase) ++ u8 s.game.search.round ++
      u32 s.game.search.quietMark ++ u16 s.scanner.quiet ++ u8 s.engine.triggers.length ++ u8 s.events.length
    let player := fun (i : Nat) => match s.player? i with
      | none => List.replicate 29 (0 : Byte)
      | some q => mark true ++ u48 q.score ++ u8 q.playfieldMult ++ u16 q.bonusCount ++ u8 q.bonusMult ++ u32 q.flags ++
          u48 q.jackpot ++ u8 q.locksLit ++ u8 q.locksMade ++ u8 q.extraBalls ++ u8 q.nextReplay ++ u8 q.tiltWarnings ++
          mark q.limitReported ++ u8 q.saved.length ++ mark (s.game.current == i)
    let stack := mark s.modes.deferred ++ u8 s.modes.stack.length ++ s.modes.stack.flatMap fun i =>
      u8 i.mode ++ u8 (if i.state = .running then 0 else 1) ++ u16 (i.remaining.getD 0) ++ u8 i.progress ++ u48 i.value ++
        u16 i.order
    let saved := fun (i : Nat) => match s.player? i with
      | none => [(0 : Byte)]
      | some q => u8 q.saved.length ++ q.saved.flatMap fun v =>
          u8 v.mode ++ u16 (v.remaining.getD 0) ++ u8 v.progress ++ u48 v.value
    let counting := fun (c : Counting) => [Counting.positions, .entryExit, .entryBlind].idxOf c
    let record := fun (r : DeviceRecord) =>
      u8 ([DeviceRole.unused, .trough, .shooter, .lock, .saucer].idxOf r.role) ++ u8 r.profile ++
        u8 r.positions.length ++ r.positions.flatMap u8 ++ optional r.entrySwitch u8 ++ optional r.exitSwitch u8 ++
        u8 r.coil ++ optional (r.overrides.counting.map counting) u8 ++ optional r.overrides.capacity u8 ++
        optional r.overrides.pulse u16 ++ optional r.overrides.settle u16 ++ optional r.overrides.confirm u16 ++
        optional r.overrides.retryInterval u16 ++ optional r.overrides.retryLimit u8 ++
        optional r.overrides.holdOff u16 ++ mark r.autoRetry ++ mark r.keep ++ optional r.keepLimit u8 ++
        mark r.reportArrivals
    let device := fun (d : Nat) =>
      let v := s.device d
      let f := v.record.figures
      record v.record ++
        (if s.configured d = true then mark true ++ u8 (counting f.counting) ++ u8 f.capacity ++ u16 f.pulse ++
            u16 f.settle ++ u16 f.confirm ++ u16 f.retryInterval ++ u8 f.retryLimit ++ u16 f.holdOff ++
            u8 (v.record.keepLimit.getD (f.capacity - 1))
          else mark false ++ u8 (if v.record.role = .unused then 0 else 1) ++ List.replicate 14 0) ++
        u8 ([DeviceState.disabled, .idle, .ejectWait, .pulsing, .confirming, .retryWait, .fault].idxOf v.state) ++
        u8 v.settled ++ mark v.settle.isSome ++
        u8 (if s.configured d = false then 0 else min 255 (if f.counting = .positions then
          (v.record.positions.filter fun i => (s.switch i).debounced).length else v.entries)) ++
        u8 v.accounted ++ u8 (s.locked d) ++ u8 v.retries ++ u8 v.base ++
        mark ((s.devices.ready.map Ready.device).contains d) ++ u8 (if d = 1 then s.devices.launchOwed else 0) ++
        u8 v.queue.length ++ v.queue.flatMap fun o =>
          u8 ([Reason.serve, .launch, .return, .release, .search, .recover, .host].idxOf o.reason) ++ u32 o.queued ++
            mark o.launch
    let switch := fun (i : Nat) => mark ((s.switch i).debounced && s.roleOf i != .unused) ++ mark (s.switch i).latch ++
      u8 ([Role.playfield, .cabinet, .tilt, .slam, .unused, .device].idxOf (s.roleOf i))
    (s.Offers ⟨20, tag, []⟩ → exec (.readStatus tag []) s = .next (s.onlyAnswered ⟨20, tag, []⟩ (0 :: status))) ∧
    (∀ i : Byte, 1 ≤ i.toNat → i.toNat ≤ 4 → s.Offers ⟨21, tag, [i]⟩ →
      exec (.readPlayer tag [i]) s = .next (s.onlyAnswered ⟨21, tag, [i]⟩ (0 :: player i.toNat))) ∧
    (∀ n : Byte, s.Offers ⟨22, tag, [0, n]⟩ →
      exec (.readModes tag [0, n]) s = .next (s.onlyAnswered ⟨22, tag, [0, n]⟩ (0 :: stack))) ∧
    (∀ n : Byte, 1 ≤ n.toNat → n.toNat ≤ 4 → s.Offers ⟨22, tag, [1, n]⟩ →
      exec (.readModes tag [1, n]) s = .next (s.onlyAnswered ⟨22, tag, [1, n]⟩ (0 :: saved n.toNat))) ∧
    (∀ n : Byte, n.toNat < 16 → s.Offers ⟨22, tag, [2, n]⟩ → exec (.readModes tag [2, n]) s =
      .next (s.onlyAnswered ⟨22, tag, [2, n]⟩ (0 :: ((s.modeDef n.toNat).payload n.toNat).drop 1))) ∧
    (∀ d : Byte, d.toNat < 8 → s.Offers ⟨23, tag, [d]⟩ →
      exec (.readDevice tag [d]) s = .next (s.onlyAnswered ⟨23, tag, [d]⟩ (0 :: device d.toNat))) ∧
    (∀ i : Byte, s.Offers ⟨24, tag, [i]⟩ →
      let next := (List.range 256).find? fun j => decide (i.toNat < j) && (s.award j).state != .empty &&
        (s.award j).trigger == (s.award i.toNat).trigger
      let successor := if (s.award i.toNat).state = .empty then none else next
      exec (.readAward tag [i]) s = .next (s.onlyAnswered ⟨24, tag, [i]⟩
        (0 :: ((s.award i.toNat).payload i.toNat ++ mark successor.isSome ++ u8 (successor.getD 0))))) ∧
    (s.Offers ⟨25, tag, []⟩ → exec (.readSwitches tag []) s = .next (s.onlyAnswered ⟨25, tag, []⟩
      (0 :: (List.range 72).flatMap switch)))

/-- FETCH_EVENTS removes up to 8 records from the head of the queue and answers their count, the count left and the records, in
every phase; ATTN is released exactly when none is left, and asserted by the next record; with a payload it is answered REJECTED
LENGTH (R188, R190). Each record is 16 bytes, with the kind and code of the table of R194, its fields least significant byte first
(R192, R194); the clause on its contents is of an argument that fits the two bytes R194 gives it. -/
def Obligations.FetchEventsRemoves : Prop :=
  ∀ (tag : Byte) (s : State),
    let kinds : List (List Event) := [
      [.switchClosed, .switchOpened], [.awardEntry, .awardGranted, .awardCompletion], [.triggerLost, .walkLimit],
      [.scoreReplay, .scoreLimit],
      [.modeStarted, .modeRefreshed, .modeRefused, .modeSuspended, .modeResumed, .modeEnded, .modeSaved, .modeRestored],
      [.lockMade], [.multiballStarted, .multiballStacked, .multiballShort, .multiballEnded, .multiballUndefined],
      [.ballValidated, .ballRefed, .ballSaved, .ballDrained, .ballSaveEnded, .ballEnded],
      [.deviceArrival, .deviceOverfull, .deviceQueueFull, .deviceRetry, .deviceFault, .deviceFaultCleared, .deviceLockedLost],
      [.censusFound, .censusMissing, .censusConflict, .censusConflictCleared], [.tiltWarning, .tiltTilted, .tiltSlam],
      [.searchRound, .searchEnded, .searchFailed],
      [.gameStarted, .gameBallStarted, .gamePlayerAdded, .gameShootAgain, .gameOver], [.overflow],
      [.restartedHard, .restartedSoft]]
    let lowFirst := fun (width n : Nat) => (List.range width).map fun k => (BitVec.ofNat 8 (n / 256 ^ k) : Byte)
    let recordBytes := fun (r : EventRecord) =>
      let kind := kinds.findIdx fun codes => codes.contains r.event
      let code := (kinds.flatMap fun codes => if codes.contains r.event then codes else []).idxOf r.event
      lowFirst 1 (kind + 1) ++ lowFirst 1 (code + 1) ++ lowFirst 1 r.player ++ lowFirst 1 r.subject ++
        lowFirst 4 r.time.toNat ++ lowFirst 2 r.argument ++ lowFirst 6 r.value
    (∀ p, p ≠ [] → s.Offers ⟨26, tag, p⟩ →
      exec (.fetchEvents tag p) s = .next (s.onlyAnswered ⟨26, tag, p⟩ [3, 2, 0, 0, 0, 0])) ∧
    (s.Offers ⟨26, tag, []⟩ → s.events.length ≤ 64 →
      ∃ (t : State) (records : List (List Byte)), exec (.fetchEvents tag []) s = .next t ∧
        t = { s.onlyAnswered ⟨26, tag, []⟩ ([0, BitVec.ofNat 8 (min 8 s.events.length),
          BitVec.ofNat 8 (s.events.length - 8)] ++ records.flatten) with events := s.events.drop 8 } ∧
        records.length = min 8 s.events.length ∧ (∀ bytes ∈ records, bytes.length = 16) ∧
        (∀ (k : Nat) (r : EventRecord), k < 8 → s.events[k]? = some r → r.argument < 65536 →
          records[k]? = some (recordBytes r)) ∧
        (t.attn = false ↔ s.events.length ≤ 8) ∧
        ∀ (player : Nat) (e : Event) (subject argument value : Nat),
          (t.emitFor player e subject argument value).attn = true)

/-- A record that finds the Event Queue full is lost: an OVERFLOW record at the end counts it, or takes the place of the newest
record and counts both; the queue still holds 64 records and ATTN stays asserted. With room a record joins at the end (R188,
R189). -/
def Obligations.FullQueueOverflows : Prop :=
  ∀ (s : State) (player : Nat) (e : Event) (subject argument value : Nat),
    let r : EventRecord := ⟨e, player, subject, s.time, argument, value⟩
    let t := s.emitFor player e subject argument value
    t = { s with events := t.events } ∧ t.attn = true ∧ (s.events.length < 64 → t.events = s.events ++ [r]) ∧
      ∀ kept l, s.events = kept ++ [l] → s.events.length = 64 → t.events.length = 64 ∧
        (l.event = .overflow → t.events = kept ++ [{ l with
          argument := min (l.argument + 1) 65535, value := s.time.toNat }]) ∧
        (l.event ≠ .overflow → t.events = kept ++ [⟨.overflow, 0, 0, l.time, 2, s.time.toNat⟩])

/-! ### Invariants -/

/-- The state after a hard reset satisfies the invariants. -/
def Obligations.ResetMeetsInvariants : Prop :=
  State.reset.CollectionsHeld ∧ State.reset.StackHeld ∧ State.reset.CensusLaw ∧ State.reset.CoilLaw ∧ State.reset.SearchLaw

/-- Every step keeps the Event Queue, the pending-trigger list, the reply queue, the eject queues and the scores within what the
part holds (R41, R54, R95, R175, R188). -/
def Obligations.StepKeepsCollections : Prop :=
  ∀ s t : State, s.CollectionsHeld → step s = .next t → t.CollectionsHeld

/-- Every step keeps the mode stack and the saved-mode lists within their sizes, with an empty stack between balls (R66, R80,
R83). -/
def Obligations.StepKeepsStack : Prop :=
  ∀ s t : State, s.StackHeld → step s = .next t → t.StackHeld

/-- Every step keeps the law of the census: in NORMAL the counts sum to the balls installed, in CONFLICT PLAYFIELD and MISSING are
0 (R115, R180). -/
def Obligations.StepKeepsCensusLaw : Prop :=
  ∀ s t : State, s.CensusLaw → step s = .next t → t.CensusLaw

/-- Every step keeps the coil budget law: no more eject coils are energized at once than the coil budget allows (R99). -/
def Obligations.StepKeepsCoilLaw : Prop :=
  ∀ s t : State, s.CoilLaw → step s = .next t → t.CoilLaw

/-- Every step keeps the law of the search: it is OFF exactly outside PLAY and TILT, and a SEARCH order is in flight only in a
round (R165, R166, R169). -/
def Obligations.StepKeepsSearchLaw : Prop :=
  ∀ s t : State, s.SearchLaw → step s = .next t → t.SearchLaw

/-- No command but a configuration load taken in IDLE and a hard reset changes any record, table or parameter that the host has
loaded: switch records and groups, award entries, mode definitions, device records, multiball definitions and parameters (R4, R15,
R23, R65, R87, R130, R142, R179). -/
def Obligations.SettingsChangeOnlyByLoads : Prop :=
  ∀ (c : Instr) (s t : State), exec c s = .next t → c ≠ .hardReset →
    (∀ type tag p, c.request? = some (type, tag, p) → 1 ≤ type.toNat → type.toNat ≤ 8 → s.game.phase ≠ .idle) →
    s.SameSettings t
end

