-- ==== Sys2Proof/Laws/State.lean ====
section
/-! SUPPORT. The small lemmas of the state: what each update of a block leaves in each field, and what reading and writing a table
give. All of the first kind are true by rfl. -/

namespace Sys2Proof.Machine

set_option Elab.async false

open Sys2Proof

variable (s : State)

/-! ### onScanner -/

@[simp] theorem State.onScanner_scanner (f : Scanner → Scanner) : (s.onScanner f).scanner = f s.scanner := rfl
@[simp] theorem State.onScanner_engine (f : Scanner → Scanner) : (s.onScanner f).engine = s.engine := rfl
@[simp] theorem State.onScanner_modes (f : Scanner → Scanner) : (s.onScanner f).modes = s.modes := rfl
@[simp] theorem State.onScanner_devices (f : Scanner → Scanner) : (s.onScanner f).devices = s.devices := rfl
@[simp] theorem State.onScanner_census (f : Scanner → Scanner) : (s.onScanner f).census = s.census := rfl
@[simp] theorem State.onScanner_game (f : Scanner → Scanner) : (s.onScanner f).game = s.game := rfl
@[simp] theorem State.onScanner_link (f : Scanner → Scanner) : (s.onScanner f).link = s.link := rfl
@[simp] theorem State.onScanner_events (f : Scanner → Scanner) : (s.onScanner f).events = s.events := rfl
@[simp] theorem State.onScanner_time (f : Scanner → Scanner) : (s.onScanner f).time = s.time := rfl
@[simp] theorem State.onScanner_pending (f : Scanner → Scanner) : (s.onScanner f).pending = s.pending := rfl

/-! ### onEngine -/

@[simp] theorem State.onEngine_scanner (f : Engine → Engine) : (s.onEngine f).scanner = s.scanner := rfl
@[simp] theorem State.onEngine_engine (f : Engine → Engine) : (s.onEngine f).engine = f s.engine := rfl
@[simp] theorem State.onEngine_modes (f : Engine → Engine) : (s.onEngine f).modes = s.modes := rfl
@[simp] theorem State.onEngine_devices (f : Engine → Engine) : (s.onEngine f).devices = s.devices := rfl
@[simp] theorem State.onEngine_census (f : Engine → Engine) : (s.onEngine f).census = s.census := rfl
@[simp] theorem State.onEngine_game (f : Engine → Engine) : (s.onEngine f).game = s.game := rfl
@[simp] theorem State.onEngine_link (f : Engine → Engine) : (s.onEngine f).link = s.link := rfl
@[simp] theorem State.onEngine_events (f : Engine → Engine) : (s.onEngine f).events = s.events := rfl
@[simp] theorem State.onEngine_time (f : Engine → Engine) : (s.onEngine f).time = s.time := rfl
@[simp] theorem State.onEngine_pending (f : Engine → Engine) : (s.onEngine f).pending = s.pending := rfl

/-! ### onModes -/

@[simp] theorem State.onModes_scanner (f : Modes → Modes) : (s.onModes f).scanner = s.scanner := rfl
@[simp] theorem State.onModes_engine (f : Modes → Modes) : (s.onModes f).engine = s.engine := rfl
@[simp] theorem State.onModes_modes (f : Modes → Modes) : (s.onModes f).modes = f s.modes := rfl
@[simp] theorem State.onModes_devices (f : Modes → Modes) : (s.onModes f).devices = s.devices := rfl
@[simp] theorem State.onModes_census (f : Modes → Modes) : (s.onModes f).census = s.census := rfl
@[simp] theorem State.onModes_game (f : Modes → Modes) : (s.onModes f).game = s.game := rfl
@[simp] theorem State.onModes_link (f : Modes → Modes) : (s.onModes f).link = s.link := rfl
@[simp] theorem State.onModes_events (f : Modes → Modes) : (s.onModes f).events = s.events := rfl
@[simp] theorem State.onModes_time (f : Modes → Modes) : (s.onModes f).time = s.time := rfl
@[simp] theorem State.onModes_pending (f : Modes → Modes) : (s.onModes f).pending = s.pending := rfl

/-! ### onDevices -/

@[simp] theorem State.onDevices_scanner (f : Devices → Devices) : (s.onDevices f).scanner = s.scanner := rfl
@[simp] theorem State.onDevices_engine (f : Devices → Devices) : (s.onDevices f).engine = s.engine := rfl
@[simp] theorem State.onDevices_modes (f : Devices → Devices) : (s.onDevices f).modes = s.modes := rfl
@[simp] theorem State.onDevices_devices (f : Devices → Devices) : (s.onDevices f).devices = f s.devices := rfl
@[simp] theorem State.onDevices_census (f : Devices → Devices) : (s.onDevices f).census = s.census := rfl
@[simp] theorem State.onDevices_game (f : Devices → Devices) : (s.onDevices f).game = s.game := rfl
@[simp] theorem State.onDevices_link (f : Devices → Devices) : (s.onDevices f).link = s.link := rfl
@[simp] theorem State.onDevices_events (f : Devices → Devices) : (s.onDevices f).events = s.events := rfl
@[simp] theorem State.onDevices_time (f : Devices → Devices) : (s.onDevices f).time = s.time := rfl
@[simp] theorem State.onDevices_pending (f : Devices → Devices) : (s.onDevices f).pending = s.pending := rfl

/-! ### onCensus -/

@[simp] theorem State.onCensus_scanner (f : Census → Census) : (s.onCensus f).scanner = s.scanner := rfl
@[simp] theorem State.onCensus_engine (f : Census → Census) : (s.onCensus f).engine = s.engine := rfl
@[simp] theorem State.onCensus_modes (f : Census → Census) : (s.onCensus f).modes = s.modes := rfl
@[simp] theorem State.onCensus_devices (f : Census → Census) : (s.onCensus f).devices = s.devices := rfl
@[simp] theorem State.onCensus_census (f : Census → Census) : (s.onCensus f).census = f s.census := rfl
@[simp] theorem State.onCensus_game (f : Census → Census) : (s.onCensus f).game = s.game := rfl
@[simp] theorem State.onCensus_link (f : Census → Census) : (s.onCensus f).link = s.link := rfl
@[simp] theorem State.onCensus_events (f : Census → Census) : (s.onCensus f).events = s.events := rfl
@[simp] theorem State.onCensus_time (f : Census → Census) : (s.onCensus f).time = s.time := rfl
@[simp] theorem State.onCensus_pending (f : Census → Census) : (s.onCensus f).pending = s.pending := rfl

/-! ### onGame -/

@[simp] theorem State.onGame_scanner (f : Game → Game) : (s.onGame f).scanner = s.scanner := rfl
@[simp] theorem State.onGame_engine (f : Game → Game) : (s.onGame f).engine = s.engine := rfl
@[simp] theorem State.onGame_modes (f : Game → Game) : (s.onGame f).modes = s.modes := rfl
@[simp] theorem State.onGame_devices (f : Game → Game) : (s.onGame f).devices = s.devices := rfl
@[simp] theorem State.onGame_census (f : Game → Game) : (s.onGame f).census = s.census := rfl
@[simp] theorem State.onGame_game (f : Game → Game) : (s.onGame f).game = f s.game := rfl
@[simp] theorem State.onGame_link (f : Game → Game) : (s.onGame f).link = s.link := rfl
@[simp] theorem State.onGame_events (f : Game → Game) : (s.onGame f).events = s.events := rfl
@[simp] theorem State.onGame_time (f : Game → Game) : (s.onGame f).time = s.time := rfl
@[simp] theorem State.onGame_pending (f : Game → Game) : (s.onGame f).pending = s.pending := rfl

/-! ### onLink -/

@[simp] theorem State.onLink_scanner (f : Link → Link) : (s.onLink f).scanner = s.scanner := rfl
@[simp] theorem State.onLink_engine (f : Link → Link) : (s.onLink f).engine = s.engine := rfl
@[simp] theorem State.onLink_modes (f : Link → Link) : (s.onLink f).modes = s.modes := rfl
@[simp] theorem State.onLink_devices (f : Link → Link) : (s.onLink f).devices = s.devices := rfl
@[simp] theorem State.onLink_census (f : Link → Link) : (s.onLink f).census = s.census := rfl
@[simp] theorem State.onLink_game (f : Link → Link) : (s.onLink f).game = s.game := rfl
@[simp] theorem State.onLink_link (f : Link → Link) : (s.onLink f).link = f s.link := rfl
@[simp] theorem State.onLink_events (f : Link → Link) : (s.onLink f).events = s.events := rfl
@[simp] theorem State.onLink_time (f : Link → Link) : (s.onLink f).time = s.time := rfl
@[simp] theorem State.onLink_pending (f : Link → Link) : (s.onLink f).pending = s.pending := rfl

/-! ### at -/

@[simp] theorem State.at_scanner (t : Stamp) : (s.at t).scanner = s.scanner := rfl
@[simp] theorem State.at_engine (t : Stamp) : (s.at t).engine = s.engine := rfl
@[simp] theorem State.at_modes (t : Stamp) : (s.at t).modes = s.modes := rfl
@[simp] theorem State.at_devices (t : Stamp) : (s.at t).devices = s.devices := rfl
@[simp] theorem State.at_census (t : Stamp) : (s.at t).census = s.census := rfl
@[simp] theorem State.at_game (t : Stamp) : (s.at t).game = s.game := rfl
@[simp] theorem State.at_link (t : Stamp) : (s.at t).link = s.link := rfl
@[simp] theorem State.at_events (t : Stamp) : (s.at t).events = s.events := rfl
@[simp] theorem State.at_time (t : Stamp) : (s.at t).time = t := rfl
@[simp] theorem State.at_pending (t : Stamp) : (s.at t).pending = s.pending := rfl

/-! ### onSearch -/

@[simp] theorem State.onSearch_scanner (f : Search → Search) : (s.onSearch f).scanner = s.scanner := rfl
@[simp] theorem State.onSearch_engine (f : Search → Search) : (s.onSearch f).engine = s.engine := rfl
@[simp] theorem State.onSearch_modes (f : Search → Search) : (s.onSearch f).modes = s.modes := rfl
@[simp] theorem State.onSearch_devices (f : Search → Search) : (s.onSearch f).devices = s.devices := rfl
@[simp] theorem State.onSearch_census (f : Search → Search) : (s.onSearch f).census = s.census := rfl
@[simp] theorem State.onSearch_game (f : Search → Search) : (s.onSearch f).game = { s.game with search := f s.game.search } := rfl
@[simp] theorem State.onSearch_link (f : Search → Search) : (s.onSearch f).link = s.link := rfl
@[simp] theorem State.onSearch_events (f : Search → Search) : (s.onSearch f).events = s.events := rfl
@[simp] theorem State.onSearch_time (f : Search → Search) : (s.onSearch f).time = s.time := rfl
@[simp] theorem State.onSearch_pending (f : Search → Search) : (s.onSearch f).pending = s.pending := rfl

/-! ### atNow -/

@[simp] theorem State.atNow_scanner : (s.atNow).scanner = s.scanner := rfl
@[simp] theorem State.atNow_engine : (s.atNow).engine = s.engine := rfl
@[simp] theorem State.atNow_modes : (s.atNow).modes = s.modes := rfl
@[simp] theorem State.atNow_devices : (s.atNow).devices = s.devices := rfl
@[simp] theorem State.atNow_census : (s.atNow).census = s.census := rfl
@[simp] theorem State.atNow_game : (s.atNow).game = s.game := rfl
@[simp] theorem State.atNow_link : (s.atNow).link = s.link := rfl
@[simp] theorem State.atNow_events : (s.atNow).events = s.events := rfl
@[simp] theorem State.atNow_time : (s.atNow).time = s.scanner.now := rfl
@[simp] theorem State.atNow_pending : (s.atNow).pending = s.pending := rfl

/-! ### onSwitch -/

@[simp] theorem State.onSwitch_scanner (i : Nat) (f : Switch → Switch) :
    (s.onSwitch i f).scanner = { s.scanner with switches := writeTable s.scanner.switches i (f (s.switch i)) } := rfl
@[simp] theorem State.onSwitch_engine (i : Nat) (f : Switch → Switch) : (s.onSwitch i f).engine = s.engine := rfl
@[simp] theorem State.onSwitch_modes (i : Nat) (f : Switch → Switch) : (s.onSwitch i f).modes = s.modes := rfl
@[simp] theorem State.onSwitch_devices (i : Nat) (f : Switch → Switch) : (s.onSwitch i f).devices = s.devices := rfl
@[simp] theorem State.onSwitch_census (i : Nat) (f : Switch → Switch) : (s.onSwitch i f).census = s.census := rfl
@[simp] theorem State.onSwitch_game (i : Nat) (f : Switch → Switch) : (s.onSwitch i f).game = s.game := rfl
@[simp] theorem State.onSwitch_link (i : Nat) (f : Switch → Switch) : (s.onSwitch i f).link = s.link := rfl
@[simp] theorem State.onSwitch_events (i : Nat) (f : Switch → Switch) : (s.onSwitch i f).events = s.events := rfl
@[simp] theorem State.onSwitch_time (i : Nat) (f : Switch → Switch) : (s.onSwitch i f).time = s.time := rfl
@[simp] theorem State.onSwitch_pending (i : Nat) (f : Switch → Switch) : (s.onSwitch i f).pending = s.pending := rfl

/-! ### onDevice -/

@[simp] theorem State.onDevice_scanner (d : Nat) (f : Device → Device) : (s.onDevice d f).scanner = s.scanner := rfl
@[simp] theorem State.onDevice_engine (d : Nat) (f : Device → Device) : (s.onDevice d f).engine = s.engine := rfl
@[simp] theorem State.onDevice_modes (d : Nat) (f : Device → Device) : (s.onDevice d f).modes = s.modes := rfl
@[simp] theorem State.onDevice_devices (d : Nat) (f : Device → Device) :
    (s.onDevice d f).devices = { s.devices with units := writeTable s.devices.units d (f (s.device d)) } := rfl
@[simp] theorem State.onDevice_census (d : Nat) (f : Device → Device) : (s.onDevice d f).census = s.census := rfl
@[simp] theorem State.onDevice_game (d : Nat) (f : Device → Device) : (s.onDevice d f).game = s.game := rfl
@[simp] theorem State.onDevice_link (d : Nat) (f : Device → Device) : (s.onDevice d f).link = s.link := rfl
@[simp] theorem State.onDevice_events (d : Nat) (f : Device → Device) : (s.onDevice d f).events = s.events := rfl
@[simp] theorem State.onDevice_time (d : Nat) (f : Device → Device) : (s.onDevice d f).time = s.time := rfl
@[simp] theorem State.onDevice_pending (d : Nat) (f : Device → Device) : (s.onDevice d f).pending = s.pending := rfl

/-! ### setLocked -/

@[simp] theorem State.setLocked_scanner (d n : Nat) : (s.setLocked d n).scanner = s.scanner := rfl
@[simp] theorem State.setLocked_engine (d n : Nat) : (s.setLocked d n).engine = s.engine := rfl
@[simp] theorem State.setLocked_modes (d n : Nat) : (s.setLocked d n).modes = s.modes := rfl
@[simp] theorem State.setLocked_devices (d n : Nat) : (s.setLocked d n).devices = s.devices := rfl
@[simp] theorem State.setLocked_census (d n : Nat) :
    (s.setLocked d n).census = { s.census with locked := writeTable s.census.locked d n } := rfl
@[simp] theorem State.setLocked_game (d n : Nat) : (s.setLocked d n).game = s.game := rfl
@[simp] theorem State.setLocked_link (d n : Nat) : (s.setLocked d n).link = s.link := rfl
@[simp] theorem State.setLocked_events (d n : Nat) : (s.setLocked d n).events = s.events := rfl
@[simp] theorem State.setLocked_time (d n : Nat) : (s.setLocked d n).time = s.time := rfl
@[simp] theorem State.setLocked_pending (d n : Nat) : (s.setLocked d n).pending = s.pending := rfl

/-! ### setStack -/

@[simp] theorem State.setStack_scanner (l : List ModeInst) : (s.setStack l).scanner = s.scanner := rfl
@[simp] theorem State.setStack_engine (l : List ModeInst) : (s.setStack l).engine = s.engine := rfl
@[simp] theorem State.setStack_modes (l : List ModeInst) : (s.setStack l).modes = { s.modes with stack := l } := rfl
@[simp] theorem State.setStack_devices (l : List ModeInst) : (s.setStack l).devices = s.devices := rfl
@[simp] theorem State.setStack_census (l : List ModeInst) : (s.setStack l).census = s.census := rfl
@[simp] theorem State.setStack_game (l : List ModeInst) : (s.setStack l).game = s.game := rfl
@[simp] theorem State.setStack_link (l : List ModeInst) : (s.setStack l).link = s.link := rfl
@[simp] theorem State.setStack_events (l : List ModeInst) : (s.setStack l).events = s.events := rfl
@[simp] theorem State.setStack_time (l : List ModeInst) : (s.setStack l).time = s.time := rfl
@[simp] theorem State.setStack_pending (l : List ModeInst) : (s.setStack l).pending = s.pending := rfl

/-! ### emitFor -/

@[simp] theorem State.emitFor_scanner (p : Nat) (e : Event) (u a v : Nat) : (s.emitFor p e u a v).scanner = s.scanner := rfl
@[simp] theorem State.emitFor_engine (p : Nat) (e : Event) (u a v : Nat) : (s.emitFor p e u a v).engine = s.engine := rfl
@[simp] theorem State.emitFor_modes (p : Nat) (e : Event) (u a v : Nat) : (s.emitFor p e u a v).modes = s.modes := rfl
@[simp] theorem State.emitFor_devices (p : Nat) (e : Event) (u a v : Nat) : (s.emitFor p e u a v).devices = s.devices := rfl
@[simp] theorem State.emitFor_census (p : Nat) (e : Event) (u a v : Nat) : (s.emitFor p e u a v).census = s.census := rfl
@[simp] theorem State.emitFor_game (p : Nat) (e : Event) (u a v : Nat) : (s.emitFor p e u a v).game = s.game := rfl
@[simp] theorem State.emitFor_link (p : Nat) (e : Event) (u a v : Nat) : (s.emitFor p e u a v).link = s.link := rfl
@[simp] theorem State.emitFor_events (p : Nat) (e : Event) (u a v : Nat) :
    (s.emitFor p e u a v).events = appendEvent s.events ⟨e, p, u, s.time, a, v⟩ := rfl
@[simp] theorem State.emitFor_time (p : Nat) (e : Event) (u a v : Nat) : (s.emitFor p e u a v).time = s.time := rfl
@[simp] theorem State.emitFor_pending (p : Nat) (e : Event) (u a v : Nat) : (s.emitFor p e u a v).pending = s.pending := rfl

/-! ### emit -/

@[simp] theorem State.emit_scanner (e : Event) (u a v : Nat) : (s.emit e u a v).scanner = s.scanner := rfl
@[simp] theorem State.emit_engine (e : Event) (u a v : Nat) : (s.emit e u a v).engine = s.engine := rfl
@[simp] theorem State.emit_modes (e : Event) (u a v : Nat) : (s.emit e u a v).modes = s.modes := rfl
@[simp] theorem State.emit_devices (e : Event) (u a v : Nat) : (s.emit e u a v).devices = s.devices := rfl
@[simp] theorem State.emit_census (e : Event) (u a v : Nat) : (s.emit e u a v).census = s.census := rfl
@[simp] theorem State.emit_game (e : Event) (u a v : Nat) : (s.emit e u a v).game = s.game := rfl
@[simp] theorem State.emit_link (e : Event) (u a v : Nat) : (s.emit e u a v).link = s.link := rfl
@[simp] theorem State.emit_events (e : Event) (u a v : Nat) :
    (s.emit e u a v).events = appendEvent s.events ⟨e, s.game.current, u, s.time, a, v⟩ := rfl
@[simp] theorem State.emit_time (e : Event) (u a v : Nat) : (s.emit e u a v).time = s.time := rfl
@[simp] theorem State.emit_pending (e : Event) (u a v : Nat) : (s.emit e u a v).pending = s.pending := rfl

/-! ### reply -/

@[simp] theorem State.reply_scanner (r : Request) (a : Answer) : (s.reply r a).scanner = s.scanner := rfl
@[simp] theorem State.reply_engine (r : Request) (a : Answer) : (s.reply r a).engine = s.engine := rfl
@[simp] theorem State.reply_modes (r : Request) (a : Answer) : (s.reply r a).modes = s.modes := rfl
@[simp] theorem State.reply_devices (r : Request) (a : Answer) : (s.reply r a).devices = s.devices := rfl
@[simp] theorem State.reply_census (r : Request) (a : Answer) : (s.reply r a).census = s.census := rfl
@[simp] theorem State.reply_game (r : Request) (a : Answer) : (s.reply r a).game = s.game := rfl
@[simp] theorem State.reply_link (r : Request) (a : Answer) :
    (s.reply r a).link = { s.link with slots := answerSlot ⟨r.type, r.tag, a.bytes⟩ s.link.slots } := rfl
@[simp] theorem State.reply_events (r : Request) (a : Answer) : (s.reply r a).events = s.events := rfl
@[simp] theorem State.reply_time (r : Request) (a : Answer) : (s.reply r a).time = s.time := rfl
@[simp] theorem State.reply_pending (r : Request) (a : Answer) : (s.reply r a).pending = s.pending := rfl

/-! ### onPlayer and onCurrent -/

@[simp] theorem State.onPlayer_scanner (p : Nat) (f : Player → Player) : (s.onPlayer p f).scanner = s.scanner := by
  unfold State.onPlayer; split <;> rfl
@[simp] theorem State.onPlayer_engine (p : Nat) (f : Player → Player) : (s.onPlayer p f).engine = s.engine := by
  unfold State.onPlayer; split <;> rfl
@[simp] theorem State.onPlayer_modes (p : Nat) (f : Player → Player) : (s.onPlayer p f).modes = s.modes := by
  unfold State.onPlayer; split <;> rfl
@[simp] theorem State.onPlayer_devices (p : Nat) (f : Player → Player) : (s.onPlayer p f).devices = s.devices := by
  unfold State.onPlayer; split <;> rfl
@[simp] theorem State.onPlayer_census (p : Nat) (f : Player → Player) : (s.onPlayer p f).census = s.census := by
  unfold State.onPlayer; split <;> rfl
@[simp] theorem State.onPlayer_link (p : Nat) (f : Player → Player) : (s.onPlayer p f).link = s.link := by
  unfold State.onPlayer; split <;> rfl
@[simp] theorem State.onPlayer_events (p : Nat) (f : Player → Player) : (s.onPlayer p f).events = s.events := by
  unfold State.onPlayer; split <;> rfl
@[simp] theorem State.onPlayer_time (p : Nat) (f : Player → Player) : (s.onPlayer p f).time = s.time := by
  unfold State.onPlayer; split <;> rfl
@[simp] theorem State.onPlayer_pending (p : Nat) (f : Player → Player) : (s.onPlayer p f).pending = s.pending := by
  unfold State.onPlayer; split <;> rfl
@[simp] theorem State.onCurrent_scanner (f : Player → Player) : (s.onCurrent f).scanner = s.scanner := by
  simp [State.onCurrent]
@[simp] theorem State.onCurrent_engine (f : Player → Player) : (s.onCurrent f).engine = s.engine := by
  simp [State.onCurrent]
@[simp] theorem State.onCurrent_modes (f : Player → Player) : (s.onCurrent f).modes = s.modes := by
  simp [State.onCurrent]
@[simp] theorem State.onCurrent_devices (f : Player → Player) : (s.onCurrent f).devices = s.devices := by
  simp [State.onCurrent]
@[simp] theorem State.onCurrent_census (f : Player → Player) : (s.onCurrent f).census = s.census := by
  simp [State.onCurrent]
@[simp] theorem State.onCurrent_link (f : Player → Player) : (s.onCurrent f).link = s.link := by
  simp [State.onCurrent]
@[simp] theorem State.onCurrent_events (f : Player → Player) : (s.onCurrent f).events = s.events := by
  simp [State.onCurrent]
@[simp] theorem State.onCurrent_time (f : Player → Player) : (s.onCurrent f).time = s.time := by
  simp [State.onCurrent]
@[simp] theorem State.onCurrent_pending (f : Player → Player) : (s.onCurrent f).pending = s.pending := by
  simp [State.onCurrent]

/-- A player's record changes, and nothing else of the game. -/
theorem State.onPlayer_game (p : Nat) (f : Player → Player) :
    (s.onPlayer p f).game = if p = 0 then s.game else { s.game with players := s.game.players.modify (p - 1) f } := by
  unfold State.onPlayer; split <;> rfl

@[simp] theorem State.onPlayer_params (p : Nat) (f : Player → Player) : (s.onPlayer p f).game.params = s.game.params := by
  rw [State.onPlayer_game]; split <;> rfl
@[simp] theorem State.onPlayer_phase (p : Nat) (f : Player → Player) : (s.onPlayer p f).game.phase = s.game.phase := by
  rw [State.onPlayer_game]; split <;> rfl
@[simp] theorem State.onPlayer_current (p : Nat) (f : Player → Player) : (s.onPlayer p f).game.current = s.game.current := by
  rw [State.onPlayer_game]; split <;> rfl
@[simp] theorem State.onPlayer_ballNumber (p : Nat) (f : Player → Player) :
    (s.onPlayer p f).game.ballNumber = s.game.ballNumber := by
  rw [State.onPlayer_game]; split <;> rfl
@[simp] theorem State.onPlayer_search (p : Nat) (f : Player → Player) : (s.onPlayer p f).game.search = s.game.search := by
  rw [State.onPlayer_game]; split <;> rfl
@[simp] theorem State.onPlayer_lastTilt (p : Nat) (f : Player → Player) :
    (s.onPlayer p f).game.lastTilt = s.game.lastTilt := by
  rw [State.onPlayer_game]; split <;> rfl
@[simp] theorem State.onCurrent_params (f : Player → Player) : (s.onCurrent f).game.params = s.game.params := by
  simp [State.onCurrent]
@[simp] theorem State.onCurrent_phase (f : Player → Player) : (s.onCurrent f).game.phase = s.game.phase := by
  simp [State.onCurrent]
@[simp] theorem State.onCurrent_current (f : Player → Player) : (s.onCurrent f).game.current = s.game.current := by
  simp [State.onCurrent]
@[simp] theorem State.onCurrent_ballNumber (f : Player → Player) :
    (s.onCurrent f).game.ballNumber = s.game.ballNumber := by
  simp [State.onCurrent]
@[simp] theorem State.onCurrent_search (f : Player → Player) : (s.onCurrent f).game.search = s.game.search := by
  simp [State.onCurrent]
@[simp] theorem State.onCurrent_lastTilt (f : Player → Player) : (s.onCurrent f).game.lastTilt = s.game.lastTilt := by
  simp [State.onCurrent]

/-- Writing a player's record does not change how many there are. -/
@[simp] theorem State.onPlayer_count (p : Nat) (f : Player → Player) :
    (s.onPlayer p f).game.players.length = s.game.players.length := by
  rw [State.onPlayer_game]; split <;> simp

/-! ### Tables -/

section tables

variable {α β : Type} {n : Nat}

/-- Reading a table after a write: the value written at its own index, the old one elsewhere. -/
theorem readTable_writeTable (t : Vector α n) (d x : α) (i j : Nat) :
    readTable (writeTable t i x) d j = if i = j ∧ i < n then x else readTable t d j := by
  simp only [readTable, writeTable, Vector.getElem?_setIfInBounds]
  by_cases h : i = j
  · subst h
    by_cases hn : i < n <;> simp [hn]
  · simp [h]

@[simp] theorem readTable_writeTable_self (t : Vector α n) (d x : α) (i : Nat) (h : i < n) :
    readTable (writeTable t i x) d i = x := by
  simp [readTable_writeTable, h]

@[simp] theorem readTable_writeTable_ne (t : Vector α n) (d x : α) (i j : Nat) (h : i ≠ j) :
    readTable (writeTable t i x) d j = readTable t d j := by
  simp [readTable_writeTable, h]

/-- Reading a mapped table inside its bounds. -/
theorem readTable_mapTable (t : Vector α n) (f : Nat → α → β) (d : α) (e : β) (i : Nat) (h : i < n) :
    readTable (mapTable t f) e i = f i (readTable t d i) := by
  simp [readTable, mapTable, h]

/-- Reading past the end of a table. -/
theorem readTable_of_le (t : Vector α n) (d : α) (i : Nat) (h : n ≤ i) : readTable t d i = d := by
  simp [readTable, h]

/-- A function applied any number of times keeps what it keeps once. -/
theorem repeated_keeps {p : α → Prop} (f : α → α) (hf : ∀ x, p x → p (f x)) (k : Nat) (x : α) (h : p x) :
    p (repeated f k x) := by
  induction k generalizing x with
  | zero => exact h
  | succ k ih => exact ih _ (hf x h)

/-- A fold keeps what each of its steps keeps. -/
theorem foldl_keeps {p : β → Prop} (f : β → α → β) (hf : ∀ x a, p x → p (f x a)) (l : List α) (x : β) (h : p x) :
    p (l.foldl f x) := by
  induction l generalizing x with
  | nil => exact h
  | cons a l ih => exact ih _ (hf x a h)

end tables

/-! ### Devices, switches and locks through their updates -/

/-- Device `e` after an update of device `d`. -/
theorem State.onDevice_device (d e : Nat) (f : Device → Device) :
    (s.onDevice d f).device e = if d = e ∧ d < Config.deviceCount then f (s.device d) else s.device e := by
  simp [State.device, State.onDevice, readTable_writeTable]

@[simp] theorem State.onDevice_self (d : Nat) (f : Device → Device) (h : d < Config.deviceCount) :
    (s.onDevice d f).device d = f (s.device d) := by
  simp [State.onDevice_device, h]

@[simp] theorem State.onDevice_other (d e : Nat) (f : Device → Device) (h : d ≠ e) :
    (s.onDevice d f).device e = s.device e := by
  simp [State.onDevice_device, h]

/-- Switch `j` after an update of switch `i`. -/
theorem State.onSwitch_switch (i j : Nat) (f : Switch → Switch) :
    (s.onSwitch i f).switch j = if i = j ∧ i < Config.switchCount then f (s.switch i) else s.switch j := by
  simp [State.switch, State.onSwitch, readTable_writeTable]

/-- The locked count of device `e` after that of device `d` is set. -/
theorem State.setLocked_locked (d e n : Nat) :
    (s.setLocked d n).locked e = if d = e ∧ d < Config.deviceCount then n else s.locked e := by
  simp [State.locked, State.setLocked, readTable_writeTable]

end Sys2Proof.Machine
end

