-- ==== Sys2Proof/Laws/Frame.lean ====
section
/-! SUPPORT. The frame of the part's inner work: what no walk, eject cycle, census step or phase change touches. One lemma for each
operation says that it keeps the frame. -/

namespace Sys2Proof.Machine

set_option Elab.async false

open Sys2Proof

/-- What the inner work of the part leaves alone: the link, the waiting commands, the sampled switches, the configuration as loaded,
and the work that has paused. -/
structure Frame where
  link : Link
  pending : List Instr
  now : Stamp
  started : Bool
  waiting : List Transition
  groups : Vector Group Config.groupCount
  switches : Vector (SwitchRecord × Bool × Bool × Nat) Config.switchCount
  params : Params
  awards : Vector AwardEntry Config.awardCount
  modeDefs : Vector ModeDef Config.modeCount
  multiballDefs : Vector MultiballDef Config.multiballCount
  records : Vector DeviceRecord Config.deviceCount
  lastTenth : Stamp
  censusTenth : Stamp
  paused : Option PausedWork

/-- The part of a switch that only scans and loads change: all but its latch. -/
def Switch.sampled (w : Switch) : SwitchRecord × Bool × Bool × Nat := (w.record, w.raw, w.debounced, w.count)

/-- The frame of a state. -/
def State.frame (s : State) : Frame where
  link := s.link
  pending := s.pending
  now := s.scanner.now
  started := s.scanner.started
  waiting := s.scanner.waiting
  groups := s.scanner.groups
  switches := mapTable s.scanner.switches fun _ w => w.sampled
  params := s.game.params
  awards := s.engine.awards
  modeDefs := s.modes.defs
  multiballDefs := s.census.defs
  records := mapTable s.devices.units fun _ v => v.record
  lastTenth := s.modes.lastTenth
  censusTenth := s.census.lastTenth
  paused := s.engine.paused

/-- A table reads the same through `g` when the one entry written reads the same. -/
theorem mapTable_writeTable {α β : Type} {n : Nat} (t : Vector α n) (g : α → β) (d x : α) (i : Nat)
    (h : g x = g (readTable t d i)) :
    mapTable (writeTable t i x) (fun _ y => g y) = mapTable t fun _ y => g y := by
  ext j hj
  simp only [mapTable, writeTable, Vector.getElem_ofFn, Fin.getElem_fin, Vector.getElem_setIfInBounds]
  by_cases hij : i = j
  · subst hij; simp [h, readTable, hj]
  · simp [hij]

/-- A mapped table reads the same through `g` when every entry does. -/
theorem mapTable_mapTable {α β : Type} {n : Nat} (t : Vector α n) (f : Nat → α → α) (g : α → β)
    (h : ∀ i x, g (f i x) = g x) : mapTable (mapTable t f) (fun _ y => g y) = mapTable t fun _ y => g y := by
  ext j hj
  simp [mapTable, h]

variable (s : State)

@[simp] theorem State.at_frame (t : Stamp) : (s.at t).frame = s.frame := rfl
@[simp] theorem State.atNow_frame : s.atNow.frame = s.frame := rfl
@[simp] theorem State.onSearch_frame (f : Search → Search) : (s.onSearch f).frame = s.frame := rfl
@[simp] theorem State.setLocked_frame (d n : Nat) : (s.setLocked d n).frame = s.frame := rfl
@[simp] theorem State.setStack_frame (l : List ModeInst) : (s.setStack l).frame = s.frame := rfl
@[simp] theorem State.emitFor_frame (p : Nat) (e : Event) (u a v : Nat) : (s.emitFor p e u a v).frame = s.frame := rfl
@[simp] theorem State.emit_frame (e : Event) (u a v : Nat) : (s.emit e u a v).frame = s.frame := rfl

@[simp] theorem State.onDevice_frame (d : Nat) (f : Device → Device) (h : ∀ v, (f v).record = v.record) :
    (s.onDevice d f).frame = s.frame := by
  have e := mapTable_writeTable s.devices.units Device.record .reset (f (s.device d)) d (h _)
  simp only [State.frame, State.onDevice_scanner, State.onDevice_engine, State.onDevice_modes, State.onDevice_census,
    State.onDevice_game, State.onDevice_link, State.onDevice_pending, State.onDevice_devices, e]

@[simp] theorem State.onSwitch_frame (i : Nat) (f : Switch → Switch) (h : ∀ w, (f w).sampled = w.sampled) :
    (s.onSwitch i f).frame = s.frame := by
  have e := mapTable_writeTable s.scanner.switches Switch.sampled .reset (f (s.switch i)) i (h _)
  simp only [State.frame, State.onSwitch_scanner, State.onSwitch_engine, State.onSwitch_modes, State.onSwitch_census,
    State.onSwitch_game, State.onSwitch_link, State.onSwitch_pending, State.onSwitch_devices, e]

@[simp] theorem State.onDevices_frame (f : Devices → Devices) (h : ∀ c, (f c).units = c.units) :
    (s.onDevices f).frame = s.frame := by
  simp [State.frame, State.onDevices, h]

@[simp] theorem State.onCensus_frame (f : Census → Census) (h : ∀ c, (f c).defs = c.defs)
    (h' : ∀ c, (f c).lastTenth = c.lastTenth) : (s.onCensus f).frame = s.frame := by
  simp [State.frame, State.onCensus, h, h']

@[simp] theorem State.onGame_frame (f : Game → Game) (h : ∀ g, (f g).params = g.params) :
    (s.onGame f).frame = s.frame := by
  simp [State.frame, State.onGame, h]

@[simp] theorem State.onEngine_frame (f : Engine → Engine) (h : ∀ c, (f c).awards = c.awards)
    (h' : ∀ c, (f c).paused = c.paused) : (s.onEngine f).frame = s.frame := by
  simp [State.frame, State.onEngine, h, h']

@[simp] theorem State.onModes_frame (f : Modes → Modes) (h : ∀ c, (f c).defs = c.defs)
    (h' : ∀ c, (f c).lastTenth = c.lastTenth) : (s.onModes f).frame = s.frame := by
  simp [State.frame, State.onModes, h, h']

@[simp] theorem State.onPlayer_frame (p : Nat) (f : Player → Player) : (s.onPlayer p f).frame = s.frame := by
  unfold State.onPlayer; split <;> simp

@[simp] theorem State.onCurrent_frame (f : Player → Player) : (s.onCurrent f).frame = s.frame := by
  simp [State.onCurrent]

theorem repeated_frame (f : State → State) (hf : ∀ x, (f x).frame = x.frame) (k : Nat) :
    (repeated f k s).frame = s.frame :=
  repeated_keeps (p := fun x => x.frame = s.frame) f (fun x h => (hf x).trans h) k s rfl

theorem foldl_frame {α : Type} (f : State → α → State) (hf : ∀ x a, (f x a).frame = x.frame) (l : List α) :
    (l.foldl f s).frame = s.frame :=
  foldl_keeps (p := fun x => x.frame = s.frame) f (fun x a h => (hf x a).trans h) l s rfl

/-! ### Orders -/

@[simp] theorem State.leaveLine_frame (d : Nat) : (s.leaveLine d).frame = s.frame := by
  simp [State.leaveLine]
@[simp] theorem State.joinLine_frame (d : Nat) : (s.joinLine d).frame = s.frame := by
  unfold State.joinLine; (repeat' split) <;> simp
@[simp] theorem State.enterEjectWait_frame (d : Nat) : (s.enterEjectWait d).frame = s.frame := by
  unfold State.enterEjectWait; dsimp only; split <;> simp
@[simp] theorem State.followInterlock_frame : (s.followInterlock).frame = s.frame := by
  unfold State.followInterlock; (repeat' split) <;> simp
@[simp] theorem State.dropSearch_frame (d : Nat) : (s.dropSearch d).frame = s.frame := by
  unfold State.dropSearch; (repeat' split) <;> simp
@[simp] theorem State.dropSearches_frame : (s.dropSearches).frame = s.frame := by
  simp [State.dropSearches, foldl_frame _ State.dropSearch State.dropSearch_frame]
@[simp] theorem State.searchNext_frame : (s.searchNext).frame = s.frame := by
  unfold State.searchNext; (repeat' split) <;> simp
@[simp] theorem State.queueOrder_frame (d : Nat) (r : Reason) (l : Bool) : (s.queueOrder d r l).frame = s.frame := by
  unfold State.queueOrder; dsimp only; (repeat' split) <;> simp
@[simp] theorem State.launchTest_frame : (s.launchTest).frame = s.frame := by
  unfold State.launchTest; (repeat' split) <;> simp
@[simp] theorem State.recoverDevice_frame (d : Nat) : (s.recoverDevice d).frame = s.frame := by
  unfold State.recoverDevice; split
  · exact repeated_frame s _ (fun x => by simp) _
  · rfl
@[simp] theorem State.recover_frame : (s.recover).frame = s.frame := by
  unfold State.recover; split
  · exact foldl_frame s _ (fun x d => by simp) _
  · rfl
@[simp] theorem State.settleDevices_frame : (s.settleDevices).frame = s.frame := by
  simp [State.settleDevices]
@[simp] theorem State.searchOff_frame : (s.searchOff).frame = s.frame := by
  simp [State.searchOff]
@[simp] theorem State.searchWait_frame : (s.searchWait).frame = s.frame := by
  simp [State.searchWait]
@[simp] theorem State.toPhase_frame (p : Phase) : (s.toPhase p).frame = s.frame := by
  unfold State.toPhase; dsimp only; (repeat' split) <;> simp
@[simp] theorem State.searchEnd_frame (c : Nat) : (s.searchEnd c).frame = s.frame := by
  simp [State.searchEnd]

/-! ### Score and modes -/

@[simp] theorem State.replays_frame (b a : Nat) (l : List Nat) (i : Nat) : (s.replays b a l i).frame = s.frame := by
  induction l generalizing s i with
  | nil => simp [State.replays]
  | cons t l ih => simp only [State.replays]; (repeat' split) <;> simp [ih]
@[simp] theorem State.addPoints_frame (p : Nat) : (s.addPoints p).frame = s.frame := by
  unfold State.addPoints; dsimp only; split <;> simp
@[simp] theorem State.award1_frame (b : Nat) (c : Classes) : (s.award1 b c).frame = s.frame := by
  simp [State.award1]
@[simp] theorem State.awardReported_frame (e : Event) (u b : Nat) (c : Classes) : (s.awardReported e u b c).frame = s.frame := by
  simp [State.awardReported]
@[simp] theorem State.lawEvents_frame (l : List ModeInst) : (s.lawEvents l).frame = s.frame := by
  exact foldl_frame s _ (fun x i => by split <;> simp) l
@[simp] theorem State.applyLaw_frame : (s.applyLaw).frame = s.frame := by
  simp [State.applyLaw]
@[simp] theorem State.endInstances_frame (p : ModeInst → Bool) (r : Nat) : (s.endInstances p r).frame = s.frame := by
  simp only [State.endInstances, State.setStack_frame]
  exact foldl_frame s _ (fun x i => by simp) _
@[simp] theorem State.modeStart_frame (m : Nat) : (s.modeStart m).1.frame = s.frame := by
  unfold State.modeStart; dsimp only; (repeat' split) <;> simp
@[simp] theorem State.modeStop_frame (m : Nat) : (s.modeStop m).1.frame = s.frame := by
  unfold State.modeStop; split <;> simp
@[simp] theorem State.appendTrigger_frame (t : Nat) : (s.appendTrigger t).frame = s.frame := by
  unfold State.appendTrigger; (repeat' split) <;> simp
@[simp] theorem State.modeComplete_frame (m : Nat) : (s.modeComplete m).frame = s.frame := by
  simp [State.modeComplete]
@[simp] theorem State.modeProgress_frame (m : Nat) : (s.modeProgress m).1.frame = s.frame := by
  unfold State.modeProgress; dsimp only; (repeat' split) <;> simp
@[simp] theorem State.countDown_frame : (s.countDown).frame = s.frame := by
  simp [State.countDown]
@[simp] theorem State.modeTimeouts_frame : (s.modeTimeouts).frame = s.frame := by
  unfold State.modeTimeouts; (repeat' split) <;> simp
@[simp] theorem State.modesMultiballEnd_frame : (s.modesMultiballEnd).frame = s.frame := by
  unfold State.modesMultiballEnd; (repeat' split) <;> simp
@[simp] theorem State.saveInstances_frame (l : List ModeInst) : (s.saveInstances l).frame = s.frame := by
  induction l generalizing s with
  | nil => rfl
  | cons i l ih => simp only [State.saveInstances]; split <;> simp [ih]
@[simp] theorem State.modesBallEnd_frame : (s.modesBallEnd).frame = s.frame := by
  unfold State.modesBallEnd; dsimp only; split <;> simp
@[simp] theorem State.restoreOne_frame (v : SavedMode) : (s.restoreOne v).frame = s.frame := by
  simp [State.restoreOne]
@[simp] theorem State.modesRestore_frame : (s.modesRestore).frame = s.frame := by
  simp only [State.modesRestore]
  rw [foldl_frame _ _ (fun x i => by simp)]
  simp [foldl_frame s _ State.restoreOne_frame]
@[simp] theorem State.modesGameEnd_frame : (s.modesGameEnd).frame = s.frame := by
  simp [State.modesGameEnd]

/-! ### Census -/

@[simp] theorem State.findByCount_frame (u : Option Nat) (k : Nat) : (s.findByCount u k).frame = s.frame := by
  induction k generalizing s with
  | zero => rfl
  | succ k ih => simp [State.findByCount, ih]
@[simp] theorem State.recompute_frame (u : Option Nat) : (s.recompute u).frame = s.frame := by
  unfold State.recompute; dsimp only; (repeat' split) <;> simp
@[simp] theorem State.lockedLost_frame (d : Nat) : (s.lockedLost d).frame = s.frame := by
  unfold State.lockedLost; dsimp only; split <;> simp
@[simp] theorem State.playfieldActivity_frame : (s.playfieldActivity).frame = s.frame := by
  unfold State.playfieldActivity; dsimp only; split
  · simp only [State.searchEnd_frame]; rfl
  · rfl
@[simp] theorem State.countActivity_frame : (s.countActivity).frame = s.frame := by
  unfold State.countActivity; (repeat' split) <;> simp
@[simp] theorem State.settleAt_frame (d n : Nat) : (s.settleAt d n).frame = s.frame := by
  unfold State.settleAt; dsimp only; (repeat' split) <;> simp
@[simp] theorem State.saveEnd_frame (c : Nat) : (s.saveEnd c).frame = s.frame := by
  unfold State.saveEnd; (repeat' split) <;> simp
@[simp] theorem State.saveCountDown_frame : (s.saveCountDown).frame = s.frame := by
  simp [State.saveCountDown]
@[simp] theorem State.saveExpiry_frame : (s.saveExpiry).frame = s.frame := by
  unfold State.saveExpiry; (repeat' split) <;> simp
@[simp] theorem State.serveToPlay_frame : (s.serveToPlay).frame = s.frame := by
  unfold State.serveToPlay; (repeat' split) <;> simp
@[simp] theorem State.foundByClosure_frame (i : Nat) : (s.foundByClosure i).frame = s.frame := by
  unfold State.foundByClosure; dsimp only; split <;> simp
@[simp] theorem State.validate_frame (i : Nat) : (s.validate i).frame = s.frame := by
  unfold State.validate; dsimp only; (repeat' split) <;> simp
@[simp] theorem State.offerClosure_frame (i : Nat) : (s.offerClosure i).frame = s.frame := by
  simp [State.offerClosure]
@[simp] theorem State.launchServe_frame : (s.launchServe).frame = s.frame := by
  simp [State.launchServe]
@[simp] theorem State.releaseFrom_frame (k w : Nat) : (s.releaseFrom k w).1.frame = s.frame := by
  exact repeated_frame s _ (fun x => by simp) _
@[simp] theorem State.releaseLocked_frame (w : Nat) (l : List Nat) : (s.releaseLocked w l).1.frame = s.frame := by
  induction l generalizing s w with
  | nil => rfl
  | cons k l ih => simp [State.releaseLocked, ih]
@[simp] theorem State.serveFromTrough_frame (w : Nat) : (s.serveFromTrough w).1.frame = s.frame := by
  induction w generalizing s with
  | zero => rfl
  | succ w ih => simp only [State.serveFromTrough]; split <;> simp [ih]
@[simp] theorem State.servingProcedure_frame (w : Nat) (b : Bool) : (s.servingProcedure w b).1.frame = s.frame := by
  unfold State.servingProcedure; dsimp only; split <;> simp
@[simp] theorem State.multiballServe_frame (k : Nat) : (s.multiballServe k).1.frame = s.frame := by
  unfold State.multiballServe; dsimp only; split <;> simp
@[simp] theorem State.multiballRise_frame : (s.multiballRise).frame = s.frame := by
  unfold State.multiballRise; (repeat' split) <;> simp
@[simp] theorem State.startModeOf_frame (k : Nat) : (s.startModeOf k).frame = s.frame := by
  unfold State.startModeOf; (repeat' split) <;> simp
@[simp] theorem State.multiballStart_frame (k : Nat) : (s.multiballStart k).frame = s.frame := by
  unfold State.multiballStart; dsimp only; split <;> simp
@[simp] theorem State.multiballStack_frame (k : Nat) : (s.multiballStack k).frame = s.frame := by
  simp [State.multiballStack]
@[simp] theorem State.mbStart_frame (k : Nat) : (s.mbStart k).frame = s.frame := by
  unfold State.mbStart; (repeat' split) <;> simp
@[simp] theorem State.addBall_frame : (s.addBall).frame = s.frame := by
  unfold State.addBall; (repeat' split) <;> simp
@[simp] theorem State.multiballEnd_frame : (s.multiballEnd).frame = s.frame := by
  unfold State.multiballEnd; dsimp only; (repeat' split) <;> simp
@[simp] theorem State.multiballFall_frame : (s.multiballFall).frame = s.frame := by
  unfold State.multiballFall; (repeat' split) <;> simp
@[simp] theorem State.ballEnd_frame : (s.ballEnd).frame = s.frame := by
  simp [State.ballEnd]
@[simp] theorem State.ballEndTest_frame : (s.ballEndTest).frame = s.frame := by
  unfold State.ballEndTest; (repeat' split) <;> simp
@[simp] theorem State.ballLost_frame : (s.ballLost).frame = s.frame := by
  simp [State.ballLost]
@[simp] theorem State.replaceMissing_frame (n : Nat) : (s.replaceMissing n).frame = s.frame := by
  simp [State.replaceMissing]
@[simp] theorem State.declareMissing_frame : (s.declareMissing).frame = s.frame := by
  unfold State.declareMissing; dsimp only; (repeat' split) <;> simp
@[simp] theorem State.saveDrain_frame (r : BallSave) : (s.saveDrain r).frame = s.frame := by
  unfold State.saveDrain; dsimp only; split <;> simp
@[simp] theorem State.lostDrain_frame : (s.lostDrain).frame = s.frame := by
  simp [State.lostDrain]
@[simp] theorem State.drain_frame : (s.drain).frame = s.frame := by
  unfold State.drain; dsimp only; (repeat' split) <;> simp
@[simp] theorem State.returnBall_frame (d : Nat) : (s.returnBall d).frame = s.frame := by
  simp [State.returnBall]
@[simp] theorem State.makeLock_frame (d : Nat) : (s.makeLock d).frame = s.frame := by
  unfold State.makeLock; dsimp only; (repeat' split) <;> simp
@[simp] theorem State.lockDecision_frame (d : Nat) : (s.lockDecision d).frame = s.frame := by
  unfold State.lockDecision; (repeat' split) <;> simp
@[simp] theorem State.censusArrival_frame (d : Nat) : (s.censusArrival d).frame = s.frame := by
  unfold State.censusArrival; (repeat' split) <;> simp

/-! ### Eject cycles -/

@[simp] theorem State.restartSettle_frame (d : Nat) : (s.restartSettle d).frame = s.frame := by
  simp [State.restartSettle]
@[simp] theorem State.dueArrivals_frame (d k : Nat) : (s.dueArrivals d k).frame = s.frame := by
  simp [State.dueArrivals]
@[simp] theorem State.complete_frame (d : Nat) (p : Bool) (k : Nat) : (s.complete d p k).frame = s.frame := by
  unfold State.complete; dsimp only; (repeat' split) <;> simp
@[simp] theorem State.confirm_frame (d : Nat) : (s.confirm d).frame = s.frame := by
  simp [State.confirm]
@[simp] theorem State.completeFallen_frame (d : Nat) : (s.completeFallen d).frame = s.frame := by
  simp [State.completeFallen]
@[simp] theorem State.faultSelf_frame (d : Nat) : (s.faultSelf d).frame = s.frame := by
  simp [State.faultSelf]
@[simp] theorem State.attemptFailed_frame (d : Nat) : (s.attemptFailed d).frame = s.frame := by
  unfold State.attemptFailed; dsimp only; split <;> simp
@[simp] theorem State.success_frame (d : Nat) : (s.success d).frame = s.frame := by
  unfold State.success; dsimp only; (repeat' split) <;> simp
@[simp] theorem State.reactCount_frame (d : Nat) : (s.reactCount d).frame = s.frame := by
  unfold State.reactCount; dsimp only; (repeat' split) <;> simp
@[simp] theorem State.settleOut_frame (d : Nat) : (s.settleOut d).frame = s.frame := by
  unfold State.settleOut; dsimp only; (repeat' split) <;> simp
@[simp] theorem State.countEntry_frame (d : Nat) : (s.countEntry d).frame = s.frame := by
  simp [State.countEntry]
@[simp] theorem State.entryClosure_frame (d : Nat) : (s.entryClosure d).frame = s.frame := by
  unfold State.entryClosure; dsimp only; (repeat' split) <;> simp
@[simp] theorem State.exitClosure_frame (d : Nat) : (s.exitClosure d).frame = s.frame := by
  unfold State.exitClosure; dsimp only; (repeat' split) <;> simp
@[simp] theorem State.deviceEvidence_frame (i d : Nat) : (State.deviceEvidence i s d).frame = s.frame := by
  unfold State.deviceEvidence; dsimp only; (repeat' split) <;> simp
@[simp] theorem State.handToDevices_frame (i : Nat) : (s.handToDevices i).frame = s.frame := by
  simp [State.handToDevices, foldl_frame s _ (fun x d => State.deviceEvidence_frame x i d)]
@[simp] theorem State.positionTransition_frame (i : Nat) (c : Bool) : (s.positionTransition i c).frame = s.frame := by
  unfold State.positionTransition; dsimp only; split <;> simp [foldl_frame s _ State.restartSettle_frame]
@[simp] theorem State.grant_frame (d : Nat) : (s.grant d).frame = s.frame := by
  unfold State.grant; dsimp only; split <;> simp
@[simp] theorem State.arbiterGrant_frame : (s.arbiterGrant).frame = s.frame := by
  unfold State.arbiterGrant; (repeat' split) <;> simp
@[simp] theorem State.endPulse_frame (d : Nat) : (s.endPulse d).frame = s.frame := by
  unfold State.endPulse; dsimp only; (repeat' split) <;> simp
@[simp] theorem State.endWindow_frame (d : Nat) : (s.endWindow d).frame = s.frame := by
  unfold State.endWindow; dsimp only; split <;> simp
@[simp] theorem State.endSearchWindow_frame (d : Nat) : (s.endSearchWindow d).frame = s.frame := by
  simp [State.endSearchWindow]
@[simp] theorem State.cutPulses_frame : (s.cutPulses).frame = s.frame := by
  simp only [State.cutPulses, State.settleDevices_frame]
  exact foldl_frame s _ State.endPulse_frame _
@[simp] theorem State.clearDevices_frame (f : Nat → Device → Device) (h : ∀ d v, (f d v).record = v.record) :
    (s.clearDevices f).frame = s.frame := by
  have e := mapTable_mapTable s.devices.units f Device.record h
  simp [State.frame, State.clearDevices, e]
@[simp] theorem State.cancelDevices_frame : (s.cancelDevices).frame = s.frame := by
  simp [State.cancelDevices, Device.cleared]

/-! ### Walks, roots and arrivals -/

/-- A switch table keeps what the frame reads when only latches change. -/
theorem State.mapSwitches_frame (f : Nat → Switch → Switch) (h : ∀ i w, (f i w).sampled = w.sampled) :
    (s.onScanner fun c => { c with switches := mapTable c.switches f }).frame = s.frame := by
  have e := mapTable_mapTable s.scanner.switches f Switch.sampled h
  simp [State.frame, e]
@[simp] theorem State.clearLatches_frame (l : List Nat) : (s.clearLatches l).frame = s.frame := by
  exact s.mapSwitches_frame _ (fun i w => by split <;> rfl)
@[simp] theorem State.clearAllLatches_frame : (s.clearAllLatches).frame = s.frame := by
  exact s.mapSwitches_frame _ (fun i w => rfl)
@[simp] theorem State.act_frame (a : Action) : (s.act a).frame = s.frame := by
  unfold State.act; dsimp only; split <;> simp
@[simp] theorem State.matchPoints_frame (i : Nat) (e : AwardEntry) : (s.matchPoints i e).frame = s.frame := by
  unfold State.matchPoints; (repeat' split) <;> simp
@[simp] theorem State.carryOut_frame (i : Nat) (e : AwardEntry) : (s.carryOut i e).frame = s.frame := by
  simp [State.carryOut, foldl_frame _ _ State.act_frame]
@[simp] theorem State.walkChain_frame (g : Edge) (l : List Nat) : (s.walkChain g l).frame = s.frame := by
  induction l generalizing s with
  | nil => rfl
  | cons i l ih => simp only [State.walkChain]; (repeat' split) <;> simp [ih]
@[simp] theorem State.walk_frame (t : Nat) (g : Edge) : (s.walk t g).frame = s.frame := by
  simp [State.walk]
@[simp] theorem State.afterWalk_frame : (s.afterWalk).frame = s.frame := by
  unfold State.afterWalk; (repeat' split) <;> simp
@[simp] theorem State.pendingWalk_frame : (s.pendingWalk).frame = s.frame := by
  unfold State.pendingWalk; (repeat' split) <;> simp
@[simp] theorem State.finishRoot_frame : (s.finishRoot).frame = s.frame := by
  exact repeated_frame s _ State.pendingWalk_frame _
@[simp] theorem State.directWalk_frame (t : Nat) (g : Edge) (b : Bool) : (s.directWalk t g b).frame = s.frame := by
  unfold State.directWalk; dsimp only; (repeat' split) <;> simp
@[simp] theorem State.rootFromList_frame (b : Bool) : (s.rootFromList b).frame = s.frame := by
  unfold State.rootFromList; dsimp only; (repeat' split) <;> simp
@[simp] theorem State.takeArrival_frame (d : Nat) (b : Bool) : (s.takeArrival d b).frame = s.frame := by
  unfold State.takeArrival; dsimp only; (repeat' split) <;> simp
@[simp] theorem State.takeArrivals_frame (d : Nat) : (s.takeArrivals d).frame = s.frame := by
  exact repeated_frame s _ (fun x => by simp) _

/-! ### Work that pauses: it writes the mark of its pause, and at the end of a request in hand the reply -/

/-- Within the frame `t` differs from `s` in the work that has paused at most. -/
abbrev State.FrameButPaused (s t : State) : Prop := t.frame = { s.frame with paused := t.engine.paused }

/-- Within the frame `t` differs from `s` in the work that has paused and the link at most. -/
abbrev State.FrameButWork (s t : State) : Prop := t.frame = { s.frame with link := t.link, paused := t.engine.paused }

variable {s} in
/-- An equal frame has an equal link. -/
theorem State.link_of_frame {t : State} (h : t.frame = s.frame) : t.link = s.link := congrArg Frame.link h

variable {s} in
/-- Both changes of the frame are seen through a second change that keeps it. -/
theorem State.FrameButWork.trans {t u : State} (h : s.FrameButWork t) (h' : t.FrameButWork u) : s.FrameButWork u := by
  rw [State.FrameButWork, h', h]

variable {s} in
theorem State.FrameButPaused.trans {t u : State} (h : s.FrameButPaused t) (h' : t.FrameButPaused u) :
    s.FrameButPaused u := by
  rw [State.FrameButPaused, h', h]

variable {s} in
/-- An equal frame has the work that has paused the same too. -/
theorem State.FrameButPaused.of_frame {t : State} (h : t.frame = s.frame) : s.FrameButPaused t := by
  have e : t.engine.paused = s.engine.paused := congrArg Frame.paused h
  rw [State.FrameButPaused, h, e]; rfl

variable {s} in
/-- Where at most the work that has paused differs, the link is the same. -/
theorem State.FrameButPaused.butWork {t : State} (h : s.FrameButPaused t) : s.FrameButWork t := by
  have e : t.link = s.link := congrArg Frame.link (show t.frame = _ from h)
  rw [State.FrameButWork, h, e]; rfl

/-- To write the work that has paused is all that it says. -/
theorem State.onPaused_frame (w : Option PausedWork) :
    s.FrameButPaused (s.onEngine fun c => { c with paused := w }) := rfl

theorem State.arrivalsWithin_frame (b : Bool) (w : PausedWork) (d : Nat) : s.FrameButPaused (s.arrivalsWithin b w d) := by
  unfold State.arrivalsWithin; split
  · exact .trans (.of_frame (by simp)) (State.onPaused_frame _ _)
  · exact .of_frame (by simp)
theorem State.evidenceThenArrivals_frame (b : Bool) (t : Transition) (d : Nat) :
    s.FrameButPaused (s.evidenceThenArrivals b t d) := by
  unfold State.evidenceThenArrivals; split
  · rfl
  · exact .trans (.of_frame (by simp)) (State.arrivalsWithin_frame _ b _ d)
@[simp] theorem State.ownWalk_frame (b : Bool) (t : Transition) : (s.ownWalk b t).frame = s.frame := by
  unfold State.ownWalk; split <;> simp
theorem State.evidenceAndWalk_frame (b : Bool) (t : Transition) (l : List Nat) :
    s.FrameButPaused (s.evidenceAndWalk b t l) := by
  have h : s.FrameButPaused (l.foldl (State.evidenceThenArrivals b t) s) :=
    foldl_keeps (p := s.FrameButPaused) _ (fun x d h => h.trans (x.evidenceThenArrivals_frame b t d)) l s rfl
  exact h.trans (.of_frame (State.ownWalk_frame _ b t))
theorem State.triggerRoot_frame (b : Bool) (t : Nat) : s.FrameButPaused (State.triggerRoot b s t) := by
  unfold State.triggerRoot; dsimp only; split
  · exact .trans (.of_frame (by simp)) (State.onPaused_frame _ _)
  · exact .of_frame (by simp)
@[simp] theorem State.faultCleared_frame (d : Nat) (stamp : Stamp) : (s.faultCleared d stamp).frame = s.frame := by
  unfold State.faultCleared; dsimp only; (repeat' split) <;> simp
theorem State.faultArrivals_frame (b : Bool) (d : Nat) (stamp : Stamp) :
    s.FrameButPaused (State.faultArrivals b s d stamp) := by
  have h := s.arrivalsWithin_frame b (.clearFault d stamp) d
  unfold State.faultArrivals; dsimp only; split
  · exact h
  · exact h.trans (.of_frame (by simp))
theorem State.answerInHand_frame (p : List Byte) : s.FrameButWork (s.answerInHand p) := by
  unfold State.answerInHand; split <;> rfl
theorem State.resume_frame (b : Bool) : s.FrameButWork (s.resume b) := by
  unfold State.resume; split
  · rfl
  · have h := (State.onPaused_frame s none).butWork
    dsimp only; split
    · exact h.trans ((State.arrivalsWithin_frame _ _ _ _).trans (State.evidenceAndWalk_frame _ _ _ _)).butWork
    · exact (h.trans (State.FrameButPaused.of_frame (by simp)).butWork).trans (State.answerInHand_frame _ _)
    · rename_i d stamp _
      have h' := h.trans (State.faultArrivals_frame _ b d stamp).butWork
      split
      · exact h'
      · exact h'.trans (State.answerInHand_frame _ _)
theorem State.finishWork_frame : s.FrameButWork s.finishWork :=
  (State.FrameButPaused.of_frame (s.finishRoot_frame)).butWork.trans (State.resume_frame _ _)
theorem State.dueHandedOn_frame :
    (deviceNumbers.foldl State.takeArrivals s).settleDevices.frame = s.frame := by
  simp [foldl_frame _ _ State.takeArrivals_frame]
theorem State.catchUp_frame : s.FrameButWork s.catchUp := by
  unfold State.catchUp; split
  · rfl
  · exact (State.finishWork_frame s).trans (State.FrameButPaused.of_frame (State.dueHandedOn_frame _)).butWork

/-- With no request in hand, work that goes on answers none: the link stays as it is. -/
theorem State.resume_link (b : Bool) (h : s.inHand = false) : (s.resume b).link = s.link := by
  unfold State.resume; split
  · rfl
  · rename_i w hw
    cases w with
    | closure t d =>
      exact congrArg Frame.link ((State.onPaused_frame s none).trans
        ((State.arrivalsWithin_frame _ _ _ _).trans (State.evidenceAndWalk_frame _ _ _ _)))
    | trigger _ => simp [State.inHand, hw] at h
    | clearFault _ _ => simp [State.inHand, hw] at h
theorem State.finishWork_link (h : s.inHand = false) : s.finishWork.link = s.link := by
  have e : s.finishRoot.engine.paused = s.engine.paused := congrArg Frame.paused s.finishRoot_frame
  rw [State.finishWork, State.resume_link _ _ (by rwa [State.inHand, e])]
  exact State.link_of_frame s.finishRoot_frame
theorem State.catchUp_link (h : s.inHand = false) : s.catchUp.link = s.link := by
  unfold State.catchUp; split
  · rfl
  · exact (State.link_of_frame (State.dueHandedOn_frame s.finishWork)).trans (State.finishWork_link s h)

/-! ### Switch closures, tilt and the end of a game -/

@[simp] theorem State.reportSwitch_frame (t : Transition) : (s.reportSwitch t).frame = s.frame := by
  unfold State.reportSwitch; (repeat' split) <;> simp
theorem State.onLatch_frame (i : Nat) (b : Bool) : (s.onSwitch i fun w => { w with latch := b }).frame = s.frame :=
  s.onSwitch_frame i _ fun _ => rfl
theorem State.closure_frame (b : Bool) (t : Transition) : s.FrameButPaused (State.closure b t s) := by
  unfold State.closure; dsimp only
  (repeat' split) <;> first
    | exact .of_frame (by simp [State.onLatch_frame])
    | exact .trans (.of_frame (by simp [State.onLatch_frame])) (State.evidenceAndWalk_frame _ _ _ _)
@[simp] theorem State.opening_frame (b : Bool) (t : Transition) : (State.opening b t s).frame = s.frame := by
  simp [State.opening]
@[simp] theorem State.tilt_frame (i : Nat) : (s.tilt i).frame = s.frame := by
  simp [State.tilt]
@[simp] theorem State.tiltClosure_frame (i : Nat) : (s.tiltClosure i).frame = s.frame := by
  unfold State.tiltClosure; dsimp only; (repeat' split) <;> simp
@[simp] theorem State.endGame_frame (i : Option Nat) : (s.endGame i).frame = s.frame := by
  unfold State.endGame; dsimp only; split <;> simp

/-! ### Ball search -/

@[simp] theorem State.retryReady_frame (d : Nat) : (s.retryReady d).frame = s.frame := by
  simp [State.retryReady]
@[simp] theorem State.beginRound_frame (k : Nat) : (s.beginRound k).frame = s.frame := by
  simp [State.beginRound]
@[simp] theorem State.searchFail_frame : (s.searchFail).frame = s.frame := by
  unfold State.searchFail; dsimp only; split <;> simp
@[simp] theorem State.pauseEnd_frame : (s.pauseEnd).frame = s.frame := by
  unfold State.pauseEnd; (repeat' split) <;> simp

/-! ### Balls and games -/

@[simp] theorem State.clearPerBall_frame : (s.clearPerBall).frame = s.frame := by
  simp [State.clearPerBall]
@[simp] theorem State.freshBall_frame : (s.freshBall).frame = s.frame := by
  simp [State.freshBall]
@[simp] theorem State.ballStart_frame : (s.ballStart).frame = s.frame := by
  unfold State.ballStart; dsimp only; split <;> simp
@[simp] theorem State.censusGameStart_frame : (s.censusGameStart).frame = s.frame := by
  simp [State.censusGameStart]
theorem State.onQuiet_frame (n : Nat) : (s.onScanner fun c => { c with quiet := n }).frame = s.frame := rfl
@[simp] theorem State.gameStart_frame : (s.gameStart).frame = s.frame := by
  simp [State.gameStart, State.onQuiet_frame]
@[simp] theorem State.gameOver_frame : (s.gameOver).frame = s.frame := by
  simp [State.gameOver]
@[simp] theorem State.nextBall_frame : (s.nextBall).frame = s.frame := by
  unfold State.nextBall; dsimp only; (repeat' split) <;> simp

end Sys2Proof.Machine
end

