-- ==== Sys2Proof/Laws/Ops.lean ====
section
/-! SUPPORT. What each shared operation can do, said once: the Event Queue, the hand-on of a request, of a transition and of a
device event, the fields of the link, and what follows from an equal frame. -/

namespace Sys2Proof.Machine

set_option Elab.async false

open Sys2Proof

variable (s t : State)

/-! ### The Event Queue (R188, R189) -/

/-- A record joins behind those held while fewer than 64 are. -/
theorem appendEvent_of_lt (q : List EventRecord) (r : EventRecord) (h : q.length < Config.eventRecords) :
    appendEvent q r = q ++ [r] := by simp [appendEvent, h]

/-- A full queue stays full: its last record becomes or stays the OVERFLOW record. -/
theorem appendEvent_of_full (q : List EventRecord) (r : EventRecord) (h : q.length = Config.eventRecords) :
    ∃ l, q.getLast? = some l ∧ appendEvent q r = q.dropLast ++
      [if l.event = .overflow then { l with argument := min (l.argument + 1) 65535, value := r.time.toNat }
        else ⟨.overflow, 0, 0, l.time, 2, r.time.toNat⟩] := by
  have hq : q ≠ [] := by rintro rfl; simp [Config.eventRecords] at h
  refine ⟨q.getLast hq, List.getLast?_eq_some_getLast hq, ?_⟩
  simp only [appendEvent, h, Nat.lt_irrefl, if_false, List.getLast?_eq_some_getLast hq]
  split <;> rfl

/-- No record makes the queue hold more than 64. -/
theorem appendEvent_length (q : List EventRecord) (r : EventRecord) (h : q.length ≤ Config.eventRecords) :
    (appendEvent q r).length ≤ Config.eventRecords := by
  rcases Nat.lt_or_eq_of_le h with h' | h'
  · rw [appendEvent_of_lt q r h']; simp; omega
  · obtain ⟨l, -, e⟩ := appendEvent_of_full q r h'
    simp only [Config.eventRecords] at h'
    simp [e, h', Config.eventRecords]

/-- A record never takes the place of the head of a queue of two or more. -/
theorem appendEvent_head (q : List EventRecord) (r : EventRecord) (h : 2 ≤ q.length) :
    (appendEvent q r).head? = q.head? := by
  match q, h with
  | a :: b :: rest, _ =>
    unfold appendEvent
    split
    · simp
    · split
      · rename_i h'; simp at h'
      · split <;> simp

/-! ### The ready line (R99) -/

/-- Joining the line adds the member and keeps the others. -/
theorem joinReady_perm (e : Ready) (l : List Ready) : (joinReady e l).Perm (e :: l) := by
  induction l with
  | nil => exact .refl _
  | cons r rest ih =>
    simp only [joinReady]
    split
    · exact .refl _
    · exact (ih.cons r).trans (.swap e r rest)

/-! ### Frames that differ in the work that has paused and the link at most -/

/-- A table read through `g` is the same when the mapped tables are. -/
theorem readTable_of_mapTable {α β : Type} {n : Nat} {u v : Vector α n} {g : α → β} {d : α}
    (h : (mapTable u fun _ x => g x) = mapTable v fun _ x => g x) (i : Nat) :
    g (readTable u d i) = g (readTable v d i) := by
  by_cases hi : i < n
  · have e := congrArg (fun w => readTable w (g d) i) h
    simpa [readTable_mapTable _ _ d _ i hi] using e
  · rw [readTable_of_le u d i (by omega), readTable_of_le v d i (by omega)]

/-- Such states have every switch the same but for its latch. -/
theorem switch_of_frame (h : s.FrameButWork t) (i : Nat) : (t.switch i).sampled = (s.switch i).sampled := by
  have e : t.frame.switches = s.frame.switches := by rw [h]
  exact readTable_of_mapTable (g := Switch.sampled) (d := Switch.reset) e i

/-- Such states have every device record the same. -/
theorem record_of_frame (h : s.FrameButWork t) (d : Nat) : (t.device d).record = (s.device d).record :=
  readTable_of_mapTable (g := Device.record) (congrArg Frame.records h) d

/-- Such states have the same configuration loaded. -/
theorem sameSettings_of_frame (h : s.FrameButWork t) : s.SameSettings t :=
  ⟨congrArg Frame.params h, fun i => congrArg Prod.fst (switch_of_frame s t h i), congrArg Frame.groups h,
    record_of_frame s t h, congrArg Frame.awards h, congrArg Frame.modeDefs h, congrArg Frame.multiballDefs h⟩

/-- The same settings, seen through two changes. -/
theorem State.SameSettings.trans {s t u : State} (h : s.SameSettings t) (h' : t.SameSettings u) : s.SameSettings u :=
  ⟨h'.1.trans h.1, fun i => (h'.2.1 i).trans (h.2.1 i), h'.2.2.1.trans h.2.2.1,
    fun d => (h'.2.2.2.1 d).trans (h.2.2.2.1 d), h'.2.2.2.2.1.trans h.2.2.2.2.1,
    h'.2.2.2.2.2.1.trans h.2.2.2.2.2.1, h'.2.2.2.2.2.2.trans h.2.2.2.2.2.2⟩

/-- The same settings, where nothing changes. -/
theorem State.SameSettings.refl : s.SameSettings s := ⟨rfl, fun _ => rfl, rfl, fun _ => rfl, rfl, rfl, rfl⟩

/-! ### Catching up, device events and hand-ons -/

/-- With no root in progress and no arrival due there is nothing to catch up. -/
theorem catchUp_of_quiet (h : s.quietEngine = true) : s.catchUp = s := by simp [State.catchUp, h]

/-- Without work that has paused there is none to go on with, and no request is in hand. -/
@[simp] theorem resume_of_none (b : Bool) (h : s.engine.paused = none) : s.resume b = s := by
  simp [State.resume, h]
@[simp] theorem inHand_of_none (h : s.engine.paused = none) : s.inHand = false := by simp [State.inHand, h]

/-- The request in hand is the oldest that waits; its reply takes its place. -/
theorem answerInHand_of_waiting (r : Request) (p : List Byte) (h : firstWaiting s.link.slots = some r) :
    s.answerInHand p = s.onLink fun l => { l with slots := answerSlot ⟨r.type, r.tag, p⟩ l.slots } := by
  simp [State.answerInHand, h]

/-- With no arrival due at the device there is none to hand on, and no pause. -/
@[simp] theorem takeArrivals_of_none (d : Nat) (h : (s.device d).arrivals = []) : s.takeArrivals d = s := by
  simp [State.takeArrivals, h, repeated]
@[simp] theorem arrivalsWithin_of_none (b : Bool) (w : PausedWork) (d : Nat) (h : (s.device d).arrivals = []) :
    s.arrivalsWithin b w d = s := by
  simp [State.arrivalsWithin, h]

/-- Without a breather all the arrivals due are handed on, and there is no pause; with one, the first is and there is. -/
@[simp] theorem arrivalsWithin_false (w : PausedWork) (d : Nat) : s.arrivalsWithin false w d = s.takeArrivals d := by
  simp [State.arrivalsWithin]
theorem arrivalsWithin_true (w : PausedWork) (d : Nat) (h : (s.device d).arrivals ≠ []) :
    s.arrivalsWithin true w d = (s.takeArrival d true).onEngine fun c => { c with paused := some w } := by
  simp [State.arrivalsWithin, h]

/-- A TRIGGER in hand whose root has ended is answered OK and WALKED. -/
theorem resume_trigger (b : Bool) (stamp : Stamp) (h : s.engine.paused = some (.trigger stamp)) :
    s.resume b = ((s.onEngine fun c => { c with paused := none }).at stamp).settleDevices.answerInHand [0, 0] := by
  simp [State.resume, h]

/-- A CLEAR_FAULT in hand goes on with the arrivals left, and is answered OK when it has ended. -/
theorem resume_clearFault (b : Bool) (d : Nat) (stamp : Stamp) (h : s.engine.paused = some (.clearFault d stamp)) :
    s.resume b = let t := (s.onEngine fun c => { c with paused := none }).faultArrivals b d stamp
      if t.inHand then t else t.answerInHand [0] := by
  simp [State.resume, h]

/-- To enter EJECT_WAIT writes the device and the ready line only. -/
@[simp] theorem enterEjectWait_time (d : Nat) : (s.enterEjectWait d).time = s.time := by
  unfold State.enterEjectWait State.joinLine; dsimp only; (repeat' split) <;> rfl
@[simp] theorem enterEjectWait_events (d : Nat) : (s.enterEjectWait d).events = s.events := by
  unfold State.enterEjectWait State.joinLine; dsimp only; (repeat' split) <;> rfl
@[simp] theorem enterEjectWait_game (d : Nat) : (s.enterEjectWait d).game = s.game := by
  unfold State.enterEjectWait State.joinLine; dsimp only; (repeat' split) <;> rfl

/-- A device not in FAULT has no FAULT to end. -/
theorem faultCleared_of_not_fault (d : Nat) (stamp : Stamp) (h : (s.device d).state ≠ .fault) :
    s.faultCleared d stamp = s := by
  simp [State.faultCleared, h]

/-- The end of a FAULT queues FAULT_CLEARED first, with the time stamp of its request, and then the tests of the devices are made. -/
theorem faultCleared_of_fault (d : Nat) (stamp : Stamp) (h : (s.device d).state = .fault) :
    ∃ u : State, u.time = stamp ∧ u.events = s.events ∧ u.game = s.game ∧
      s.faultCleared d stamp = (u.emit .deviceFaultCleared d 0 0).settleDevices := by
  simp only [State.faultCleared, h, if_true]
  refine ⟨_, ?_, ?_, ?_, rfl⟩ <;> split <;> simp

/-- A hand-on that has come to a pause is handed to no further device and does not reach its own walk. -/
theorem evidenceAndWalk_of_paused (b : Bool) (t : Transition) (l : List Nat) (h : s.engine.paused.isSome = true) :
    s.evidenceAndWalk b t l = s := by
  have e : l.foldl (State.evidenceThenArrivals b t) s = s := by
    induction l with
    | nil => rfl
    | cons d l ih => rw [List.foldl_cons, show s.evidenceThenArrivals b t d = s by simp [State.evidenceThenArrivals, h], ih]
  simp [State.evidenceAndWalk, e, State.ownWalk, h]

/-- A closure that no device makes anything of goes on to its own walk. -/
theorem evidenceAndWalk_nil (b : Bool) (t : Transition) (h : s.engine.paused = none) :
    s.evidenceAndWalk b t [] = ((s.at t.stamp).settleDevices.directWalk t.switch .close b).settleDevices := by
  simp [State.evidenceAndWalk, State.ownWalk, h]

/-- A device event that is due is taken, and what a changed device calls for is tested after it. -/
theorem deviceEvent_of_due (due : State → Bool) (f : State → State) (h : due s.catchUp.atNow = true) :
    s.deviceEvent due f = (f s.catchUp.atNow).settleDevices := by simp [State.deviceEvent, h]

/-- A device event that is not due changes nothing. -/
theorem deviceEvent_of_not_due (due : State → Bool) (f : State → State) (h : due s.catchUp.atNow = false) :
    s.deviceEvent due f = s := by simp [State.deviceEvent, h]

/-- A transition that waits to be handed on, and is of the kind asked for, is handed on. -/
theorem handOn_of_waiting (i : Nat) (p : Transition → Bool) (f : Transition → State → State) (tr : Transition)
    (hw : s.waitingOf i = some tr) (hp : p tr = true) : s.handOn i p f = f tr (s.handingOn tr) := by
  simp [State.handOn, State.dueTransition, hw, Option.filter, hp]

/-- With no such transition waiting nothing changes. -/
theorem handOn_of_none (i : Nat) (p : Transition → Bool) (f : Transition → State → State)
    (h : ∀ tr, s.waitingOf i = some tr → p tr = false) : s.handOn i p f = s := by
  cases hw : s.waitingOf i with
  | none => simp [State.handOn, State.dueTransition, hw]
  | some tr => simp [State.handOn, State.dueTransition, hw, Option.filter, h tr hw]

/-! ### Tenths (R71, R122) -/

/-- A tenth that is not due, and a census tenth within the handling of an arrival, change nothing. -/
theorem modesTenth_of_not_due (h : s.tenthDue s.modes.lastTenth = false) : s.modesTenth = s := by
  simp [State.modesTenth, h]
theorem censusTenth_of_not_due (h : s.tenthDue s.census.lastTenth = false ∨ s.inArrival = true) : s.censusTenth = s := by
  rcases h with h | h <;> simp [State.censusTenth, h]

/-- The arrival whose root is in progress is being handled; no other root is an arrival's. -/
theorem inArrival_iff : s.inArrival = true ↔ ∃ r, s.engine.root = some r ∧ 80 ≤ r.first ∧ r.first < 88 := by
  simp [State.inArrival, Option.any_eq_true]

/-! ### Requests (R175, R178) -/

/-- A reply in the place of the oldest waiting request, where one waits. -/
theorem answerSlot_append (a : Request) (l : List Slot) (r : Request) (h : firstWaiting l = none) :
    answerSlot a (l ++ [.waiting r]) = l ++ [.ready a] := by
  induction l with
  | nil => rfl
  | cons x rest ih =>
    cases x with
    | waiting q => simp [firstWaiting] at h
    | ready q => simpa [answerSlot, firstWaiting] using ih h

/-- A reply takes one slot as its request did. -/
@[simp] theorem answerSlot_length (a : Request) (l : List Slot) : (answerSlot a l).length = l.length := by
  induction l with
  | nil => rfl
  | cons x rest ih => cases x <;> simp [answerSlot, ih]

/-- When a whole frame can arrive. -/
theorem takesWhole_iff (l : Link) : l.takesWhole = true ↔
    l.slots.length < Config.replySlots ∧ l.inBreak = false ∧ l.receiver = .hunt ∧ l.frames = [] := by
  simp only [Link.takesWhole, Bool.and_eq_true, Bool.not_eq_true', beq_iff_eq, List.isEmpty_iff, decide_eq_true_eq]
  tauto

/-- The state in which an offered request is handed on: only the link, with the request in a slot, and the time differ. -/
theorem toHandOn_of_offers (r : Request) (h : s.Offers r) :
    ∃ l, s.toHandOn r = some { s with link := l, time := s.scanner.now } ∧
      ∀ a : Answer, { l with slots := answerSlot ⟨r.type, r.tag, a.bytes⟩ l.slots } = s.answeredLink r a.bytes := by
  have hn : s.holdsBack r.type = false := by
    cases e : betweenWalks r.type <;> simp [State.holdsBack, h.2.1, h.2.2.1, e]
  obtain ⟨hr, -, -, hw | ⟨hw, hl⟩⟩ := h
  · exact ⟨s.link, by simp [State.toHandOn, hn, Link.toHandOn, hr, hw, State.atNow, State.at],
      fun a => by simp [State.answeredLink, answered, hw]⟩
  · refine ⟨{ s.link with slots := s.link.slots ++ [.waiting r] }, ?_, fun a => ?_⟩
    · simp [State.toHandOn, hn, Link.toHandOn, hr, hw, (takesWhole_iff _).2 hl, State.atNow, State.at]
    · simp [State.answeredLink, answered, hw, answerSlot_append _ _ r hw]

/-- A request that cannot be handed on changes nothing. -/
theorem request_of_not_offers (type tag : Byte) (p : List Byte) (f : List Byte → State → State × Answer)
    (h : ¬s.Offers ⟨type, tag, p⟩) : s.request type tag p f = s := by
  have hn : s.toHandOn ⟨type, tag, p⟩ = none := by
    simp only [State.Offers, not_and, not_or] at h
    unfold State.toHandOn Link.toHandOn
    by_cases hr : s.link.restarting = true
    · simp [hr]
    by_cases hb : s.holdsBack type = true
    · simp [hb]
    · simp only [State.holdsBack, Bool.or_eq_true, Bool.and_eq_true, not_or, not_and, Bool.not_eq_true] at hb
      have h2 := h (by simpa using hr) hb.1 fun e => by
        cases hp : s.engine.paused with
        | none => rfl
        | some w => simp [hp, e] at hb
      have hb : s.holdsBack type = false := by
        cases e : betweenWalks type <;> simp_all [State.holdsBack]
      cases hw : firstWaiting s.link.slots with
      | none =>
        have h3 : s.link.takesWhole = false := by
          rw [Bool.eq_false_iff, ne_eq, takesWhole_iff]
          exact fun hl => h2.2 hw hl.1 hl.2.1 hl.2.2.1 hl.2.2.2
        simp [hr, hb, h3]
      | some q =>
        have : q ≠ ⟨type, tag, p⟩ := by rintro rfl; exact h2.1 hw
        simp [this, hr, hb]
  simp [State.request, hn]

/-- An offered request: the work is done at the time of the latest scan, and unless the request stays in hand its answer stands in
its place. -/
theorem request_of_offers (type tag : Byte) (p : List Byte) (f : List Byte → State → State × Answer)
    (h : s.Offers ⟨type, tag, p⟩) :
    ∃ l, (s.request type tag p f =
        let x := f p { s with link := l, time := s.scanner.now }
        if x.1.inHand then x.1 else x.1.reply ⟨type, tag, p⟩ x.2) ∧
      ∀ a : Answer, { l with slots := answerSlot ⟨type, tag, a.bytes⟩ l.slots } = s.answeredLink ⟨type, tag, p⟩ a.bytes := by
  obtain ⟨l, e, hl⟩ := toHandOn_of_offers s ⟨type, tag, p⟩ h
  exact ⟨l, by simp [State.request, e], hl⟩

/-- An offered request whose work only answers: the answer is all that changes. -/
theorem request_only_answered (type tag : Byte) (p : List Byte) (f : List Byte → State → State × Answer) (a : Answer)
    (h : s.Offers ⟨type, tag, p⟩) (hf : ∀ l, f p { s with link := l, time := s.scanner.now } =
      ({ s with link := l, time := s.scanner.now }, a)) :
    s.request type tag p f = s.onlyAnswered ⟨type, tag, p⟩ a.bytes := by
  obtain ⟨l, e, hl⟩ := request_of_offers s type tag p f h
  have hi : ({ s with link := l, time := s.scanner.now } : State).inHand = false := h.2.1
  rw [e, hf l, State.onlyAnswered, ← hl a]
  simp [hi, State.reply, State.onLink]

/-! ### The transmitter (R171, R175) -/

/-- The bytes still to go of the oldest ready reply leave one by one, and with the last its slot is free. -/
theorem repeated_sendByte (l : Link) (r : Request) (rest : List Slot) (h : l.slots = .ready r :: rest) (k : Nat)
    (hk : k = r.payload.length + 5 - l.sent) :
    repeated Link.sendByte (k + 1) l = { l with slots := rest, sent := 0 } := by
  induction k generalizing l with
  | zero => simp [repeated, Link.sendByte, h, show ¬l.sent < r.payload.length + 5 by omega]
  | succ k ih =>
    have e : l.sendByte = { l with sent := l.sent + 1 } := by
      simp [Link.sendByte, h, show l.sent < r.payload.length + 5 by omega]
    rw [repeated, e, ih { l with sent := l.sent + 1 } h (by simp only; omega)]

/-! ### The contacts (R1) -/

/-- While COLc alone is driven the row returns are the contacts of column c. -/
theorem rowReturns_columnDrive (k : Contacts) (c : Nat) (h : c < 8) :
    rowReturns k (columnDrive c) = readTable k.columns 0 c := by
  interval_cases c <;> simp +decide [rowReturns, List.range, List.range.loop, List.foldl, columnDrive]

/-- Switch c × 8 + r is the contact of COLc and ROWr. -/
theorem sampleOf_matrix (k : Contacts) (c r : Nat) (hc : c < 8) (hr : r < 8) :
    sampleOf k (c * 8 + r) = (readTable k.columns 0 c).getLsbD r := by
  rw [sampleOf, if_pos (by omega), show (c * 8 + r) / 8 = c by omega, show (c * 8 + r) % 8 = r by omega,
    rowReturns_columnDrive k c hc]

/-- Switch 64 + n is direct input DINn. -/
theorem sampleOf_direct (k : Contacts) (n : Nat) : sampleOf k (64 + n) = k.direct.getLsbD n := by
  rw [sampleOf, if_neg (by omega), Nat.add_sub_cancel_left]

/-! ### Fields of the link (R192) -/

@[simp] theorem leBytes_length (w n : Nat) : (leBytes w n).length = w := by
  induction w generalizing n with
  | zero => rfl
  | succ w ih => simp [leBytes, ih]

/-- A number written in `w` bytes reads back as its remainder by 256 to the power `w`. -/
theorem leNat_leBytes (w n : Nat) : leNat (leBytes w n) = n % 256 ^ w := by
  induction w generalizing n with
  | zero => simp [leBytes, leNat, Nat.mod_one]
  | succ w ih =>
    simp only [leBytes, leNat, ih, BitVec.toNat_ofNat]
    rw [show 256 ^ (w + 1) = 256 * 256 ^ w from Nat.pow_succ', Nat.mod_mul]

/-- A field that begins a payload. -/
theorem fieldAt_leBytes_append (w n : Nat) (rest : List Byte) : fieldAt (leBytes w n ++ rest) 0 w = n % 256 ^ w := by
  have h : ((leBytes w n ++ rest).drop 0).take w = leBytes w n := by simp
  rw [fieldAt, h, leNat_leBytes]

/-- A field that stands behind the first part of a payload. -/
theorem fieldAt_append (l rest : List Byte) (k w : Nat) : fieldAt (l ++ rest) (l.length + k) w = fieldAt rest k w := by
  have h : (l ++ rest).drop (l.length + k) = rest.drop k := by
    rw [List.drop_append]; simp
  simp [fieldAt, h]

/-- The frame of a request carries its bytes between the lead and the check. -/
theorem readFrame_frameBytes (r : Request) : readFrame (frameBytes r).tail = some r := by
  have hc : ∀ l, (checkBytes l).length = 2 := fun l => by simp [checkBytes, u16]
  simp [readFrame, frameBytes, hc, u8, leBytes]

end Sys2Proof.Machine
end

