-- ==== Sys2Proof/Laws/PerInstr.lean ====
section
/-! SUPPORT. Facts about every command as syntax, one lemma for each constructor of Instr. -/

namespace Sys2Proof.Laws.RowOf

set_option Elab.async false

open Sys2Proof

/-- A well-formed command that carries a request carries one that a frame can hold, and its type is unknown exactly when the
command is UNKNOWN_TYPE (R171, R193). -/
def Statement (c : Instr) : Prop :=
  ∀ type tag p, c.request? = some (type, tag, p) → c.wellFormed = true →
    p.length ≤ 248 ∧ (typeUnknown type = true ↔ c = .unknownType type tag p)

/-- A command that carries no request. -/
theorem of_none (c : Instr) (h : c.request? = none) : Statement c := by
  intro type tag p e
  rw [h] at e
  cases e

theorem hardReset : Statement .hardReset := of_none _ rfl
theorem switchScan (contacts : Contacts) : Statement (.switchScan contacts) := of_none _ rfl
theorem switchClosure (switch : Nat) (breather : Bool) : Statement (.switchClosure switch breather) := of_none _ rfl
theorem switchOpening (switch : Nat) (breather : Bool) : Statement (.switchOpening switch breather) := of_none _ rfl
theorem tiltClosure (switch : Nat) : Statement (.tiltClosure switch) := of_none _ rfl
theorem slamClosure (switch : Nat) : Statement (.slamClosure switch) := of_none _ rfl
theorem tiltSlamOpening (switch : Nat) : Statement (.tiltSlamOpening switch) := of_none _ rfl
theorem deviceSwitchTransition (switch : Nat) : Statement (.deviceSwitchTransition switch) := of_none _ rfl
theorem tenth : Statement .tenth := of_none _ rfl
theorem modeTimeout : Statement .modeTimeout := of_none _ rfl
theorem ballSaveExpired : Statement .ballSaveExpired := of_none _ rfl
theorem settleExpired (device : Nat) : Statement (.settleExpired device) := of_none _ rfl
theorem arrival (device : Nat) (breather : Bool) : Statement (.arrival device breather) := of_none _ rfl
theorem holdOffExpired (device : Nat) : Statement (.holdOffExpired device) := of_none _ rfl
theorem coilGrant : Statement .coilGrant := of_none _ rfl
theorem pulseEnd (device : Nat) : Statement (.pulseEnd device) := of_none _ rfl
theorem confirmWindowEnd (device : Nat) : Statement (.confirmWindowEnd device) := of_none _ rfl
theorem retryIntervalEnd (device : Nat) : Statement (.retryIntervalEnd device) := of_none _ rfl
theorem searchWindowEnd (device : Nat) : Statement (.searchWindowEnd device) := of_none _ rfl
theorem searchArm : Statement .searchArm := of_none _ rfl
theorem searchStep : Statement .searchStep := of_none _ rfl
theorem searchPauseEnd : Statement .searchPauseEnd := of_none _ rfl
theorem requestFrame : Statement .requestFrame := of_none _ rfl
theorem interByteGap : Statement .interByteGap := of_none _ rfl
theorem lineBreak : Statement .lineBreak := of_none _ rfl
theorem longBreak : Statement .longBreak := of_none _ rfl
theorem replySent : Statement .replySent := of_none _ rfl
theorem unknownType (type tag : Byte) (payload : List Byte) : Statement (.unknownType type tag payload) := by
  intro t g p h hw
  simp only [Instr.request?, Option.some.injEq, Prod.mk.injEq] at h
  obtain ⟨rfl, rfl, rfl⟩ := h
  simpa [Instr.wellFormed, payloadFits, and_comm] using hw
theorem setGame (tag : Byte) (payload : List Byte) : Statement (.setGame tag payload) := by
  intro t g p h hw
  simp only [Instr.request?, Option.some.injEq, Prod.mk.injEq] at h
  obtain ⟨rfl, rfl, rfl⟩ := h
  exact ⟨by simpa [Instr.wellFormed, payloadFits] using hw, by simp [typeUnknown]⟩
theorem setSwitch (tag : Byte) (payload : List Byte) : Statement (.setSwitch tag payload) := by
  intro t g p h hw
  simp only [Instr.request?, Option.some.injEq, Prod.mk.injEq] at h
  obtain ⟨rfl, rfl, rfl⟩ := h
  exact ⟨by simpa [Instr.wellFormed, payloadFits] using hw, by simp [typeUnknown]⟩
theorem setGroup (tag : Byte) (payload : List Byte) : Statement (.setGroup tag payload) := by
  intro t g p h hw
  simp only [Instr.request?, Option.some.injEq, Prod.mk.injEq] at h
  obtain ⟨rfl, rfl, rfl⟩ := h
  exact ⟨by simpa [Instr.wellFormed, payloadFits] using hw, by simp [typeUnknown]⟩
theorem setDevice (tag : Byte) (payload : List Byte) : Statement (.setDevice tag payload) := by
  intro t g p h hw
  simp only [Instr.request?, Option.some.injEq, Prod.mk.injEq] at h
  obtain ⟨rfl, rfl, rfl⟩ := h
  exact ⟨by simpa [Instr.wellFormed, payloadFits] using hw, by simp [typeUnknown]⟩
theorem setMode (tag : Byte) (payload : List Byte) : Statement (.setMode tag payload) := by
  intro t g p h hw
  simp only [Instr.request?, Option.some.injEq, Prod.mk.injEq] at h
  obtain ⟨rfl, rfl, rfl⟩ := h
  exact ⟨by simpa [Instr.wellFormed, payloadFits] using hw, by simp [typeUnknown]⟩
theorem setMultiball (tag : Byte) (payload : List Byte) : Statement (.setMultiball tag payload) := by
  intro t g p h hw
  simp only [Instr.request?, Option.some.injEq, Prod.mk.injEq] at h
  obtain ⟨rfl, rfl, rfl⟩ := h
  exact ⟨by simpa [Instr.wellFormed, payloadFits] using hw, by simp [typeUnknown]⟩
theorem setAward (tag : Byte) (payload : List Byte) : Statement (.setAward tag payload) := by
  intro t g p h hw
  simp only [Instr.request?, Option.some.injEq, Prod.mk.injEq] at h
  obtain ⟨rfl, rfl, rfl⟩ := h
  exact ⟨by simpa [Instr.wellFormed, payloadFits] using hw, by simp [typeUnknown]⟩
theorem clearTables (tag : Byte) (payload : List Byte) : Statement (.clearTables tag payload) := by
  intro t g p h hw
  simp only [Instr.request?, Option.some.injEq, Prod.mk.injEq] at h
  obtain ⟨rfl, rfl, rfl⟩ := h
  exact ⟨by simpa [Instr.wellFormed, payloadFits] using hw, by simp [typeUnknown]⟩
theorem startGame (tag : Byte) (payload : List Byte) : Statement (.startGame tag payload) := by
  intro t g p h hw
  simp only [Instr.request?, Option.some.injEq, Prod.mk.injEq] at h
  obtain ⟨rfl, rfl, rfl⟩ := h
  exact ⟨by simpa [Instr.wellFormed, payloadFits] using hw, by simp [typeUnknown]⟩
theorem addPlayer (tag : Byte) (payload : List Byte) : Statement (.addPlayer tag payload) := by
  intro t g p h hw
  simp only [Instr.request?, Option.some.injEq, Prod.mk.injEq] at h
  obtain ⟨rfl, rfl, rfl⟩ := h
  exact ⟨by simpa [Instr.wellFormed, payloadFits] using hw, by simp [typeUnknown]⟩
theorem nextBall (tag : Byte) (payload : List Byte) : Statement (.nextBall tag payload) := by
  intro t g p h hw
  simp only [Instr.request?, Option.some.injEq, Prod.mk.injEq] at h
  obtain ⟨rfl, rfl, rfl⟩ := h
  exact ⟨by simpa [Instr.wellFormed, payloadFits] using hw, by simp [typeUnknown]⟩
theorem endGame (tag : Byte) (payload : List Byte) : Statement (.endGame tag payload) := by
  intro t g p h hw
  simp only [Instr.request?, Option.some.injEq, Prod.mk.injEq] at h
  obtain ⟨rfl, rfl, rfl⟩ := h
  exact ⟨by simpa [Instr.wellFormed, payloadFits] using hw, by simp [typeUnknown]⟩
theorem triggerRequest (tag : Byte) (payload : BreathingPayload) : Statement (.triggerRequest tag payload) := by
  intro t g p h hw
  simp only [Instr.request?, Option.some.injEq, Prod.mk.injEq] at h
  obtain ⟨rfl, rfl, rfl⟩ := h
  exact ⟨by simpa [Instr.wellFormed, payloadFits] using hw, by simp [typeUnknown]⟩
theorem grantRequest (tag : Byte) (payload : List Byte) : Statement (.grantRequest tag payload) := by
  intro t g p h hw
  simp only [Instr.request?, Option.some.injEq, Prod.mk.injEq] at h
  obtain ⟨rfl, rfl, rfl⟩ := h
  exact ⟨by simpa [Instr.wellFormed, payloadFits] using hw, by simp [typeUnknown]⟩
theorem modeControl (tag : Byte) (payload : BreathingPayload) : Statement (.modeControl tag payload) := by
  intro t g p h hw
  simp only [Instr.request?, Option.some.injEq, Prod.mk.injEq] at h
  obtain ⟨rfl, rfl, rfl⟩ := h
  exact ⟨by simpa [Instr.wellFormed, payloadFits] using hw, by simp [typeUnknown]⟩
theorem setPlayer (tag : Byte) (payload : List Byte) : Statement (.setPlayer tag payload) := by
  intro t g p h hw
  simp only [Instr.request?, Option.some.injEq, Prod.mk.injEq] at h
  obtain ⟨rfl, rfl, rfl⟩ := h
  exact ⟨by simpa [Instr.wellFormed, payloadFits] using hw, by simp [typeUnknown]⟩
theorem ejectRequest (tag : Byte) (payload : List Byte) : Statement (.ejectRequest tag payload) := by
  intro t g p h hw
  simp only [Instr.request?, Option.some.injEq, Prod.mk.injEq] at h
  obtain ⟨rfl, rfl, rfl⟩ := h
  exact ⟨by simpa [Instr.wellFormed, payloadFits] using hw, by simp [typeUnknown]⟩
theorem clearFault (tag : Byte) (payload : BreathingPayload) : Statement (.clearFault tag payload) := by
  intro t g p h hw
  simp only [Instr.request?, Option.some.injEq, Prod.mk.injEq] at h
  obtain ⟨rfl, rfl, rfl⟩ := h
  exact ⟨by simpa [Instr.wellFormed, payloadFits] using hw, by simp [typeUnknown]⟩
theorem clearLatches (tag : Byte) (payload : List Byte) : Statement (.clearLatches tag payload) := by
  intro t g p h hw
  simp only [Instr.request?, Option.some.injEq, Prod.mk.injEq] at h
  obtain ⟨rfl, rfl, rfl⟩ := h
  exact ⟨by simpa [Instr.wellFormed, payloadFits] using hw, by simp [typeUnknown]⟩
theorem readStatus (tag : Byte) (payload : List Byte) : Statement (.readStatus tag payload) := by
  intro t g p h hw
  simp only [Instr.request?, Option.some.injEq, Prod.mk.injEq] at h
  obtain ⟨rfl, rfl, rfl⟩ := h
  exact ⟨by simpa [Instr.wellFormed, payloadFits] using hw, by simp [typeUnknown]⟩
theorem readPlayer (tag : Byte) (payload : List Byte) : Statement (.readPlayer tag payload) := by
  intro t g p h hw
  simp only [Instr.request?, Option.some.injEq, Prod.mk.injEq] at h
  obtain ⟨rfl, rfl, rfl⟩ := h
  exact ⟨by simpa [Instr.wellFormed, payloadFits] using hw, by simp [typeUnknown]⟩
theorem readModes (tag : Byte) (payload : List Byte) : Statement (.readModes tag payload) := by
  intro t g p h hw
  simp only [Instr.request?, Option.some.injEq, Prod.mk.injEq] at h
  obtain ⟨rfl, rfl, rfl⟩ := h
  exact ⟨by simpa [Instr.wellFormed, payloadFits] using hw, by simp [typeUnknown]⟩
theorem readDevice (tag : Byte) (payload : List Byte) : Statement (.readDevice tag payload) := by
  intro t g p h hw
  simp only [Instr.request?, Option.some.injEq, Prod.mk.injEq] at h
  obtain ⟨rfl, rfl, rfl⟩ := h
  exact ⟨by simpa [Instr.wellFormed, payloadFits] using hw, by simp [typeUnknown]⟩
theorem readAward (tag : Byte) (payload : List Byte) : Statement (.readAward tag payload) := by
  intro t g p h hw
  simp only [Instr.request?, Option.some.injEq, Prod.mk.injEq] at h
  obtain ⟨rfl, rfl, rfl⟩ := h
  exact ⟨by simpa [Instr.wellFormed, payloadFits] using hw, by simp [typeUnknown]⟩
theorem readSwitches (tag : Byte) (payload : List Byte) : Statement (.readSwitches tag payload) := by
  intro t g p h hw
  simp only [Instr.request?, Option.some.injEq, Prod.mk.injEq] at h
  obtain ⟨rfl, rfl, rfl⟩ := h
  exact ⟨by simpa [Instr.wellFormed, payloadFits] using hw, by simp [typeUnknown]⟩
theorem fetchEvents (tag : Byte) (payload : List Byte) : Statement (.fetchEvents tag payload) := by
  intro t g p h hw
  simp only [Instr.request?, Option.some.injEq, Prod.mk.injEq] at h
  obtain ⟨rfl, rfl, rfl⟩ := h
  exact ⟨by simpa [Instr.wellFormed, payloadFits] using hw, by simp [typeUnknown]⟩
theorem restartRequest (tag : Byte) (payload : List Byte) : Statement (.restartRequest tag payload) := by
  intro t g p h hw
  simp only [Instr.request?, Option.some.injEq, Prod.mk.injEq] at h
  obtain ⟨rfl, rfl, rfl⟩ := h
  exact ⟨by simpa [Instr.wellFormed, payloadFits] using hw, by simp [typeUnknown]⟩
theorem byteReceived (byte : Byte) : Statement (.byteReceived byte) := of_none _ rfl
theorem framingError : Statement .framingError := of_none _ rfl
theorem lineBreakEnd : Statement .lineBreakEnd := of_none _ rfl

end Sys2Proof.Laws.RowOf
end

