-- ==== Sys2Proof/Tests/Slice0.lean ====
section
/-! SUPPORT. Tests of the 4610's model: ill-formed commands refused, the manual's worked figures, one or two steps of each command,
and for every statement with hypotheses a state and operands that meet them. Expected values are those of the manual or worked
out by hand from its rules. -/

namespace Sys2Proof.Tests

set_option Elab.async false

open Sys2Proof Sys2Proof.Machine

/-! ### Ill-formed commands (WellFormed) -/

theorem test_wellFormed_switch : (Instr.switchClosure 71 true).wellFormed = true ∧
    (Instr.switchClosure 72 true).wellFormed = false ∧ (Instr.tiltClosure 72).wellFormed = false := by decide

theorem test_wellFormed_device : (Instr.pulseEnd 7).wellFormed = true ∧ (Instr.pulseEnd 8).wellFormed = false ∧
    (Instr.arrival 8 false).wellFormed = false := by decide

theorem test_wellFormed_payload : (Instr.setGame 0 (List.replicate 248 0)).wellFormed = true ∧
    (Instr.setGame 0 (List.replicate 249 0)).wellFormed = false := by decide +kernel

theorem test_wellFormed_unknown : (Instr.unknownType 28 0 []).wellFormed = true ∧
    (Instr.unknownType 0 0 []).wellFormed = true ∧ (Instr.unknownType 27 0 []).wellFormed = false := by decide

/-! ### Helpers: a small machine -/

/-- The state after a command; the state itself where there is none. -/
def after (s : State) (c : Instr) : State :=
  match exec c s with
  | .next t => t
  | .fault _ | .refused _ => s

/-- The payload of the last reply. -/
def lastReply (s : State) : Option (List Byte) :=
  s.link.slots.getLast?.bind fun x => match x with
    | .ready r => some r.payload
    | .waiting _ => none

/-- A trough of four positions, switches 0 to 3, coil 0. -/
def troughRecord : DeviceRecord := { DeviceRecord.reset with role := .trough, positions := [0, 1, 2, 3], autoRetry := true }
/-- A shooter lane on switch 4, coil 1. -/
def shooterRecord : DeviceRecord := { DeviceRecord.reset with role := .shooter, profile := 4, positions := [4], coil := 1 }
/-- A lock of two positions on switches 5 and 6, coil 2, that keeps one ball. -/
def lockRecord : DeviceRecord :=
  { DeviceRecord.reset with role := .lock, profile := 8, positions := [5, 6], coil := 2, keep := true }
/-- A saucer on switch 7, coil 3. -/
def saucerRecord : DeviceRecord := { DeviceRecord.reset with role := .saucer, profile := 5, positions := [7], coil := 3 }
/-- A scoop with entry switch 8 and exit switch 9, coil 4. -/
def scoopRecord : DeviceRecord :=
  { DeviceRecord.reset with role := .saucer, profile := 11, entrySwitch := some 8, exitSwitch := some 9, coil := 4 }
/-- A blind lock with entry switch 10, coil 5. -/
def blindRecord : DeviceRecord :=
  { DeviceRecord.reset with role := .lock, profile := 12, entrySwitch := some 10, coil := 5 }

/-- A configured device at rest with `n` balls. -/
def rest (r : DeviceRecord) (n : Nat) : Device := { Device.reset with record := r, state := .idle, settled := n, accounted := n }

/-- The small machine in PLAY, ball 1 of player 1, at time stamp 10,000: three balls in the trough, one on the playfield. -/
def play : State :=
  let s := State.reset
  { s with
    scanner := { s.scanner with started := true, now := 10000 }
    devices := { s.devices with units :=
      #v[rest troughRecord 3, rest shooterRecord 0, rest lockRecord 0, rest saucerRecord 0, rest scoopRecord 0,
        rest blindRecord 0, .reset, .reset] }
    census := { s.census with playfield := 1 }
    game := { s.game with phase := .play, players := [.start .default], current := 1, ballNumber := 1
                          search := { s.game.search with phase := .waiting } }
    events := [] }

/-- The machine in another phase, with the search as that phase has it. -/
def inPhase (p : Phase) : State :=
  { play with game := { play.game with
      phase := p, search := { play.game.search with phase := if p = .play ∨ p = .tilt then .waiting else .off } } }

/-- The machine between games. -/
def idle : State := { inPhase .idle with game := { (inPhase .idle).game with players := [], current := 0, ballNumber := 0 } }

/-- Transition `t` waits alone. -/
def waits (s : State) (t : Transition) : State := { s with scanner := { s.scanner with waiting := [t] } }

/-- Switch `i` closes, alone, at 9,999. -/
def closing (s : State) (i : Nat) : State := waits s ⟨i, true, .playfield, 9999⟩

/-- The current player's record updated. -/
def player (s : State) (f : Player → Player) : State := s.onCurrent f

/-- The link with the slots given. -/
def withSlots (s : State) (l : List Slot) : State := { s with link := { s.link with slots := l } }

/-- A definition of mode `m`. -/
def withMode (s : State) (m : Nat) (d : ModeDef) : State :=
  { s with modes := { s.modes with defs := writeTable s.modes.defs m d } }

/-- A stack. -/
def withStack (s : State) (l : List ModeInst) : State := { s with modes := { s.modes with stack := l } }

/-- Definition `k` is `d`. -/
def withMultiball (s : State) (k : Nat) (d : MultiballDef) : State :=
  { s with census := { s.census with defs := writeTable s.census.defs k d } }

/-- A plain defined mode. -/
def plainMode : ModeDef := { ModeDef.undefined with defined := true, duration := 200, goal := 3, startValue := 100, valueStep := 10 }

/-- An ENABLED entry of trigger 72 worth 500. -/
def plainEntry : AwardEntry := { AwardEntry.empty with state := .enabled, trigger := 72, source := .fixed, base := 500, report := true }

/-- Award entry `i` is `e`. -/
def withAward (s : State) (i : Nat) (e : AwardEntry) : State :=
  { s with engine := { s.engine with awards := writeTable s.engine.awards i e } }

/-- A stack with an instance of mode 3. -/
def staged (st : RunState) (progress : Nat) : State :=
  withStack (withMode play 3 plainMode) [⟨3, st, some 5, progress, 100, 0⟩]

/-! ### The manual's figures -/

/-- Section 9.2: the check of the digits 1 to 9, the register 0xBB3D and the check bytes 0xC2 0x44. -/
theorem test_check_of_digits : crcRegister [49, 50, 51, 52, 53, 54, 55, 56, 57] = 0xBB3D#16 ∧
    checkBytes [49, 50, 51, 52, 53, 54, 55, 56, 57] = [194, 68] := by decide +kernel

/-- Section 12.3.1: the event record of the worked example, byte by byte. -/
theorem test_event_record_bytes :
    EventRecord.bytes ⟨.awardEntry, 2, 90, 1234567, 16, 400000⟩ =
      [2, 1, 2, 0x5A, 0x87, 0xD6, 0x12, 0, 0x10, 0, 0x80, 0x1A, 6, 0, 0, 0] := by decide +kernel

/-! ### Commands, one step each -/

/-- R18: a hard reset leaves N 4 on the playfield and the RESTARTED HARD record. -/
theorem test_hardReset : (after play .hardReset).census.playfield = 4 ∧ (after play .hardReset).events.length = 1 ∧
    (after play .hardReset).game.phase = .idle := by decide +kernel

/-- The contact of COL2 and ROW4, switch 20, is closed, and no other. -/
def col2row4 : Contacts := ⟨(Vector.replicate 8 0).set 2 0x10, 0⟩

/-- R2: with close debounce 3 the third scan that samples a closed contact makes the transition, the second does not. -/
theorem test_switchScan : ((after (play.onSwitch 20 fun w => { w with count := 2 }) (.switchScan col2row4)).scanner.waiting =
      [⟨20, true, .playfield, 10001⟩]) ∧
    (after (play.onSwitch 20 fun w => { w with count := 1 }) (.switchScan col2row4)).scanner.waiting = [] := by
  decide +kernel

/-- R1: a contact is switch column × 8 + row, read while its column alone is driven; DIN3 is switch 67. -/
theorem test_switchScan_numbers : (List.range 72).filter (sampleOf col2row4) = [20] ∧
    (List.range 72).filter (sampleOf ⟨Vector.replicate 8 0, 8⟩) = [67] ∧
    rowReturns col2row4 (columnDrive 2) = 0x10 ∧ rowReturns col2row4 (columnDrive 3) = 0 := by decide +kernel

/-- R6, R120, R121: the first PLAYFIELD closure sets the latch, validates the ball and arms a save of 100 tenths. -/
theorem test_switchClosure :
    ((after (waits play ⟨20, true, .playfield, 9999⟩) (.switchClosure 20 false)).switch 20).latch = true ∧
    (after (waits play ⟨20, true, .playfield, 9999⟩) (.switchClosure 20 false)).census.save = some ⟨100, .one⟩ := by
  decide +kernel

/-- R93: the entry switch of the scoop counts a ball in, and its settle of 200 ms begins. -/
theorem test_switchClosure_entry : ((after (closing play 8) (.switchClosure 8 false)).device 4).entries = 1 ∧
    ((after (closing play 8) (.switchClosure 8 false)).device 4).settle = some ⟨9999, 200⟩ := by decide +kernel

/-- R7: an opening sets no latch. -/
theorem test_switchOpening :
    ((after (waits play ⟨20, false, .playfield, 9999⟩) (.switchOpening 20 false)).switch 20).latch = false ∧
    (after (waits play ⟨20, false, .playfield, 9999⟩) (.switchOpening 20 false)).scanner.waiting = [] := by decide +kernel

/-- R158, R159: with the parameter at 2 the third counted closure tilts the ball. -/
theorem test_tiltClosure :
    (after (waits play ⟨30, true, .tilt, 9999⟩) (.tiltClosure 30)).current.tiltWarnings = 1 ∧
    (after (waits (player play fun q => { q with tiltWarnings := 2 }) ⟨30, true, .tilt, 9999⟩) (.tiltClosure 30)).game.phase =
      .tilt := by decide +kernel

/-- R162, R163: a slam ends the game. -/
theorem test_slamClosure : (after (waits play ⟨31, true, .slam, 9999⟩) (.slamClosure 31)).game.phase = .idle ∧
    (after (waits play ⟨31, true, .slam, 9999⟩) (.slamClosure 31)).game.current = 0 := by decide +kernel

/-- R8: a slam opening goes nowhere. -/
theorem test_tiltSlamOpening : (after (waits play ⟨31, false, .slam, 9999⟩) (.tiltSlamOpening 31)).game = play.game := by
  decide +kernel

/-- R9, R92: a transition of a trough switch restarts the settle of the trough, 400 ms in profile 0. -/
theorem test_deviceSwitchTransition :
    ((after (waits play ⟨2, false, .device, 9999⟩) (.deviceSwitchTransition 2)).device 0).settle = some ⟨9999, 400⟩ := by
  decide +kernel

/-- R71: a tenth takes 1 from a timer that counts. -/
theorem test_tenth : ((after (withStack play [⟨1, .running, some 5, 0, 0, 0⟩]) .tenth).modes.stack.map ModeInst.remaining) =
    [some 4] := by decide +kernel

/-- R138: a record of a tenth taken 150 ms late carries the time stamp at which the tenth was due. -/
theorem test_tenth_stamp : ((after { withStack play [⟨1, .running, some 1, 0, 0, 0⟩] with
      modes := { (withStack play [⟨1, .running, some 1, 0, 0, 0⟩]).modes with lastTenth := 9750 } } .tenth).events.map
      EventRecord.time) = [9850] := by decide +kernel

/-- R122, R94, R70: in the pause of an arrival's root the mode timers take their tenth and the ball save does not; its tenth is
taken once the root has ended. -/
theorem test_tenth_inArrival :
    let m := withAward (withStack play [⟨1, .running, some 5, 0, 0, 0⟩]) 9
      { plainEntry with trigger := 83, actions := [⟨.trigger, 73⟩] }
    let m := { m with
      modes := { m.modes with lastTenth := 9900 }
      census := { m.census with lastTenth := 9900, save := some ⟨5, .one⟩ } }
    let s := after (m.onDevice 3 fun v => { v with settled := 1, arrivals := [9990] }) (.arrival 3 true)
    s.engine.triggers = [73] ∧ (after s .tenth).modes.stack.map ModeInst.remaining = [some 4] ∧
      (after s .tenth).census = s.census ∧ (after (after s .tenth).idle .tenth).census.save = some ⟨4, .one⟩ ∧
      (after (after s .tenth).idle .tenth).modes.stack.map ModeInst.remaining = [some 4] := by decide +kernel

/-- R73: an instance at 0 ends. -/
theorem test_modeTimeout : (after (withStack play [⟨1, .running, some 0, 0, 0, 0⟩]) .modeTimeout).modes.stack = [] := by
  decide +kernel

/-- R122: a save at 0 ends. -/
theorem test_ballSaveExpired :
    (after { play with census := { play.census with save := some ⟨0, .one⟩ } } .ballSaveExpired).census.save = none := by
  decide +kernel

/-- R92: the trough's count falls to what its switches show once its settle has run out. -/
theorem test_settleExpired :
    ((after (play.onDevice 0 fun v => { v with settle := some ⟨9600, 400⟩ }) (.settleExpired 0)).device 0).settled = 0 ∧
    (after (play.onDevice 0 fun v => { v with settle := some ⟨9600, 400⟩ }) (.settleExpired 0)).census.playfield = 4 := by
  decide +kernel

/-- R124, R125: the last ball drained unsaved ends the ball. -/
theorem test_arrival : (after ({ play with census := { play.census with playfield := 0, validated := true } }.onDevice 0 fun v =>
    { v with settled := 4, arrivals := [9990] }) (.arrival 0 false)).game.phase = .ballOver := by decide +kernel

/-- R98: a RETURN order queued 1,000 ms ago on the saucer of profile 5 is ready. -/
theorem test_holdOffExpired : (after (play.onDevice 3 fun v => { v with state := .ejectWait, queue := [⟨.return, 9000, false⟩] })
    (.holdOffExpired 3)).devices.ready = [⟨3, 10000⟩] := by decide +kernel

/-- The saucer with a HOST order at the front of the ready line. -/
def lined : State :=
  { play.onDevice 3 fun v => { v with state := .ejectWait, queue := [⟨.host, 9000, false⟩] } with
    devices := { (play.onDevice 3 fun v => { v with state := .ejectWait, queue := [⟨.host, 9000, false⟩] }).devices with
      ready := [⟨3, 9000⟩] } }

/-- R99, R97: the front of the line is granted and pulses for the 12 ms of profile 5; its coil is energized. -/
theorem test_coilGrant : ((after lined .coilGrant).device 3).timer = some ⟨10000, 12⟩ ∧
    (after lined .coilGrant).coilEnable 3 = true ∧ (after lined .coilGrant).devices.ready = [] := by decide +kernel

/-- Device `d` in state `st` with a head order and a timer that has just run out. -/
def running (d : Nat) (st : DeviceState) (base settled retries : Nat) : State :=
  { play with devices := { play.devices with granted := if st = DeviceState.pulsing then [d] else [] } }.onDevice d fun v =>
    { v with state := st, queue := [⟨.host, 9000, false⟩], timer := some ⟨9000, 1000⟩, base := base, settled := settled,
             accounted := settled, retries := retries }

/-- R100, R101: after its pulse the trough waits 1,000 ms for its confirmation. -/
theorem test_pulseEnd : ((after (running 0 .pulsing 3 3 0) (.pulseEnd 0)).device 0).state = .confirming ∧
    ((after (running 0 .pulsing 3 3 0) (.pulseEnd 0)).device 0).timer = some ⟨10000, 1000⟩ := by decide +kernel

/-- R103: the trough retries 3 times in profile 0, then it is in FAULT. -/
theorem test_confirmWindowEnd : ((after (running 0 .confirming 3 3 2) (.confirmWindowEnd 0)).device 0).state = .retryWait ∧
    ((after (running 0 .confirming 3 3 3) (.confirmWindowEnd 0)).device 0).state = .fault := by decide +kernel

/-- R104: the retry interval has run out. -/
theorem test_retryIntervalEnd : (after (running 0 .retryWait 3 3 1) (.retryIntervalEnd 0)).devices.ready = [⟨0, 10000⟩] := by
  decide +kernel

/-- The saucer after a SEARCH pulse that found a ball. -/
def searched : State :=
  play.onDevice 3 fun v => { v with state := .confirming, searching := true, timer := some ⟨9900, 100⟩, settled := 1 }

/-- R107: the ball that came in meanwhile is an arrival. -/
theorem test_searchWindowEnd : ((after searched (.searchWindowEnd 3)).device 3).arrivals = [10000] ∧
    ((after searched (.searchWindowEnd 3)).device 3).state = .idle := by decide +kernel

/-- The small machine with both quiet clocks at the 20 s of the search delay. -/
def quietPlay : State := { play with scanner := { play.scanner with now := 20000, quiet := 20000 } }

/-- R165, R166: the search arms; the shooter, empty and IDLE, is asked first. -/
theorem test_searchArm : (after quietPlay .searchArm).game.search.inFlight = some 1 ∧
    (after quietPlay .searchArm).game.search.round = 1 ∧
    (after { quietPlay with scanner := { quietPlay.scanner with quiet := 19999 } } .searchArm) =
      { quietPlay with scanner := { quietPlay.scanner with quiet := 19999 } } := by decide +kernel

/-- The small machine in a search, device 3 being next. -/
def inSearch (p : SearchPhase) (round : Nat) (last : Option Stamp) : State :=
  { play with game := { play.game with search := { play.game.search with
      phase := p, round := round, nextDevice := 3, lastGrant := last, began := 5000 } } }

/-- R166: 400 ms after a grant device 3 gets its SEARCH order; 399 ms after it nothing happens. -/
theorem test_searchStep : (after (inSearch .round 1 (some 9600)) .searchStep).game.search.inFlight = some 3 ∧
    (after (inSearch .round 1 (some 9601)) .searchStep).game.search.inFlight = none := by decide +kernel

/-- R166, R168, R119: after round 5 the search fails, and the playfield ball is missing; a replacement is served. -/
theorem test_searchPauseEnd : (after (inSearch .pause 5 none) .searchPauseEnd).census.missing = 1 ∧
    ((after (inSearch .pause 5 none) .searchPauseEnd).device 0).queue = [⟨.serve, 10000, true⟩] := by decide +kernel

/-- R171 to R175: a whole READ_STATUS frame waits to be handed on. -/
theorem test_requestFrame : (after { play with link := { play.link with
      frames := [[2, 20, 7] ++ checkBytes [2, 20, 7]] } } .requestFrame).link.slots = [.waiting ⟨20, 7, []⟩] := by
  decide +kernel

/-- R174, R175: a request is not answered while a break lasts, nor ahead of a frame completed before it. -/
theorem test_readStatus_waits : (after (after play .lineBreak) (.readStatus 7 [])).link.slots = [] ∧
    (after { play with link := { play.link with frames := [[2, 20, 7] ++ checkBytes [2, 20, 7]] } } (.readStatus 8 [])).link.slots =
      [] := by decide +kernel

/-- R171, R175: a reply of one payload byte is seven bytes; the last frees its slot, and REPLY_SENT sends all still to go. -/
theorem test_replySent : (Link.sendByte { (withSlots play [.ready ⟨1, 1, [0]⟩]).link with sent := 5 }).sent = 6 ∧
    (Link.sendByte { (withSlots play [.ready ⟨1, 1, [0]⟩]).link with sent := 6 }).slots = [] ∧
    (after (withSlots play [.ready ⟨1, 1, [0]⟩]) .replySent).link = play.link := by decide +kernel

/-- R173: the lead byte begins a frame; a gap ends it. -/
theorem test_byteReceived : (after play (.byteReceived 251)).link.receiver = .awaitLength ∧
    (after (after play (.byteReceived 251)) .interByteGap).link.receiver = .hunt := by decide +kernel

/-- R174: a break lets no byte in; its end does. -/
theorem test_lineBreak : (after (after play .lineBreak) (.byteReceived 251)).link.receiver = .hunt ∧
    (after (after (after play .lineBreak) .lineBreakEnd) (.byteReceived 251)).link.receiver = .awaitLength := by decide +kernel

/-- R174, R191: a long break resets the part, with cause BREAK. -/
theorem test_longBreak : (after (after play .lineBreak) .longBreak).events = [⟨.restartedSoft, 0, 0, 10000, 1, 0⟩] := by
  decide +kernel

/-- R187, R178: RESTART is answered OK, and the reset follows its reply. -/
theorem test_restart : lastReply (after play (.restartRequest 7 [])) = some [0] ∧
    (after (after play (.restartRequest 7 [])) .replySent).game.phase = .idle := by decide +kernel

/-- R193: type 28 is unknown. -/
theorem test_unknownType : lastReply (after play (.unknownType 28 7 [])) = some [3, 1, 0, 0, 0, 0] := by decide +kernel

/-- R12: a debounce of 40 is held to 32, with CLAMPED. -/
theorem test_setSwitch : lastReply (after idle (.setSwitch 7 [20, 40, 0, 2, 0, 2, 1])) = some [1] ∧
    ((after idle (.setSwitch 7 [20, 40, 0, 2, 0, 2, 1])).switch 20).record = ⟨32, 2, .tilt, .close⟩ := by decide +kernel

/-- R15: the second 20 is a repeat, field 5. -/
theorem test_setGroup : ((after idle (.setGroup 7 [1, 1, 2, 20, 21])).group 1) = ⟨[20, 21], true⟩ ∧
    lastReply (after idle (.setGroup 7 [1, 1, 2, 20, 20])) = some [3, 3, 5, 0, 0, 0] := by decide +kernel

/-- R130: definition 1 with target 3, save time 300 and start mode 4. -/
theorem test_setMultiball : (after idle (.setMultiball 7 [1, 1, 3, 1, 44, 1, 1, 4, 0])).multiballDef 1 =
    ⟨true, 3, true, 300, some 4, false⟩ := by decide +kernel

/-- R89: a saucer that names switch 5 twice is refused at field 32. -/
theorem test_setDevice : lastReply (after idle (.setDevice 7 ([3, 4, 5, 3, 0, 0, 0, 0, 0, 0] ++ List.replicate 8 0 ++ [2, 5, 5]))) =
    some [3, 3, 32, 0, 0, 0] := by decide +kernel

/-- R143: a payload cut short has the wrong length. -/
theorem test_setGame : lastReply (after idle (.setGame 7 [4, 3])) = some [3, 2, 0, 0, 0, 0] ∧
    lastReply (after play (.setGame 7 [4, 3])) = some [2] := by decide +kernel

/-- R65: a mode number of 16 is out of range, field 1. -/
theorem test_setMode : lastReply (after idle (.setMode 7 (16 :: List.replicate 30 0))) = some [3, 3, 1, 0, 0, 0] := by
  decide +kernel

/-- R25, R26: a FIXED base of 505 is rounded to 500, with CLAMPED. -/
theorem test_setAward : lastReply (after idle (.setAward 7
      [9, 2, 72, 0, 0, 0, 0, 0, 0, 0xF9, 1, 0, 0, 0, 0, 0, 0, 0, 0])) = some [1] ∧
    ((after idle (.setAward 7 [9, 2, 72, 0, 0, 0, 0, 0, 0, 0xF9, 1, 0, 0, 0, 0, 0, 0, 0, 0])).award 9).base = 500 := by
  decide +kernel

/-- R184: selection MODES clears the modes. -/
theorem test_clearTables : ((after (withMode idle 3 plainMode) (.clearTables 7 [1])).modeDef 3).defined = false := by
  decide +kernel

/-- R148, R149, R150: a game starts in SERVE with a serve queued on the trough. -/
theorem test_startGame : (after idle (.startGame 7 [])).game.phase = .serve ∧
    ((after idle (.startGame 7 [])).device 0).queue = [⟨.serve, 10000, false⟩] := by decide +kernel

/-- R152: a second player on ball 1. -/
theorem test_addPlayer : (after play (.addPlayer 7 [])).game.players.length = 2 := by decide +kernel

/-- R154, R155: after ball 3 of the one player the game is over. -/
theorem test_nextBall : (after (inPhase .ballOver) (.nextBall 7 [])).game.ballNumber = 2 ∧
    (after { inPhase .ballOver with game := { (inPhase .ballOver).game with ballNumber := 3 } } (.nextBall 7 [])).game.phase =
      .idle := by decide +kernel

/-- R164: END_GAME in IDLE is refused. -/
theorem test_endGame : lastReply (after idle (.endGame 7 [])) = some [3, 4, 0, 0, 0, 0] ∧
    (after play (.endGame 7 [])).game.phase = .idle := by decide +kernel

/-- R185, R33: trigger 72 walks the entry worth 500. -/
theorem test_triggerRequest : (after (withAward play 9 plainEntry) (.triggerRequest 7 ⟨[72], false⟩)).current.score = 500 := by
  decide +kernel

/-- R58, R186: a grant of 5,005 is rounded to 5,000, with CLAMPED. -/
theorem test_grantRequest : lastReply (after play (.grantRequest 7 [0x8D, 0x13, 0, 0, 0, 0, 0])) =
    some [1, 1, 0x88, 0x13, 0, 0, 0, 0, 0x88, 0x13, 0, 0, 0, 0] := by decide +kernel

/-- R84: the start of a defined mode, and of an undefined one. -/
theorem test_modeControl : lastReply (after (withMode play 3 plainMode) (.modeControl 7 ⟨[3, 0], false⟩)) = some [0, 0] ∧
    lastReply (after play (.modeControl 7 ⟨[3, 0], true⟩)) = some [0, 2] := by decide +kernel

/-- R57, R190: the completion of mode 3 ends the request before the walk of trigger 91; a GRANT and a FETCH_EVENTS are taken
before that walk, which scores 500. -/
theorem test_modeControl_pauses :
    let s := after (withAward (staged .running 2) 9 { plainEntry with trigger := 91 }) (.modeControl 7 ⟨[3, 2], true⟩)
    lastReply s = some [0, 1] ∧ s.engine.root = some ⟨91, 0, 10000⟩ ∧
      (after s (.grantRequest 8 [0x88, 0x13, 0, 0, 0, 0, 0])).current.score = 5000 ∧
      (lastReply (after s (.fetchEvents 8 []))).map (List.take 1) = some [0] ∧
      s.current.score = 0 ∧ s.idle.current.score = 500 ∧ s.idle.engine.root = none := by decide +kernel

/-- The scoop with three balls confirms one eject at its exit switch 9: two arrivals, whose trigger 84 completes mode 3. -/
def exiting : State :=
  let s := (running 4 .confirming 1 3 0).onDevice 4 fun v => { v with accounted := 1 }
  closing { s with modes := (staged .running 2).modes
                   engine := (withAward play 9 { plainEntry with trigger := 84, actions := [⟨.modeProgress, 3⟩] }).engine } 9

/-- R6, R32, R70, R190: the hand-on pauses at the root of the first arrival, with the second still due. FETCH_EVENTS is taken,
TRIGGER is not. It pauses again when the one walk of the second has ended, and the idle steps work it to its end (R44). -/
theorem test_switchClosure_pauses :
    let s := after exiting (.switchClosure 9 true)
    s.engine.paused = some (.closure ⟨9, true, .playfield, 9999⟩ 4) ∧ (s.device 4).arrivals = [9999] ∧ s.engine.triggers = [91] ∧
      (after s (.fetchEvents 8 [])).link ≠ s.link ∧ (after s (.triggerRequest 8 ⟨[72], false⟩)) = s ∧
      s.idle.engine.root = none ∧ (s.idle.idle.device 4).arrivals = [] ∧ s.idle.idle.engine.root = none ∧
      s.idle.idle.engine.paused = s.engine.paused ∧ s.idle.idle.idle.engine.paused = none ∧
      (s.idle.idle.switch 9).latch = true := by decide +kernel

/-- Entry 9 of trigger 72 raises trigger 73, whose entry 10 is worth 500; a tenth is due. -/
def raising : State :=
  let s := withAward (withAward play 9 { plainEntry with source := .none, actions := [⟨.trigger, 73⟩] }) 10
    { plainEntry with trigger := 73 }
  { s with modes := { s.modes with lastTenth := 9900 } }

/-- R70, R185: the TRIGGER pauses between its two walks and is in hand. The tenth is taken there, FETCH_EVENTS is not; the idle
steps make the walk of trigger 73 and answer WALKED. -/
theorem test_triggerRequest_pauses :
    let s := after raising (.triggerRequest 7 ⟨[72], true⟩)
    s.inHand = true ∧ s.link.slots = [.waiting ⟨13, 7, [72]⟩] ∧ s.engine.triggers = [73] ∧
      (after s .tenth).modes.lastTenth = 10000 ∧ after s (.fetchEvents 8 []) = s ∧
      s.idle.current.score = 500 ∧ s.idle.inHand = true ∧ s.idle.idle.inHand = false ∧
      s.idle.idle = after raising (.triggerRequest 7 ⟨[72], false⟩) ∧ lastReply s.idle.idle = some [0, 0] := by decide +kernel

/-- R147: a playfield multiplier of 9 is held to 5, with CLAMPED. -/
theorem test_setPlayer : lastReply (after play (.setPlayer 7 [1, 4, 9, 0, 0, 0, 0, 0])) = some [1] ∧
    (after play (.setPlayer 7 [1, 4, 9, 0, 0, 0, 0, 0])).current.playfieldMult = 5 := by decide +kernel

/-- R111: a HOST order for the saucer, and none for device 7, which is not configured. -/
theorem test_ejectRequest : ((after play (.ejectRequest 7 [3])).device 3).queue = [⟨.host, 10000, false⟩] ∧
    lastReply (after play (.ejectRequest 7 [7])) = some [3, 5, 0, 7, 0, 0] := by decide +kernel

/-- R105: the saucer leaves FAULT for its head order. -/
theorem test_clearFault : ((after (running 3 .fault 0 1 3) (.clearFault 7 ⟨[3], false⟩)).device 3).state = .ejectWait := by decide +kernel

/-- The saucer in FAULT with a ball not accounted for; its trigger 83 raises trigger 73. -/
def faulted : State :=
  let s := (running 3 .fault 0 1 3).onDevice 3 fun v => { v with accounted := 0 }
  { s with engine := (withAward play 9 { plainEntry with trigger := 83, actions := [⟨.trigger, 73⟩] }).engine }

/-- R105, R70: CLEAR_FAULT pauses after the walk of its arrival, the saucer still in FAULT, and ends with the idle steps. -/
theorem test_clearFault_pauses :
    let s := after faulted (.clearFault 7 ⟨[3], true⟩)
    s.inHand = true ∧ s.engine.triggers = [73] ∧ (s.device 3).state = .fault ∧ s.current.score = 500 ∧
      s.idle.inHand = true ∧ (s.idle.device 3).state = .fault ∧ (s.idle.idle.device 3).state = .ejectWait ∧
      s.idle.idle = after faulted (.clearFault 7 ⟨[3], false⟩) ∧ lastReply s.idle.idle = some [0] := by decide +kernel

/-- `faulted` with its CLEAR_FAULT in hand after the two walks of its arrival, and then a scan at 10,001 with no contact closed. -/
def faultPaused : State :=
  after (after faulted (.clearFault 7 ⟨[3], true⟩)).idle (.switchScan ⟨.replicate 8 0, 0⟩)

/-- R112: FAULT_CLEARED carries the time stamp of the request that was taken at 10,000, with a scan made before the request ends. -/
theorem test_clearFault_stamp :
    faultPaused.scanner.now = 10001 ∧ faultPaused.inHand = true ∧ faultPaused.idle.inHand = false ∧
      faultPaused.idle.events.getLast? = some ⟨.deviceFaultCleared, 1, 3, 10000, 0, 0⟩ := by decide +kernel

/-- R183: all latches are cleared. -/
theorem test_clearLatches :
    ((after (play.onSwitch 20 fun w => { w with latch := true }) (.clearLatches 7 [0, 0])).switch 20).latch = false := by
  decide +kernel

/-- R181: player 2 does not exist; player 5 is out of range. -/
theorem test_readPlayer : lastReply (after play (.readPlayer 7 [2])) = some (List.replicate 30 0) ∧
    lastReply (after play (.readPlayer 7 [5])) = some [3, 3, 1, 0, 0, 0] := by decide +kernel

/-- R85: the stack of the small machine is empty. -/
theorem test_readModes : lastReply (after play (.readModes 7 [0, 0])) = some [0, 0, 0] := by decide +kernel

/-- R180: a STATUS reply begins with OK and the time stamp, then PLAY, FLIPEN, 1 player, current 1, ball 1. -/
theorem test_readStatus : (lastReply (after play (.readStatus 7 []))).map (List.take 10) =
    some [0, 0x10, 0x27, 0, 0, 2, 1, 1, 1, 1] := by decide +kernel

/-- R91: a saucer's reply begins with its role and profile. -/
theorem test_readDevice : (lastReply (after play (.readDevice 7 [3]))).map (List.take 5) = some [0, 4, 5, 1, 7] := by
  decide +kernel

/-- R27: an EMPTY entry has no successor. -/
theorem test_readAward : (lastReply (after play (.readAward 7 [9]))).map (List.take 4) = some [0, 9, 0, 0] := by decide +kernel

/-- R182: 72 switches, three bytes each. -/
theorem test_readSwitches : (lastReply (after play (.readSwitches 7 []))).map List.length = some 217 := by decide +kernel

/-- R190: the one record of a hard reset, and none left. -/
theorem test_fetchEvents : lastReply (after State.reset (.fetchEvents 7 [])) =
    some [0, 1, 0, 15, 1, 0, 0, 0, 0, 0, 0, 0, 0, 0, 0, 0, 0, 0, 0] := by decide +kernel

/-- R173: a framing error in a frame discards it. -/
theorem test_framingError : (after (after play (.byteReceived 251)) .framingError).link.receiver = .hunt := by decide +kernel

/-- The table gives no row any bits. -/
theorem test_decodeTableWord : decodeTableWord 8 251 = none := by decide

/-! ### Witnesses: states and operands that meet the hypotheses of the statements -/

/-- The small machine with transition `t` waiting alone, for a switch that no device and no entry names. -/
def handing (p : Phase) (closed : Bool) (r : Role) : State := waits (inPhase p) ⟨40, closed, r, 9999⟩

theorem witness_StepRunsFrontCommand :
    { play with pending := [Instr.tenth, .lineBreak] }.pending = Instr.tenth :: [.lineBreak] ∧ play.pending = [] := by
  decide +kernel

theorem witness_SoftResetsFollow_break : ((after play .lineBreak).link.inBreak = true ∧
      (after play .lineBreak).link.breakTaken = false) ∧
    (after (after play .lineBreak) .longBreak).link.inBreak = true ∧
      (after (after play .lineBreak) .longBreak).link.breakTaken = true := by decide +kernel

theorem witness_SoftResetsFollow_reply :
    (withSlots play [.ready ⟨27, 7, [0]⟩]).link.slots = .ready ⟨27, 7, [0]⟩ :: [] ∧
      (withSlots play [.ready ⟨27, 7, [0]⟩]).link.restarting = false ∧
    (after play (.restartRequest 7 [])).link.slots = .ready ⟨27, 7, [0]⟩ :: [] ∧
      (after play (.restartRequest 7 [])).link.restarting = true := by decide +kernel

theorem witness_ScanDebounces : play.scanner.started = true ∧
    (play.roleOf 20 ≠ .unused ∧ (play.switch 20).count + 1 < (play.switch 20).record.closeDebounce) ∧
    ((play.onSwitch 71 fun w => { w with count := 2 }).switch 71).record.closeDebounce ≤
      ((play.onSwitch 71 fun w => { w with count := 2 }).switch 71).count + 1 ∧
    (play.onSwitch 0 fun w => { w with record := { w.record with role := .unused } }).roleOf 0 = .device ∧
    (play.onSwitch 20 fun w => { w with record := { w.record with role := .unused } }).roleOf 20 = .unused := by
  decide +kernel

theorem witness_ScanDebounces_first : State.reset.scanner.started = false := by decide

theorem witness_HandOnTakesTransition :
    (handing .play true .playfield).waitingOf 40 = some ⟨40, true, .playfield, 9999⟩ ∧
    (handing .play true .cabinet).waitingOf 40 = some ⟨40, true, .cabinet, 9999⟩ ∧
    (handing .idle false .playfield).waitingOf 40 = some ⟨40, false, .playfield, 9999⟩ ∧
    (handing .play true .tilt).waitingOf 40 = some ⟨40, true, .tilt, 9999⟩ ∧
    (handing .play true .slam).waitingOf 40 = some ⟨40, true, .slam, 9999⟩ ∧
    (handing .play false .slam).waitingOf 40 = some ⟨40, false, .slam, 9999⟩ ∧
    (handing .play false .device).waitingOf 40 = some ⟨40, false, .device, 9999⟩ := by decide +kernel

/-- What ClosureInPlay asks of a state about switch 40, beside the empty chain of witness_chains. -/
abbrev closureHypotheses (s : State) (r : Role) : Prop :=
  s.waitingOf 40 = some ⟨40, true, r, 9999⟩ ∧ s.quietEngine = true ∧ s.inPlay = true ∧ s.engine.triggers = [] ∧
    (∀ d < Config.deviceCount, s.configured d = true →
      (s.device d).record.entrySwitch ≠ some 40 ∧ (s.device d).record.exitSwitch ≠ some 40)

theorem witness_ClosureInPlay : closureHypotheses (handing .serve true .playfield) .playfield ∧
    closureHypotheses (handing .play true .cabinet) .cabinet := by decide +kernel

/-- Entry 200 is the one entry of trigger `t`: plain, of edge `edge`, with condition `c`. -/
def walked (s : State) (t : Nat) (edge : Edge) (c : Option Condition) : State :=
  withAward s 200 { plainEntry with trigger := t, edge := edge, condition := c }

/-- What the clauses on a walk of trigger `t` ask of the award table and the players. -/
abbrev walkHypotheses (s : State) (t : Nat) (edge : Edge) : Prop :=
  s.chain t = [200] ∧ (s.award 200).Plain edge ∧ (s.player? s.game.current).isSome = true

theorem witness_ClosureInPlay_walk :
    (closureHypotheses (walked (handing .serve true .playfield) 40 .close (some ⟨.latch, 40, none, .whenSet⟩)) .playfield ∧
      walkHypotheses (walked (handing .serve true .playfield) 40 .close (some ⟨.latch, 40, none, .whenSet⟩)) 40 .close) ∧
    (closureHypotheses (walked (handing .play true .cabinet) 40 .close none) .cabinet ∧
      walkHypotheses (walked (handing .play true .cabinet) 40 .close none) 40 .close) ∧
    closureHypotheses (walked (handing .play true .cabinet) 40 .opening none) .cabinet ∧
      walkHypotheses (walked (handing .play true .cabinet) 40 .opening none) 40 .opening := by
  refine ⟨⟨?_, ?_⟩, ⟨?_, ?_⟩, ?_, ?_⟩ <;> decide +kernel

/-- The saucer on switch 7 with an entry and an exit switch beside it. -/
def gateRecord : DeviceRecord := { saucerRecord with entrySwitch := some 11, exitSwitch := some 12 }
/-- The blind lock with an exit switch beside its entry switch. -/
def blindExitRecord : DeviceRecord := { blindRecord with exitSwitch := some 13 }

/-- Device `d` runs, with record `r`, as switch `i` closes. -/
def passing (r : DeviceRecord) (d : Nat) (st : DeviceState) (base settled retries i : Nat) : State :=
  closing ((running d st base settled retries).onDevice d fun v => { v with record := r }) i

/-- What the second clause of ClosureInPlay asks of a state, beside the empty chain of witness_ClosureInPlay_chains. -/
def deviceClosureHypotheses (s : State) (i d : Nat) : Bool :=
  s.waitingOf i == some ⟨i, true, .playfield, 9999⟩ && s.quietEngine && s.inPlay && s.engine.triggers == [] &&
    s.configured d && s.devices.launchOwed == 0 && !(s.device d).searchWaits &&
    (List.range Config.deviceCount).all fun e => e == d || !s.configured e ||
      (s.device e).record.entrySwitch != some i && (s.device e).record.exitSwitch != some i

theorem witness_ClosureInPlay_entry :
    deviceClosureHypotheses (passing gateRecord 3 .pulsing 1 1 0 11) 11 3 ∧ gateRecord.figures.counting = .positions ∧
    deviceClosureHypotheses (closing play 8) 8 4 ∧ scoopRecord.figures.counting = .entryExit ∧
    deviceClosureHypotheses (closing play 10) 10 5 ∧ blindRecord.figures.counting = .entryBlind ∧
    deviceClosureHypotheses (passing blindRecord 5 .pulsing 1 1 0 10) 10 5 ∧
    deviceClosureHypotheses (passing blindRecord 5 .confirming 1 1 0 10) 10 5 ∧
    ((passing blindRecord 5 .confirming 1 1 0 10).device 5).settled = ((passing blindRecord 5 .confirming 1 1 0 10).device 5).base := by
  decide +kernel

theorem witness_ClosureInPlay_exit :
    deviceClosureHypotheses (passing blindExitRecord 5 .pulsing 1 1 0 13) 13 5 ∧
    deviceClosureHypotheses (passing gateRecord 3 .pulsing 1 1 0 12) 12 3 ∧
      ((passing gateRecord 3 .pulsing 1 1 0 12).device 3).evidence = none ∧
      ((passing gateRecord 3 .pulsing 1 1 0 12).device 3).searching = false ∧
    deviceClosureHypotheses (passing gateRecord 3 .fault 0 1 0 12) 12 3 ∧
    (∀ n < 2, deviceClosureHypotheses (passing scoopRecord 4 .idle 0 n 0 9) 9 4) ∧
    ((passing scoopRecord 4 .idle 0 1 0 9).device 4).settled = ((passing scoopRecord 4 .idle 0 1 0 9).device 4).accounted ∧
    deviceClosureHypotheses (passing scoopRecord 4 .ejectWait 0 1 0 9) 9 4 ∧
    deviceClosureHypotheses (passing scoopRecord 4 .fault 0 1 0 9) 9 4 ∧
    deviceClosureHypotheses (passing scoopRecord 4 .pulsing 1 1 0 9) 9 4 ∧
    deviceClosureHypotheses (passing scoopRecord 4 .confirming 1 1 0 9) 9 4 ∧
    deviceClosureHypotheses (passing scoopRecord 4 .retryWait 1 1 0 9) 9 4 := by decide +kernel

/-- The transition of switch 40 with the report setting given. -/
def reporting (p : Phase) (closed : Bool) (setting : Report) : State :=
  (handing p closed .playfield).onSwitch 40 fun w => { w with record := { w.record with report := setting } }

theorem witness_HandOnTakesTransition_report :
    (reporting .ballOver true .close).quietEngine = true ∧
    (reporting .ballOver true .close).waitingOf 40 = some ⟨40, true, .playfield, 9999⟩ ∧
    (reporting .ballOver true .close).reportedEvents ⟨40, true, .playfield, 9999⟩ = [⟨.switchClosed, 0, 40, 9999, 0, 0⟩] ∧
    (reporting .idle false .both).waitingOf 40 = some ⟨40, false, .playfield, 9999⟩ ∧
    (reporting .idle false .both).reportedEvents ⟨40, false, .playfield, 9999⟩ = [⟨.switchOpened, 0, 40, 9999, 0, 0⟩] ∧
    (reporting .idle false .close).reportedEvents ⟨40, false, .playfield, 9999⟩ = [] ∧
    (reporting .play true .none).reportedEvents ⟨40, true, .playfield, 9999⟩ = [] := by decide +kernel

theorem witness_TransitionOutOfPlayNotWalked_score :
    (player (handing .tilt true .playfield) fun q => { q with score := 99999999990 }).ScoresHeld ∧
    (player (handing .tilt true .playfield) fun q => { q with score := 99999999990 }).inPlay = false ∧
    (player (handing .tilt true .playfield) fun q => { q with score := 99999999990 }).waitingOf 40 =
      some ⟨40, true, .playfield, 9999⟩ := by decide +kernel

theorem witness_TransitionOutOfPlayNotWalked :
    (handing .tilt true .playfield).waitingOf 40 = some ⟨40, true, .playfield, 9999⟩ ∧ (handing .tilt true .playfield).inPlay = false ∧
    (handing .idle false .cabinet).waitingOf 40 = some ⟨40, false, .cabinet, 9999⟩ ∧ (handing .idle false .cabinet).inPlay = false := by
  decide +kernel

theorem witness_OpeningsReported :
    ((handing .play false .playfield).waitingOf 40 = some ⟨40, false, .playfield, 9999⟩ ∧
      (handing .play false .playfield).quietEngine = true ∧ (handing .play false .playfield).inPlay = true ∧
      (handing .play false .playfield).engine.triggers = []) ∧
    ((handing .idle false .playfield).waitingOf 40 = some ⟨40, false, .playfield, 9999⟩ ∧
      (handing .idle false .playfield).quietEngine = true ∧ (handing .idle false .playfield).game.phase = .idle ∧
      (handing .idle false .playfield).SearchLaw ∧ (handing .ballOver false .cabinet).quietEngine = true ∧
      (handing .ballOver false .cabinet).game.phase = .ballOver ∧ (handing .ballOver false .cabinet).SearchLaw) ∧
    ((handing .tilt false .cabinet).waitingOf 40 = some ⟨40, false, .cabinet, 9999⟩ ∧
      (handing .tilt false .cabinet).quietEngine = true ∧ (handing .tilt false .cabinet).game.phase = .tilt) ∧
    (handing .play false .tilt).waitingOf 40 = some ⟨40, false, .tilt, 9999⟩ ∧ (handing .play false .tilt).quietEngine = true := by
  decide +kernel

theorem witness_OpeningsReported_walk : ∀ e : Bool,
    let edge := if e then Edge.opening else .close
    let s := walked (handing .play false .playfield) 40 edge none
    s.waitingOf 40 = some ⟨40, false, .playfield, 9999⟩ ∧ s.quietEngine = true ∧ s.inPlay = true ∧ s.engine.triggers = [] ∧
      walkHypotheses s 40 edge := by decide +kernel

/-- A tilt closure waits, the last counted one having come at `last`, with `n` warnings given. -/
def tilting (last : Option Stamp) (n : Nat) : State :=
  { handing .play true .tilt with game := { (handing .play true .tilt).game with
      lastTilt := last, players := [{ Player.start .default with tiltWarnings := n }] } }

theorem witness_TiltClosureWarnsOrTilts :
    ((handing .idle true .tilt).waitingOf 40 = some ⟨40, true, .tilt, 9999⟩ ∧ (handing .idle true .tilt).quietEngine = true ∧
      (handing .idle true .tilt).inPlay = false) ∧
    ((tilting (some 9000) 0).quietEngine = true ∧ elapsed 9999 9000 < 1000) ∧
    ((tilting (some 8999) 1).waitingOf 40 = some ⟨40, true, .tilt, 9999⟩ ∧ (tilting (some 8999) 1).inPlay = true ∧
      1000 ≤ elapsed 9999 8999 ∧
      (tilting (some 8999) 1).player? (tilting (some 8999) 1).game.current = some { Player.start .default with tiltWarnings := 1 } ∧
      1 + 1 ≤ (tilting (some 8999) 1).game.params.tiltWarnings) ∧
    (tilting none 2).player? (tilting none 2).game.current = some { Player.start .default with tiltWarnings := 2 } ∧
      (tilting none 2).game.params.tiltWarnings < 2 + 1 ∧ (tilting none 2).game.lastTilt = none := by decide +kernel

/-- No request waits, a slot is free, the line and the receiver are at rest, and no work has paused. -/
abbrev offersAny (s : State) : Prop :=
  s.link.restarting = false ∧ s.engine.paused = none ∧ firstWaiting s.link.slots = none ∧
    s.link.slots.length < Config.replySlots ∧ s.link.inBreak = false ∧ s.link.receiver = .hunt ∧ s.link.frames = []

/-- A free slot and no waiting request offer every request. -/
theorem offers_of_offersAny (s : State) (h : offersAny s) (r : Request) : s.Offers r :=
  ⟨h.1, by simp [State.inHand, h.2.1], fun _ => h.2.1, .inr h.2.2⟩

theorem witness_Offers : offersAny play ∧ offersAny idle ∧ (∀ p : Fin 5, offersAny (inPhase ([.idle, .serve, .play, .tilt, .ballOver][p])))
    ∧ offersAny (withSlots play [.ready ⟨1, 1, [0]⟩, .ready ⟨1, 1, [0]⟩, .ready ⟨1, 1, [0]⟩]) := by decide +kernel

theorem witness_Offers_waiting :
    (withSlots play [.ready ⟨1, 1, [0]⟩, .waiting ⟨20, 7, []⟩, .waiting ⟨9, 8, []⟩]).Offers ⟨20, 7, []⟩ ∧
    ¬(withSlots play [.ready ⟨1, 1, [0]⟩, .waiting ⟨20, 7, []⟩]).Offers ⟨9, 8, []⟩ := by
  unfold State.Offers; decide +kernel

theorem witness_Offers_break : ¬(after play .lineBreak).Offers ⟨20, 7, []⟩ := by unfold State.Offers; decide +kernel

theorem witness_SlamAndEndGameEndTheGame :
    ((handing .tilt true .slam).waitingOf 40 = some ⟨40, true, .slam, 9999⟩ ∧ (handing .tilt true .slam).quietEngine = true ∧
      (handing .tilt true .slam).game.phase ≠ .idle) ∧
    ((handing .idle true .slam).waitingOf 40 = some ⟨40, true, .slam, 9999⟩ ∧ (handing .idle true .slam).quietEngine = true ∧
      (handing .idle true .slam).game.phase = .idle ∧ (handing .idle true .slam).SearchLaw) ∧
    (offersAny (inPhase .ballOver) ∧ (inPhase .ballOver).game.phase ≠ .idle) ∧ offersAny idle ∧ idle.game.phase = .idle := by
  decide +kernel

theorem witness_DeviceTransitionRestartsSettle :
    (waits play ⟨5, true, .device, 9999⟩).waitingOf 5 = some ⟨5, true, .device, 9999⟩ ∧
    (waits play ⟨5, true, .device, 9999⟩).quietEngine = true ∧ play.configured 2 = true ∧
    5 ∈ (play.device 2).record.positions := by decide +kernel

/-- The small machine with the root of trigger `t` in progress. -/
def rooted (t : Nat) : State := { play with engine := { play.engine with root := some ⟨t, 1, 9990⟩ } }

theorem witness_TenthsCountDown :
    100 ≤ elapsed { play with modes := { play.modes with lastTenth := 9900 } }.scanner.now 9900 ∧
    elapsed { play with modes := { play.modes with lastTenth := 9901 } }.scanner.now 9901 < 100 ∧
    100 ≤ elapsed { play with census := { play.census with lastTenth := 9900 } }.scanner.now 9900 ∧ play.engine.root = none ∧
    elapsed { play with census := { play.census with lastTenth := 9901 } }.scanner.now 9901 < 100 ∧
    ((rooted 80).engine.root = some ⟨80, 1, 9990⟩ ∧ (rooted 87).engine.root = some ⟨87, 1, 9990⟩ ∧
      (rooted 79).inArrival = false ∧ (rooted 88).inArrival = false) ∧
    (∃ i ∈ (withStack play [⟨1, .running, some 0, 0, 0, 0⟩]).modes.stack, i.remaining = some 0) ∧
    { play with census := { play.census with save := some ⟨0, .unlimited⟩ } }.census.save = some ⟨0, .unlimited⟩ := by
  decide +kernel

/-- Device `d` with a settle timer that runs out now and `n` pending entries. -/
def settling (d n : Nat) : State := play.onDevice d fun v => { v with settle := some ⟨9600, 400⟩, entries := n }

theorem witness_SettleTakesCount :
    ((settling 0 0).quietEngine = true ∧ (settling 0 0).configured 0 = true ∧
      ((settling 0 0).device 0).settle = some ⟨9600, 400⟩ ∧ 400 ≤ elapsed (settling 0 0).scanner.now 9600 ∧
      ((settling 0 0).device 0).record.figures.counting = .positions ∧ ((settling 0 0).device 0).state = .idle) ∧
    (settling 4 4).quietEngine = true ∧ (settling 4 4).configured 4 = true ∧
      ((settling 4 4).device 4).settle = some ⟨9600, 400⟩ ∧ 400 ≤ elapsed (settling 4 4).scanner.now 9600 ∧
      ((settling 4 4).device 4).record.figures.counting = .entryExit ∧
      ((settling 4 4).device 4).record.figures.capacity < ((settling 4 4).device 4).entries := by decide +kernel

/-- An arrival is due at device `d`, which holds one ball that is not accounted for. -/
def arriving (s : State) (d : Nat) : State := s.onDevice d fun v => { v with settled := v.settled + 1, arrivals := [9990] }

/-- Device `d` in state `st` with settled count 2 as `accounted` and `base` say; its switches are open, its settle has run out, and
one of its balls is locked. -/
def falling (d : Nat) (st : DeviceState) (accounted base : Nat) : State :=
  ((running d st base 2 0).onDevice d fun v => { v with settle := some ⟨9600, 400⟩, accounted := accounted }).setLocked d 1

/-- What SettleTakesCount asks of a state in which the count of device `d` comes to 0. -/
def settleHypotheses (s : State) (d : Nat) : Bool :=
  s.quietEngine && s.configured d && (s.device d).settle == some ⟨9600, 400⟩ && decide (400 ≤ elapsed s.scanner.now 9600) &&
    (s.device d).record.figures.counting == .positions && s.rawCount d == 0 && (s.device d).settled == 2 &&
    !(s.device d).searchWaits && !(s.device d).searching && (s.device d).evidence == none && s.locked d == 1

theorem witness_SettleTakesCount_falls :
    (settleHypotheses (falling 2 .ejectWait 1 0) 2 ∧ ((falling 2 .ejectWait 1 0).device 2).accounted = 1) ∧
    (settleHypotheses (falling 2 .ejectWait 0 0) 2 ∧ ((falling 2 .ejectWait 0 0).device 2).accounted = 0) ∧
    (settleHypotheses (falling 2 .fault 1 0) 2 ∧ settleHypotheses (falling 2 .fault 0 0) 2) ∧
    (settleHypotheses (falling 2 .pulsing 2 1) 2 ∧ ((falling 2 .pulsing 2 1).device 2).base = 1) ∧
    (settleHypotheses (falling 2 .pulsing 2 0) 2 ∧ ((falling 2 .pulsing 2 0).device 2).base = 0) ∧
    settleHypotheses (falling 2 .confirming 2 1) 2 ∧ settleHypotheses (falling 2 .retryWait 2 1) 2 := by decide +kernel

/-- R101, R102, R104, R117: the count falls from 2 to 0 below the base of 1: the order is complete and the lock lost. -/
theorem test_settleExpired_late :
    ((after (falling 2 .retryWait 2 1) (.settleExpired 2)).device 2).state = .idle ∧
    ((after (falling 2 .retryWait 2 1) (.settleExpired 2)).device 2).accounted = 0 ∧
    (after (falling 2 .retryWait 2 1) (.settleExpired 2)).locked 2 = 0 ∧
    (after (falling 2 .retryWait 2 1) (.settleExpired 2)).events.map (fun r => (r.event, r.argument)) =
      [(.deviceLockedLost, 1)] := by decide +kernel

theorem witness_ArrivalAccounted_walk : ∀ e : Bool, ∀ d : Fin 3,
    let edge := if e then Edge.close else .opening
    let s := walked (arriving play [1, 3, 4][d]) (80 + [1, 3, 4][d]) edge none
    s.engine.root = none ∧ s.engine.paused = none ∧ s.engine.triggers = [] ∧ s.inPlay = true ∧
      (s.device [1, 3, 4][d]).arrivals = 9990 :: [] ∧ walkHypotheses s (80 + [1, 3, 4][d]) edge ∧
      ((s.device [1, 3, 4][d]).record.role = .shooter ∨ (s.device [1, 3, 4][d]).record.role = .saucer ∧
        (s.device [1, 3, 4][d]).queue.length < 8) := by decide +kernel

theorem witness_ArrivalAccounted : (arriving play 7).engine.paused = none ∧
    ((arriving play 7).device 7).arrivals = 9990 :: [] ∧ ((arriving play 0).device 0).arrivals = 9990 :: [] := by decide +kernel

/-- A drain is due with no ball committed. -/
def draining (p : Phase) (save : Option BallSave) (queue : List Order) : State :=
  arriving ({ inPhase p with census := { (inPhase p).census with playfield := 0, validated := true, save := save } }.onDevice 0
    fun v => { v with queue := queue }) 0

/-- What DrainLostOrSaved asks of a state. -/
abbrev drainHypotheses (s : State) : Prop :=
  s.configured 0 = true ∧ (s.device 0).record.role = .trough ∧ s.engine.root = none ∧ s.engine.paused = none ∧
    (s.device 0).arrivals = 9990 :: [] ∧ s.census.missingReturns = 0

theorem witness_DrainLostOrSaved :
    (drainHypotheses (draining .play none []) ∧ (draining .play none []).player? 1 = some (.start .default) ∧
      (draining .play none []).census.multi = false ∧ (draining .play none []).committed = 0 ∧
      (draining .play none []).inPlay = true ∧ (draining .play none []).census.validated = true ∧
      (draining .play none []).census.save = none) ∧
    (drainHypotheses (draining .tilt none []) ∧ (draining .tilt none []).committed = 0 ∧
      (draining .tilt none []).game.phase = .tilt) ∧
    drainHypotheses (draining .play (some ⟨1, .one⟩) (List.replicate 7 ⟨.serve, 0, false⟩)) ∧
      (draining .play (some ⟨1, .one⟩) (List.replicate 7 ⟨.serve, 0, false⟩)).inPlay = true ∧
      (draining .play (some ⟨1, .one⟩) (List.replicate 7 ⟨.serve, 0, false⟩)).census.validated = true ∧
      (draining .play (some ⟨1, .one⟩) (List.replicate 7 ⟨.serve, 0, false⟩)).census.save = some ⟨1, .one⟩ ∧
      (draining .play (some ⟨1, .one⟩) (List.replicate 7 ⟨.serve, 0, false⟩)).engine.triggers = [] ∧
      ((draining .play (some ⟨1, .one⟩) (List.replicate 7 ⟨.serve, 0, false⟩)).device 0).searchWaits = false ∧
      ((draining .play (some ⟨1, .one⟩) (List.replicate 7 ⟨.serve, 0, false⟩)).device 0).queue.length < 8 := by
  decide +kernel

/-- A drain is due in PLAY with the census given. -/
def drained (f : Census → Census) : State := { draining .play none [] with census := f (draining .play none []).census }

/-- `n` balls on the playfield in MULTI, definition 1 having been started. -/
def multiOf (n : Nat) (c : Census) : Census := { c with playfield := n, multi := true, lastStarted := some 1 }

theorem witness_DrainLostOrSaved_multi :
    (drainHypotheses (drained (multiOf 0)) ∧ (drained (multiOf 0)).committed = 0) ∧
    (drainHypotheses (drained (multiOf 1)) ∧ (drained (multiOf 1)).committed = 1 ∧ (drained (multiOf 1)).census.multi = true ∧
      (drained (multiOf 1)).engine.triggers = [] ∧ (drained (multiOf 1)).census.validated = true ∧
      ((drained (multiOf 1)).multiballDef 1).jackpotReset = false ∧
      ((withMultiball (drained (multiOf 1)) 1 { MultiballDef.undefined with jackpotReset := true }).multiballDef 1).jackpotReset =
        true) ∧
    drainHypotheses (drained (multiOf 2)) ∧ (drained (multiOf 2)).committed = 2 ∧
      (drained fun c => { c with playfield := 1 }).committed = 1 ∧ (drained fun c => { c with playfield := 1 }).census.multi = false := by
  decide +kernel

theorem witness_DrainLostOrSaved_refeed :
    (drainHypotheses (drained fun c => { c with validated := false }) ∧
      (drained fun c => { c with validated := false }).census.validated = false ∧
      (drained fun c => { c with validated := false }).inPlay = true ∧
      ((drained fun c => { c with validated := false }).device 0).searchWaits = false) ∧
    1 ≤ (drained fun c => { c with missingReturns := 1 }).census.missingReturns ∧
    ((drained fun c => { c with missingReturns := 1 }).device 0).arrivals = 9990 :: [] ∧
    (drained fun c => { c with missingReturns := 1 }).engine.root = none ∧
    (drained fun c => { c with missingReturns := 1 }).engine.paused = none := by decide +kernel

/-- The drains that trigger 80 is walked after: a missing return, before validation, under a save, and lost with a ball committed.
-/
def drainsWalked : List State :=
  ([fun c => { c with missingReturns := 1 }, fun c => { c with validated := false },
      fun c => { c with save := some ⟨1, .one⟩ }, fun c => { c with playfield := 1 }] : List (Census → Census)).map
    fun f => walked (drained f) 80 .close none

theorem witness_DrainLostOrSaved_walk : ∀ n : Fin 4,
    let s := drainsWalked[n]'n.isLt
    (s.device 0).record.role = .trough ∧ s.engine.root = none ∧ s.engine.paused = none ∧ s.engine.triggers = [] ∧
      s.inPlay = true ∧ (s.device 0).arrivals = 9990 :: [] ∧ walkHypotheses s 80 .close ∧
      (1 ≤ s.census.missingReturns ∨ s.census.validated = false ∨ s.census.save ≠ none ∨
        1 ≤ s.committed ∧ (s.census.multi = false ∨ 2 ≤ s.committed)) := by decide +kernel

/-- A ball arrives at device `d` with `lit` locks lit and `made` made. -/
def locking (d lit made : Nat) : State := arriving (player play fun q => { q with locksLit := lit, locksMade := made }) d

/-- Every chain of an empty award table is empty. -/
theorem chain_of_empty (s : State) (t : Nat) (h : s.engine.awards = Engine.reset.awards) : s.chain t = [] := by
  have e : ∀ i, s.award i = .empty := fun i => by
    simp only [State.award, readTable, h, Engine.reset]
    by_cases hi : i < Config.awardCount <;> simp [hi]
  simp [State.chain, e, AwardEntry.empty]

theorem witness_chains : (∀ d made, (locking d 1 made).chain (80 + d) = []) ∧ (∀ t, (staged .running 2).chain t = []) ∧
    (∀ p c r t, (handing p c r).chain t = []) ∧ (∀ p v q t, (draining p v q).chain t = []) ∧ (∀ t, play.chain t = []) ∧
    ∀ f t, (drained f).chain t = [] :=
  ⟨fun _ _ => chain_of_empty _ _ rfl, fun _ => chain_of_empty _ _ rfl, fun _ _ _ _ => chain_of_empty _ _ rfl,
    fun _ _ _ _ => chain_of_empty _ _ rfl, fun _ => chain_of_empty _ _ rfl, fun _ _ => chain_of_empty _ _ rfl⟩

theorem witness_ClosureInPlay_chains : (∀ i t, (closing play i).chain t = []) ∧
    ∀ r d st base settled retries i t, (passing r d st base settled retries i).chain t = [] :=
  ⟨fun _ _ => chain_of_empty _ _ rfl, fun _ _ _ _ _ _ _ _ => chain_of_empty _ _ rfl⟩

/-- What LockOrReturnDecided asks of a state about device `d`, beside the empty chain of witness_chains. -/
abbrev lockHypotheses (s : State) (d : Nat) : Prop :=
  s.configured d = true ∧ s.engine.root = none ∧ s.engine.paused = none ∧ s.engine.triggers = [] ∧ s.inPlay = true ∧
    (s.player? s.game.current).isSome = true ∧ (s.device d).arrivals = 9990 :: [] ∧ (s.device d).searchWaits = false ∧
    (s.device 0).searchWaits = false ∧ (s.device d).queue.length < 8

theorem witness_LockOrReturnDecided :
    (lockHypotheses (locking 2 1 1) 2 ∧ ((locking 2 1 1).device 2).record.role = .lock ∧ (locking 2 1 1).census.multi = false ∧
      1 + 1 ≠ (locking 2 1 1).game.params.locksNeeded ∧ ((locking 2 1 1).device 2).record.keep = true ∧
      (locking 2 1 1).locked 2 < ((locking 2 1 1).device 2).record.keepLimitInForce) ∧
    (lockHypotheses (locking 5 4 0) 5 ∧ ((locking 5 4 0).device 5).record.keep = false) ∧
    (lockHypotheses (locking 2 0 3) 2 ∧ ((locking 2 0 3).device 2).record.role = .lock) ∧
    lockHypotheses (locking 3 0 0) 3 ∧ ((locking 3 0 0).device 3).record.role = .saucer := by decide +kernel

theorem witness_LockOrReturnDecided_walk :
    (let s := walked (locking 2 1 1) 82 .close (some ⟨.lockLit, 0, none, .whenClear⟩);
      lockHypotheses s 2 ∧ walkHypotheses s 82 .close ∧ s.current.locksLit = 1 ∧ s.census.multi = false ∧
        s.current.locksMade + 1 ≠ s.game.params.locksNeeded) ∧
    (let s := walked (locking 5 4 0) 85 .close none;
      lockHypotheses s 5 ∧ walkHypotheses s 85 .close ∧ (s.device 5).record.role = .lock ∧ s.current.locksLit = 4) ∧
    (let s := walked (locking 2 0 3) 82 .close none;
      lockHypotheses s 2 ∧ walkHypotheses s 82 .close ∧ s.current.locksLit = 0) ∧
    let s := walked (locking 3 0 0) 83 .close none;
    lockHypotheses s 3 ∧ walkHypotheses s 83 .close ∧ (s.device 3).record.role = .saucer := by
  refine ⟨?_, ?_, ?_, ?_⟩ <;> decide +kernel

/-- R94: the walk of the arrival sees the lock already made, and the lit lock used up. -/
theorem test_arrival_walk :
    (after (walked (locking 2 1 1) 82 .close (some ⟨.lockLit, 0, none, .whenClear⟩)) (.arrival 2 false)).current.score = 500 := by
  decide +kernel

/-- The third lock is made with definition 0 defined: target 3, save time 200. -/
def thirdLock : State := withMultiball (locking 2 1 2) 0 ⟨true, 3, false, 200, none, false⟩

theorem witness_LockOrReturnDecided_start :
    (lockHypotheses thirdLock 2 ∧ thirdLock.census.multi = false ∧ thirdLock.player? 1 =
      some { Player.start .default with locksLit := 1, locksMade := 2 } ∧ 2 + 1 = thirdLock.game.params.locksNeeded ∧
      (thirdLock.multiballDef 0).defined = true ∧ (thirdLock.multiballDef 0).releaseLocked = false) ∧
    lockHypotheses (locking 2 1 2) 2 ∧ ((locking 2 1 2).multiballDef 0).defined = false := by decide +kernel

/-- R127, R131, R133: the third lock starts multiball 0: 2 balls are served beside the one that is held. -/
theorem test_arrival_lock : (after thirdLock (.arrival 2 false)).current.locksMade = 0 ∧
    (after thirdLock (.arrival 2 false)).census.lastStarted = some 0 ∧
    (after thirdLock (.arrival 2 false)).census.save = some ⟨200, .unlimited⟩ := by decide +kernel

/-- Device `d` waits with a head order of reason `r` queued at `q`. -/
def holding (d : Nat) (r : Reason) (q : Stamp) : State :=
  play.onDevice d fun v => { v with state := .ejectWait, queue := [⟨r, q, false⟩] }

theorem witness_HoldOffJoinsReadyLine :
    ((holding 3 .return 9000).quietEngine = true ∧ ((holding 3 .return 9000).device 3).state = .ejectWait ∧
      ((holding 3 .return 9000).device 3).queue.head? = some ⟨.return, 9000, false⟩ ∧
      ((holding 3 .return 9000).device 3).searchWaits = false ∧
      ((holding 3 .return 9000).device 3).record.figures.holdOff = elapsed (holding 3 .return 9000).scanner.now 9000 ∧
      (holding 3 .return 9000).inLine 3 = false ∧ (holding 3 .return 9000).SearchLaw) ∧
    (holding 0 .serve 10000).interlock = true ∧ (holding 0 .serve 10000).inLine 0 = false ∧
      (holding 0 .serve 10000).SearchLaw := by decide +kernel

theorem witness_GrantPulsesCoil :
    lined.quietEngine = true ∧ lined.devices.ready = ⟨3, 9000⟩ :: [] ∧ lined.pulsingCount < lined.game.params.coilBudget ∧
    (after (running 0 .retryWait 3 3 1) (.retryIntervalEnd 0)).devices.ready = ⟨0, 10000⟩ :: [] ∧
    (after (running 0 .retryWait 3 3 1) (.retryIntervalEnd 0)).quietEngine = true ∧
    (after quietPlay .searchArm).devices.ready = ⟨1, 20000⟩ :: [] ∧ ((after quietPlay .searchArm).device 1).searchWaits = true := by
  decide +kernel

/-- The trough PULSING with evidence, in a search cycle or not. -/
def pulsing (e : Option Evidence) (searching : Bool) : State :=
  (running 0 .pulsing 3 3 0).onDevice 0 fun v => { v with evidence := e, searching := searching }

/-- What the statements about the end of a device's time ask of a state. -/
abbrev timeHypotheses (s : State) (d : Nat) (st : DeviceState) : Prop :=
  s.quietEngine = true ∧ (s.device d).state = st ∧ (s.device d).searchWaits = false ∧
    (s.device d).timer = some ⟨9000, 1000⟩ ∧ 1000 ≤ elapsed s.scanner.now 9000

theorem witness_PulseEndReleasesCoil : timeHypotheses (pulsing none false) 0 .pulsing ∧
    timeHypotheses (pulsing (some .success) false) 0 .pulsing ∧ timeHypotheses (pulsing (some .fallback) false) 0 .pulsing ∧
    timeHypotheses (pulsing none true) 0 .pulsing := by decide +kernel

theorem witness_ConfirmWindowEndDecides :
    (timeHypotheses (running 0 .confirming 3 3 2) 0 .confirming ∧ ((running 0 .confirming 3 3 2).device 0).searching = false ∧
      ((running 0 .confirming 3 3 2).device 0).retries < ((running 0 .confirming 3 3 2).device 0).record.figures.retryLimit ∧
      ((running 0 .confirming 3 3 2).device 0).record.autoRetry = true) ∧
    (timeHypotheses (running 0 .confirming 3 4 3) 0 .confirming ∧
      ((running 0 .confirming 3 4 3).device 0).record.figures.retryLimit ≤ ((running 0 .confirming 3 4 3).device 0).retries) ∧
    timeHypotheses (running 5 .confirming 1 1 0) 5 .confirming ∧
      ((running 5 .confirming 1 1 0).device 5).record.figures.counting = .entryBlind := by decide +kernel

theorem witness_RetryAndSearchWindowsEnd :
    (timeHypotheses (running 0 .retryWait 3 3 1) 0 .retryWait ∧ ((running 0 .retryWait 3 3 1).device 0).searching = false) ∧
    searched.quietEngine = true ∧ (searched.device 3).timer = some ⟨9900, 100⟩ ∧
      100 ≤ elapsed searched.scanner.now 9900 ∧ (searched.device 3).state = .confirming ∧
      (searched.device 3).searching = true := by decide +kernel

theorem witness_SearchArmsAndSteps :
    (quietPlay.quietEngine = true ∧ quietPlay.game.search.phase = .waiting ∧ 1 ≤ quietPlay.census.playfield ∧
      quietPlay.census.conflict = false ∧
      (∀ d < 8, quietPlay.configured d = true → (quietPlay.device d).state = .idle ∨ (quietPlay.device d).state = .fault) ∧
      quietPlay.game.params.searchDelay * 1000 = quietPlay.scanner.quiet ∧
      quietPlay.game.params.searchDelay * 1000 = elapsed quietPlay.scanner.now quietPlay.game.search.quietMark ∧
      quietPlay.searchable 1 = true) ∧
    ((inSearch .round 1 (some 9600)).quietEngine = true ∧ (inSearch .round 1 (some 9600)).game.search.phase = .round ∧
      (inSearch .round 1 (some 9600)).game.search.inFlight = none ∧
      (inSearch .round 1 (some 9600)).game.search.lastGrant = some 9600 ∧
      400 = elapsed (inSearch .round 1 (some 9600)).scanner.now 9600 ∧
      (inSearch .round 1 (some 9600)).game.search.nextDevice = 3 ∧ (inSearch .round 1 (some 9600)).searchable 3 = true) ∧
    ∀ d < 8, 6 ≤ d → (inSearch .round 1 (some 9600)).searchable d = false := by decide +kernel

theorem witness_SearchPauseEnds :
    ((inSearch .pause 4 none).quietEngine = true ∧ (inSearch .pause 4 none).game.search.phase = .pause ∧
      5000 = elapsed (inSearch .pause 4 none).scanner.now (inSearch .pause 4 none).game.search.began ∧
      1 ≤ (inSearch .pause 4 none).census.playfield ∧ (inSearch .pause 4 none).census.conflict = false ∧
      (∀ d < 8, (inSearch .pause 4 none).configured d = true → ((inSearch .pause 4 none).device d).state = .idle) ∧
      (inSearch .pause 4 none).game.search.round < (inSearch .pause 4 none).game.params.searchRounds) ∧
    (inSearch .pause 5 none).game.params.searchRounds ≤ (inSearch .pause 5 none).game.search.round ∧
    { inSearch .pause 1 none with census := { play.census with playfield := 0 } }.census.playfield = 0 := by decide +kernel

theorem witness_ReceiverFollowsTheLine :
    ((after play .lineBreak).link.inBreak = true ∧ play.link.inBreak = false ∧ play.link.receiver = .hunt) ∧
    (after play (.byteReceived 251)).link.receiver = .awaitLength ∧
    (after (after play (.byteReceived 251)) (.byteReceived 2)).link.receiver = .collect 2 [] ∧
    (after (after play (.byteReceived 251)) (.byteReceived 250)).link.receiver = .collect 250 [] ∧
    (after (after play (.byteReceived 251)) (.byteReceived 1)).link.receiver = .hunt := by decide +kernel

theorem witness_FrameRoundTrip : (⟨16, 7, List.replicate 248 251⟩ : Request).payload.length ≤ 248 ∧ play.link.inBreak = false ∧
    play.link.restarting = false ∧ play.link.receiver = .hunt ∧ play.link.frames = [] ∧
    (withSlots play (List.replicate 3 (.ready ⟨1, 1, [0]⟩))).link.slots.length < 4 := by decide +kernel

/-- The small machine with one completed frame. -/
def framed (f : List Byte) : State := { play with link := { play.link with frames := [f] } }

theorem witness_RequestFrameAccepted :
    ((checkBytes [2, 20, 7]).length = 2 ∧ (framed ([2, 20, 7] ++ checkBytes [2, 20, 7])).link.frames =
      ([2, 20, 7] ++ checkBytes [2, 20, 7]) :: [] ∧ play.link.slots.length < 4 ∧ play.link.restarting = false) ∧
    ([0, 0] : List Byte) ≠ checkBytes [2, 20, 7] ∧
    4 ≤ (withSlots (framed [0, 0]) (List.replicate 4 (.ready ⟨1, 1, [0]⟩))).link.slots.length := by decide +kernel

theorem witness_RequestAnsweredInPlace :
    (Instr.setGame 7 []).request? = some (1, 7, []) ∧ (Instr.setGame 7 []).wellFormed = true ∧ offersAny play := by decide +kernel

/-- A TRIGGER in hand, before and after the walk that its root waits with. -/
theorem witness_RequestAnsweredInPlace_inHand :
    let s := after raising (.triggerRequest 7 ⟨[72], true⟩)
    s.inHand = true ∧ firstWaiting s.link.slots = some ⟨13, 7, [72]⟩ ∧ s.engine.root ≠ none ∧
      s.idle.inHand = true ∧ firstWaiting s.idle.link.slots = some ⟨13, 7, [72]⟩ ∧ s.idle.engine.root = none := by
  decide +kernel

theorem witness_RestartAndUnknownTypeAnswered :
    offersAny play ∧ ([1] : List Byte) ≠ [] ∧ (28 : Nat) ≤ (28#8).toNat ∧ (0#8).toNat = 0 := by decide +kernel

theorem witness_RequestsFollowPhase_loads : (Instr.clearTables 7 [4]).request? = some (8, 7, [4]) ∧
    (Instr.clearTables 7 [4]).wellFormed = true ∧ 1 ≤ (8#8).toNat ∧ (8#8).toNat ≤ 8 ∧ play.game.phase ≠ .idle ∧
    offersAny play := by decide +kernel

theorem witness_RequestsFollowPhase_score : (inPhase .tilt).inPlay = false ∧ (inPhase .ballOver).inPlay = false ∧
    idle.inPlay = false ∧ offersAny (inPhase .tilt) ∧ offersAny idle ∧ 72 ≤ (79#8).toNat ∧ (79#8).toNat ≤ 79 ∧
    (15#8).toNat < 16 ∧ (2#8).toNat < 3 ∧ 1 ≤ (inPhase .tilt).game.players.length ∧ (8#8).toNat < 9 := by decide +kernel

theorem witness_SetSwitchLoads : idle.game.phase = .idle ∧ 71 < 72 ∧ 65535 < 65536 ∧ Role.slam ≠ .device ∧ offersAny idle := by
  decide +kernel

/-- A group of 8 switches. -/
def fullGroup : Group := ⟨[0, 10, 20, 30, 40, 50, 60, 71], true⟩
/-- A definition at the top of its ranges. -/
def topMultiball : MultiballDef := ⟨true, 6, true, 300, some 15, true⟩

theorem witness_SetGroupAndMultiballLoad : idle.game.phase = .idle ∧ 7 < 8 ∧ fullGroup.inRange = true ∧ 3 < 4 ∧
    topMultiball.inRange = true ∧ offersAny idle := by decide +kernel

/-- A definition at the top of its ranges. -/
def topMode : ModeDef :=
  ⟨true, 15, true, 6000, 255, 9999990, 9999990, 4, true, .saves, true, 9999990, ⟨true, true, true⟩, true⟩

theorem witness_SetModeRoundTrip : idle.game.phase = .idle ∧ 15 < 16 ∧ topMode.inRange = true ∧ offersAny idle ∧
    offersAny (after (after idle (.setMode 7 (topMode.payload 15))) .replySent) := by decide +kernel

/-- An entry with a condition of two operands and four actions. -/
def topEntry : AwardEntry :=
  { state := .enabled, trigger := 103, edge := .opening, gateKind := .absent, gateMode := 15, ballGate := .multi
    condition := some ⟨.level, 71, some 0, .whenClear⟩, source := .modeValue, base := 9999990, classes := ⟨true, true, true⟩
    actions := [⟨.jackpotBuild, 9999990⟩, ⟨.trigger, 79⟩, ⟨.addBall, 0⟩, ⟨.flagToggle, 31⟩], continuation := .goOn
    report := true }

theorem witness_SetAwardStoresEntry : idle.game.phase = .idle ∧ 255 < 256 ∧ topEntry.inRange = true ∧ offersAny idle := by
  decide +kernel

/-- A profile-14 lock with every override. -/
def topDevice : DeviceRecord :=
  { role := .lock, profile := 14, positions := [], entrySwitch := some 70, exitSwitch := some 71, coil := 7
    overrides := ⟨some .entryExit, some 4, some 100, some 2000, some 5000, some 3000, some 7, some 5000⟩
    autoRetry := true, keep := true, keepLimit := some 3, reportArrivals := true }

theorem witness_SetDeviceLoadsRecord : idle.game.phase = .idle ∧ idle.quietEngine = true ∧ idle.SearchLaw ∧
    topDevice.inRange 7 = true ∧ troughRecord.inRange 0 = true ∧ shooterRecord.inRange 1 = true ∧ offersAny idle := by
  decide +kernel

/-- Parameters at the edges of their ranges. -/
def topParams : Params :=
  { Params.default with installed := 8, ballSaveTime := 300, coilBudget := 3, bonusUnit := 99990
                        thresholds := [10, 20, 30, 99999999990] }

theorem witness_SetGameLoadsParams : idle.game.phase = .idle ∧ idle.quietEngine = true ∧ topParams.inRange = true ∧
    Params.default.inRange = true ∧ Params.default.installed = idle.game.params.installed ∧
    Params.default.coilBudget = idle.game.params.coilBudget ∧ offersAny idle := by decide +kernel

theorem witness_ClearTablesClears : idle.game.phase = .idle ∧ offersAny idle ∧ (4#8).toNat < 5 ∧ 5 ≤ (5#8).toNat := by
  decide +kernel

/-- The seven checks of R148 as StartGameStarts says them. -/
def checks (s : State) : List Bool :=
  let trough := (s.device 0).record
  let alone := fun (p : DeviceRecord → Bool) => (List.range 8).all fun e => (List.range e).all fun d =>
    !(s.configured d && s.configured e && p (s.device d).record && p (s.device e).record)
  let mode := fun m => (s.modeDef m).defined
  let group := fun g => (s.group g).members != []
  [s.configured 0 && trough.role == .trough && trough.figures.counting == .positions,
    decide (s.game.params.installed ≤ trough.figures.capacity),
    (List.range 72).all fun i => alone fun r => r.positions.contains i || r.entrySwitch == some i || r.exitSwitch == some i,
    (List.range 8).all fun n => alone fun r => r.coil == n,
    (List.range 8).all fun d => (s.device d).record.role == .unused || s.configured d,
    (List.range 256).all fun i => (s.award i).state == .empty ||
      ((s.award i).gateKind == .any || mode (s.award i).gateMode) &&
      ((s.award i).condition.all fun c => c.source != .groupDone || group c.operandA && c.operandB.all group) &&
      (s.award i).actions.all fun a =>
        (!(a.kind == .modeStart || a.kind == .modeStop || a.kind == .modeProgress) || mode a.argument) &&
        (a.kind != .latchClear || group a.argument) && (a.kind != .mbStart || (s.multiballDef a.argument).defined),
    decide (1 ≤ s.trough + s.shooter)]

/-- The machine between games with the record of device `d` changed. -/
def misconfigured (d : Nat) (f : DeviceRecord → DeviceRecord) : State :=
  idle.onDevice d fun v => { v with record := f v.record }

/-- The machine between games, failing check `n` of R148 and none before it; none at all for 0. -/
def failing : Nat → State
  | 0 => idle
  | 1 => misconfigured 0 fun r => { r with role := .lock }
  | 2 => { idle with game := { idle.game with params := { idle.game.params with installed := 5 } } }
  | 3 => misconfigured 1 fun r => { r with positions := [3] }
  | 4 => misconfigured 1 fun r => { r with coil := 0 }
  | 5 => misconfigured 6 fun r => { r with role := .saucer, profile := 14, coil := 6 }
  | 6 => withAward idle 200 { plainEntry with gateKind := .running, gateMode := 9 }
  | _ => idle.onDevice 0 fun v => { v with settled := 0 }

theorem witness_StartGameStarts_serve : idle.shooter = 0 ∧ (failing 0).modes.stack = [] ∧ (failing 0).shooter = 0 ∧
    ((failing 0).device 0).queue = [] := by decide +kernel

theorem witness_StartGameStarts : ((List.range 8).map fun n => (checks (failing n)).idxOf false) = [7, 0, 1, 2, 3, 4, 5, 6] ∧
    ((List.range 8).all fun n => (failing n).game.phase == .idle && (failing n).link == idle.link) = true ∧ offersAny idle ∧
    idle.quietEngine = true ∧ offersAny play ∧ play.game.phase ≠ .idle := by decide +kernel

/-- R148: the first check that fails is answered by its number; entry 200 names mode 9, device 6 lacks its figures. -/
theorem test_startGame_checks : ((List.range 8).map fun n => (lastReply (after (failing n) (.startGame 7 []))).map (List.take 4)) =
    [some [0], some [3, 5, 1, 0], some [3, 5, 2, 0], some [3, 5, 3, 3], some [3, 5, 4, 0], some [3, 5, 5, 6],
      some [3, 5, 6, 200], some [3, 5, 7, 0]] := by decide +kernel

theorem witness_AddPlayerAdds : offersAny play ∧ play.game.phase = .play ∧ play.game.ballNumber = 1 ∧
    play.game.players.length < play.game.params.maxPlayers ∧ offersAny (inPhase .tilt) ∧ (inPhase .tilt).game.phase = .tilt := by
  decide +kernel

/-- BALL_OVER at ball `ball` of `n` players, with `extra` extra balls of the one that is up. -/
def between (ball n extra : Nat) : State :=
  { inPhase .ballOver with game := { (inPhase .ballOver).game with
      ballNumber := ball, players := List.replicate n { Player.start .default with extraBalls := extra } } }

theorem witness_NextBallMovesOn :
    (offersAny (between 1 1 1) ∧ (between 1 1 1).game.phase = .ballOver ∧ (between 1 1 1).quietEngine = true ∧
      (between 1 1 1).player? 1 = some { Player.start .default with extraBalls := 1 }) ∧
    ((between 1 2 0).player? 1 = some (.start .default) ∧ (between 1 2 0).game.current < (between 1 2 0).game.players.length) ∧
    ((between 2 1 0).game.players.length ≤ (between 2 1 0).game.current ∧
      (between 2 1 0).game.ballNumber + 1 ≤ (between 2 1 0).game.params.ballsPerGame) ∧
    (between 3 1 0).game.params.ballsPerGame < (between 3 1 0).game.ballNumber + 1 ∧ offersAny play ∧ play.game.phase ≠ .ballOver := by
  decide +kernel

/-- BALL_OVER with modes 5 and 3 saved by the player that is up, mode 5 the exclusive one above, and switch 20 latched in a group of
the ball's own. -/
def restoring : State :=
  let s := withMode (withMode (player (between 1 1 1) fun q =>
      { q with saved := [⟨5, none, 2, 100⟩, ⟨3, some 7, 1, 50⟩] }) 5
    { plainMode with priority := 9, exclusive := true }) 3 { plainMode with priority := 1 }
  let s := (s.onSwitch 20 fun w => { w with latch := true }).onSwitch 21 fun w => { w with latch := true }
  { s with scanner := { s.scanner with groups := writeTable s.scanner.groups 7 ⟨[20], true⟩ } }

theorem witness_NextBallMovesOn_restore : offersAny restoring ∧ restoring.game.phase = .ballOver ∧ restoring.quietEngine = true ∧
    restoring.modes.stack = [] ∧ restoring.modes.nextOrder < 65536 ∧ restoring.current.extraBalls = 1 ∧
    restoring.current.saved.map SavedMode.mode = [5, 3] ∧ (restoring.modeDef 3).priority ≤ (restoring.modeDef 5).priority ∧
    restoring.configured 0 = true ∧ (restoring.group 7).perBall = true := by decide +kernel

/-- R82, R150: both modes return, the lower one suspended; the latch of switch 20 clears, that of 21 stays; a serve is queued. -/
theorem test_nextBall_start :
    (after restoring (.nextBall 7 [])).modes.stack = [⟨5, .running, none, 2, 100, 0⟩, ⟨3, .suspended, some 7, 1, 50, 1⟩] ∧
    ((after restoring (.nextBall 7 [])).switch 20).latch = false ∧ ((after restoring (.nextBall 7 [])).switch 21).latch = true ∧
    ((after restoring (.nextBall 7 [])).device 0).queue = [⟨.serve, 10000, false⟩] := by decide +kernel

/-- The small machine with `n` triggers waiting. -/
def withTriggers (n : Nat) : State := { play with engine := { play.engine with triggers := List.replicate n 79 } }

theorem witness_TriggerWalksOrWaits : play.inPlay = true ∧ offersAny play ∧ play.engine.triggers = [] ∧
    (withTriggers 15).engine.triggers ≠ [] ∧ (withTriggers 15).engine.triggers.length < 16 ∧
    16 ≤ (withTriggers 16).engine.triggers.length ∧ offersAny (withTriggers 15) := by decide +kernel

/-- The small machine with one entry of trigger 72. -/
def entered (e : AwardEntry) : State := withAward play 255 e

/-- The small machine with `e` as entry 255, the player at `score`, `next` replays given, thresholds 100, 600 and 2,000. -/
def scoring (e : AwardEntry) (score next : Nat) : State :=
  let s := player (entered e) fun q => { q with score := score, nextReplay := next }
  { s with game := { s.game with params := { s.game.params with thresholds := [100, 600, 2000] } } }

/-- An entry of trigger 72 is its chain by itself, whatever else it holds. -/
theorem chain_entered (e : AwardEntry) (ht : e.trigger = 72) (hs : e.state ≠ .empty) (s : State)
    (h : s.engine.awards = (entered e).engine.awards) : s.chain 72 = [255] := by
  have a : ∀ i, s.award i = if 255 = i then e else .empty := fun i => by
    simp only [State.award, h, entered, withAward]
    rw [readTable_writeTable, show play.engine.awards = Vector.replicate Config.awardCount .empty from rfl]
    by_cases hi : 255 = i
    · simp [← hi, Config.awardCount]
    · by_cases hn : i < Config.awardCount <;> simp [hi, hn, readTable]
  have r : ∀ i ∈ List.range 255, ¬((s.award i).state != .empty && (s.award i).trigger == 72) = true := fun i hi => by
    simp [a, Nat.ne_of_gt (List.mem_range.1 hi), AwardEntry.empty]
  rw [State.chain, Config.awardCount, List.range_succ, List.filter_append, List.filter_eq_nil_iff.2 r]
  simp [a, ht, hs]

theorem witness_WalkAwardsFixedEntry_chains :
    (∀ s, (entered { plainEntry with state := s }).chain 72 = [255] ∨ s = .empty) ∧
    (∀ score next, (scoring plainEntry score next).chain 72 = [255]) ∧
    (entered { plainEntry with edge := .opening }).chain 72 = [255] ∧
    (entered { plainEntry with gateKind := .running, gateMode := 3 }).chain 72 = [255] ∧
    (entered { plainEntry with ballGate := .multi }).chain 72 = [255] ∧
    (entered { plainEntry with condition := some ⟨.flag, 31, some 0, .whenSet⟩ }).chain 72 = [255] :=
  ⟨fun s => (Decidable.em (s = .empty)).symm.imp_left fun h => chain_entered _ rfl h _ rfl,
    fun _ _ => chain_entered plainEntry rfl (by decide) _ rfl, chain_entered _ rfl (by decide) _ rfl,
    chain_entered _ rfl (by decide) _ rfl, chain_entered _ rfl (by decide) _ rfl, chain_entered _ rfl (by decide) _ rfl⟩

theorem witness_WalkAwardsFixedEntry :
    ((entered plainEntry).inPlay = true ∧ offersAny (entered plainEntry) ∧ (entered plainEntry).engine.triggers = [] ∧
      (entered plainEntry).player? (entered plainEntry).game.current = some (.start .default) ∧
      (entered plainEntry).game.params.thresholds = [] ∧ (entered plainEntry).award 255 = plainEntry ∧
      plainEntry.state = .enabled ∧ plainEntry.edge = .close ∧ plainEntry.gateKind = .any ∧ plainEntry.ballGate = .any ∧
      plainEntry.condition = none ∧ plainEntry.source = .fixed ∧ plainEntry.actions = []) := by decide +kernel

theorem witness_WalkAwardsFixedEntry_score : offersAny (scoring plainEntry 100 1) ∧
    ((scoring plainEntry 100 1).game.params.thresholds.drop 1).takeWhile (fun x => decide (x ≤ 100 + 500)) = [600] ∧
    99999999990 < 99999999500 + 500 * (scoring plainEntry 0 0).multiplier plainEntry.classes ∧
    (scoring plainEntry 99999999500 3).current.limitReported = false := by decide +kernel

theorem witness_WalkAwardsFixedEntry_fails : play.inst? 3 = none ∧ play.census.multi = false ∧
    play.current.flags.getLsbD 31 = false ∧ play.current.flags.getLsbD 0 = false := by decide +kernel

/-- Entry 9 of trigger 72 sets flag 31 and raises trigger 79; entry 10 asks for that flag; entry 11 is of trigger 79. -/
def chained (c : Continuation) : State :=
  withAward (withAward (withAward play 9
    { plainEntry with source := .none, actions := [⟨.flagSet, 31⟩, ⟨.trigger, 79⟩], continuation := c }) 10
    { plainEntry with condition := some ⟨.flag, 31, none, .whenSet⟩ }) 11 { plainEntry with trigger := 79 }

theorem witness_WalkAwardsFixedEntry_chained : ∀ c, (chained c).chain 72 = [9, 10] ∧ (chained c).chain 79 = [11] ∧
    offersAny (chained c) ∧ (chained c).inPlay = true ∧ (chained c).engine.triggers = [] ∧
    (chained c).player? (chained c).game.current = some (.start .default) := by
  intro c; cases c <;> decide +kernel

/-- R33, R40, R42: with CONTINUE entry 10 sees the flag and both score; with STOP only the walk of trigger 79 does. -/
theorem test_triggerRequest_chain : (after (chained .goOn) (.triggerRequest 7 ⟨[72], false⟩)).current.score = 1000 ∧
    (after (chained .stop) (.triggerRequest 7 ⟨[72], false⟩)).current.score = 500 := by decide +kernel

/-- An entry of trigger 72 that lights a lock and counts a bonus. -/
def acting : State :=
  entered { plainEntry with source := .none, actions := [⟨.lockLight, 1⟩, ⟨.bonusAdd, 5⟩, ⟨.modeStart, 3⟩] }

theorem witness_WalkAwardsFixedEntry_actions : acting.chain 72 = [255] ∧
    ((acting.award 255).actions.all fun a => a.kind != .trigger && a.kind != .modeProgress) = true ∧ offersAny acting ∧
    (acting.award 255).source = .none := by decide +kernel

/-- R55, R54: 500 on 100 crosses the threshold of 600 and is a second replay; 500 on 99,999,999,500 is 10 over the limit. -/
theorem test_triggerRequest_score :
    (after (scoring plainEntry 100 1) (.triggerRequest 7 ⟨[72], false⟩)).events.map (fun r => (r.event, r.subject, r.value)) =
      [(.scoreReplay, 2, 600), (.awardEntry, 255, 500)] ∧
    (after (scoring plainEntry 99999999500 3) (.triggerRequest 7 ⟨[72], false⟩)).events.map (fun r => (r.event, r.subject, r.value)) =
      [(.scoreLimit, 0, 10), (.awardEntry, 255, 500)] := by decide +kernel

theorem witness_GrantAwards : play.inPlay = true ∧ 281474976710655 < 281474976710656 ∧
    play.player? play.game.current = some (.start .default) ∧ offersAny play := by decide +kernel

/-- A full stack without mode 3. -/
def fullStack : State :=
  withStack (withMode play 3 plainMode) ([4, 5, 6, 7, 8, 9].map fun m => ⟨m, .running, none, 0, 0, 0⟩)

theorem witness_ModeControlStarts :
    (play.inPlay = true ∧ play.engine.triggers = [] ∧ offersAny play ∧ (play.modeDef 15).defined = false) ∧
    (((staged .running 0).modeDef 3).defined = true ∧ (staged .running 0).inst? 3 = some ⟨3, .running, some 5, 0, 100, 0⟩) ∧
    ((fullStack.modeDef 3).defined = true ∧ fullStack.inst? 3 = none ∧ 6 ≤ fullStack.modes.stack.length) ∧
    ((withMode play 3 plainMode).modeDef 3).defined = true ∧ (withMode play 3 plainMode).inst? 3 = none ∧
      (withMode play 3 plainMode).modes.stack.length < 6 := by decide +kernel

theorem witness_ModeControlStopsAndProgresses :
    (play.inPlay = true ∧ play.engine.triggers = [] ∧ play.engine.root = none ∧ offersAny play ∧ play.inst? 15 = none) ∧
    ((staged .running 1).inst? 3 = some ⟨3, .running, some 5, 1, 100, 0⟩ ∧ 1 + 1 ≠ ((staged .running 1).modeDef 3).goal) ∧
    ((staged .running 2).inst? 3 = some ⟨3, .running, some 5, 2, 100, 0⟩ ∧ 2 + 1 = ((staged .running 2).modeDef 3).goal ∧
      ((staged .running 2).modeDef 3).goal ≠ 0) ∧
    (staged .suspended 0).inst? 3 = some ⟨3, .suspended, some 5, 0, 100, 0⟩ ∧ offersAny (staged .suspended 0) := by decide +kernel

theorem witness_SetPlayerWrites : play.inPlay = true ∧ play.player? 1 = some (.start .default) ∧
    281474976710655 < 281474976710656 ∧ offersAny play := by decide +kernel

/-- The saucer with `n` orders. -/
def queued (n : Nat) : State :=
  play.onDevice 3 fun v => { v with state := .ejectWait, queue := List.replicate n ⟨.return, 9000, false⟩ }

theorem witness_EjectQueuesHostOrder : (offersAny play ∧ play.configured 7 = false) ∧
    (offersAny (queued 8) ∧ (queued 8).configured 3 = true ∧ (queued 8).quietEngine = true ∧ 8 ≤ ((queued 8).device 3).queue.length) ∧
    ((queued 7).device 3).queue.length < 8 ∧ ((queued 7).device 3).searchWaits = false ∧ (play.device 3).state = .idle ∧
      play.quietEngine = true := by decide +kernel

theorem witness_ClearFaultRestarts : offersAny play ∧ (play.device 7).state ≠ .fault ∧
    offersAny (running 3 .fault 0 1 3) ∧ ((running 3 .fault 0 1 3).device 3).state = .fault ∧
    (running 3 .fault 0 1 3).quietEngine = true ∧ ((running 3 .fault 0 1 3).device 3).queue ≠ [] ∧
    ((running 3 .fault 0 1 3).device 3).searchWaits = false ∧
    (faulted.device 3).accounted < (faulted.device 3).settled ∧
    ((running 3 .fault 0 1 3).device 3).settled ≤ ((running 3 .fault 0 1 3).device 3).accounted ∧
    (running 3 .fault 0 1 3).ballOn = true := by decide +kernel

theorem witness_ClearFaultRestarts_inHand : faultPaused.pending = [] ∧ faultPaused.engine.root = none ∧
    faultPaused.engine.paused = some (.clearFault 3 10000) ∧ firstWaiting faultPaused.link.slots = some ⟨18, 7, [3]⟩ ∧
    (faultPaused.device 3).state = .fault ∧ (faultPaused.device 3).arrivals = [] ∧ (faultPaused.device 3).queue ≠ [] ∧
    (faultPaused.device 3).searchWaits = false ∧ faultPaused.ballOn = true ∧
    faultPaused.scanner.now ≠ 10000 := by decide +kernel

theorem witness_ClearLatchesClears : offersAny play ∧ 2 ≤ (2#8).toNat ∧ 8 ≤ (8#8).toNat ∧ (7#8).toNat < 8 := by decide +kernel

theorem witness_ReadsChangeNothing : offersAny play ∧ 1 ≤ (1#8).toNat ∧ (4#8).toNat ≤ 4 ∧ (15#8).toNat < 16 ∧ (7#8).toNat < 8 := by
  decide +kernel

theorem witness_FetchEventsRemoves : offersAny play ∧ State.reset.events.length ≤ 64 ∧ offersAny State.reset ∧
    ([0] : List Byte) ≠ [] ∧ State.reset.events[0]? = some ⟨.restartedHard, 0, 0, 0, 0, 0⟩ ∧ { play with events := List.replicate 64 ⟨.switchClosed, 0, 1, 5, 0, 0⟩ }.events.length ≤ 64 := by
  decide +kernel

theorem witness_ActionsWriteFields : play.player? play.game.current = some (.start .default) ∧ 31 < 32 ∧
    (Player.start .default).locksMade + (Player.start .default).locksLit ≤ play.game.params.locksNeeded ∧
    (Player.start .default).bonusCount ≤ 999 ∧ (Player.start .default).bonusMult ≤ 10 ∧
    (Player.start .default).playfieldMult ≤ 5 := by decide +kernel

/-- `n` balls on the playfield and `t` in the trough, definition 2 defined, in MULTI or not. -/
def staging (n t : Nat) (multi : Bool) : State :=
  let s := withMultiball (play.onDevice 0 fun v => { v with settled := t, accounted := t }) 2 ⟨true, 4, true, 200, none, false⟩
  { s with census := { s.census with playfield := n, multi := multi } }

/-- What the multiball clauses of ActionsWriteFields ask of every state. -/
abbrev multiballHypotheses (s : State) : Prop :=
  (∀ k < 8, (s.device k).searchWaits = false ∧ s.locked k ≤ s.countOf k) ∧ s.trough ≤ 8

theorem witness_ActionsWriteFields_multiball :
    (multiballHypotheses (staging 1 3 false) ∧ ((staging 1 3 false).multiballDef 2).defined = true ∧
      ((staging 1 3 false).multiballDef 2).startMode = none ∧ (staging 1 3 false).events.length < 64) ∧
    (multiballHypotheses (staging 3 1 true) ∧ (staging 3 1 true).owed < (staging 3 1 true).trough ∧
      (staging 5 1 true).committed < 6 ∧ 6 ≤ (staging 6 2 true).committed ∧
      (staging 4 0 true).trough ≤ (staging 4 0 true).owed) ∧ ((staging 4 0 true).multiballDef 3).defined = false := by
  decide +kernel

theorem witness_FullQueueOverflows : play.events.length < 64 ∧
    List.replicate 64 (⟨.switchClosed, 0, 1, 5, 0, 0⟩ : EventRecord) =
      List.replicate 63 ⟨.switchClosed, 0, 1, 5, 0, 0⟩ ++ [⟨.switchClosed, 0, 1, 5, 0, 0⟩] := by decide +kernel

theorem witness_invariants : play.CollectionsHeld ∧ play.StackHeld ∧ play.CensusLaw ∧ play.CoilLaw ∧ play.SearchLaw := by
  decide +kernel

theorem witness_step : step { play with pending := [.tenth] } = .next (after play .tenth) := rfl

theorem witness_SettingsChangeOnlyByLoads : exec .tenth play = .next (after play .tenth) ∧ Instr.tenth ≠ .hardReset ∧
    Instr.tenth.request? = none := ⟨rfl, by decide, rfl⟩

end Sys2Proof.Tests
end

