-- ==== Sys2Proof/Proofs/Resets.lean ====
section
/-! The reset state: what its tables read, and that it meets the invariants (O3, O54). -/

namespace Sys2Proof.Machine

open Sys2Proof

/-- A table filled with its own default reads that default everywhere. -/
theorem readTable_replicate {α : Type} {n : Nat} (d : α) (i : Nat) : readTable (Vector.replicate n d) d i = d := by
  by_cases h : i < n <;> simp [readTable, h]

@[simp] theorem reset_switch (i : Nat) : State.reset.switch i = .reset := readTable_replicate _ i
@[simp] theorem reset_group (g : Nat) : State.reset.group g = .empty := readTable_replicate _ g
@[simp] theorem reset_award (i : Nat) : State.reset.award i = .empty := readTable_replicate _ i
@[simp] theorem reset_modeDef (m : Nat) : State.reset.modeDef m = .undefined := readTable_replicate _ m
@[simp] theorem reset_device (d : Nat) : State.reset.device d = .reset := readTable_replicate _ d
@[simp] theorem reset_locked (d : Nat) : State.reset.locked d = 0 := readTable_replicate _ d
@[simp] theorem reset_multiballDef (k : Nat) : State.reset.multiballDef k = .undefined := readTable_replicate _ k

/-- No device is configured after a hard reset, so none counts a ball. -/
@[simp] theorem reset_countOf (d : Nat) : State.reset.countOf d = 0 := by
  simp [State.countOf, Device.reset]

@[simp] theorem reset_measured : State.reset.measured = 0 := by
  simp [State.measured, State.trough, State.shooter, playfieldDevices]

/-- No coil is driven after a hard reset. -/
theorem reset_coilEnable (n : Nat) : State.reset.coilEnable n = false := by
  simp [State.coilEnable, Device.reset]

/-- Settles O3: every table reads its reset entry, and the rest of the reset state stands in its definition. -/
theorem hardResetRestoresAll : Obligations.HardResetRestoresAll := by
  refine ⟨fun i _ => ?_, fun g _ => ?_, rfl, fun i _ => ?_, rfl, rfl, rfl, fun m _ => ?_, rfl, rfl, rfl, rfl, rfl,
    fun d _ => ?_, rfl, rfl, fun n _ => reset_coilEnable n, rfl, rfl, rfl, rfl, rfl, rfl, rfl, rfl, fun k _ => ?_,
    rfl, rfl, rfl, rfl, rfl, rfl, rfl, rfl, rfl, rfl, rfl, rfl, rfl, rfl, rfl, rfl, fun s => rfl⟩
  · simp [Switch.reset, SwitchRecord.default]
  · simp [Group.empty]
  · simp [AwardEntry.empty]
  · simp [ModeDef.undefined]
  · simp [Device.reset, DeviceRecord.reset]
  · simp [MultiballDef.undefined]

/-- The reset state has empty queues and no player. -/
theorem reset_collectionsHeld : State.reset.CollectionsHeld :=
  ⟨by decide, by decide, by decide, fun d _ => by simp [Device.reset], fun _ h => absurd h List.not_mem_nil⟩

/-- The reset state has an empty stack. -/
theorem reset_stackHeld : State.reset.StackHeld :=
  ⟨by decide, fun _ => rfl, by simp [State.reset, Game.reset]⟩

/-- The reset state has no ball measured, and the four installed on the playfield. -/
theorem reset_censusLaw : State.reset.CensusLaw := by
  refine ⟨fun _ => ?_, fun h => ?_⟩
  · rw [reset_measured]; rfl
  · exact absurd h (by decide)

/-- In the reset state no device is PULSING and none waits. -/
theorem reset_coilLaw : State.reset.CoilLaw := by
  refine ⟨by decide, by decide, by simp [State.reset, Devices.reset], fun d _ => ?_, by decide,
    by simp [State.reset, Devices.reset], fun d _ => ?_⟩
  · rw [reset_device]
    exact iff_of_false (by decide) List.not_mem_nil
  · simp [Device.reset, Device.searchWaits]

/-- The reset state is IDLE with the search OFF. -/
theorem reset_searchLaw : State.reset.SearchLaw := by decide

/-- Settles O54, one invariant after the other. -/
theorem resetMeetsInvariants : Obligations.ResetMeetsInvariants :=
  ⟨reset_collectionsHeld, reset_stackHeld, reset_censusLaw, reset_coilLaw, reset_searchLaw⟩

end Sys2Proof.Machine
end

