-- ==== Sys2Proof/Proofs/Scan.lean ====
section
/-! The scan: what one sample makes of a switch, and which samples make a transition (O5). -/

namespace Sys2Proof.Machine

open Sys2Proof

/-! ### The debounce of one switch (R2, R3) -/

/-- A debounce takes the sample as the raw state and leaves the record and the latch alone. -/
theorem debounce_keeps (w : Switch) (r : Role) (x : Bool) :
    (w.debounce r x).1.record = w.record ∧ (w.debounce r x).1.latch = w.latch ∧ (w.debounce r x).1.raw = x := by
  unfold Switch.debounce
  dsimp only
  split_ifs <;> exact ⟨rfl, rfl, rfl⟩

/-- An UNUSED switch stands open with count 0. -/
theorem debounce_unused (w : Switch) (x : Bool) :
    w.debounce .unused x = ({ w with raw := x, debounced := false, count := 0 }, false) := rfl

/-- A sample that agrees with the debounced state sets the count back. -/
theorem debounce_agrees (w : Switch) (r : Role) (x : Bool) (hr : r ≠ .unused) (hx : x = w.debounced) :
    w.debounce r x = ({ w with raw := x, count := 0 }, false) := by
  simp [Switch.debounce, hr, hx]

/-- The debounce time that counts against the debounced state (R4). -/
def Switch.debounceTime (w : Switch) : Nat := if w.debounced = true then w.record.openDebounce else w.record.closeDebounce

/-- A sample that disagrees is counted while the debounce time is not reached. -/
theorem debounce_counts (w : Switch) (r : Role) (x : Bool) (hr : r ≠ .unused) (hx : x ≠ w.debounced)
    (h : w.count + 1 < w.debounceTime) : w.debounce r x = ({ w with raw := x, count := w.count + 1 }, false) := by
  unfold Switch.debounceTime at h
  simp [Switch.debounce, hr, hx, Nat.not_le.2 h]

/-- A sample that disagrees as long as the debounce time makes a transition. -/
theorem debounce_turns (w : Switch) (r : Role) (x : Bool) (hr : r ≠ .unused) (hx : x ≠ w.debounced)
    (h : w.debounceTime ≤ w.count + 1) :
    w.debounce r x = ({ w with raw := x, debounced := x, count := 0 }, true) := by
  unfold Switch.debounceTime at h
  simp [Switch.debounce, hr, hx, h]

/-- A transition is a change of the debounced state of a switch that is in use. -/
theorem debounce_transition_iff (w : Switch) (r : Role) (x : Bool) :
    (w.debounce r x).2 = true ↔ r ≠ .unused ∧ (w.debounce r x).1.debounced ≠ w.debounced := by
  by_cases hr : r = .unused
  · simp [hr, debounce_unused]
  by_cases hx : x = w.debounced
  · simp [debounce_agrees w r x hr hx]
  rcases Nat.lt_or_ge (w.count + 1) w.debounceTime with h | h
  · simp [debounce_counts w r x hr hx h]
  · simp [debounce_turns w r x hr hx h, hr, hx]

/-! ### The scan of the 72 switches -/

/-- Each switch is sampled at the pins that its number names (R1). -/
theorem sampleOf_eq (k : Contacts) (i : Nat) :
    sampleOf k i = if i < 64 then (readTable k.columns 0 (i / 8)).getLsbD (i % 8) else k.direct.getLsbD (i - 64) := by
  unfold sampleOf
  split
  · rw [rowReturns_columnDrive k _ (by omega)]
  · rfl

/-- A switch after a scan that debounces it. -/
theorem scan_switch (s : State) (k : Contacts) (i : Nat) (hs : s.scanner.started = true) (hi : i < Config.switchCount) :
    (s.scan k).switch i = ((s.switch i).debounce (s.roleOf i) (sampleOf k i)).1 := by
  simp only [State.scan, hs, if_true, State.switch, State.onScanner_scanner]
  rw [readTable_mapTable _ _ Switch.reset _ _ hi]

/-- A switch after the first scan. -/
theorem firstScan_switch (s : State) (k : Contacts) (i : Nat) (hs : s.scanner.started = false)
    (hi : i < Config.switchCount) :
    (s.scan k).switch i = (s.switch i).firstSample (s.roleOf i) (sampleOf k i) := by
  simp only [State.scan, hs, State.switch, State.onScanner_scanner, Bool.false_eq_true, if_false]
  rw [readTable_mapTable _ _ Switch.reset _ _ hi]

/-- A scan writes the Switch Scanner alone. -/
theorem scan_eq (s : State) (k : Contacts) : s.scan k = { s with scanner := (s.scan k).scanner } := by
  unfold State.scan
  dsimp only
  split <;> rfl

/-- The transitions of a scan are the changes of debounced states, in switch order (R11; notes/assumptions/5.md). -/
theorem scan_waiting (s : State) (k : Contacts) (hs : s.scanner.started = true) :
    (s.scan k).scanner.waiting = s.scanner.waiting ++ (List.range 72).filterMap fun i =>
      if s.roleOf i ≠ .unused ∧ ((s.scan k).switch i).debounced ≠ (s.switch i).debounced then
        some ⟨i, sampleOf k i, s.roleOf i, s.scanner.now + 1⟩ else none := by
  have hw : (s.scan k).scanner.waiting = s.scanner.waiting ++
      (List.range 72).filterMap (s.transitionAt k (s.scanner.now + 1)) := by
    simp [State.scan, hs]
  rw [hw]
  congr 1
  refine List.filterMap_congr fun i hi => ?_
  rw [State.transitionAt, scan_switch s k i hs (List.mem_range.1 hi)]
  exact if_congr (debounce_transition_iff _ _ _) rfl rfl

/-- Settles O5: the scan debounces each switch by its sample. -/
theorem scanDebounces : Obligations.ScanDebounces := by
  refine ⟨fun k s hs => ⟨s.scan k, rfl, scan_eq s k, ?_, ?_, ?_, ?_, ?_, fun i hi => ?_⟩,
    fun k s hs => ⟨s.scan k, rfl, scan_eq s k, ?_, ?_, ?_, ?_, ?_, fun i hi => ?_⟩⟩
  case refine_1 | refine_2 | refine_3 | refine_4 => simp [State.scan, hs]
  case refine_5 => simp only [scan_waiting s k hs, sampleOf_eq]
  case refine_6 =>
    obtain ⟨hrecord, hlatch, hraw⟩ := debounce_keeps (s.switch i) (s.roleOf i) (sampleOf k i)
    dsimp only
    rw [scan_switch s k i hs hi, ← sampleOf_eq]
    refine ⟨hrecord, hlatch, hraw, fun hr => ?_, fun hr => ⟨fun hx => ?_, fun hx h => ?_, fun hx h => ?_⟩⟩
    · simp [hr, debounce_unused]
    · simp [debounce_agrees _ _ _ hr hx]
    · simp [debounce_counts _ _ _ hr hx h]
    · simp [debounce_turns _ _ _ hr hx h]
  case refine_7 | refine_8 | refine_9 | refine_10 | refine_11 => simp [State.scan, hs]
  case refine_12 =>
    dsimp only
    rw [firstScan_switch s k i hs hi, ← sampleOf_eq]
    exact ⟨rfl, rfl, rfl, rfl, rfl⟩

end Sys2Proof.Machine
end

