-- ==== Sys2Proof/Proofs/Loads.lean ====
section
/-! SET_SWITCH, SET_GROUP and SET_MULTIBALL: their payloads read back, and what the load stores (O31, O32). -/

namespace Sys2Proof.Machine

open Sys2Proof

/-! ### Requests that load -/

/-- Whether a request is in hand is told by the work that has paused. -/
theorem inHand_congr (s t : State) (h : t.engine.paused = s.engine.paused) : t.inHand = s.inHand := by
  simp [State.inHand, h]

/-- An offered request whose work gives `t`, whatever the link and the time, is answered with nothing but the reply and the time
added to it. -/
theorem request_of_work (s t : State) (type tag : Byte) (p : List Byte) (f : List Byte → State → State × Answer)
    (a : Answer) (h : s.Offers ⟨type, tag, p⟩) (he : t.engine.paused = s.engine.paused)
    (hf : ∀ l, f p { s with link := l, time := s.scanner.now } = ({ t with link := l, time := s.scanner.now }, a)) :
    s.request type tag p f = { t with link := s.answeredLink ⟨type, tag, p⟩ a.bytes, time := s.scanner.now } := by
  obtain ⟨l, e, hl⟩ := request_of_offers s type tag p f h
  have hi : ({ t with link := l, time := s.scanner.now } : State).inHand = false :=
    (inHand_congr s _ he).trans h.2.1
  rw [e, hf l, ← hl a]
  simp [hi, State.reply, State.onLink]

/-- A load in IDLE of the right length and with every field in its range is carried out. -/
theorem load_of_idle (s : State) (ok : Bool) (bad : Option Nat) (apply : State → State × Answer)
    (h : s.game.phase = .idle) (hok : ok = true) (hbad : bad = none) : s.load ok bad apply = apply s := by
  subst hok hbad
  simp [State.load, h]

/-! ### SET_SWITCH (R12) -/

/-- The role of a code that SET_SWITCH can carry reads back. -/
theorem roleOfCode_code (r : Role) (h : r ≠ .device) : r.code < 5 ∧ roleOfCode r.code = r := by
  cases r
  case device => exact absurd rfl h
  all_goals exact ⟨by decide, rfl⟩

/-- The report setting of a code reads back. -/
theorem reportOfCode_code (r : Report) : r.code < 3 ∧ reportOfCode r.code = r := by
  cases r <;> exact ⟨by decide, rfl⟩

/-- The fields of a SET_SWITCH payload are those of its record (R12). -/
theorem switchPayload_fields (r : SwitchRecord) (i : Nat) (hi : i < 72) (hc : r.closeDebounce < 65536)
    (ho : r.openDebounce < 65536) (hr : r.role ≠ .device) :
    (r.payload i).length = 7 ∧ byteAt (r.payload i) 0 = i ∧ fieldAt (r.payload i) 1 2 = r.closeDebounce ∧
      fieldAt (r.payload i) 3 2 = r.openDebounce ∧ byteAt (r.payload i) 5 = r.role.code ∧
      byteAt (r.payload i) 6 = r.report.code := by
  have hrole := (roleOfCode_code r.role hr).1
  have hreport := (reportOfCode_code r.report).1
  simp [SwitchRecord.payload, byteAt, fieldAt, u8, u16, leBytes, leNat]
  omega

/-- A record whose debounce times are held to 1..32 (R4, R12). -/
def SwitchRecord.held (r : SwitchRecord) : SwitchRecord :=
  { r with closeDebounce := Machine.held 1 32 r.closeDebounce, openDebounce := Machine.held 1 32 r.openDebounce }

/-- The state with record `r` in switch `i` and every UNUSED switch open (R3, R12). -/
def State.withSwitchRecord (s : State) (i : Nat) (r : SwitchRecord) : State :=
  (s.onSwitch i fun w => { w with record := r }).quenchUnused

/-- SET_SWITCH in IDLE stores the record with its times held. -/
theorem loadSwitch_payload (s : State) (r : SwitchRecord) (i : Nat) (hp : s.game.phase = .idle) (hi : i < 72)
    (hc : r.closeDebounce < 65536) (ho : r.openDebounce < 65536) (hr : r.role ≠ .device) :
    loadSwitch (r.payload i) s = (s.withSwitchRecord i r.held,
      .applied (r.held.closeDebounce != r.closeDebounce || r.held.openDebounce != r.openDebounce)) := by
  obtain ⟨hlen, h0, h1, h3, h5, h6⟩ := switchPayload_fields r i hi hc ho hr
  obtain ⟨hrole, erole⟩ := roleOfCode_code r.role hr
  obtain ⟨hreport, ereport⟩ := reportOfCode_code r.report
  unfold loadSwitch
  rw [load_of_idle _ _ _ _ hp (by simp [hlen]) (by simp [firstBad, h0, h5, h6, hi, hrole, hreport])]
  simp only [h0, h1, h3, h5, h6, erole, ereport]
  rfl

/-- Switch `j` once UNUSED switches have been opened (R3). -/
theorem quenchUnused_switch (s : State) (j : Nat) (hj : j < Config.switchCount) :
    s.quenchUnused.switch j =
      if s.roleOf j = .unused then { s.switch j with debounced := false, count := 0 } else s.switch j := by
  simp only [State.quenchUnused, State.switch, State.onScanner_scanner]
  rw [readTable_mapTable _ _ Switch.reset _ _ hj]

/-- A switch that does not exist reads its reset content. -/
theorem switch_of_le (s : State) (j : Nat) (hj : Config.switchCount ≤ j) : s.switch j = .reset :=
  readTable_of_le _ _ _ hj

/-- Opening UNUSED switches changes no record, latch or raw state. -/
theorem quenchUnused_keeps (s : State) (j : Nat) :
    (s.quenchUnused.switch j).record = (s.switch j).record ∧ (s.quenchUnused.switch j).latch = (s.switch j).latch ∧
      (s.quenchUnused.switch j).raw = (s.switch j).raw := by
  rcases Nat.lt_or_ge j Config.switchCount with hj | hj
  · rw [quenchUnused_switch s j hj]
    split <;> exact ⟨rfl, rfl, rfl⟩
  · simp [switch_of_le _ j hj]

/-- The effective role depends on the records alone (R5). -/
theorem roleOf_congr (s t : State) (j : Nat) (hd : t.devices = s.devices)
    (hr : (t.switch j).record = (s.switch j).record) : t.roleOf j = s.roleOf j := by
  simp [State.roleOf, State.devicesWith, State.configured, State.device, hd, hr]

/-- SET_SWITCH writes the Switch Scanner alone, whatever the link and the time. -/
theorem withSwitchRecord_onLink (s : State) (i : Nat) (r : SwitchRecord) (l : Link) (at_ : Stamp) :
    ({ s with link := l, time := at_ } : State).withSwitchRecord i r =
      { s.withSwitchRecord i r with link := l, time := at_ } := rfl

/-- SET_SWITCH leaves all but the switches alone (R12). -/
theorem withSwitchRecord_eq (s : State) (i : Nat) (r : SwitchRecord) :
    s.withSwitchRecord i r = { s with
      scanner := { s.scanner with switches := (s.withSwitchRecord i r).scanner.switches } } := rfl

/-- SET_SWITCH leaves all but the switches of the Switch Scanner alone. -/
theorem withSwitchRecord_scanner (s : State) (i : Nat) (r : SwitchRecord) :
    (s.withSwitchRecord i r).scanner = { s.scanner with switches := (s.withSwitchRecord i r).scanner.switches } := by
  unfold State.withSwitchRecord State.quenchUnused
  simp only [State.onScanner_scanner]
  rfl

/-- A switch once SET_SWITCH has written the switches: its own record is replaced, no other; and only UNUSED switches are
opened. -/
theorem withSwitchRecord_switch (s t : State) (i : Nat) (r : SwitchRecord)
    (ht : t.scanner = (s.withSwitchRecord i r).scanner) (hd : t.devices = s.devices) (j : Nat)
    (hj : j < Config.switchCount) :
    t.switch j = { s.switch j with
      record := if i = j then r else (s.switch j).record
      debounced := if t.roleOf j = .unused then false else (s.switch j).debounced
      count := if t.roleOf j = .unused then 0 else (s.switch j).count } := by
  let u := s.onSwitch i fun w => { w with record := r }
  have hsw : t.switch j = u.quenchUnused.switch j := by simp only [State.switch, ht]; rfl
  have hrole : t.roleOf j = u.roleOf j :=
    roleOf_congr _ _ j hd (by rw [hsw]; exact (quenchUnused_keeps _ j).1)
  rw [hrole, hsw, quenchUnused_switch _ j hj, State.onSwitch_switch]
  by_cases hij : i = j
  · subst hij
    simp only [true_and, hj, if_true]
    split <;> rfl
  · simp only [hij, false_and, if_false]
    split <;> rfl

/-- The outcome byte of a load: OK, or CLAMPED when one of two quantities was held (R177). -/
theorem applied_bytes (a b c d : Nat) :
    (Answer.applied (a != c || b != d)).bytes = [if a = c ∧ b = d then 0 else 1] := by
  by_cases h : a = c ∧ b = d
  · simp [h, Answer.applied, Answer.bytes, u8, leBytes]
  · have e : (a != c || b != d) = true := by
      simp only [Bool.or_eq_true, bne_iff_ne]
      exact not_and_or.1 h
    simp [h, e, Answer.applied, Answer.bytes, u8, leBytes]

/-- SET_SWITCH in IDLE: the record is stored held, and the request is answered. -/
theorem exec_setSwitch (tag : Byte) (s : State) (i : Nat) (r : SwitchRecord) (hp : s.game.phase = .idle) (hi : i < 72)
    (hc : r.closeDebounce < 65536) (ho : r.openDebounce < 65536) (hr : r.role ≠ .device)
    (h : s.Offers ⟨2, tag, r.payload i⟩) :
    exec (.setSwitch tag (r.payload i)) s = .next { s with
      scanner := (s.withSwitchRecord i r.held).scanner
      link := s.answeredLink ⟨2, tag, r.payload i⟩
        [if r.held.closeDebounce = r.closeDebounce ∧ r.held.openDebounce = r.openDebounce then 0 else 1]
      time := s.scanner.now } := by
  have hwork := request_of_work s { s with scanner := (s.withSwitchRecord i r.held).scanner } 2 tag (r.payload i)
    loadSwitch _ h rfl fun l => by
      rw [loadSwitch_payload { s with link := l, time := s.scanner.now } r i hp hi hc ho hr, withSwitchRecord_onLink,
        withSwitchRecord_eq]
  rw [applied_bytes] at hwork
  exact congrArg Host.Outcome.next hwork

/-- Settles O31: what the stored record changes is read switch by switch. -/
theorem setSwitchLoads : Obligations.SetSwitchLoads := by
  intro tag s i close opening role report hp hi hc ho hr p held32 h
  refine ⟨_, exec_setSwitch tag s i ⟨close, opening, role, report⟩ hp hi hc ho hr h, rfl, rfl,
    withSwitchRecord_scanner s i (SwitchRecord.held ⟨close, opening, role, report⟩), ?_⟩
  generalize ht : ({ s with scanner := _, link := _, time := _ } : State) = t
  have hin := withSwitchRecord_switch s t i (SwitchRecord.held ⟨close, opening, role, report⟩) (by rw [← ht])
    (by rw [← ht])
  have hout : ∀ j, ¬j < 72 → t.switch j = s.switch j := fun j hj => by
    rw [switch_of_le _ j (Nat.not_lt.1 hj), switch_of_le _ j (Nat.not_lt.1 hj)]
  refine ⟨?_, fun j hj => ?_, fun j => ?_, fun j hj => ?_⟩
  · rw [hin i hi]
    exact if_pos rfl
  · by_cases h' : j < 72
    · rw [hin j h']
      exact if_neg (Ne.symm hj)
    · rw [hout j h']
  · by_cases h' : j < 72
    · rw [hin j h']
      exact ⟨rfl, rfl⟩
    · rw [hout j h']
      exact ⟨rfl, rfl⟩
  · rw [hin j hj]
    split <;> exact ⟨rfl, rfl⟩

/-! ### SET_GROUP (R15) -/

/-- Members below 256 read back from their bytes. -/
theorem members_readBack (l : List Nat) (h : ∀ x ∈ l, x < 256) : (l.flatMap u8).map BitVec.toNat = l := by
  induction l with
  | nil => rfl
  | cons x l ih =>
    have hx : x % 256 = x := Nat.mod_eq_of_lt (h x (by simp))
    simp only [List.flatMap_cons, List.map_append, ih fun y hy => h y (by simp [hy])]
    simp [u8, leBytes, hx]

/-- The bytes of a list of members are as many as the members. -/
theorem flatMap_u8_length (l : List Nat) : (l.flatMap u8).length = l.length := by
  induction l with
  | nil => rfl
  | cons x l ih => simp [u8, ih, Nat.add_comm]

/-- A list without repetition has no member that stands earlier. -/
theorem firstRepeat_of_nodup (seen l : List Nat) (n : Nat) (h : l.Nodup) (hs : ∀ x ∈ l, x ∉ seen) :
    firstRepeat seen l n = none := by
  induction l generalizing seen n with
  | nil => rfl
  | cons x l ih =>
    obtain ⟨hx, hl⟩ := List.nodup_cons.1 h
    have hx' : x ∉ seen := hs x (by simp)
    have hrest := ih (x :: seen) (n + 1) hl fun y hy => by
      simp only [List.mem_cons, not_or]
      exact ⟨fun e => hx (e ▸ hy), hs y (by simp [hy])⟩
    simpa [firstRepeat, hx'] using hrest

/-- Checks that all pass leave no bad field. -/
theorem firstBad_of_all (checks : List (Nat × Bool)) (h : ∀ c ∈ checks, c.2 = true) : firstBad checks = none := by
  simpa [firstBad] using h

/-- The fields of a SET_GROUP payload are those of its group (R15). -/
theorem groupPayload_fields (r : Group) (g : Nat) (hg : g < 8) (hl : r.members.length ≤ 8)
    (hm : ∀ x ∈ r.members, x < 72) :
    (r.payload g).length = 3 + r.members.length ∧ byteAt (r.payload g) 0 = g ∧
      byteAt (r.payload g) 1 = (if r.perBall then 1 else 0) ∧ byteAt (r.payload g) 2 = r.members.length ∧
      ((r.payload g).drop 3).map BitVec.toNat = r.members := by
  have hlen := flatMap_u8_length r.members
  have hback := members_readBack r.members fun x hx => by have := hm x hx; omega
  refine ⟨?_, ?_, ?_, ?_, ?_⟩
  · simp [Group.payload, mark, u8, leBytes] at hlen ⊢
    omega
  · simp [Group.payload, byteAt, fieldAt, mark, u8, leBytes, leNat]
    omega
  · cases h : r.perBall <;> simp [Group.payload, byteAt, fieldAt, mark, u8, leBytes, leNat, h]
  · simp [Group.payload, byteAt, fieldAt, mark, u8, leBytes, leNat]
    omega
  · simpa [Group.payload, mark, u8, leBytes] using hback

/-- SET_GROUP in IDLE stores the group. -/
theorem loadGroup_payload (s : State) (r : Group) (g : Nat) (hp : s.game.phase = .idle) (hg : g < 8)
    (hr : r.inRange = true) :
    loadGroup (r.payload g) s = (s.onScanner fun c => { c with groups := writeTable c.groups g r }, .ok []) := by
  simp only [Group.inRange, Bool.and_eq_true, decide_eq_true_eq, List.all_eq_true] at hr
  obtain ⟨⟨hl, hm⟩, hn⟩ := hr
  obtain ⟨hlen, h0, h1, h2, h3⟩ := groupPayload_fields r g hg hl hm
  have hrange : firstBad ([(1, decide (byteAt (r.payload g) 0 < Config.groupCount)), (2, isMark (byteAt (r.payload g) 1)),
      (3, decide (byteAt (r.payload g) 2 ≤ Config.groupMembers))] ++
      r.members.zipIdx.map fun x => (4 + x.2, decide (x.1 < Config.switchCount))) = none := by
    refine firstBad_of_all _ fun c hc => ?_
    simp only [List.mem_append, List.mem_map] at hc
    rcases hc with hc | ⟨x, hx, rfl⟩
    · have hmark : isMark (if r.perBall then 1 else 0) = true := by cases r.perBall <;> rfl
      simp only [h0, h1, h2, List.mem_cons, List.not_mem_nil, or_false] at hc
      rcases hc with rfl | rfl | rfl
      · simpa using hg
      · exact hmark
      · simpa using hl
    · simpa using hm x.1 (List.fst_mem_of_mem_zipIdx hx)
  unfold loadGroup
  simp only [h3]
  rw [load_of_idle _ _ _ _ hp (by simp [hlen, h2])
    (by rw [hrange, firstRepeat_of_nodup [] _ 4 hn (by simp)]; rfl)]
  have hball : (byteAt (r.payload g) 1 == 1) = r.perBall := by rw [h1]; cases r.perBall <;> rfl
  rw [hball, h0]

/-! ### SET_MULTIBALL (R130) -/

/-- The mark of a yes or no reads back, and is in range. -/
theorem markByte_readBack (b : Bool) :
    isMark (if b then 1 else 0) = true ∧ ((if b then 1 else 0) == 1) = b := by
  cases b <;> exact ⟨rfl, rfl⟩

/-- The fields of a SET_MULTIBALL payload before the start mode (R129). -/
theorem multiballPayload_fields (d : MultiballDef) (k : Nat) (hk : k < 4) (ht : d.target ≤ 6) (hs : d.saveTime ≤ 300) :
    byteAt (d.payload k) 0 = k ∧ byteAt (d.payload k) 1 = (if d.defined then 1 else 0) ∧
      byteAt (d.payload k) 2 = d.target ∧ byteAt (d.payload k) 3 = (if d.releaseLocked then 1 else 0) ∧
      fieldAt (d.payload k) 4 2 = d.saveTime ∧ byteAt (d.payload k) 6 = (if d.startMode.isSome then 1 else 0) := by
  refine ⟨?_, ?_, ?_, ?_, ?_, ?_⟩ <;>
    simp [MultiballDef.payload, optional, byteAt, fieldAt, mark, u8, u16, leBytes, leNat]
  case refine_1 | refine_3 | refine_5 => omega
  all_goals split <;> decide

/-- The fields of a SET_MULTIBALL payload from the start mode on: without one the byte behind its mark is the last. -/
theorem multiballPayload_rest (d : MultiballDef) (k : Nat) :
    (d.startMode = none → (d.payload k).length = 8 ∧ byteAt (d.payload k) 7 = (if d.jackpotReset then 1 else 0)) ∧
    ∀ m, d.startMode = some m → m < 16 → (d.payload k).length = 9 ∧ byteAt (d.payload k) 7 = m ∧
      byteAt (d.payload k) 8 = (if d.jackpotReset then 1 else 0) := by
  refine ⟨fun h => ?_, fun m h hm => ?_⟩ <;>
    cases hr : d.jackpotReset <;>
    simp [MultiballDef.payload, optional, h, hr, byteAt, fieldAt, mark, u8, u16, leBytes, leNat]
  all_goals omega

/-- SET_MULTIBALL in IDLE stores the definition. -/
theorem loadMultiball_payload (s : State) (d : MultiballDef) (k : Nat) (hp : s.game.phase = .idle) (hk : k < 4)
    (hd : d.inRange = true) :
    loadMultiball (d.payload k) s = (s.onCensus fun c => { c with defs := writeTable c.defs k d }, .ok []) := by
  simp only [MultiballDef.inRange, Bool.and_eq_true, decide_eq_true_eq] at hd
  obtain ⟨⟨⟨⟨hdef, ht2⟩, ht6⟩, hs⟩, hm⟩ := hd
  obtain ⟨h0, h1, h2, h3, h4, h6⟩ := multiballPayload_fields d k hk ht6 hs
  have htarget : held 2 6 d.target = d.target := by unfold held; omega
  have hsave : min d.saveTime 300 = d.saveTime := by omega
  obtain ⟨hrelease, erelease⟩ := markByte_readBack d.releaseLocked
  obtain ⟨hreset, ereset⟩ := markByte_readBack d.jackpotReset
  have hmarks : isMark 0 = true ∧ isMark 1 = true := ⟨rfl, rfl⟩
  have hstored : (⟨true, d.target, d.releaseLocked, d.saveTime, d.startMode, d.jackpotReset⟩ : MultiballDef) = d := by
    rw [← hdef]
  unfold loadMultiball
  cases hmode : d.startMode with
  | none =>
    obtain ⟨hlen, h7⟩ := (multiballPayload_rest d k).1 hmode
    simp only [hmode, Option.isSome_none, Bool.false_eq_true, if_false] at h6
    rw [load_of_idle _ _ _ _ hp (by simp [hlen, h6])
      (by simp [firstBad, h0, h1, h3, h6, h7, hk, hdef, hrelease, hreset, hmarks])]
    simp [h0, h1, h2, h3, h4, h6, h7, hdef, htarget, hsave, erelease, ereset, Answer.applied, ← hmode, hstored]
  | some m =>
    have hm16 : m < 16 := by simpa [hmode] using hm
    obtain ⟨hlen, h7, h8⟩ := (multiballPayload_rest d k).2 m hmode hm16
    simp only [hmode, Option.isSome_some, if_true] at h6
    rw [load_of_idle _ _ _ _ hp (by simp [hlen, h6])
      (by simp [firstBad, h0, h1, h3, h6, h7, h8, hk, hdef, hrelease, hreset, hmarks, hm16])]
    simp [h0, h1, h2, h3, h4, h6, h7, h8, hdef, htarget, hsave, erelease, ereset, Answer.applied, ← hmode, hstored]

/-- Settles O32: both loads store what their payload carries. -/
theorem setGroupAndMultiballLoad : Obligations.SetGroupAndMultiballLoad := by
  refine ⟨fun tag s g r hp hg hr h => ?_, fun tag s k d hp hk hd h => ?_⟩
  · exact congrArg Host.Outcome.next (request_of_work s
      { s with scanner := { s.scanner with groups := writeTable s.scanner.groups g r } } 3 tag _ loadGroup _ h rfl
      fun l => loadGroup_payload { s with link := l, time := s.scanner.now } r g hp hg hr)
  · exact congrArg Host.Outcome.next (request_of_work s
      { s with census := { s.census with defs := writeTable s.census.defs k d } } 6 tag _ loadMultiball _ h rfl
      fun l => loadMultiball_payload { s with link := l, time := s.scanner.now } d k hp hk hd)

end Sys2Proof.Machine
end

