-- ==== Sys2Proof/Proofs/Settings.lean ====
section
/-! What the host has loaded: every command but a load in IDLE and a hard reset keeps it (O60). -/

namespace Sys2Proof.Machine

open Sys2Proof

variable {s : State}

/-! ### Settings through the shared operations -/

/-- An equal frame has the same configuration loaded. -/
theorem sameSettings_of_frame_eq {t : State} (h : t.frame = s.frame) : s.SameSettings t :=
  sameSettings_of_frame s t (State.FrameButPaused.of_frame h).butWork

/-- Work that pauses keeps the configuration loaded. -/
theorem State.FrameButPaused.sameSettings {t : State} (h : s.FrameButPaused t) : s.SameSettings t :=
  sameSettings_of_frame s t h.butWork

theorem sameSettings_catchUp : s.SameSettings s.catchUp := sameSettings_of_frame _ _ s.catchUp_frame

/-- Work at the time of the latest scan, after what there is to catch up. -/
theorem sameSettings_caughtUp {t : State} (h : t.frame = s.catchUp.frame) : s.SameSettings t :=
  sameSettings_catchUp.trans (sameSettings_of_frame_eq h)

/-- The same configuration is loaded where only the link, the events, the time or the waiting transitions differ. -/
theorem sameSettings_onLink (f : Link → Link) : s.SameSettings (s.onLink f) :=
  ⟨rfl, fun _ => rfl, rfl, fun _ => rfl, rfl, rfl, rfl⟩
theorem sameSettings_handingOn (t : Transition) : s.SameSettings (s.handingOn t) :=
  sameSettings_catchUp.trans ⟨rfl, fun _ => rfl, rfl, fun _ => rfl, rfl, rfl, rfl⟩

/-- A hand-on keeps the configuration when what it leads to does. -/
theorem sameSettings_handOn (i : Nat) (p : Transition → Bool) (f : Transition → State → State)
    (hf : ∀ t (u : State), u.SameSettings (f t u)) : s.SameSettings (s.handOn i p f) := by
  unfold State.handOn
  split
  · exact .refl s
  · exact (sameSettings_handingOn _).trans (hf _ _)

/-- A device event keeps the configuration when what it leads to does. -/
theorem sameSettings_deviceEvent (due : State → Bool) (f : State → State) (hf : ∀ u : State, u.SameSettings (f u)) :
    s.SameSettings (s.deviceEvent due f) := by
  unfold State.deviceEvent
  dsimp only
  split
  · exact (sameSettings_caughtUp s.catchUp.atNow_frame).trans
      ((hf s.catchUp.atNow).trans (sameSettings_of_frame_eq (by simp)))
  · exact .refl s

/-- A request keeps the configuration when its work does, from a state of the same phase. -/
theorem sameSettings_request (type tag : Byte) (p : List Byte) (f : List Byte → State → State × Answer)
    (hf : ∀ u : State, u.game.phase = s.game.phase → u.SameSettings (f p u).1) :
    s.SameSettings (s.request type tag p f) := by
  by_cases ho : s.Offers ⟨type, tag, p⟩
  · obtain ⟨l, e, -⟩ := request_of_offers s type tag p f ho
    have h0 : s.SameSettings { s with link := l, time := s.scanner.now } :=
      ⟨rfl, fun _ => rfl, rfl, fun _ => rfl, rfl, rfl, rfl⟩
    have h1 := h0.trans (hf { s with link := l, time := s.scanner.now } rfl)
    rw [e]
    dsimp only
    split
    · exact h1
    · exact h1.trans (sameSettings_onLink _)
  · rw [request_of_not_offers s type tag p f ho]
    exact .refl s

/-- A configuration load outside IDLE changes nothing (R179). -/
theorem sameSettings_load (ok : Bool) (bad : Option Nat) (apply : State → State × Answer) (h : s.game.phase ≠ .idle) :
    s.SameSettings (s.load ok bad apply).1 := by
  unfold State.load
  rw [if_pos h]
  exact .refl s

/-- A request that passes its checks keeps the configuration when what it is taken to does. -/
theorem sameSettings_checked (ok : Bool) (bad : Option Nat) (taken : State × Answer) (h : s.SameSettings taken.1) :
    s.SameSettings (s.checked ok bad taken).1 := by
  unfold State.checked
  split
  · exact .refl s
  · split
    · exact .refl s
    · exact h
theorem sameSettings_scored (taken : State × Answer) (h : s.SameSettings taken.1) :
    s.SameSettings (s.scored taken).1 := by
  unfold State.scored
  split
  · exact .refl s
  · exact .refl s
  · exact .refl s
  · exact h
  · exact h

/-! ### The commands that are no hand-on, device event or request of a frame -/

/-- A scan writes no switch record. -/
theorem sameSettings_scan (k : Contacts) : s.SameSettings (s.scan k) := by
  have hrecord : ∀ i, ((s.scan k).switch i).record = (s.switch i).record := by
    intro i
    by_cases hi : i < Config.switchCount
    · cases hs : s.scanner.started
      · rw [firstScan_switch s k i hs hi]
        rfl
      · rw [scan_switch s k i hs hi]
        exact (debounce_keeps _ _ _).1
    · rw [switch_of_le _ i (Nat.not_lt.1 hi), switch_of_le _ i (Nat.not_lt.1 hi)]
  refine ⟨?_, hrecord, ?_, ?_, ?_, ?_, ?_⟩ <;> unfold State.scan <;> dsimp only <;> split
  all_goals first | rfl | exact fun _ => rfl

/-- A block keeps what is loaded into it when its update leaves that part alone. -/
theorem sameSettings_onEngine (f : Engine → Engine) (h : ∀ c, (f c).awards = c.awards) : s.SameSettings (s.onEngine f) :=
  ⟨rfl, fun _ => rfl, rfl, fun _ => rfl, h _, rfl, rfl⟩
theorem sameSettings_onModes (f : Modes → Modes) (h : ∀ c, (f c).defs = c.defs) : s.SameSettings (s.onModes f) :=
  ⟨rfl, fun _ => rfl, rfl, fun _ => rfl, rfl, h _, rfl⟩
theorem sameSettings_onGame (f : Game → Game) (h : ∀ g, (f g).params = g.params) : s.SameSettings (s.onGame f) :=
  ⟨h _, fun _ => rfl, rfl, fun _ => rfl, rfl, rfl, rfl⟩
theorem sameSettings_onCensus (f : Census → Census) (h : ∀ c, (f c).defs = c.defs) : s.SameSettings (s.onCensus f) :=
  ⟨rfl, fun _ => rfl, rfl, fun _ => rfl, rfl, rfl, h _⟩

/-- A tenth writes timers. -/
theorem sameSettings_modesTenth : s.SameSettings s.modesTenth := by
  unfold State.modesTenth
  dsimp only
  split
  · exact (sameSettings_onModes (fun c => { c with lastTenth := c.lastTenth + 100 }) fun _ => rfl).trans
      (sameSettings_of_frame_eq (by simp))
  · exact .refl s
theorem sameSettings_censusTenth : s.SameSettings s.censusTenth := by
  unfold State.censusTenth
  dsimp only
  split
  · exact (sameSettings_onCensus (fun c => { c with lastTenth := c.lastTenth + 100 }) fun _ => rfl).trans
      (sameSettings_of_frame_eq (by simp))
  · exact .refl s

/-- The Switch Scanner at a soft reset (R19). -/
theorem sameSettings_latchesCleared :
    s.SameSettings (s.clearAllLatches.onScanner fun c => { c with quiet := 0 }) :=
  sameSettings_of_frame_eq ((State.onQuiet_frame _ 0).trans s.clearAllLatches_frame)

/-- The devices and the census at a soft reset (R113, R139). -/
theorem sameSettings_devicesReset : s.SameSettings (s.clearDevices s.deviceAfterReset) :=
  sameSettings_of_frame_eq (State.clearDevices_frame _ _ fun _ _ => rfl)
theorem sameSettings_censusSoftReset : s.SameSettings s.censusSoftReset := by
  have h : s.holdLocked.frame = s.frame := foldl_frame _ _ State.lockedLost_frame _
  exact sameSettings_of_frame_eq (by simp [State.censusSoftReset, h])

/-- A soft reset keeps what is loaded, block by block (R19, R113, R139, R157). -/
theorem sameSettings_softReset (cause : Nat) : s.SameSettings (s.softReset cause) := by
  have hfirst : s.SameSettings
      ((({ s.atNow with events := [] } : State).emitFor 0 .restartedSoft 0 cause 0).onLink Link.softReset) :=
    ⟨rfl, fun _ => rfl, rfl, fun _ => rfl, rfl, rfl, rfl⟩
  have hlatches := hfirst.trans sameSettings_latchesCleared
  have hengine := hlatches.trans (sameSettings_onEngine
    (fun c => { c with triggers := [], root := none, walking := none, paused := none }) fun _ => rfl)
  have hmodes := hengine.trans (sameSettings_onModes
    (fun c => { c with stack := [], nextOrder := 0, deferred := false }) fun _ => rfl)
  have hgame := hmodes.trans (sameSettings_onGame (fun g =>
    { g with phase := .idle, players := [], current := 0, ballNumber := 0, lastTilt := none, search := .reset }) fun _ => rfl)
  have hcensus := (hgame.trans sameSettings_devicesReset).trans sameSettings_censusSoftReset
  exact hcensus.trans (sameSettings_of_frame_eq (State.recover_frame _))

/-- The end of a reply keeps what is loaded, also where a soft reset follows it. -/
theorem sameSettings_replySent : s.SameSettings s.replySent := by
  unfold State.replySent
  split
  · dsimp only
    split
    · exact (sameSettings_onLink _).trans (sameSettings_softReset 0)
    · exact sameSettings_onLink _
  · exact .refl s

/-! ### The work of the requests -/

/-- A closure that reaches the Game Controller through the devices. -/
theorem sameSettings_slam (t : Transition) : s.SameSettings
    (if ((s.reportSwitch t).handToDevices t.switch).gameOn then
      ((s.reportSwitch t).handToDevices t.switch).endGame (some t.switch)
    else (s.reportSwitch t).handToDevices t.switch) := by
  split <;> exact sameSettings_of_frame_eq (by simp)

theorem sameSettings_hostTrigger (b : Bool) (t : Nat) : s.SameSettings (s.hostTrigger b t).1 := by
  unfold State.hostTrigger
  split
  · exact (s.triggerRoot_frame b t).sameSettings
  · exact sameSettings_of_frame_eq (by simp)

theorem sameSettings_modeOperation (m op : Nat) : s.SameSettings (s.modeOperation m op).1 := by
  unfold State.modeOperation
  split <;> exact sameSettings_of_frame_eq (by simp)

theorem sameSettings_writePlayer (i : Nat) (f : PlayerField) (n : Nat) : s.SameSettings (s.writePlayer i f n).1 := by
  unfold State.writePlayer
  split
  · exact .refl s
  · exact sameSettings_of_frame_eq (by simp)

theorem sameSettings_hostEject (d : Nat) : s.SameSettings (s.hostEject d).1 := by
  unfold State.hostEject
  split
  · exact .refl s
  · dsimp only
    split <;> exact sameSettings_caughtUp (by simp)

theorem sameSettings_faultClear (b : Bool) (d : Nat) : s.SameSettings (s.faultClear b d) := by
  unfold State.faultClear State.faultHost
  split
  · exact (sameSettings_caughtUp (s := s) (by simp)).trans (State.faultArrivals_frame _ b d _).sameSettings
  · exact .refl s

/-! ### Every command -/

/-- A command that is no hard reset, and no load taken in IDLE, leads to a state with the same configuration. -/
theorem exec_sameSettings (c : Instr) (hc : c ≠ .hardReset)
    (hl : ∀ type tag p, c.request? = some (type, tag, p) → 1 ≤ type.toNat → type.toNat ≤ 8 → s.game.phase ≠ .idle) :
    ∃ t, exec c s = .next t ∧ s.SameSettings t := by
  cases c
  case hardReset => exact absurd rfl hc
  case switchScan k => exact ⟨_, rfl, sameSettings_scan k⟩
  case switchClosure i b => exact ⟨_, rfl, sameSettings_handOn _ _ _ fun t u => (u.closure_frame b t).sameSettings⟩
  case switchOpening i b => exact ⟨_, rfl, sameSettings_handOn _ _ _ fun t u => sameSettings_of_frame_eq (by simp)⟩
  case tiltClosure i => exact ⟨_, rfl, sameSettings_handOn _ _ _ fun t u => sameSettings_of_frame_eq (by simp)⟩
  case slamClosure i => exact ⟨_, rfl, sameSettings_handOn _ _ _ fun t u => sameSettings_slam t⟩
  case tiltSlamOpening i => exact ⟨_, rfl, sameSettings_handOn _ _ _ fun t u => sameSettings_of_frame_eq (by simp)⟩
  case deviceSwitchTransition i =>
    exact ⟨_, rfl, sameSettings_handOn _ _ _ fun t u => sameSettings_of_frame_eq (by simp)⟩
  case tenth => exact ⟨_, rfl, sameSettings_modesTenth.trans sameSettings_censusTenth⟩
  case modeTimeout => exact ⟨_, rfl, sameSettings_of_frame_eq (by split <;> simp)⟩
  case ballSaveExpired => exact ⟨_, rfl, sameSettings_of_frame_eq (by split <;> simp)⟩
  case arrival d b =>
    refine ⟨_, rfl, ?_⟩
    split
    · exact .refl s
    · exact (sameSettings_of_frame _ _ s.finishWork_frame).trans (sameSettings_of_frame_eq (by simp))
  case settleExpired | holdOffExpired | coilGrant | pulseEnd | confirmWindowEnd | retryIntervalEnd | searchWindowEnd |
      searchArm | searchStep | searchPauseEnd =>
    exact ⟨_, rfl, sameSettings_deviceEvent _ _ fun u => sameSettings_of_frame_eq (by simp)⟩
  case requestFrame | interByteGap | framingError | lineBreak | lineBreakEnd | byteReceived =>
    exact ⟨_, rfl, sameSettings_onLink _⟩
  case longBreak =>
    refine ⟨_, rfl, ?_⟩
    split
    · exact (sameSettings_onLink _).trans (sameSettings_softReset 1)
    · exact .refl s
  case replySent => exact ⟨_, rfl, sameSettings_replySent⟩
  case unknownType type tag p =>
    refine ⟨_, rfl, ?_⟩
    split
    · exact sameSettings_request _ _ _ _ fun u _ => .refl u
    · exact .refl s
  case setGame tag p | setSwitch tag p | setGroup tag p | setDevice tag p | setMode tag p | setMultiball tag p |
      setAward tag p | clearTables tag p =>
    have hp := hl _ _ _ rfl (by decide) (by decide)
    exact ⟨_, rfl, sameSettings_request _ _ _ _ fun u hu => sameSettings_load _ _ _ (hu ▸ hp)⟩
  case startGame tag p =>
    refine ⟨_, rfl, sameSettings_request _ _ _ _ fun u _ => sameSettings_checked _ _ _ ?_⟩
    split
    · exact .refl u
    · split
      · exact .refl u
      · exact sameSettings_caughtUp (by simp)
  case addPlayer tag p =>
    refine ⟨_, rfl, sameSettings_request _ _ _ _ fun u _ => sameSettings_checked _ _ _ ?_⟩
    split
    · exact sameSettings_of_frame_eq (by simp)
    · exact .refl u
  case nextBall tag p =>
    refine ⟨_, rfl, sameSettings_request _ _ _ _ fun u _ => sameSettings_checked _ _ _ ?_⟩
    split
    · exact sameSettings_caughtUp (by simp)
    · exact .refl u
  case endGame tag p =>
    refine ⟨_, rfl, sameSettings_request _ _ _ _ fun u _ => sameSettings_checked _ _ _ ?_⟩
    split
    · exact sameSettings_of_frame_eq (by simp)
    · exact .refl u
  case triggerRequest tag p =>
    exact ⟨_, rfl, sameSettings_request _ _ _ _ fun u _ => sameSettings_checked _ _ _ (sameSettings_scored _
      (sameSettings_hostTrigger _ _))⟩
  case grantRequest tag p =>
    exact ⟨_, rfl, sameSettings_request _ _ _ _ fun u _ => sameSettings_checked _ _ _ (sameSettings_scored _
      (sameSettings_of_frame_eq (State.awardReported_frame ..)))⟩
  case modeControl tag p =>
    exact ⟨_, rfl, sameSettings_request _ _ _ _ fun u _ => sameSettings_checked _ _ _ (sameSettings_scored _
      ((sameSettings_modeOperation (byteAt p.bytes 0) (byteAt p.bytes 1)).trans (sameSettings_of_frame_eq (by simp))))⟩
  case setPlayer tag p =>
    exact ⟨_, rfl, sameSettings_request _ _ _ _ fun u _ => sameSettings_checked _ _ _ (sameSettings_scored _
      (sameSettings_writePlayer _ _ _))⟩
  case ejectRequest tag p =>
    exact ⟨_, rfl, sameSettings_request _ _ _ _ fun u _ => sameSettings_checked _ _ _ (sameSettings_hostEject _)⟩
  case clearFault tag p =>
    exact ⟨_, rfl, sameSettings_request _ _ _ _ fun u _ => sameSettings_checked _ _ _ (sameSettings_faultClear _ _)⟩
  case clearLatches tag p =>
    exact ⟨_, rfl, sameSettings_request _ _ _ _ fun u _ => sameSettings_checked _ _ _
      (sameSettings_of_frame_eq (by dsimp only; split <;> simp))⟩
  case readStatus | readPlayer | readModes | readDevice | readAward | readSwitches =>
    exact ⟨_, rfl, sameSettings_request _ _ _ _ fun u _ => sameSettings_checked _ _ _ (.refl u)⟩
  case fetchEvents tag p =>
    exact ⟨_, rfl, sameSettings_request _ _ _ _ fun u _ => sameSettings_checked _ _ _
      ⟨rfl, fun _ => rfl, rfl, fun _ => rfl, rfl, rfl, rfl⟩⟩
  case restartRequest tag p =>
    exact ⟨_, rfl, sameSettings_request _ _ _ _ fun u _ => sameSettings_checked _ _ _ (sameSettings_onLink _)⟩

/-- Settles O60: the command's one next state has the same configuration. -/
theorem settingsChangeOnlyByLoads : Obligations.SettingsChangeOnlyByLoads := by
  intro c s t h hc hl
  obtain ⟨u, e, hu⟩ := exec_sameSettings c hc hl
  rw [h] at e
  cases e
  exact hu

end Sys2Proof.Machine
end

