-- ==== Sys2Proof/Proofs/Events.lean ====
section
/-! The Event Queue through the inner work of the part: records only join it. One lemma for each operation says that it queues
further records behind those of a queue `q` that stood earlier. -/

namespace Sys2Proof.Machine

open Sys2Proof

/-- The Event Queue is `q` with further records queued behind it. -/
def State.Logged (q : List EventRecord) (s : State) : Prop := ∃ more, s.events = List.foldl appendEvent q more

variable {q : List EventRecord} {s : State}

/-- A queue is its own with nothing behind it. -/
theorem logged_self : s.Logged s.events := ⟨[], rfl⟩

/-- The same queue is logged the same. -/
theorem logged_of_events {t : State} (e : t.events = s.events) (h : s.Logged q) : t.Logged q := by
  unfold State.Logged
  rwa [e]

@[simp] theorem onScanner_logged (f : Scanner → Scanner) : (s.onScanner f).Logged q ↔ s.Logged q := Iff.rfl
@[simp] theorem onEngine_logged (f : Engine → Engine) : (s.onEngine f).Logged q ↔ s.Logged q := Iff.rfl
@[simp] theorem onModes_logged (f : Modes → Modes) : (s.onModes f).Logged q ↔ s.Logged q := Iff.rfl
@[simp] theorem onDevices_logged (f : Devices → Devices) : (s.onDevices f).Logged q ↔ s.Logged q := Iff.rfl
@[simp] theorem onCensus_logged (f : Census → Census) : (s.onCensus f).Logged q ↔ s.Logged q := Iff.rfl
@[simp] theorem onGame_logged (f : Game → Game) : (s.onGame f).Logged q ↔ s.Logged q := Iff.rfl
@[simp] theorem onSearch_logged (f : Search → Search) : (s.onSearch f).Logged q ↔ s.Logged q := Iff.rfl
@[simp] theorem at_logged (t : Stamp) : (s.at t).Logged q ↔ s.Logged q := Iff.rfl
@[simp] theorem onSwitch_logged (i : Nat) (f : Switch → Switch) : (s.onSwitch i f).Logged q ↔ s.Logged q := Iff.rfl
@[simp] theorem onDevice_logged (d : Nat) (f : Device → Device) : (s.onDevice d f).Logged q ↔ s.Logged q := Iff.rfl
@[simp] theorem setLocked_logged (d n : Nat) : (s.setLocked d n).Logged q ↔ s.Logged q := Iff.rfl
@[simp] theorem setStack_logged (l : List ModeInst) : (s.setStack l).Logged q ↔ s.Logged q := Iff.rfl
@[simp] theorem onPlayer_logged (p : Nat) (f : Player → Player) : (s.onPlayer p f).Logged q ↔ s.Logged q := by
  simp [State.Logged]
@[simp] theorem onCurrent_logged (f : Player → Player) : (s.onCurrent f).Logged q ↔ s.Logged q := by
  simp [State.onCurrent]

/-- A record that is queued joins behind. -/
@[simp] theorem emitFor_logged (p : Nat) (e : Event) (u a v : Nat) (h : s.Logged q) : (s.emitFor p e u a v).Logged q := by
  obtain ⟨more, hm⟩ := h
  exact ⟨more ++ [⟨e, p, u, s.time, a, v⟩], by simp [hm]⟩
@[simp] theorem emit_logged (e : Event) (u a v : Nat) (h : s.Logged q) : (s.emit e u a v).Logged q :=
  emitFor_logged _ e u a v h

theorem repeated_logged (f : State → State) (hf : ∀ x : State, x.Logged q → (f x).Logged q) (k : Nat) (h : s.Logged q) :
    (repeated f k s).Logged q := repeated_keeps f hf k s h
theorem foldl_logged {α : Type} (f : State → α → State) (hf : ∀ (x : State) a, x.Logged q → (f x a).Logged q) (l : List α)
    (h : s.Logged q) : (l.foldl f s).Logged q := foldl_keeps f hf l s h

/-! ### Orders and the search -/

@[simp] theorem leaveLine_logged (d : Nat) : (s.leaveLine d).Logged q ↔ s.Logged q := Iff.rfl
@[simp] theorem joinLine_logged (d : Nat) (h : s.Logged q) : (s.joinLine d).Logged q := by
  unfold State.joinLine; split <;> simp [h]
@[simp] theorem enterEjectWait_logged (d : Nat) (h : s.Logged q) : (s.enterEjectWait d).Logged q :=
  logged_of_events (enterEjectWait_events s d) h
@[simp] theorem followInterlock_logged (h : s.Logged q) : s.followInterlock.Logged q := by
  unfold State.followInterlock; (repeat' split) <;> simp [h]
@[simp] theorem dropSearch_logged (d : Nat) (h : s.Logged q) : (s.dropSearch d).Logged q := by
  unfold State.dropSearch; split <;> simp [h]
@[simp] theorem dropSearches_logged (h : s.Logged q) : s.dropSearches.Logged q := by
  simp [State.dropSearches, foldl_logged _ (fun _ d => dropSearch_logged d) _ h]
@[simp] theorem searchNext_logged (h : s.Logged q) : s.searchNext.Logged q := by
  unfold State.searchNext; split <;> simp [h]
@[simp] theorem queueOrder_logged (d : Nat) (r : Reason) (l : Bool) (h : s.Logged q) : (s.queueOrder d r l).Logged q := by
  unfold State.queueOrder; dsimp only; (repeat' split) <;> simp (disch := simp [h]) [h]
@[simp] theorem launchTest_logged (h : s.Logged q) : s.launchTest.Logged q := by
  unfold State.launchTest; split <;> simp [h]
@[simp] theorem recoverDevice_logged (d : Nat) (h : s.Logged q) : (s.recoverDevice d).Logged q := by
  unfold State.recoverDevice; split
  · exact repeated_logged _ (fun x hx => by simp [hx]) _ h
  · exact h
@[simp] theorem recover_logged (h : s.Logged q) : s.recover.Logged q := by
  unfold State.recover; split
  · exact foldl_logged _ (fun _ d => recoverDevice_logged d) _ h
  · exact h
@[simp] theorem settleDevices_logged (h : s.Logged q) : s.settleDevices.Logged q := by
  simp (disch := simp [h]) [State.settleDevices]
@[simp] theorem searchOff_logged (h : s.Logged q) : s.searchOff.Logged q := by
  simp [State.searchOff, h]
@[simp] theorem searchWait_logged : s.searchWait.Logged q ↔ s.Logged q := Iff.rfl
@[simp] theorem toPhase_logged (p : Phase) (h : s.Logged q) : (s.toPhase p).Logged q := by
  unfold State.toPhase; dsimp only; (repeat' split) <;> simp [h]
@[simp] theorem searchEnd_logged (c : Nat) (h : s.Logged q) : (s.searchEnd c).Logged q := by
  simp [State.searchEnd, h]

/-! ### Score and modes -/

@[simp] theorem replays_logged (b a : Nat) (l : List Nat) (i : Nat) (h : s.Logged q) : (s.replays b a l i).Logged q := by
  induction l generalizing s i with
  | nil => simp [State.replays, h]
  | cons t l ih => simp only [State.replays]; (repeat' split) <;> simp [ih, h]
@[simp] theorem addPoints_logged (p : Nat) (h : s.Logged q) : (s.addPoints p).Logged q := by
  unfold State.addPoints; dsimp only; split <;> simp [h]
@[simp] theorem award1_logged (b : Nat) (c : Classes) (h : s.Logged q) : (s.award1 b c).Logged q := by
  simp [State.award1, h]
@[simp] theorem awardReported_logged (e : Event) (u b : Nat) (c : Classes) (h : s.Logged q) :
    (s.awardReported e u b c).Logged q := by
  simp [State.awardReported, h]
@[simp] theorem lawEvents_logged (l : List ModeInst) (h : s.Logged q) : (s.lawEvents l).Logged q :=
  foldl_logged _ (fun x i hx => by split <;> simp [hx]) l h
@[simp] theorem applyLaw_logged (h : s.Logged q) : s.applyLaw.Logged q := by
  simp [State.applyLaw, h]
@[simp] theorem endInstances_logged (p : ModeInst → Bool) (r : Nat) (h : s.Logged q) : (s.endInstances p r).Logged q := by
  simp only [State.endInstances, setStack_logged]
  exact foldl_logged _ (fun x i hx => by simp [hx]) _ h
@[simp] theorem modeStart_logged (m : Nat) (h : s.Logged q) : (s.modeStart m).1.Logged q := by
  unfold State.modeStart; dsimp only; (repeat' split) <;> simp [h]
@[simp] theorem modeStop_logged (m : Nat) (h : s.Logged q) : (s.modeStop m).1.Logged q := by
  unfold State.modeStop; split <;> simp [h]
@[simp] theorem appendTrigger_logged (t : Nat) (h : s.Logged q) : (s.appendTrigger t).Logged q := by
  unfold State.appendTrigger; (repeat' split) <;> simp [h]
@[simp] theorem modeComplete_logged (m : Nat) (h : s.Logged q) : (s.modeComplete m).Logged q := 
  applyLaw_logged (endInstances_logged _ _ (appendTrigger_logged _ (awardReported_logged _ _ _ _ h)))
@[simp] theorem modeProgress_logged (m : Nat) (h : s.Logged q) : (s.modeProgress m).1.Logged q := by
  unfold State.modeProgress; dsimp only; (repeat' split) <;> simp [h]
@[simp] theorem modesMultiballEnd_logged (h : s.Logged q) : s.modesMultiballEnd.Logged q := by
  unfold State.modesMultiballEnd; (repeat' split) <;> simp [h]
@[simp] theorem saveInstances_logged (l : List ModeInst) (h : s.Logged q) : (s.saveInstances l).Logged q := by
  induction l generalizing s with
  | nil => exact h
  | cons i l ih => simp only [State.saveInstances]; split <;> simp [ih, h]
@[simp] theorem modesBallEnd_logged (h : s.Logged q) : s.modesBallEnd.Logged q := by
  unfold State.modesBallEnd; dsimp only; split <;> simp (disch := simp [h])
@[simp] theorem modesGameEnd_logged : s.modesGameEnd.Logged q ↔ s.Logged q := Iff.rfl

/-! ### Census -/

@[simp] theorem findByCount_logged (u : Option Nat) (k : Nat) (h : s.Logged q) : (s.findByCount u k).Logged q := by
  induction k generalizing s with
  | zero => exact h
  | succ k ih => simp [State.findByCount, ih, h]
@[simp] theorem recompute_logged (u : Option Nat) (h : s.Logged q) : (s.recompute u).Logged q := by
  unfold State.recompute; dsimp only; (repeat' split) <;> simp [h]
@[simp] theorem lockedLost_logged (d : Nat) (h : s.Logged q) : (s.lockedLost d).Logged q := by
  unfold State.lockedLost; dsimp only; split <;> simp [h]
@[simp] theorem playfieldActivity_logged (h : s.Logged q) : s.playfieldActivity.Logged q := by
  unfold State.playfieldActivity; dsimp only; split <;> simp [h]
@[simp] theorem countActivity_logged (h : s.Logged q) : s.countActivity.Logged q := by
  unfold State.countActivity; (repeat' split) <;> simp [h]
@[simp] theorem settleAt_logged (d n : Nat) (h : s.Logged q) : (s.settleAt d n).Logged q := by
  unfold State.settleAt; dsimp only; (repeat' split) <;> simp (disch := simp [h]) [h]
@[simp] theorem saveEnd_logged (c : Nat) (h : s.Logged q) : (s.saveEnd c).Logged q := by
  unfold State.saveEnd; split <;> simp [h]
@[simp] theorem serveToPlay_logged (h : s.Logged q) : s.serveToPlay.Logged q := by
  unfold State.serveToPlay; split <;> simp [h]
@[simp] theorem foundByClosure_logged (i : Nat) (h : s.Logged q) : (s.foundByClosure i).Logged q := by
  unfold State.foundByClosure; dsimp only; split <;> simp [h]
@[simp] theorem validate_logged (i : Nat) (h : s.Logged q) : (s.validate i).Logged q := by
  unfold State.validate; dsimp only; split <;> simp [h]
@[simp] theorem offerClosure_logged (i : Nat) (h : s.Logged q) : (s.offerClosure i).Logged q := by
  simp [State.offerClosure, h]
@[simp] theorem launchServe_logged (h : s.Logged q) : s.launchServe.Logged q := by
  simp [State.launchServe, h]
@[simp] theorem releaseFrom_logged (k w : Nat) (h : s.Logged q) : (s.releaseFrom k w).1.Logged q :=
  repeated_logged _ (fun x hx => by simp [hx]) _ h
@[simp] theorem releaseLocked_logged (w : Nat) (l : List Nat) (h : s.Logged q) : (s.releaseLocked w l).1.Logged q := by
  induction l generalizing s w with
  | nil => exact h
  | cons k l ih => simp [State.releaseLocked, ih, h]
@[simp] theorem serveFromTrough_logged (w : Nat) (h : s.Logged q) : (s.serveFromTrough w).1.Logged q := by
  induction w generalizing s with
  | zero => exact h
  | succ w ih => simp only [State.serveFromTrough]; split <;> simp [ih, h]
@[simp] theorem servingProcedure_logged (w : Nat) (b : Bool) (h : s.Logged q) : (s.servingProcedure w b).1.Logged q := by
  unfold State.servingProcedure; dsimp only; split <;> simp [h]
@[simp] theorem multiballServe_logged (k : Nat) (h : s.Logged q) : (s.multiballServe k).1.Logged q := by
  unfold State.multiballServe; dsimp only; split <;> simp [h]
@[simp] theorem multiballRise_logged (h : s.Logged q) : s.multiballRise.Logged q := by
  unfold State.multiballRise; split <;> simp [h]
@[simp] theorem startModeOf_logged (k : Nat) (h : s.Logged q) : (s.startModeOf k).Logged q := by
  unfold State.startModeOf; split <;> simp [h]
@[simp] theorem multiballStart_logged (k : Nat) (h : s.Logged q) : (s.multiballStart k).Logged q := by
  have hrise := multiballRise_logged (multiballServe_logged k h)
  unfold State.multiballStart; dsimp only; split <;> simp (disch := simp [hrise])
@[simp] theorem multiballStack_logged (k : Nat) (h : s.Logged q) : (s.multiballStack k).Logged q := by
  simp (disch := simp [h]) [State.multiballStack]
@[simp] theorem mbStart_logged (k : Nat) (h : s.Logged q) : (s.mbStart k).Logged q := by
  unfold State.mbStart; (repeat' split) <;> simp [h]
@[simp] theorem addBall_logged (h : s.Logged q) : s.addBall.Logged q := by
  unfold State.addBall; split <;> simp [h]
@[simp] theorem multiballEnd_logged (h : s.Logged q) : s.multiballEnd.Logged q := by
  unfold State.multiballEnd; dsimp only; (repeat' split) <;> simp (disch := simp [h])
@[simp] theorem multiballFall_logged (h : s.Logged q) : s.multiballFall.Logged q := by
  unfold State.multiballFall; split <;> simp [h]
@[simp] theorem ballEnd_logged (h : s.Logged q) : s.ballEnd.Logged q := 
  recover_logged (emit_logged _ _ _ _ (toPhase_logged _ (addPoints_logged _ (modesBallEnd_logged (saveEnd_logged 4 h)))))
@[simp] theorem ballEndTest_logged (h : s.Logged q) : s.ballEndTest.Logged q := by
  unfold State.ballEndTest; split <;> simp [h]
@[simp] theorem ballLost_logged (h : s.Logged q) : s.ballLost.Logged q := by
  simp [State.ballLost, h]
@[simp] theorem saveDrain_logged (r : BallSave) (h : s.Logged q) : (s.saveDrain r).Logged q := by
  unfold State.saveDrain; dsimp only; split <;> simp (disch := simp [h])
@[simp] theorem lostDrain_logged (h : s.Logged q) : s.lostDrain.Logged q := by
  simp [State.lostDrain, h]
@[simp] theorem drain_logged (h : s.Logged q) : s.drain.Logged q := by
  unfold State.drain; dsimp only; (repeat' split) <;> simp [h]
@[simp] theorem returnBall_logged (d : Nat) (h : s.Logged q) : (s.returnBall d).Logged q := by
  simp [State.returnBall, h]
@[simp] theorem makeLock_logged (d : Nat) (h : s.Logged q) : (s.makeLock d).Logged q := by
  unfold State.makeLock; dsimp only; (repeat' split) <;> simp (disch := simp [h])
@[simp] theorem lockDecision_logged (d : Nat) (h : s.Logged q) : (s.lockDecision d).Logged q := by
  unfold State.lockDecision; (repeat' split) <;> simp [h]
@[simp] theorem censusArrival_logged (d : Nat) (h : s.Logged q) : (s.censusArrival d).Logged q := by
  unfold State.censusArrival; (repeat' split) <;> simp [h]

/-! ### Eject cycles and evidence -/

@[simp] theorem restartSettle_logged (d : Nat) : (s.restartSettle d).Logged q ↔ s.Logged q := Iff.rfl
@[simp] theorem dueArrivals_logged (d k : Nat) : (s.dueArrivals d k).Logged q ↔ s.Logged q := Iff.rfl
@[simp] theorem complete_logged (d : Nat) (p : Bool) (k : Nat) (h : s.Logged q) : (s.complete d p k).Logged q := by
  unfold State.complete; dsimp only; (repeat' split) <;> simp [h]
@[simp] theorem confirm_logged (d : Nat) (h : s.Logged q) : (s.confirm d).Logged q := by
  simp [State.confirm, h]
@[simp] theorem completeFallen_logged (d : Nat) (h : s.Logged q) : (s.completeFallen d).Logged q := by
  simp [State.completeFallen, h]
@[simp] theorem faultSelf_logged (d : Nat) (h : s.Logged q) : (s.faultSelf d).Logged q := by
  simp [State.faultSelf, h]
@[simp] theorem attemptFailed_logged (d : Nat) (h : s.Logged q) : (s.attemptFailed d).Logged q := by
  unfold State.attemptFailed; dsimp only; split <;> simp [h]
@[simp] theorem success_logged (d : Nat) (h : s.Logged q) : (s.success d).Logged q := by
  unfold State.success; dsimp only; (repeat' split) <;> simp [h]
@[simp] theorem reactCount_logged (d : Nat) (h : s.Logged q) : (s.reactCount d).Logged q := by
  unfold State.reactCount; dsimp only; (repeat' split) <;> simp [h]
@[simp] theorem countEntry_logged (d : Nat) : (s.countEntry d).Logged q ↔ s.Logged q := Iff.rfl
@[simp] theorem entryClosure_logged (d : Nat) (h : s.Logged q) : (s.entryClosure d).Logged q := by
  unfold State.entryClosure; dsimp only; (repeat' split) <;> simp [h]
@[simp] theorem exitClosure_logged (d : Nat) (h : s.Logged q) : (s.exitClosure d).Logged q := by
  unfold State.exitClosure; dsimp only; (repeat' split) <;> simp [h]
@[simp] theorem deviceEvidence_logged (i d : Nat) (h : s.Logged q) : (State.deviceEvidence i s d).Logged q := by
  unfold State.deviceEvidence; dsimp only; (repeat' split) <;> simp [h]
@[simp] theorem handToDevices_logged (i : Nat) (h : s.Logged q) : (s.handToDevices i).Logged q := by
  simp [State.handToDevices, foldl_logged _ (fun _ d => deviceEvidence_logged i d) _ h]
@[simp] theorem positionTransition_logged (i : Nat) (c : Bool) (h : s.Logged q) : (s.positionTransition i c).Logged q := by
  have hs := fun l => foldl_logged _ (fun _ d => (restartSettle_logged d).2) l h
  unfold State.positionTransition; dsimp only; split <;> simp [hs]
@[simp] theorem cancelDevices_logged : s.cancelDevices.Logged q ↔ s.Logged q := Iff.rfl

/-! ### Walks, roots and arrivals -/

@[simp] theorem clearLatches_logged (l : List Nat) : (s.clearLatches l).Logged q ↔ s.Logged q := by
  simp [State.clearLatches]
@[simp] theorem act_logged (a : Action) (h : s.Logged q) : (s.act a).Logged q := by
  unfold State.act; dsimp only; split <;> simp (disch := simp [h]) [h]
@[simp] theorem matchPoints_logged (i : Nat) (e : AwardEntry) (h : s.Logged q) : (s.matchPoints i e).Logged q := by
  unfold State.matchPoints; (repeat' split) <;> simp [h]
@[simp] theorem carryOut_logged (i : Nat) (e : AwardEntry) (h : s.Logged q) : (s.carryOut i e).Logged q :=
  foldl_logged _ (fun _ a => act_logged a) _ (by simp [h])
@[simp] theorem walkChain_logged (g : Edge) (l : List Nat) (h : s.Logged q) : (s.walkChain g l).Logged q := by
  induction l generalizing s with
  | nil => exact h
  | cons i l ih => simp only [State.walkChain]; (repeat' split) <;> simp [ih, h]
@[simp] theorem walk_logged (t : Nat) (g : Edge) (h : s.Logged q) : (s.walk t g).Logged q := by
  simp [State.walk, h]
@[simp] theorem afterWalk_logged (h : s.Logged q) : s.afterWalk.Logged q := by
  unfold State.afterWalk; (repeat' split) <;> simp [h]
@[simp] theorem pendingWalk_logged (h : s.Logged q) : s.pendingWalk.Logged q := by
  unfold State.pendingWalk; (repeat' split) <;> simp [h]
@[simp] theorem finishRoot_logged (h : s.Logged q) : s.finishRoot.Logged q :=
  repeated_logged _ (fun _ => pendingWalk_logged) _ h
@[simp] theorem directWalk_logged (t : Nat) (g : Edge) (b : Bool) (h : s.Logged q) : (s.directWalk t g b).Logged q := by
  unfold State.directWalk; dsimp only; (repeat' split) <;> simp (disch := simp [h]) [h]
@[simp] theorem takeArrival_logged (d : Nat) (b : Bool) (h : s.Logged q) : (s.takeArrival d b).Logged q := by
  unfold State.takeArrival; dsimp only; (repeat' split) <;> simp (disch := simp [h]) [h]
@[simp] theorem takeArrivals_logged (d : Nat) (h : s.Logged q) : (s.takeArrivals d).Logged q :=
  repeated_logged _ (fun x hx => by simp [hx]) _ h
@[simp] theorem arrivalsWithin_logged (b : Bool) (w : PausedWork) (d : Nat) (h : s.Logged q) :
    (s.arrivalsWithin b w d).Logged q := by
  unfold State.arrivalsWithin; split <;> simp [h]
@[simp] theorem evidenceThenArrivals_logged (b : Bool) (t : Transition) (d : Nat) (h : s.Logged q) :
    (s.evidenceThenArrivals b t d).Logged q := by
  unfold State.evidenceThenArrivals; split <;> simp [h]
@[simp] theorem ownWalk_logged (b : Bool) (t : Transition) (h : s.Logged q) : (s.ownWalk b t).Logged q := by
  unfold State.ownWalk; split <;> simp (disch := simp [h]) [h]
@[simp] theorem evidenceAndWalk_logged (b : Bool) (t : Transition) (l : List Nat) (h : s.Logged q) :
    (s.evidenceAndWalk b t l).Logged q :=
  ownWalk_logged b t (foldl_logged _ (fun _ d => evidenceThenArrivals_logged b t d) l h)

/-! ### Tilt and the end of a game -/

@[simp] theorem tilt_logged (i : Nat) (h : s.Logged q) : (s.tilt i).Logged q := by
  simp (disch := simp [h]) [State.tilt]
@[simp] theorem tiltClosure_logged (i : Nat) (h : s.Logged q) : (s.tiltClosure i).Logged q := by
  unfold State.tiltClosure; dsimp only; (repeat' split) <;> simp [h]
@[simp] theorem endGame_logged (i : Option Nat) (h : s.Logged q) : (s.endGame i).Logged q := by
  unfold State.endGame; dsimp only
  split <;> exact recover_logged ((onGame_logged _).2 (toPhase_logged _ (by simp [h])))

end Sys2Proof.Machine
end

