-- ==== Sys2Proof/Proofs/HandOns.lean ====
section
/-! The six hand-ons: what each takes, keeps and reports first (O6). -/

namespace Sys2Proof.Machine

open Sys2Proof

variable {s : State}

/-! ### Work that has paused, once it has been caught up with -/

/-- An equal frame has the same work paused. -/
theorem paused_of_frame {t : State} (h : t.frame = s.frame) : t.engine.paused = s.engine.paused := congrArg Frame.paused h

/-- Without a breather nothing pauses. -/
theorem arrivalsWithin_false_paused (w : PausedWork) (d : Nat) :
    (s.arrivalsWithin false w d).engine.paused = s.engine.paused := by
  rw [arrivalsWithin_false]
  exact paused_of_frame (s.takeArrivals_frame d)
theorem evidenceThenArrivals_false_paused (t : Transition) (d : Nat) :
    (s.evidenceThenArrivals false t d).engine.paused = s.engine.paused := by
  unfold State.evidenceThenArrivals
  split
  · rfl
  · rw [arrivalsWithin_false_paused]
    exact paused_of_frame (State.deviceEvidence_frame (s.at t.stamp) t.switch d)
theorem evidenceAndWalk_false_paused (t : Transition) (l : List Nat) :
    (s.evidenceAndWalk false t l).engine.paused = s.engine.paused := by
  have h : (l.foldl (State.evidenceThenArrivals false t) s).engine.paused = s.engine.paused :=
    foldl_keeps (p := fun x => x.engine.paused = s.engine.paused) _
      (fun _ _ h => (evidenceThenArrivals_false_paused t _).trans h) l s rfl
  exact (paused_of_frame (State.ownWalk_frame _ false t)).trans h
theorem faultArrivals_false_paused (d : Nat) (stamp : Stamp) :
    (s.faultArrivals false d stamp).engine.paused = s.engine.paused := by
  unfold State.faultArrivals
  dsimp only
  split
  · exact arrivalsWithin_false_paused _ d
  · exact (paused_of_frame (State.faultCleared_frame _ d stamp)).trans (arrivalsWithin_false_paused _ d)
theorem answerInHand_paused (p : List Byte) : (s.answerInHand p).engine.paused = s.engine.paused := by
  unfold State.answerInHand
  split <;> rfl

/-- Work that goes on without a breather comes to its end. -/
theorem resume_false_paused : (s.resume false).engine.paused = none := by
  unfold State.resume
  split
  · assumption
  · dsimp only
    split
    · exact (evidenceAndWalk_false_paused _ _).trans (arrivalsWithin_false_paused _ _)
    · exact (answerInHand_paused _).trans (paused_of_frame (State.settleDevices_frame _))
    · have h := faultArrivals_false_paused (s := s.onEngine fun c => { c with paused := none })
      split
      · exact h _ _
      · exact (answerInHand_paused _).trans (h _ _)

/-- After catching up no work has paused. -/
theorem catchUp_paused : s.catchUp.engine.paused = none := by
  unfold State.catchUp
  split
  case isTrue h =>
    simp only [State.quietEngine, Bool.and_eq_true, Option.isNone_iff_eq_none] at h
    exact h.1.2
  case isFalse =>
    exact (paused_of_frame (State.dueHandedOn_frame s.finishWork)).trans (resume_false_paused (s := s.finishRoot))

/-- A closure that pauses leaves no request in hand. -/
theorem evidenceThenArrivals_inHand (b : Bool) (t : Transition) (d : Nat) (h : s.inHand = false) :
    (s.evidenceThenArrivals b t d).inHand = false := by
  have hev := paused_of_frame (State.deviceEvidence_frame (s.at t.stamp) t.switch d)
  unfold State.evidenceThenArrivals
  split
  · exact h
  · unfold State.arrivalsWithin
    split
    · rfl
    · exact (inHand_congr s _ ((paused_of_frame (State.takeArrivals_frame _ d)).trans hev)).trans h
theorem closure_inHand (b : Bool) (t : Transition) (h : s.engine.paused = none) :
    (State.closure b t s).inHand = false := by
  have hwalk : ∀ u : State, u.engine.paused = none → (u.evidenceAndWalk b t deviceNumbers).inHand = false := by
    intro u hu
    have hf : (deviceNumbers.foldl (State.evidenceThenArrivals b t) u).inHand = false :=
      foldl_keeps (p := fun x => x.inHand = false) _ (fun _ d hx => evidenceThenArrivals_inHand b t d hx)
        deviceNumbers u (inHand_of_none u hu)
    exact (inHand_congr _ _ (paused_of_frame (State.ownWalk_frame _ b t))).trans hf
  refine hwalk _ ?_
  rw [← h]
  refine paused_of_frame (s := s) ?_
  (repeat' split) <;> simp [State.onLatch_frame]

/-! ### The link through what there is to catch up with -/

/-- The reply of a request in hand takes its place in its slot, where the request waits. -/
theorem answerInHand_link (p : List Byte) : (s.answerInHand p).link = s.link ∨
    ∃ r payload, firstWaiting s.link.slots = some r ∧
      (s.answerInHand p).link = { s.link with slots := answerSlot ⟨r.type, r.tag, payload⟩ s.link.slots } := by
  unfold State.answerInHand
  split
  · rename_i r hr
    exact .inr ⟨r, p, hr, rfl⟩
  · exact .inl rfl

/-- Work that goes on answers a request in hand at most. -/
theorem resume_false_link : (s.resume false).link = s.link ∨ s.inHand = true ∧ ∃ r payload,
    firstWaiting s.link.slots = some r ∧
      (s.resume false).link = { s.link with slots := answerSlot ⟨r.type, r.tag, payload⟩ s.link.slots } := by
  cases hi : s.inHand
  · exact .inl (s.resume_link false hi)
  · cases hw : s.engine.paused with
    | none => simp [State.inHand, hw] at hi
    | some w =>
      cases w with
      | closure t d => simp [State.inHand, hw] at hi
      | trigger stamp =>
        rw [resume_trigger s false stamp hw]
        generalize hu : ((s.onEngine fun c => { c with paused := none }).at stamp).settleDevices = u
        have hl : u.link = s.link := hu ▸ (State.link_of_frame (State.settleDevices_frame _)).trans rfl
        rw [← hl]
        exact (answerInHand_link [0, 0]).imp_right fun h => ⟨rfl, h⟩
      | clearFault d stamp =>
        rw [resume_clearFault s false d stamp hw]
        dsimp only
        generalize hu : (s.onEngine fun c => { c with paused := none }).faultArrivals false d stamp = u
        have hl : u.link = s.link := hu ▸ congrArg Frame.link (State.faultArrivals_frame _ false d stamp)
        rw [← hl]
        split
        · exact .inl rfl
        · exact (answerInHand_link [0]).imp_right fun h => ⟨rfl, h⟩

/-- Catching up answers a request in hand at most (R175). -/
theorem catchUp_linkKept {t : State} (hl : t.link = s.catchUp.link) (hi : t.inHand = false) : s.LinkKept t := by
  rw [State.LinkKept, hl]
  by_cases hq : s.quietEngine = true
  · exact .inl (congrArg State.link (catchUp_of_quiet s hq))
  · have hroot : s.finishRoot.link = s.link := State.link_of_frame s.finishRoot_frame
    have hhand : s.finishRoot.inHand = s.inHand := inHand_congr _ _ (paused_of_frame s.finishRoot_frame)
    have hdue : s.catchUp.link = (s.finishRoot.resume false).link := by
      rw [State.catchUp, if_neg hq]
      exact State.link_of_frame (State.dueHandedOn_frame s.finishWork)
    have h := resume_false_link (s := s.finishRoot)
    rw [hroot, hhand] at h
    rw [hdue]
    exact h.imp_right fun ⟨h1, h2⟩ => ⟨h1, hi, h2⟩

/-! ### Every hand-on -/

/-- What is handed on by `f` is handed on, when `f` changes no more of the frame than the work that has paused. -/
theorem handedOn_of_frame (tr : Transition) (f : State → State)
    (hf : (s.handingOn tr).FrameButPaused (f (s.handingOn tr))) (hi : (f (s.handingOn tr)).inHand = false) :
    s.HandedOn (f (s.handingOn tr)) tr := by
  have hc := s.catchUp_frame
  have hs := switch_of_frame _ _ hf.butWork
  refine ⟨?_, ?_, catchUp_linkKept (congrArg Frame.link (show (f (s.handingOn tr)).frame = _ from hf)) hi,
    (sameSettings_handingOn tr).trans hf.sameSettings, fun i => ?_⟩
  · refine (congrArg Frame.waiting (show (f (s.handingOn tr)).frame = _ from hf)).trans ?_
    exact congrArg (·.erase tr) (congrArg Frame.waiting (show s.catchUp.frame = _ from hc))
  · refine (congrArg Frame.now (show (f (s.handingOn tr)).frame = _ from hf)).trans ?_
    exact congrArg Frame.now (show s.catchUp.frame = _ from hc)
  · have e : ((f (s.handingOn tr)).switch i).sampled = (s.switch i).sampled :=
      (hs i).trans (switch_of_frame s s.catchUp hc i)
    simp only [Switch.sampled, Prod.mk.injEq] at e
    exact e.2

/-- A hand-on that leaves the whole frame alone leaves no request in hand. -/
theorem handedOn_of_frame_eq (tr : Transition) (f : State → State) (hf : ∀ u : State, (f u).frame = u.frame) :
    s.HandedOn (f (s.handingOn tr)) tr := by
  refine handedOn_of_frame tr f (.of_frame (hf _)) ?_
  have hp : (f (s.handingOn tr)).engine.paused = (s.handingOn tr).engine.paused := paused_of_frame (hf _)
  exact inHand_of_none _ (hp.trans catchUp_paused)

/-- The report of a transition by the setting of its switch (R10). -/
theorem reportSwitch_events {u : State} {tr : Transition} (he : u.events = s.events) (ht : u.time = tr.stamp)
    (hr : (u.switch tr.switch).record.report = (s.switch tr.switch).record.report) :
    (u.reportSwitch tr).events = s.reportedEvents tr := by
  simp only [State.reportSwitch, State.reportedEvents, hr]
  cases (s.switch tr.switch).record.report <;> cases tr.closed <;> simp [he, ht]

/-- With nothing to catch up the transition leaves the waiting ones, and the time is its stamp. -/
theorem handingOn_of_quiet (tr : Transition) (h : s.quietEngine = true) :
    s.handingOn tr = { s with
      scanner := { s.scanner with waiting := s.scanner.waiting.erase tr }
      time := tr.stamp } := by
  rw [State.handingOn, catchUp_of_quiet s h]
  rfl

/-- With nothing to catch up the report is queued first. -/
theorem reportSwitch_logged (tr : Transition) (h : s.quietEngine = true) :
    ((s.handingOn tr).reportSwitch tr).Logged (s.reportedEvents tr) := by
  rw [handingOn_of_quiet tr h]
  exact ⟨[], reportSwitch_events rfl rfl rfl⟩

/-- A latch that is set changes no record. -/
theorem onLatch_record (i j : Nat) (b : Bool) :
    ((s.onSwitch i fun w => { w with latch := b }).switch j).record = (s.switch j).record := by
  rw [State.onSwitch_switch]
  split
  · rename_i h
    rw [h.1]
  · rfl

/-- A closure queues its report before any other record. -/
theorem closure_logged (b : Bool) (tr : Transition) (h : s.quietEngine = true) :
    (State.closure b tr (s.handingOn tr)).Logged (s.reportedEvents tr) := by
  rw [handingOn_of_quiet tr h]
  unfold State.closure
  dsimp only
  refine evidenceAndWalk_logged b tr _ ?_
  generalize hu : (if State.inPlay _ = true then _ else _ : State) = u
  have hlog : (u.reportSwitch tr).Logged (s.reportedEvents tr) := by
    refine ⟨[], ?_⟩
    rw [← hu]
    split
    · exact reportSwitch_events rfl rfl (congrArg SwitchRecord.report (onLatch_record _ _ _))
    · exact reportSwitch_events rfl rfl rfl
  split
  · exact offerClosure_logged _ (playfieldActivity_logged hlog)
  · exact hlog

/-- Settles O6: each hand-on takes the waiting transition, keeps the frame and queues its report first. -/
theorem handOnTakesTransition : Obligations.HandOnTakesTransition := by
  intro i b s tr hw
  refine ⟨fun hc hr => ?_, fun hc hr => ?_, fun hc hr => ?_, fun hc hr => ?_, fun hc hr => ?_, fun hr => ?_⟩
  · have hp : (tr.closed && tr.walked) = true := by rcases hr with h | h <;> simp [hc, Transition.walked, h]
    refine ⟨_, congrArg Host.Outcome.next (handOn_of_waiting s i _ _ tr hw hp), ?_, fun hq => closure_logged b tr hq⟩
    exact handedOn_of_frame tr (State.closure b tr) (State.closure_frame _ b tr) (closure_inHand b tr catchUp_paused)
  · have hp : (!tr.closed && tr.walked) = true := by rcases hr with h | h <;> simp [hc, Transition.walked, h]
    refine ⟨_, congrArg Host.Outcome.next (handOn_of_waiting s i _ _ tr hw hp), ?_, fun hq => ?_⟩
    · exact handedOn_of_frame_eq tr (State.opening b tr) fun u => u.opening_frame b tr
    · exact settleDevices_logged (directWalk_logged _ _ _ (reportSwitch_logged tr hq))
  · have hp : (tr.closed && tr.role == .tilt) = true := by simp [hc, hr]
    refine ⟨_, congrArg Host.Outcome.next (handOn_of_waiting s i _ _ tr hw hp), ?_, fun hq => ?_⟩
    · exact handedOn_of_frame_eq tr (fun u => ((u.reportSwitch tr).handToDevices tr.switch).tiltClosure tr.switch)
        fun u => by simp
    · exact tiltClosure_logged _ (handToDevices_logged _ (reportSwitch_logged tr hq))
  · have hp : (tr.closed && tr.role == .slam) = true := by simp [hc, hr]
    refine ⟨_, congrArg Host.Outcome.next (handOn_of_waiting s i _ _ tr hw hp), ?_, fun hq => ?_⟩
    · exact handedOn_of_frame_eq tr (fun u => let v := (u.reportSwitch tr).handToDevices tr.switch
        if v.gameOn then v.endGame (some tr.switch) else v) fun u => by dsimp only; split <;> simp
    · have hlog := handToDevices_logged tr.switch (reportSwitch_logged tr hq)
      dsimp only
      split
      · exact endGame_logged _ hlog
      · exact hlog
  · have hp : (!tr.closed && (tr.role == .tilt || tr.role == .slam)) = true := by rcases hr with h | h <;> simp [hc, h]
    refine ⟨_, congrArg Host.Outcome.next (handOn_of_waiting s i _ _ tr hw hp), ?_, fun hq => reportSwitch_logged tr hq⟩
    exact handedOn_of_frame_eq tr (fun u => u.reportSwitch tr) fun u => u.reportSwitch_frame tr
  · have hp : (tr.role == .device) = true := by simp [hr]
    refine ⟨_, congrArg Host.Outcome.next (handOn_of_waiting s i _ _ tr hw hp), ?_, fun hq => ?_⟩
    · exact handedOn_of_frame_eq tr (fun u => (u.reportSwitch tr).positionTransition tr.switch tr.closed) fun u => by simp
    · exact positionTransition_logged _ _ (reportSwitch_logged tr hq)

end Sys2Proof.Machine
end

