-- ==== Sys2Proof/Proofs/Openings.lean ====
section
/-! An opening whose walk raises a trigger: the root pauses, so that the walk does leave something of itself (O9). -/

namespace Sys2Proof.Machine

open Sys2Proof

/-- An ENABLED entry of edge OPEN in the chain of switch 5, whose one action raises trigger 72. -/
def raisingEntry : AwardEntry :=
  { AwardEntry.empty with state := .enabled, trigger := 5, edge := .opening, actions := [⟨.trigger, 72⟩] }

/-- The opening of switch 5 that waits to be handed on. -/
def openingOf5 : Transition := ⟨5, false, .playfield, 0⟩

/-- A game in PLAY with that opening waiting and `raisingEntry` alone in its chain. -/
def raisingState : State :=
  { State.reset with
    scanner := { Scanner.reset with waiting := [openingOf5] }
    engine := { Engine.reset with awards := writeTable Engine.reset.awards 0 raisingEntry }
    game := { Game.reset with phase := .play, players := [.start .default], current := 1, ballNumber := 1 } }

/-- With its breather the opening pauses with the trigger that its walk has raised. -/
theorem raisingState_opening : ∃ t, exec (.switchOpening 5 true) raisingState = .next t ∧ t.engine.triggers = [72] :=
  ⟨_, rfl, by decide +kernel⟩

/-- The hypotheses on the chain of one entry are met. -/
theorem raisingState_meets : raisingState.waitingOf 5 = some openingOf5 ∧ raisingState.quietEngine = true ∧
    raisingState.inPlay = true ∧ raisingState.engine.triggers = [] ∧ raisingState.chain 5 = [0] ∧
    raisingState.player? raisingState.game.current = some (.start .default) := by decide +kernel

/-- Refutes O9: the clause on a chain of one entry says of every entry, plain or not, that no trigger is left of its walk, and an
entry of edge OPEN whose action raises a trigger leaves it pending where the root pauses. -/
theorem not_openingsReported : ¬ Obligations.OpeningsReported := by
  rintro ⟨-, hwalk, -, -⟩
  obtain ⟨hw, hq, hp, ht, hc, hplayer⟩ := raisingState_meets
  obtain ⟨t, hexec, -, -, -, hengine, -⟩ :=
    hwalk 5 0 true raisingState openingOf5 _ hw rfl (.inl rfl) hq hp ht hc hplayer
  obtain ⟨u, hexec', htriggers⟩ := raisingState_opening
  rw [hexec] at hexec'
  cases hexec'
  rw [hengine, ht] at htriggers
  cases htriggers

end Sys2Proof.Machine
end

