-- ==== Sys2Proof/Proofs/Orders.lean ====
section
/-! What eject orders, the ready line and the search leave alone: everything beside the devices, the Event Queue and the search,
and of each device all but its state and its queue. -/

namespace Sys2Proof.Machine

open Sys2Proof

/-! ### Beside the devices -/

/-- The part beside its devices, its event records and its search: what orders and the search leave alone. -/
def State.beside (s : State) : State :=
  { s with devices := .reset, events := [], game := { s.game with search := .reset } }

variable {s t : State}

/-- What stands beside the devices is the same in both states. -/
theorem scanner_of_beside (h : t.beside = s.beside) : t.scanner = s.scanner := (congrArg State.scanner h :)
theorem engine_of_beside (h : t.beside = s.beside) : t.engine = s.engine := (congrArg State.engine h :)
theorem modes_of_beside (h : t.beside = s.beside) : t.modes = s.modes := (congrArg State.modes h :)
theorem census_of_beside (h : t.beside = s.beside) : t.census = s.census := (congrArg State.census h :)
theorem time_of_beside (h : t.beside = s.beside) : t.time = s.time := (congrArg State.time h :)
theorem phase_of_beside (h : t.beside = s.beside) : t.game.phase = s.game.phase := (congrArg (·.game.phase) h :)
theorem players_of_beside (h : t.beside = s.beside) : t.game.players = s.game.players :=
  (congrArg (·.game.players) h :)
theorem current_of_beside (h : t.beside = s.beside) : t.game.current = s.game.current :=
  (congrArg (·.game.current) h :)
theorem params_of_beside (h : t.beside = s.beside) : t.game.params = s.game.params := (congrArg (·.game.params) h :)
theorem ballNumber_of_beside (h : t.beside = s.beside) : t.game.ballNumber = s.game.ballNumber :=
  (congrArg (·.game.ballNumber) h :)
theorem lastTilt_of_beside (h : t.beside = s.beside) : t.game.lastTilt = s.game.lastTilt :=
  (congrArg (·.game.lastTilt) h :)

variable (s)

@[simp] theorem onDevice_beside (d : Nat) (f : Device → Device) : (s.onDevice d f).beside = s.beside := by
  simp [State.beside]
@[simp] theorem onDevices_beside (f : Devices → Devices) : (s.onDevices f).beside = s.beside := by
  simp [State.beside]
@[simp] theorem onSearch_beside (f : Search → Search) : (s.onSearch f).beside = s.beside := by
  simp [State.beside]
@[simp] theorem emitFor_beside (p : Nat) (e : Event) (u a v : Nat) : (s.emitFor p e u a v).beside = s.beside := by
  simp [State.beside]
@[simp] theorem emit_beside (e : Event) (u a v : Nat) : (s.emit e u a v).beside = s.beside := emitFor_beside s _ e u a v

theorem repeated_beside (f : State → State) (hf : ∀ x, (f x).beside = x.beside) (k : Nat) :
    (repeated f k s).beside = s.beside :=
  repeated_keeps (p := fun x => x.beside = s.beside) f (fun x h => (hf x).trans h) k s rfl
theorem foldl_beside {α : Type} (f : State → α → State) (hf : ∀ x a, (f x a).beside = x.beside) (l : List α) :
    (l.foldl f s).beside = s.beside :=
  foldl_keeps (p := fun x => x.beside = s.beside) f (fun x a h => (hf x a).trans h) l s rfl

@[simp] theorem leaveLine_beside (d : Nat) : (s.leaveLine d).beside = s.beside := by
  simp [State.leaveLine]
@[simp] theorem joinLine_beside (d : Nat) : (s.joinLine d).beside = s.beside := by
  unfold State.joinLine; split <;> simp
@[simp] theorem enterEjectWait_beside (d : Nat) : (s.enterEjectWait d).beside = s.beside := by
  unfold State.enterEjectWait; dsimp only; split <;> simp
@[simp] theorem followInterlock_beside : s.followInterlock.beside = s.beside := by
  unfold State.followInterlock; (repeat' split) <;> simp
@[simp] theorem dropSearch_beside (d : Nat) : (s.dropSearch d).beside = s.beside := by
  unfold State.dropSearch; split <;> simp
@[simp] theorem dropSearches_beside : s.dropSearches.beside = s.beside := by
  simp [State.dropSearches, foldl_beside _ State.dropSearch dropSearch_beside]
@[simp] theorem searchNext_beside : s.searchNext.beside = s.beside := by
  unfold State.searchNext; split <;> simp
@[simp] theorem queueOrder_beside (d : Nat) (r : Reason) (l : Bool) : (s.queueOrder d r l).beside = s.beside := by
  unfold State.queueOrder; dsimp only; (repeat' split) <;> simp
@[simp] theorem launchTest_beside : s.launchTest.beside = s.beside := by
  unfold State.launchTest; split <;> simp
@[simp] theorem recoverDevice_beside (d : Nat) : (s.recoverDevice d).beside = s.beside := by
  unfold State.recoverDevice; split
  · exact repeated_beside s _ (fun x => by simp) _
  · rfl
@[simp] theorem recover_beside : s.recover.beside = s.beside := by
  unfold State.recover; split
  · exact foldl_beside s _ recoverDevice_beside _
  · rfl
@[simp] theorem settleDevices_beside : s.settleDevices.beside = s.beside := by
  simp [State.settleDevices]
@[simp] theorem searchOff_beside : s.searchOff.beside = s.beside := by
  simp [State.searchOff]
@[simp] theorem searchWait_beside : s.searchWait.beside = s.beside := by
  simp [State.searchWait]
@[simp] theorem searchEnd_beside (c : Nat) : (s.searchEnd c).beside = s.beside := by
  simp [State.searchEnd]
@[simp] theorem countActivity_beside : s.countActivity.beside = s.beside := by
  unfold State.countActivity; (repeat' split) <;> simp
@[simp] theorem restartSettle_beside (d : Nat) : (s.restartSettle d).beside = s.beside := by
  simp [State.restartSettle]
@[simp] theorem dueArrivals_beside (d k : Nat) : (s.dueArrivals d k).beside = s.beside := by
  simp [State.dueArrivals]
@[simp] theorem attemptFailed_beside (d : Nat) : (s.attemptFailed d).beside = s.beside := by
  unfold State.attemptFailed; dsimp only; split <;> simp
@[simp] theorem countEntry_beside (d : Nat) : (s.countEntry d).beside = s.beside := by
  simp [State.countEntry]

/-- A change of phase changes the phase, and beside that the devices and the search at most (R165). -/
theorem toPhase_beside (p : Phase) : (s.toPhase p).beside = (s.onGame fun g => { g with phase := p }).beside := by
  unfold State.toPhase; dsimp only; (repeat' split) <;> simp

/-! ### What a device keeps beside its state and its queue -/

/-- A device but for its state and its queue. -/
def Device.tally (v : Device) : Device := { v with state := .idle, queue := [] }

/-- The devices but for their states and their queues. -/
def State.tallies (s : State) : Vector Device Config.deviceCount := mapTable s.devices.units fun _ v => v.tally

variable {s} in
/-- Equal tallies are equal device by device. -/
theorem tally_of_tallies (h : t.tallies = s.tallies) (d : Nat) : (t.device d).tally = (s.device d).tally :=
  readTable_of_mapTable (g := Device.tally) h d

@[simp] theorem onScanner_tallies (f : Scanner → Scanner) : (s.onScanner f).tallies = s.tallies := rfl
@[simp] theorem onEngine_tallies (f : Engine → Engine) : (s.onEngine f).tallies = s.tallies := rfl
@[simp] theorem onModes_tallies (f : Modes → Modes) : (s.onModes f).tallies = s.tallies := rfl
@[simp] theorem onCensus_tallies (f : Census → Census) : (s.onCensus f).tallies = s.tallies := rfl
@[simp] theorem onGame_tallies (f : Game → Game) : (s.onGame f).tallies = s.tallies := rfl
@[simp] theorem onSearch_tallies (f : Search → Search) : (s.onSearch f).tallies = s.tallies := rfl
@[simp] theorem onSwitch_tallies (i : Nat) (f : Switch → Switch) : (s.onSwitch i f).tallies = s.tallies := rfl
@[simp] theorem at_tallies (x : Stamp) : (s.at x).tallies = s.tallies := rfl
@[simp] theorem emitFor_tallies (p : Nat) (e : Event) (u a v : Nat) : (s.emitFor p e u a v).tallies = s.tallies := rfl
@[simp] theorem emit_tallies (e : Event) (u a v : Nat) : (s.emit e u a v).tallies = s.tallies := rfl
@[simp] theorem onCurrent_tallies (f : Player → Player) : (s.onCurrent f).tallies = s.tallies := by
  simp [State.tallies]
@[simp] theorem onDevices_tallies (f : Devices → Devices) (h : ∀ c, (f c).units = c.units) :
    (s.onDevices f).tallies = s.tallies := by
  simp [State.tallies, h]
theorem onDevice_tallies (d : Nat) (f : Device → Device) (h : ∀ v, (f v).tally = v.tally) :
    (s.onDevice d f).tallies = s.tallies :=
  mapTable_writeTable s.devices.units Device.tally .reset (f (s.device d)) d (h _)

theorem repeated_tallies (f : State → State) (hf : ∀ x, (f x).tallies = x.tallies) (k : Nat) :
    (repeated f k s).tallies = s.tallies :=
  repeated_keeps (p := fun x => x.tallies = s.tallies) f (fun x h => (hf x).trans h) k s rfl
theorem foldl_tallies {α : Type} (f : State → α → State) (hf : ∀ x a, (f x a).tallies = x.tallies) (l : List α) :
    (l.foldl f s).tallies = s.tallies :=
  foldl_keeps (p := fun x => x.tallies = s.tallies) f (fun x a h => (hf x a).trans h) l s rfl

@[simp] theorem leaveLine_tallies (d : Nat) : (s.leaveLine d).tallies = s.tallies := by
  simp [State.leaveLine]
@[simp] theorem joinLine_tallies (d : Nat) : (s.joinLine d).tallies = s.tallies := by
  unfold State.joinLine; split <;> simp
@[simp] theorem enterEjectWait_tallies (d : Nat) : (s.enterEjectWait d).tallies = s.tallies := by
  have h := onDevice_tallies s d (fun v => { v with state := .ejectWait }) fun _ => rfl
  unfold State.enterEjectWait; dsimp only; split <;> simp [h]
@[simp] theorem followInterlock_tallies : s.followInterlock.tallies = s.tallies := by
  unfold State.followInterlock; (repeat' split) <;> simp
@[simp] theorem dropSearch_tallies (d : Nat) : (s.dropSearch d).tallies = s.tallies := by
  unfold State.dropSearch; split
  · exact (leaveLine_tallies _ d).trans (onDevice_tallies s d _ fun _ => rfl)
  · rfl
@[simp] theorem dropSearches_tallies : s.dropSearches.tallies = s.tallies := by
  simp [State.dropSearches, foldl_tallies _ State.dropSearch dropSearch_tallies]
@[simp] theorem searchNext_tallies : s.searchNext.tallies = s.tallies := by
  unfold State.searchNext; split
  · rfl
  · exact (enterEjectWait_tallies _ _).trans (onDevice_tallies s _ _ fun _ => rfl)
@[simp] theorem queueOrder_tallies (d : Nat) (r : Reason) (l : Bool) : (s.queueOrder d r l).tallies = s.tallies := by
  have h := onDevice_tallies (s.dropSearch d) d (fun v => { v with queue := v.queue ++ [⟨r, s.time, l⟩] }) fun _ => rfl
  unfold State.queueOrder; dsimp only; (repeat' split) <;> simp [h]
@[simp] theorem launchTest_tallies : s.launchTest.tallies = s.tallies := by
  unfold State.launchTest; split <;> simp
@[simp] theorem recoverDevice_tallies (d : Nat) : (s.recoverDevice d).tallies = s.tallies := by
  unfold State.recoverDevice; split
  · exact repeated_tallies s _ (fun x => by simp) _
  · rfl
@[simp] theorem recover_tallies : s.recover.tallies = s.tallies := by
  unfold State.recover; split
  · exact foldl_tallies s _ recoverDevice_tallies _
  · rfl
@[simp] theorem settleDevices_tallies : s.settleDevices.tallies = s.tallies := by
  simp [State.settleDevices]
@[simp] theorem searchOff_tallies : s.searchOff.tallies = s.tallies := by
  simp [State.searchOff]
@[simp] theorem searchWait_tallies : s.searchWait.tallies = s.tallies := by
  simp [State.searchWait]
@[simp] theorem toPhase_tallies (p : Phase) : (s.toPhase p).tallies = s.tallies := by
  unfold State.toPhase; dsimp only; (repeat' split) <;> simp
@[simp] theorem searchEnd_tallies (c : Nat) : (s.searchEnd c).tallies = s.tallies := by
  simp [State.searchEnd]

/-! ### The devices through their operations -/

@[simp] theorem onEngine_device (f : Engine → Engine) (e : Nat) : (s.onEngine f).device e = s.device e := rfl
@[simp] theorem onCensus_device (f : Census → Census) (e : Nat) : (s.onCensus f).device e = s.device e := rfl
@[simp] theorem onGame_device (f : Game → Game) (e : Nat) : (s.onGame f).device e = s.device e := rfl
@[simp] theorem onSearch_device (f : Search → Search) (e : Nat) : (s.onSearch f).device e = s.device e := rfl
@[simp] theorem at_device (x : Stamp) (e : Nat) : (s.at x).device e = s.device e := rfl
@[simp] theorem emitFor_device (p : Nat) (k : Event) (u a v e : Nat) : (s.emitFor p k u a v).device e = s.device e := rfl
@[simp] theorem emit_device (k : Event) (u a v e : Nat) : (s.emit k u a v).device e = s.device e := rfl
@[simp] theorem onDevices_device (f : Devices → Devices) (h : ∀ c, (f c).units = c.units) (e : Nat) :
    (s.onDevices f).device e = s.device e := by
  simp [State.device, h]
@[simp] theorem leaveLine_device (d e : Nat) : (s.leaveLine d).device e = s.device e := rfl
@[simp] theorem joinLine_device (d e : Nat) : (s.joinLine d).device e = s.device e := by
  unfold State.joinLine; split <;> rfl
@[simp] theorem followInterlock_device (e : Nat) : s.followInterlock.device e = s.device e := by
  unfold State.followInterlock; (repeat' split) <;> simp

/-- To enter EJECT_WAIT writes the state of the device alone. -/
theorem enterEjectWait_device (d e : Nat) : (s.enterEjectWait d).device e =
    if d = e ∧ d < Config.deviceCount then { s.device d with state := .ejectWait } else s.device e := by
  unfold State.enterEjectWait
  dsimp only
  split <;> simp [State.onDevice_device]

/-- The Event Queue, the game and the launch-owed count through the ready line. -/
@[simp] theorem followInterlock_events : s.followInterlock.events = s.events := by
  unfold State.followInterlock State.joinLine; (repeat' split) <;> rfl
@[simp] theorem followInterlock_game : s.followInterlock.game = s.game := by
  unfold State.followInterlock State.joinLine; (repeat' split) <;> rfl

/-- Whether a device is configured is told by its record. -/
theorem configured_congr {t : State} (d : Nat) (h : (t.device d).record = (s.device d).record) :
    t.configured d = s.configured d := by
  simp [State.configured, h]

variable {s}

/-- An order that finds no SEARCH order waiting, and room, joins the queue (R96). -/
theorem queueOrder_of_room (d : Nat) (r : Reason) (l : Bool) (hc : s.configured d = true)
    (hs : (s.device d).searchWaits = false) (hl : (s.device d).queue.length < 8) :
    s.queueOrder d r l =
      let u := s.onDevice d fun v => { v with queue := v.queue ++ [⟨r, s.time, l⟩] }
      if (u.device d).state = .idle then u.enterEjectWait d else u := by
  have hd : s.dropSearch d = s := by simp [State.dropSearch, hs]
  simp [State.queueOrder, hc, hd, hs, Nat.not_le.2 hl]

/-- The LAUNCH test does nothing, or it gives device 1 its LAUNCH order (R108). -/
theorem launchTest_cases : s.launchTest = s ∨ 1 ≤ s.devices.launchOwed ∧ (s.device 1).queue = [] ∧
    s.launchTest = ((s.onDevice 1 fun v => { v with queue := [⟨.launch, s.time, false⟩] }).enterEjectWait 1).onDevices
      fun c => { c with launchOwed := c.launchOwed - 1 } := by
  unfold State.launchTest
  split
  · rename_i h
    obtain ⟨hc, hi, hq, -, -, ho⟩ := h
    refine .inr ⟨ho, hq, ?_⟩
    have hqueue : (s.onDevice 1 fun v => { v with queue := v.queue ++ [⟨.launch, s.time, false⟩] }) =
        s.onDevice 1 fun v => { v with queue := [⟨.launch, s.time, false⟩] } := by simp [State.onDevice, hq]
    rw [queueOrder_of_room 1 .launch false hc (by simp [Device.searchWaits, hq]) (by simp [hq]), hqueue]
    dsimp only
    rw [if_pos (by simp [hi])]
  · exact .inl rfl

@[simp] theorem launchTest_events : s.launchTest.events = s.events := by
  rcases launchTest_cases (s := s) with h | ⟨-, -, h⟩ <;> rw [h]
  simp
@[simp] theorem launchTest_game : s.launchTest.game = s.game := by
  rcases launchTest_cases (s := s) with h | ⟨-, -, h⟩ <;> rw [h]
  simp

/-- The LAUNCH test changes device 1 at most, and that only with a launch owed. -/
theorem launchTest_device (d : Nat) (h : d = 1 → s.devices.launchOwed = 0) : s.launchTest.device d = s.device d := by
  rcases launchTest_cases (s := s) with e | ⟨ho, -, e⟩
  · rw [e]
  · have hd : (1 : Nat) ≠ d := fun e => by rw [h e.symm] at ho; exact absurd ho (by decide)
    rw [e]
    simp [enterEjectWait_device, hd]

/-- Outside IDLE and BALL_OVER no ball is recovered (R109). -/
theorem settleDevices_of_ball (h : s.game.phase ≠ .idle ∧ s.game.phase ≠ .ballOver) :
    s.settleDevices = s.launchTest.followInterlock := by
  have h' : s.launchTest.followInterlock.game.phase = s.game.phase := by simp
  rw [State.settleDevices, State.recover, if_neg (by rw [h']; tauto)]

/-- With a ball on, the tests of the devices queue no record and leave the game alone. -/
theorem settleDevices_events (h : s.game.phase ≠ .idle ∧ s.game.phase ≠ .ballOver) :
    s.settleDevices.events = s.events := by
  simp [settleDevices_of_ball h]
theorem settleDevices_game (h : s.game.phase ≠ .idle ∧ s.game.phase ≠ .ballOver) : s.settleDevices.game = s.game := by
  simp [settleDevices_of_ball h]
theorem settleDevices_device (h : s.game.phase ≠ .idle ∧ s.game.phase ≠ .ballOver) (d : Nat)
    (hd : d = 1 → s.devices.launchOwed = 0) : s.settleDevices.device d = s.device d := by
  rw [settleDevices_of_ball h, followInterlock_device, launchTest_device d hd]

end Sys2Proof.Machine
end

