-- ==== Sys2Proof/Proofs/Cycles.lean ====
section
/-! The eject cycle: what a completed order and evidence of success make of the device and leave of the rest; and the settle that a
DEVICE transition restarts (O12). -/

namespace Sys2Proof.Machine

open Sys2Proof

variable {s t u : State}

/-! ### Beside the devices, but for the end of SERVE -/

/-- Beside the devices nothing has changed, but that SERVE may have passed to PLAY (R151). -/
def State.Served (s t : State) : Prop :=
  t.beside = s.beside ∨ s.game.phase = .serve ∧ t.beside = (s.onGame fun g => { g with phase := .play }).beside

/-- The phase is written beside the devices. -/
theorem onPhase_beside (p : Phase) (h : t.beside = s.beside) :
    (t.onGame fun g => { g with phase := p }).beside = (s.onGame fun g => { g with phase := p }).beside :=
  congrArg (fun x : State => x.onGame fun g => { g with phase := p }) h

theorem State.Served.refl (s : State) : s.Served s := .inl rfl
theorem State.Served.of_beside (h : t.beside = s.beside) : s.Served t := .inl h
theorem State.Served.then_beside (h : s.Served t) (h' : u.beside = t.beside) : s.Served u :=
  h.imp (h'.trans ·) fun ⟨hp, e⟩ => ⟨hp, h'.trans e⟩
theorem State.Served.after_beside (h : t.beside = s.beside) (h' : t.Served u) : s.Served u :=
  h'.imp (·.trans h) fun ⟨hp, e⟩ => ⟨(phase_of_beside h).symm.trans hp, e.trans (onPhase_beside _ h)⟩

theorem State.Served.scanner (h : s.Served t) : t.scanner = s.scanner := by
  rcases h with h | ⟨-, h⟩
  · exact scanner_of_beside h
  · exact (scanner_of_beside h).trans rfl
theorem State.Served.census (h : s.Served t) : t.census = s.census := by
  rcases h with h | ⟨-, h⟩
  · exact census_of_beside h
  · exact (census_of_beside h).trans rfl
theorem State.Served.engine (h : s.Served t) : t.engine = s.engine := by
  rcases h with h | ⟨-, h⟩
  · exact engine_of_beside h
  · exact (engine_of_beside h).trans rfl

theorem State.Served.time (h : s.Served t) : t.time = s.time := by
  rcases h with h | ⟨-, h⟩
  · exact time_of_beside h
  · exact (time_of_beside h).trans rfl

/-- SERVE and PLAY stay in play. -/
theorem State.Served.inPlay (h : s.Served t) (hp : s.inPlay = true) : t.inPlay = true := by
  rcases h with h | ⟨-, h⟩
  · simpa [State.inPlay, phase_of_beside h] using hp
  · simp [State.inPlay, phase_of_beside h]

/-! ### A completed order (R102) -/

theorem serveToPlay_served : s.Served s.serveToPlay := by
  unfold State.serveToPlay
  split
  · exact .inr ⟨‹_›, toPhase_beside s .play⟩
  · exact .refl s
@[simp] theorem serveToPlay_device (e : Nat) : s.serveToPlay.device e = s.device e := by
  unfold State.serveToPlay State.toPhase State.searchWait
  split <;> rfl

/-- The cycle of device `d` is over: the coil and the line are left, the order has left the queue where `popped` says so, and a
queue that still holds orders goes on with the next. -/
def State.cycleOver (s : State) (d : Nat) (popped : Bool) : State :=
  let s := s.leaveLine d
  let s := s.onDevices fun c => { c with granted := c.granted.filter (· != d) }
  let s := s.onDevice d fun v =>
    { v with queue := if popped then v.queue.tail else v.queue
             retries := 0, base := 0, timer := none, evidence := none, searching := false, state := .idle }
  if (s.device d).queue.isEmpty then s else s.enterEjectWait d

/-- What an order that has left the queue of the trough brings: a launch owed, and the end of SERVE. -/
def State.orderLeft (s : State) (d : Nat) : Option Order → State
  | none => s
  | some o =>
    let s := if d = 0 ∧ o.launch ∧ s.configured 1 then
        s.onDevices fun c => { c with launchOwed := min (c.launchOwed + 1) 8 }
      else s
    if d = 0 ∧ o.reason = .serve then s.serveToPlay else s

/-- A completion ends the cycle, and then deals with the order and with the held rises. -/
theorem complete_eq (d : Nat) (p : Bool) (k : Nat) : s.complete d p k =
    (if p then (s.cycleOver d p).orderLeft d (s.device d).queue.head? else s.cycleOver d p).dueArrivals d k := by
  unfold State.complete State.orderLeft
  cases p
  · rfl
  · cases (s.device d).queue.head? <;> rfl

@[simp] theorem cycleOver_beside (d : Nat) (p : Bool) : (s.cycleOver d p).beside = s.beside := by
  unfold State.cycleOver
  dsimp only
  rw [apply_ite State.beside]
  simp only [enterEjectWait_beside, ite_self, onDevice_beside, onDevices_beside, leaveLine_beside]

theorem orderLeft_served (d : Nat) (o : Option Order) : s.Served (s.orderLeft d o) := by
  cases o with
  | none => exact .refl s
  | some o =>
    unfold State.orderLeft
    dsimp only
    split <;> split
    · exact .after_beside (onDevices_beside s _) serveToPlay_served
    · exact serveToPlay_served
    · exact .of_beside (onDevices_beside s _)
    · exact .refl s

@[simp] theorem orderLeft_device (d e : Nat) (o : Option Order) : (s.orderLeft d o).device e = s.device e := by
  cases o with
  | none => rfl
  | some o =>
    unfold State.orderLeft
    dsimp only
    split <;> split <;> simp

/-- Beside the devices a completion passes from SERVE to PLAY at most. -/
theorem complete_served (d : Nat) (p : Bool) (k : Nat) : s.Served (s.complete d p k) := by
  rw [complete_eq]
  refine .then_beside ?_ (dueArrivals_beside _ d k)
  split
  · exact .after_beside (cycleOver_beside d p) (orderLeft_served d _)
  · exact .of_beside (cycleOver_beside d p)

/-- A completion changes no other device. -/
theorem complete_device_other (d e : Nat) (p : Bool) (k : Nat) (h : d ≠ e) :
    (s.complete d p k).device e = s.device e := by
  have hc : (s.cycleOver d p).device e = s.device e := by
    unfold State.cycleOver
    dsimp only
    rw [apply_ite (fun x : State => x.device e)]
    simp [enterEjectWait_device, h]
  rw [complete_eq, State.dueArrivals, State.onDevice_other _ d e _ h]
  split <;> simp [hc]

/-- The device whose cycle is over. -/
def Device.cycleOver (v : Device) (queue : List Order) : Device :=
  { v with queue := queue, retries := 0, base := 0, timer := none, evidence := none, searching := false
           state := if queue = [] then .idle else .ejectWait }

theorem cycleOver_device (d : Nat) (p : Bool) (hd : d < 8) :
    (s.cycleOver d p).device d =
      (s.device d).cycleOver (if p then (s.device d).queue.tail else (s.device d).queue) := by
  unfold State.cycleOver Device.cycleOver
  dsimp only
  generalize hq : (if p = true then (s.device d).queue.tail else (s.device d).queue) = q
  cases q <;> simp [enterEjectWait_device, hd, hq]

/-- A device whose order is complete (R102): its cycle is over, and `k` of its balls are arrivals still to be handed on. -/
theorem complete_device_self (d : Nat) (p : Bool) (k : Nat) (hd : d < 8) :
    (s.complete d p k).device d =
      { (s.device d).cycleOver (if p then (s.device d).queue.tail else (s.device d).queue) with
        accounted := (s.device d).settled - k, arrivals := List.replicate k s.time } := by
  have ht : (if p then (s.cycleOver d p).orderLeft d (s.device d).queue.head? else s.cycleOver d p).time = s.time := by
    have h := cycleOver_beside (s := s) d p
    split
    · exact (orderLeft_served d _).time.trans (time_of_beside h)
    · exact time_of_beside h
  have hv : (if p then (s.cycleOver d p).orderLeft d (s.device d).queue.head? else s.cycleOver d p).device d =
      (s.device d).cycleOver (if p then (s.device d).queue.tail else (s.device d).queue) := by
    rw [← cycleOver_device d p hd]
    split <;> simp
  rw [complete_eq, State.dueArrivals, State.onDevice_self _ d _ hd, hv, ht]
  rfl

/-! ### Evidence of success (R100, R101) -/

/-- Evidence of success changes nothing beside the devices but the end of SERVE. -/
theorem success_served (d : Nat) : s.Served (s.success d) := by
  unfold State.success
  dsimp only
  split
  case h_1 => split; exacts [.refl s, .of_beside (onDevice_beside s d _)]
  case h_2 => split; exacts [.refl s, complete_served d true _]
  case h_3 => exact complete_served d true _
  all_goals exact .refl s

/-- Evidence of success changes no count of any device but the accounted one, and no settle. -/
theorem success_counts (d e : Nat) (hd : d < 8) :
    ((s.success d).device e).settled = (s.device e).settled ∧ ((s.success d).device e).settle = (s.device e).settle := by
  have hc : ∀ k, ((s.complete d true k).device e).settled = (s.device e).settled ∧
      ((s.complete d true k).device e).settle = (s.device e).settle := by
    intro k
    by_cases h : d = e
    · subst h
      rw [complete_device_self d true k hd]
      exact ⟨rfl, rfl⟩
    · rw [complete_device_other d e true k h]
      exact ⟨rfl, rfl⟩
  unfold State.success
  dsimp only
  split
  case h_1 =>
    split
    · exact ⟨rfl, rfl⟩
    · by_cases h : d = e
      · subst h
        rw [State.onDevice_self s d _ hd]
        exact ⟨rfl, rfl⟩
      · rw [State.onDevice_other s d e _ h]
        exact ⟨rfl, rfl⟩
  case h_2 => split; exacts [⟨rfl, rfl⟩, hc _]
  case h_3 => exact hc _
  all_goals exact ⟨rfl, rfl⟩

/-! ### A DEVICE transition (R9, R92) -/

/-- The transition that is handed on for switch `i` is one of switch `i`. -/
theorem waitingOf_switch {i : Nat} {tr : Transition} (h : s.waitingOf i = some tr) : tr.switch = i := by
  unfold State.waitingOf at h
  split at h
  · cases h
  · have hp := List.find?_some h
    simp only [Bool.and_eq_true, beq_iff_eq] at hp
    exact hp.1

/-- The settle of each device of the list is restarted, and no other. -/
theorem foldl_restartSettle_device (l : List Nat) (e : Nat) (he : e < 8) :
    (l.foldl State.restartSettle s).device e =
      if e ∈ l then { s.device e with settle := some ⟨s.time, (s.device e).record.figures.settle⟩ } else s.device e := by
  induction l generalizing s with
  | nil => rfl
  | cons d l ih =>
    rw [List.foldl_cons, ih]
    by_cases h : d = e
    · subst h
      simp [State.restartSettle, State.timer, he]
    · have h' : e ≠ d := fun x => h x.symm
      simp [State.restartSettle, State.timer, h, h']

/-- The devices that satisfy `p` are the configured ones that do. -/
theorem mem_devicesWith (p : Nat → Device → Bool) (d : Nat) :
    d ∈ s.devicesWith p ↔ d < 8 ∧ s.configured d = true ∧ p d (s.device d) = true := by
  simp [State.devicesWith, deviceNumbers]

@[simp] theorem reportSwitch_beside (tr : Transition) : (s.reportSwitch tr).beside = s.beside := by
  unfold State.reportSwitch; (repeat' split) <;> simp
@[simp] theorem reportSwitch_device (tr : Transition) (d : Nat) : (s.reportSwitch tr).device d = s.device d := by
  unfold State.reportSwitch; (repeat' split) <;> simp

/-- A transition of a position switch, beside the devices. -/
theorem positionTransition_served (i : Nat) (c : Bool) : s.Served (s.positionTransition i c) := by
  unfold State.positionTransition
  dsimp only
  refine .then_beside ?_ (settleDevices_beside _)
  have h := foldl_beside s State.restartSettle restartSettle_beside (s.devicesWith fun _ v => v.record.positions.contains i)
  split
  · exact .after_beside h (success_served 0)
  · exact .of_beside h

/-- A transition of a position switch restarts the settle of the devices that name it, and changes no settled count. -/
theorem positionTransition_counts (i : Nat) (c : Bool) (d : Nat) (hd : d < 8) :
    ((s.positionTransition i c).device d).settled = (s.device d).settled ∧
      ((s.positionTransition i c).device d).settle =
        if s.configured d = true ∧ i ∈ (s.device d).record.positions then
          some ⟨s.time, (s.device d).record.figures.settle⟩ else (s.device d).settle := by
  let l := s.devicesWith fun _ v => v.record.positions.contains i
  have hmem : d ∈ l ↔ s.configured d = true ∧ i ∈ (s.device d).record.positions := by
    simp [l, mem_devicesWith, hd]
  have hl := foldl_restartSettle_device (s := s) l d hd
  rw [if_congr hmem rfl rfl] at hl
  have hcounts : ∀ u : State, u = l.foldl State.restartSettle s ∨ u = (l.foldl State.restartSettle s).success 0 →
      (u.settleDevices.device d).settled = (s.device d).settled ∧ (u.settleDevices.device d).settle =
        if s.configured d = true ∧ i ∈ (s.device d).record.positions then
          some ⟨s.time, (s.device d).record.figures.settle⟩ else (s.device d).settle := by
    intro u hu
    have htally := tally_of_tallies (settleDevices_tallies u) d
    have hsuccess : (u.device d).settled = ((l.foldl State.restartSettle s).device d).settled ∧
        (u.device d).settle = ((l.foldl State.restartSettle s).device d).settle := by
      rcases hu with rfl | rfl
      · exact ⟨rfl, rfl⟩
      · exact success_counts 0 d (by decide)
    rw [show (u.settleDevices.device d).settled = (u.device d).settled from (congrArg Device.settled htally :),
      show (u.settleDevices.device d).settle = (u.device d).settle from (congrArg Device.settle htally :),
      hsuccess.1, hsuccess.2, hl]
    split <;> exact ⟨rfl, rfl⟩
  unfold State.positionTransition
  dsimp only
  split
  · exact hcounts _ (.inr rfl)
  · exact hcounts _ (.inl rfl)

/-- Settles O12: the counts of the devices after the transition, with nothing else touched but what evidence for the trough brings. -/
theorem deviceTransitionRestartsSettle : Obligations.DeviceTransitionRestartsSettle := by
  intro i s tr hw hr hq
  have hi : tr.switch = i := waitingOf_switch hw
  refine ⟨_, congrArg Host.Outcome.next (handOn_of_waiting s i _ _ tr hw (by simp [hr])), ?_⟩
  dsimp only
  rw [handingOn_of_quiet tr hq, hi]
  generalize hv : ({ s with scanner := _, time := _ } : State) = v
  have hserved := positionTransition_served (s := v.reportSwitch tr) i tr.closed
  have hbeside := reportSwitch_beside (s := v) tr
  refine ⟨?_, ?_, fun d hd => ?_⟩
  · rw [hserved.census, census_of_beside hbeside, ← hv]
  · rw [hserved.scanner, scanner_of_beside hbeside, ← hv]
  · have h := positionTransition_counts (s := v.reportSwitch tr) i tr.closed d hd
    rw [configured_congr v d (by rw [reportSwitch_device]), reportSwitch_device, time_of_beside hbeside, ← hv] at h
    rw [← hv]
    exact h

end Sys2Proof.Machine
end

