-- ==== Sys2Proof/Proofs/OutOfPlay.lean ====
section
/-! Outside SERVE and PLAY: what the work of the part leaves of the latches and of the players' records (O8). One lemma for each
operation that such work can reach says that it keeps them. -/

namespace Sys2Proof.Machine

open Sys2Proof

/-- What of a player's record walks alone change: flags, locks, bonus and multipliers. -/
def Player.kept (p : Player) : BitVec 32 × Nat × Nat × Nat × Nat × Nat :=
  (p.flags, p.locksLit, p.locksMade, p.bonusCount, p.bonusMult, p.playfieldMult)

/-- State `s` is out of play, with the latches and the players' records that `q` has: scores too, where they are within their
limit. -/
structure State.Calm (q s : State) : Prop where
  notInPlay : s.inPlay = false
  latches : ∀ j, (s.switch j).latch = (q.switch j).latch
  players : s.game.players.map Player.kept = q.game.players.map Player.kept
  scores : q.ScoresHeld → s.game.players.map Player.score = q.game.players.map Player.score

variable {q s t : State}

theorem State.Calm.refl (h : s.inPlay = false) : s.Calm s := ⟨h, fun _ => rfl, rfl, fun _ => rfl⟩

/-- Phase, switches and players are all that is read. -/
theorem calm_of_eq (hp : t.game.phase = s.game.phase) (hs : t.scanner.switches = s.scanner.switches)
    (hl : t.game.players = s.game.players) (h : q.Calm s) : q.Calm t := by
  obtain ⟨h1, h2, h3, h4⟩ := h
  refine ⟨?_, fun j => ?_, ?_, ?_⟩
  · simpa [State.inPlay, hp] using h1
  · simpa [State.switch, hs] using h2 j
  · rwa [hl]
  · rwa [hl]

/-- What leaves all beside the devices alone keeps them. -/
theorem calm_of_beside (e : t.beside = s.beside) (h : q.Calm s) : q.Calm t :=
  calm_of_eq (phase_of_beside e) (congrArg Scanner.switches (scanner_of_beside e)) (players_of_beside e) h

/-- Out of play there is no SERVE to end. -/
theorem calm_of_served (e : s.Served t) (h : q.Calm s) : q.Calm t := by
  rcases e with e | ⟨hp, -⟩
  · exact calm_of_beside e h
  · have := h.notInPlay
    simp [State.inPlay, hp] at this

@[simp] theorem onEngine_calm (f : Engine → Engine) (h : q.Calm s) : q.Calm (s.onEngine f) := calm_of_eq (s := s) rfl rfl rfl h
@[simp] theorem onModes_calm (f : Modes → Modes) (h : q.Calm s) : q.Calm (s.onModes f) := calm_of_eq (s := s) rfl rfl rfl h
@[simp] theorem onCensus_calm (f : Census → Census) (h : q.Calm s) : q.Calm (s.onCensus f) := calm_of_eq (s := s) rfl rfl rfl h
@[simp] theorem onDevice_calm (d : Nat) (f : Device → Device) (h : q.Calm s) : q.Calm (s.onDevice d f) :=
  calm_of_eq (s := s) rfl rfl rfl h
@[simp] theorem onLink_calm (f : Link → Link) (h : q.Calm s) : q.Calm (s.onLink f) := calm_of_eq (s := s) rfl rfl rfl h
@[simp] theorem at_calm (x : Stamp) (h : q.Calm s) : q.Calm (s.at x) := calm_of_eq (s := s) rfl rfl rfl h
@[simp] theorem setStack_calm (l : List ModeInst) (h : q.Calm s) : q.Calm (s.setStack l) := calm_of_eq (s := s) rfl rfl rfl h
@[simp] theorem setLocked_calm (d n : Nat) (h : q.Calm s) : q.Calm (s.setLocked d n) := calm_of_eq (s := s) rfl rfl rfl h
@[simp] theorem emitFor_calm (p : Nat) (e : Event) (u a v : Nat) (h : q.Calm s) : q.Calm (s.emitFor p e u a v) :=
  calm_of_eq (s := s) rfl rfl rfl h
@[simp] theorem emit_calm (e : Event) (u a v : Nat) (h : q.Calm s) : q.Calm (s.emit e u a v) := calm_of_eq (s := s) rfl rfl rfl h
@[simp] theorem onQuiet_calm (n : Nat) (h : q.Calm s) : q.Calm (s.onScanner fun c => { c with quiet := n }) :=
  calm_of_eq (s := s) rfl rfl rfl h
@[simp] theorem dueArrivals_calm (d k : Nat) (h : q.Calm s) : q.Calm (s.dueArrivals d k) :=
  calm_of_beside (dueArrivals_beside s d k) h
@[simp] theorem queueOrder_calm (d : Nat) (r : Reason) (l : Bool) (h : q.Calm s) : q.Calm (s.queueOrder d r l) :=
  calm_of_beside (queueOrder_beside s d r l) h
@[simp] theorem settleDevices_calm (h : q.Calm s) : q.Calm s.settleDevices := calm_of_beside (settleDevices_beside s) h
@[simp] theorem recover_calm (h : q.Calm s) : q.Calm s.recover := calm_of_beside (recover_beside s) h

/-- A choice between two states that keep them. -/
theorem ite_calm {c : Prop} [Decidable c] (hs : q.Calm s) (ht : q.Calm t) : q.Calm (if c then s else t) := by
  split
  · exact hs
  · exact ht
theorem foldl_calm {α : Type} (f : State → α → State) (hf : ∀ (x : State) a, q.Calm x → q.Calm (f x a)) (l : List α)
    (h : q.Calm s) : q.Calm (l.foldl f s) := foldl_keeps f hf l s h
theorem repeated_calm (f : State → State) (hf : ∀ x : State, q.Calm x → q.Calm (f x)) (k : Nat) (h : q.Calm s) :
    q.Calm (repeated f k s) := repeated_keeps f hf k s h

/-! ### The players' records -/

/-- A list read through `g` is the same when the one entry modified reads the same. -/
theorem map_modify {α β : Type} (g : α → β) (f : α → α) (l : List α) (i : Nat) (h : ∀ p, l[i]? = some p → g (f p) = g p) :
    (l.modify i f).map g = l.map g := by
  induction l generalizing i with
  | nil => simp
  | cons x l ih =>
    cases i with
    | zero => simpa using h x rfl
    | succ i => simpa using ih i h

/-- A write to the current player's record that changes none of what is read. -/
theorem onCurrent_calm (f : Player → Player)
    (hf : ∀ p, s.player? s.game.current = some p → (f p).kept = p.kept ∧ (q.ScoresHeld → (f p).score = p.score))
    (h : q.Calm s) : q.Calm (s.onCurrent f) := by
  unfold State.onCurrent State.onPlayer
  split
  · exact h
  · rename_i hc
    have hf' : ∀ p, s.game.players[s.game.current - 1]? = some p →
        (f p).kept = p.kept ∧ (q.ScoresHeld → (f p).score = p.score) := fun p hp => hf p (by simp [State.player?, hc, hp])
    refine ⟨h.notInPlay, h.latches, ?_, fun hq => ?_⟩
    · exact (map_modify _ f _ _ fun p hp => (hf' p hp).1).trans h.players
    · exact (map_modify _ f _ _ fun p hp => (hf' p hp).2 hq).trans (h.scores hq)

/-- Where the scores are within their limit in `q`, they are in `s`. -/
theorem State.Calm.held (h : q.Calm s) (hq : q.ScoresHeld) : s.ScoresHeld := by
  intro p hp
  have hm : p.score ∈ s.game.players.map Player.score := List.mem_map_of_mem hp
  rw [h.scores hq] at hm
  obtain ⟨p', hp', e⟩ := List.mem_map.1 hm
  exact e ▸ hq p' hp'

theorem replays_calm (b a : Nat) (l : List Nat) (i : Nat) (h : q.Calm s) : q.Calm (s.replays b a l i) := by
  have hset : ∀ (x : State) (n : Nat), q.Calm x → q.Calm (x.onCurrent fun p => { p with nextReplay := n }) :=
    fun x n hx => onCurrent_calm _ (fun _ _ => ⟨rfl, fun _ => rfl⟩) hx
  induction l generalizing s i with
  | nil => exact hset s i h
  | cons x l ih =>
    simp only [State.replays]
    split
    · refine ih _ ?_
      split <;> simp [h]
    · exact hset s i h

/-- No points added change no score that is within its limit. -/
theorem addPoints_zero_calm (h : q.Calm s) : q.Calm (s.addPoints 0) := by
  have hscore : q.Calm (s.onCurrent fun p => { p with score := min (s.current.score + 0) Config.scoreLimit }) := by
    refine onCurrent_calm _ (fun p hp => ⟨rfl, fun hq => ?_⟩) h
    have hmem : p ∈ s.game.players := by
      unfold State.player? at hp
      split at hp
      · cases hp
      · exact List.mem_of_getElem? hp
    have hle := h.held hq p hmem
    have hcur : s.current = p := by simp [State.current, hp]
    simp only [hcur, Nat.add_zero]
    exact Nat.min_eq_left hle
  unfold State.addPoints
  dsimp only
  split
  · exact emit_calm _ _ _ _ (onCurrent_calm _ (fun _ _ => ⟨rfl, fun _ => rfl⟩) (replays_calm _ _ _ _ hscore))
  · exact replays_calm _ _ _ _ hscore

/-! ### Balls and modes out of play -/

/-- A change to a phase that is out of play. -/
theorem toPhase_calm (p : Phase) (hp : p ≠ .serve) (hp' : p ≠ .play) (h : q.Calm s) : q.Calm (s.toPhase p) := by
  obtain ⟨-, h2, h3, h4⟩ := h
  have hphase : q.Calm (s.onGame fun g => { g with phase := p }) := ⟨by simp [State.inPlay, hp, hp'], h2, h3, h4⟩
  exact calm_of_beside (toPhase_beside s p) hphase

@[simp] theorem saveEnd_calm (c : Nat) (h : q.Calm s) : q.Calm (s.saveEnd c) := by
  unfold State.saveEnd; split <;> simp [h]
@[simp] theorem endInstances_calm (p : ModeInst → Bool) (r : Nat) (h : q.Calm s) : q.Calm (s.endInstances p r) :=
  setStack_calm _ (foldl_calm _ (fun _ _ hx => emit_calm _ _ _ _ hx) _ h)
@[simp] theorem saveInstances_calm (l : List ModeInst) (h : q.Calm s) : q.Calm (s.saveInstances l) := by
  induction l generalizing s with
  | nil => exact h
  | cons i l ih =>
    simp only [State.saveInstances]
    split
    · exact ih (emit_calm _ _ _ _ (onCurrent_calm _ (fun _ _ => ⟨rfl, fun _ => rfl⟩) h))
    · exact ih (emit_calm _ _ _ _ h)
@[simp] theorem modesBallEnd_calm (h : q.Calm s) : q.Calm s.modesBallEnd := by
  unfold State.modesBallEnd; dsimp only
  split
  · exact setStack_calm _ (saveInstances_calm _ (endInstances_calm _ _ (onModes_calm _ (endInstances_calm _ _ h))))
  · exact setStack_calm _ (saveInstances_calm _ (endInstances_calm _ _ h))

/-- Out of play a multiball end leaves the modes to the ball end, in TILT, or does nothing to them (R79). -/
theorem modesMultiballEnd_calm (h : q.Calm s) : q.Calm s.modesMultiballEnd := by
  unfold State.modesMultiballEnd
  rw [if_neg (c := s.inPlay = true) (by simp [h.notInPlay])]
  split <;> simp [h]

/-- The jackpots are none of what is read (R136). -/
theorem jackpotReset_calm (h : q.Calm s) : q.Calm (s.onGame fun g =>
    { g with players := g.players.map fun p => { p with jackpot := jackpotStart g.params } }) :=
  ⟨h.notInPlay, h.latches, (List.map_map).trans h.players, fun hq => (List.map_map).trans (h.scores hq)⟩
theorem multiballEnd_calm (h : q.Calm s) : q.Calm s.multiballEnd := by
  unfold State.multiballEnd
  dsimp only
  have hend := emit_calm .multiballEnded (s.census.lastStarted.getD 255)
    (s.onCensus fun c => { c with multi := false }).committed 0 (onCensus_calm (fun c => { c with multi := false }) h)
  have hsave := ite_calm (c := s.census.save.any (fun r => r.saves == .unlimited) = true) (saveEnd_calm 3 hend) hend
  exact modesMultiballEnd_calm (ite_calm (jackpotReset_calm hsave) hsave)
theorem multiballFall_calm (h : q.Calm s) : q.Calm s.multiballFall := by
  unfold State.multiballFall
  split
  · exact multiballEnd_calm h
  · exact h

/-- A ball that ends in TILT earns no bonus (R63, R153). -/
theorem ballEnd_calm (hp : s.game.phase = .tilt) (h : q.Calm s) : q.Calm s.ballEnd := by
  unfold State.ballEnd
  have htilt : (s.game.phase == .tilt) = true := by simp [hp]
  simp only [htilt, State.bonus, if_true]
  exact recover_calm (emit_calm _ _ _ _ (toPhase_calm .ballOver (by decide) (by decide)
    (addPoints_zero_calm (modesBallEnd_calm (saveEnd_calm 4 h)))))
theorem ballEndTest_calm (h : q.Calm s) : q.Calm s.ballEndTest := by
  unfold State.ballEndTest
  split
  · rename_i hb
    exact ballEnd_calm (by simpa [State.ballOn, h.notInPlay] using hb.1) h
  · exact h
@[simp] theorem ballLost_calm (h : q.Calm s) : q.Calm s.ballLost := ballEndTest_calm (multiballFall_calm h)

/-- An arrival out of play: no serve, no save, no lock (R123 to R127). -/
theorem drain_calm (h : q.Calm s) : q.Calm s.drain := by
  unfold State.drain
  rw [if_neg (c := s.inPlay = true) (by simp [h.notInPlay])]
  split
  · simp [h]
  · split
    · exact ballLost_calm (emit_calm _ _ _ _ h)
    · exact h
theorem censusArrival_calm (d : Nat) (h : q.Calm s) : q.Calm (s.censusArrival d) := by
  unfold State.censusArrival State.returnBall
  rw [if_neg (c := s.inPlay = true) (by simp [h.notInPlay])]
  split
  · exact drain_calm h
  · split <;> simp [h]
  · split <;> simp [h]
  · exact h
  · exact h

/-! ### Walks and arrivals -/

/-- Out of play no direct walk is made, and no pending one (R32). -/
theorem directWalk_calm (x : Nat) (e : Edge) (b : Bool) (h : q.Calm s) : q.Calm (s.directWalk x e b) := by
  rw [State.directWalk, if_neg (by simp [h.notInPlay])]
  exact h
theorem pendingWalk_calm (h : q.Calm s) : q.Calm s.pendingWalk := by
  unfold State.pendingWalk
  split
  · exact h
  · exact onEngine_calm _ h
  · rw [if_neg (c := s.inPlay = true) (by simp [h.notInPlay])]
    exact onEngine_calm _ h
theorem finishRoot_calm (h : q.Calm s) : q.Calm s.finishRoot := repeated_calm _ (fun _ => pendingWalk_calm) _ h
@[simp] theorem takeArrival_calm (d : Nat) (b : Bool) (h : q.Calm s) : q.Calm (s.takeArrival d b) := by
  unfold State.takeArrival
  split
  · exact h
  · rename_i x rest _
    have hcounted := at_calm x (onDevice_calm d
      (fun v => { v with arrivals := rest, accounted := min (v.accounted + 1) v.settled }) h)
    exact directWalk_calm _ _ _ (censusArrival_calm d (ite_calm (emit_calm _ _ _ _ hcounted) hcounted))
theorem takeArrivals_calm (d : Nat) (h : q.Calm s) : q.Calm (s.takeArrivals d) :=
  repeated_calm _ (fun _ hx => takeArrival_calm d false hx) _ h
@[simp] theorem arrivalsWithin_calm (b : Bool) (w : PausedWork) (d : Nat) (h : q.Calm s) :
    q.Calm (s.arrivalsWithin b w d) := by
  unfold State.arrivalsWithin
  split
  · simp [h]
  · exact takeArrivals_calm d h

/-! ### Device evidence -/

@[simp] theorem findByCount_calm (u : Option Nat) (k : Nat) (h : q.Calm s) : q.Calm (s.findByCount u k) := by
  induction k generalizing s with
  | zero => exact h
  | succ k ih => exact ih (emit_calm _ _ _ _ (onCensus_calm _ h))
@[simp] theorem recompute_calm (u : Option Nat) (h : q.Calm s) : q.Calm (s.recompute u) := by
  unfold State.recompute
  dsimp only
  exact ite_calm (ite_calm h (emit_calm _ _ _ _ (onCensus_calm _ h)))
    (ite_calm (onCensus_calm _ (findByCount_calm _ _ h)) (emit_calm _ _ _ _ (onCensus_calm _ (findByCount_calm _ _ h))))
@[simp] theorem lockedLost_calm (d : Nat) (h : q.Calm s) : q.Calm (s.lockedLost d) := by
  unfold State.lockedLost
  exact ite_calm (emit_calm _ _ _ _ (setLocked_calm _ _ h)) h
theorem settleAt_calm (d n : Nat) (h : q.Calm s) : q.Calm (s.settleAt d n) := by
  have hset : q.Calm (s.onDevice d fun v => { v with settled := n }).countActivity :=
    calm_of_beside (countActivity_beside _) (onDevice_calm d _ h)
  have hlost := ite_calm (c := n < (s.device d).settled) (lockedLost_calm d hset) hset
  unfold State.settleAt
  exact ite_calm h (recompute_calm _ (ite_calm (onCensus_calm _ hlost) hlost))
theorem complete_calm (d : Nat) (p : Bool) (k : Nat) (h : q.Calm s) : q.Calm (s.complete d p k) :=
  calm_of_served (complete_served d p k) h
theorem faultSelf_calm (d : Nat) (h : q.Calm s) : q.Calm (s.faultSelf d) := complete_calm d true _ (emit_calm _ _ _ _ h)
theorem success_calm (d : Nat) (h : q.Calm s) : q.Calm (s.success d) := calm_of_served (success_served d) h
theorem reactCount_calm (d : Nat) (h : q.Calm s) : q.Calm (s.reactCount d) := by
  unfold State.reactCount
  dsimp only
  split
  case h_1 => exact ite_calm (dueArrivals_calm _ _ h) (dueArrivals_calm _ _ h)
  case h_2 => exact ite_calm (ite_calm (dueArrivals_calm _ _ h) (complete_calm d true _ h)) (dueArrivals_calm _ _ h)
  case h_3 => exact ite_calm (faultSelf_calm d h) h
  case h_7 => exact h
  all_goals exact ite_calm (success_calm d h) h
theorem entryClosure_calm (d : Nat) (h : q.Calm s) : q.Calm (s.entryClosure d) := by
  have hcount : q.Calm (s.countEntry d) := calm_of_beside (countEntry_beside s d) h
  unfold State.entryClosure
  dsimp only
  split
  · exact calm_of_beside (restartSettle_beside s d) h
  · exact hcount
  · refine ite_calm hcount ?_
    split
    · exact onDevice_calm d _ h
    · exact calm_of_beside (attemptFailed_beside s d) h
    all_goals exact hcount
theorem exitClosure_calm (d : Nat) (h : q.Calm s) : q.Calm (s.exitClosure d) := by
  have hcount := settleAt_calm d ((s.device d).settled - 1) h
  unfold State.exitClosure
  dsimp only
  split
  · exact success_calm d h
  · exact h
  · split
    case h_1 => exact h
    case h_4 => exact faultSelf_calm d hcount
    case h_2 => exact reactCount_calm d hcount
    case h_3 => exact reactCount_calm d hcount
    all_goals exact ite_calm h (success_calm d hcount)
theorem deviceEvidence_calm (i d : Nat) (h : q.Calm s) : q.Calm (State.deviceEvidence i s d) := by
  unfold State.deviceEvidence
  have hentry := ite_calm (c := s.configured d = true ∧ (s.device d).record.entrySwitch = some i) (entryClosure_calm d h) h
  exact ite_calm (exitClosure_calm d hentry) hentry

/-! ### Hand-ons and what there is to catch up with -/

theorem evidenceThenArrivals_calm (b : Bool) (x : Transition) (d : Nat) (h : q.Calm s) :
    q.Calm (s.evidenceThenArrivals b x d) := by
  unfold State.evidenceThenArrivals
  split
  · exact h
  · exact arrivalsWithin_calm b _ d (deviceEvidence_calm _ d (at_calm _ h))
theorem ownWalk_calm (b : Bool) (x : Transition) (h : q.Calm s) : q.Calm (s.ownWalk b x) := by
  unfold State.ownWalk
  split
  · exact h
  · exact settleDevices_calm (directWalk_calm _ _ _ (settleDevices_calm (at_calm _ h)))
theorem evidenceAndWalk_calm (b : Bool) (x : Transition) (l : List Nat) (h : q.Calm s) :
    q.Calm (s.evidenceAndWalk b x l) :=
  ownWalk_calm b x (foldl_calm _ (fun _ d => evidenceThenArrivals_calm b x d) l h)
theorem faultCleared_calm (d : Nat) (x : Stamp) (h : q.Calm s) : q.Calm (s.faultCleared d x) := by
  unfold State.faultCleared
  dsimp only
  split
  · refine settleDevices_calm (emit_calm _ _ _ _ ?_)
    split
    · simp [h]
    · exact calm_of_beside (enterEjectWait_beside _ d) (by simp [h])
  · exact h
theorem faultArrivals_calm (b : Bool) (d : Nat) (x : Stamp) (h : q.Calm s) : q.Calm (s.faultArrivals b d x) := by
  unfold State.faultArrivals
  dsimp only
  split
  · exact arrivalsWithin_calm b _ d h
  · exact faultCleared_calm d x (arrivalsWithin_calm b _ d h)
theorem answerInHand_calm (p : List Byte) (h : q.Calm s) : q.Calm (s.answerInHand p) := by
  unfold State.answerInHand; split <;> simp [h]
theorem resume_calm (b : Bool) (h : q.Calm s) : q.Calm (s.resume b) := by
  unfold State.resume
  split
  · exact h
  · dsimp only
    split
    · exact evidenceAndWalk_calm _ _ _ (arrivalsWithin_calm _ _ _ (onEngine_calm _ h))
    · exact answerInHand_calm _ (settleDevices_calm (at_calm _ (onEngine_calm _ h)))
    · rename_i d x _
      have hf := faultArrivals_calm b d x (onEngine_calm (fun c => { c with paused := none }) h)
      split
      · exact hf
      · exact answerInHand_calm _ hf
theorem catchUp_calm (h : q.Calm s) : q.Calm s.catchUp := by
  unfold State.catchUp State.finishWork
  split
  · exact h
  · exact settleDevices_calm (foldl_calm _ (fun _ d => takeArrivals_calm d) _ (resume_calm false (finishRoot_calm h)))
theorem handingOn_calm (x : Transition) (h : q.Calm s) : q.Calm (s.handingOn x) :=
  at_calm _ (calm_of_eq (s := s.catchUp) rfl rfl rfl (catchUp_calm h))
theorem reportSwitch_calm (x : Transition) (h : q.Calm s) : q.Calm (s.reportSwitch x) :=
  calm_of_beside (reportSwitch_beside x) h

/-- Out of play a PLAYFIELD closure may find a ball, and validates none (R118, R120). -/
theorem offerClosure_calm (i : Nat) (h : q.Calm s) : q.Calm (s.offerClosure i) := by
  have hfound : q.Calm (s.foundByClosure i) := by
    unfold State.foundByClosure; dsimp only; split <;> simp [h]
  unfold State.offerClosure State.validate
  rw [if_neg (by simp [hfound.notInPlay])]
  exact hfound
theorem playfieldActivity_calm (h : q.Calm s) : q.Calm s.playfieldActivity := by
  unfold State.playfieldActivity
  dsimp only
  split
  · exact calm_of_beside (searchEnd_beside _ 0) (onQuiet_calm 0 h)
  · exact onQuiet_calm 0 h

theorem closure_calm (b : Bool) (x : Transition) (h : q.Calm s) : q.Calm (State.closure b x s) := by
  unfold State.closure
  rw [if_neg (c := s.inPlay = true) (by simp [h.notInPlay])]
  dsimp only
  refine evidenceAndWalk_calm b x _ ?_
  split
  · exact offerClosure_calm _ (playfieldActivity_calm (reportSwitch_calm x h))
  · exact reportSwitch_calm x h
theorem opening_calm (b : Bool) (x : Transition) (h : q.Calm s) : q.Calm (State.opening b x s) :=
  settleDevices_calm (directWalk_calm _ _ _ (reportSwitch_calm x h))

/-- Settles O8: neither hand-on, nor what there is to catch up with before it, changes what walks alone change. -/
theorem transitionOutOfPlayNotWalked : Obligations.TransitionOutOfPlayNotWalked := by
  intro i b s tr hw hr hp
  have hwalked : tr.walked = true := by rcases hr with h | h <;> simp [Transition.walked, h]
  have hcalm := handingOn_calm tr (.refl hp)
  have hdone : ∃ t, exec (if tr.closed = true then .switchClosure i b else .switchOpening i b) s = .next t ∧ s.Calm t := by
    cases hc : tr.closed
    · exact ⟨_, congrArg Host.Outcome.next (handOn_of_waiting s i _ _ tr hw (by simp [hc, hwalked])), opening_calm b tr hcalm⟩
    · exact ⟨_, congrArg Host.Outcome.next (handOn_of_waiting s i _ _ tr hw (by simp [hc, hwalked])), closure_calm b tr hcalm⟩
  obtain ⟨t, ht, hin, hlatches, hplayers, hscores⟩ := hdone
  exact ⟨t, ht, hin, hlatches, hplayers, hscores⟩

end Sys2Proof.Machine
end

