-- ==== Sys2Proof/Proofs/BallStarts.lean ====
section
/-! The ball start of R150: what it makes of the player's record, the latches, the stack and the trough (O40). -/

namespace Sys2Proof.Machine

open Sys2Proof

variable {s t : State}

/-! ### The orders of the search leave the queues (R165) -/

theorem dropSearch_queue (d e : Nat) (hd : d < Config.deviceCount) : ((s.dropSearch d).device e).queue =
    if d = e then (s.device e).queue.filter (fun o => o.reason != .search) else (s.device e).queue := by
  unfold State.dropSearch
  split
  · by_cases h : d = e
    · subst h; simp [State.onDevice_self _ _ _ hd]
    · simp [h, State.onDevice_other _ _ _ _ h]
  · rename_i hs
    split
    · rename_i h
      subst h
      refine (List.filter_eq_self.2 fun o ho => ?_).symm
      have := List.any_eq_false.1 (Bool.eq_false_iff.2 hs) o ho
      simpa using this
    · rfl

theorem foldl_dropSearch_queue (l : List Nat) (hl : ∀ d ∈ l, d < Config.deviceCount) (e : Nat) :
    ((l.foldl State.dropSearch s).device e).queue =
      if e ∈ l then (s.device e).queue.filter (fun o => o.reason != .search) else (s.device e).queue := by
  induction l generalizing s with
  | nil => simp
  | cons d l ih =>
    rw [List.foldl_cons, ih fun x hx => hl x (List.mem_cons_of_mem _ hx), dropSearch_queue d e (hl d (List.mem_cons_self ..))]
    by_cases h : e = d
    · subst h
      by_cases h' : e ∈ l <;> simp [h', List.filter_filter]
    · simp [h, Ne.symm h]

/-- Once the search is off, no SEARCH order waits. -/
theorem searchOff_queue (d : Nat) (hd : d < 8) :
    ((s.searchOff).device d).queue = (s.device d).queue.filter fun o => o.reason != .search := by
  have h := foldl_dropSearch_queue (s := s) deviceNumbers (by decide) d
  rw [if_pos (by simp [deviceNumbers, hd])] at h
  simpa [State.searchOff, State.dropSearches] using h

/-- What an order makes of a queue in which no SEARCH order waits (R96). -/
theorem queueOrder_queue (d : Nat) (r : Reason) (l : Bool) (hc : s.configured d = true) (hd : d < Config.deviceCount)
    (hs : (s.device d).searchWaits = false) : ((s.queueOrder d r l).device d).queue =
      if 8 ≤ (s.device d).queue.length then (s.device d).queue else (s.device d).queue ++ [⟨r, s.time, l⟩] := by
  split
  · rename_i hl
    have h : s.dropSearch d = s := by simp [State.dropSearch, hs]
    simp [State.queueOrder, hc, h, Config.queueOrders, hl]
  · rename_i hl
    rw [queueOrder_of_room d r l hc hs (by omega)]
    dsimp only
    split <;> simp [enterEjectWait_device, State.onDevice_self _ _ _ hd, hd]

/-! ### The saved modes return (R82) -/

/-- The place of a mode in the stack is found from the priorities of the definitions. -/
theorem placed_congr (h : t.modes.defs = s.modes.defs) (i : ModeInst) (l : List ModeInst) : t.placed i l = s.placed i l := by
  have hdef : t.modeDef = s.modeDef := by funext m; simp [State.modeDef, h]
  induction l with
  | nil => rfl
  | cons j l ih => simp [State.placed, ih, hdef]
theorem lawState_congr (h : t.modes.defs = s.modes.defs) (l : List ModeInst) (m : Nat) : t.lawState l m = s.lawState l m := by
  have hdef : t.modeDef = s.modeDef := by funext m; simp [State.modeDef, h]
  simp [State.lawState, hdef]

/-- A saved mode back on the stack, RUNNING, with start order `n`. -/
def SavedMode.inst (v : SavedMode) (n : Nat) : ModeInst := ⟨v.mode, .running, v.remaining, v.progress, v.value, n⟩

/-- The stack and the next start order once the saved modes `l` have been placed in turn. -/
def State.placedAll (s : State) : List SavedMode → List ModeInst × Nat → List ModeInst × Nat
  | [], x => x
  | v :: l, (stack, n) => s.placedAll l (s.placed (v.inst n) stack, (n + 1) % 65536)

theorem foldl_restoreOne_eq (u : State) (hd : u.modes.defs = s.modes.defs) (l : List SavedMode) :
    l.foldl State.restoreOne u =
      let x := s.placedAll l (u.modes.stack, u.modes.nextOrder)
      u.onModes fun c => { c with stack := x.1, nextOrder := x.2 } := by
  induction l generalizing u with
  | nil => rfl
  | cons v l ih =>
    rw [List.foldl_cons, ih _ (by simpa [State.restoreOne] using hd)]
    simp [State.restoreOne, State.placedAll, placed_congr hd, SavedMode.inst, State.onModes]

/-- The records of the modes `l` that return to the stack, by work stamped `at_` for player `p` (R82). -/
def restoredRecords (p : Nat) (at_ : Stamp) (l : List ModeInst) : List EventRecord :=
  l.map fun i => ⟨.modeRestored, p, i.mode, at_, i.state.code, i.value⟩

theorem foldl_modeRestored_eq (u : State) (l : List ModeInst) :
    l.foldl (fun s i => s.emit .modeRestored i.mode i.state.code i.value) u =
      { u with events := List.foldl appendEvent u.events (restoredRecords u.game.current u.time l) } := by
  induction l generalizing u with
  | nil => rfl
  | cons i l ih => rw [List.foldl_cons, ih]; rfl

/-- The stack that the saved modes of the current player return to, by the law of R67. -/
def State.restoredStack (s : State) : List ModeInst :=
  let stack := (s.placedAll s.current.saved (s.modes.stack, s.modes.nextOrder)).1
  stack.map fun i => { i with state := s.lawState stack i.mode }

theorem onCurrent_game_congr (h : t.game = s.game) (f : Player → Player) : (t.onCurrent f).game = (s.onCurrent f).game := by
  unfold State.onCurrent State.onPlayer
  rw [h]
  split <;> simp [h]

/-- The saved modes return: the stack, the start order, the player's record and the records change alone. -/
theorem modesRestore_eq : s.modesRestore =
    let u := s.onCurrent fun p => { p with saved := [] }
    { u with
      modes := { s.modes with
        stack := s.restoredStack
        nextOrder := (s.placedAll s.current.saved (s.modes.stack, s.modes.nextOrder)).2 }
      events := List.foldl appendEvent s.events (restoredRecords s.game.current s.time s.restoredStack) } := by
  unfold State.modesRestore
  dsimp only
  rw [foldl_restoreOne_eq (s := s) s rfl, foldl_modeRestored_eq]
  simp [State.setStack, State.restoredStack, lawState_congr (s := s)]
  exact onCurrent_game_congr (State.onModes_game ..) _

/-! ### The order of the restored stack (R82) -/

/-- The saved modes back on the stack, RUNNING, with the start orders from `n` plus `k` on. -/
def putBack (n k : Nat) (l : List SavedMode) : List ModeInst := (l.zipIdx k).map fun x => x.1.inst ((n + x.2) % 65536)

theorem putBack_cons (n k : Nat) (v : SavedMode) (l : List SavedMode) :
    putBack n k (v :: l) = v.inst ((n + k) % 65536) :: putBack n (k + 1) l := by
  simp [putBack, List.zipIdx_cons]

theorem putBack_modes (n k : Nat) (l : List SavedMode) :
    (putBack n k l).map ModeInst.mode = l.map SavedMode.mode := by
  induction l generalizing k with
  | nil => rfl
  | cons v l ih => simp [putBack_cons, ih, SavedMode.inst]

theorem placed_perm (i : ModeInst) (l : List ModeInst) : (s.placed i l).Perm (i :: l) := by
  induction l with
  | nil => exact .refl _
  | cons j l ih =>
    unfold State.placed
    split
    · exact .refl _
    · exact (ih.cons j).trans (.swap i j l)

/-- A mode whose priority is above none of the stack joins at the end. -/
theorem placed_of_le (i : ModeInst) (l : List ModeInst)
    (h : ∀ j ∈ l, (s.modeDef i.mode).priority ≤ (s.modeDef j.mode).priority) : s.placed i l = l ++ [i] := by
  induction l with
  | nil => rfl
  | cons j l ih =>
    rw [State.placed, if_neg (Nat.not_lt.2 (h j (List.mem_cons_self ..))), ih fun x hx => h x (List.mem_cons_of_mem _ hx)]
    rfl

theorem placedAll_order (l : List SavedMode) (st : List ModeInst) (n k : Nat) :
    (s.placedAll l (st, (n + k) % 65536)).2 = (n + k + l.length) % 65536 := by
  induction l generalizing st k with
  | nil => simp [State.placedAll]
  | cons v l ih =>
    rw [State.placedAll, Nat.mod_add_mod, Nat.add_assoc, ih, List.length_cons]
    congr 1; omega

theorem placedAll_perm (l : List SavedMode) (st : List ModeInst) (n k : Nat) :
    (s.placedAll l (st, (n + k) % 65536)).1.Perm (st ++ putBack n k l) := by
  induction l generalizing st k with
  | nil => simp [State.placedAll, putBack]
  | cons v l ih =>
    rw [State.placedAll, Nat.mod_add_mod, Nat.add_assoc, putBack_cons]
    exact (ih _ _).trans (((placed_perm _ _).append_right _).trans List.perm_middle.symm)

/-- Saved modes in falling order of priority return in that order, behind a stack whose priorities are no lower. -/
theorem placedAll_of_sorted (l : List SavedMode) (st : List ModeInst) (n k : Nat)
    (hl : l.Pairwise fun v w => (s.modeDef w.mode).priority ≤ (s.modeDef v.mode).priority)
    (hst : ∀ j ∈ st, ∀ v ∈ l, (s.modeDef v.mode).priority ≤ (s.modeDef j.mode).priority) :
    (s.placedAll l (st, (n + k) % 65536)).1 = st ++ putBack n k l := by
  induction l generalizing st k with
  | nil => simp [State.placedAll, putBack]
  | cons v l ih =>
    obtain ⟨hv, hl⟩ := List.pairwise_cons.1 hl
    have hplaced := placed_of_le (s := s) (v.inst ((n + k) % 65536)) st fun j hj => hst j hj v (List.mem_cons_self ..)
    rw [State.placedAll, Nat.mod_add_mod, Nat.add_assoc, hplaced, ih _ _ hl, putBack_cons, List.append_assoc]
    · rfl
    · intro j hj w hw
      rcases List.mem_append.1 hj with hj | hj
      · exact hst j hj w (List.mem_cons_of_mem _ hw)
      · rw [List.mem_singleton.1 hj]
        exact hv w hw

/-- The law of R67 reads the modes of a stack alone. -/
theorem lawState_of_modes (stack : List ModeInst) (saved : List SavedMode) (m : Nat)
    (h : (stack.map ModeInst.mode).Perm (saved.map SavedMode.mode)) : s.lawState stack m =
      if ∃ w ∈ saved, (s.modeDef w.mode).exclusive = true ∧ (s.modeDef m).priority < (s.modeDef w.mode).priority then
        .suspended else .running := by
  have hmodes : (∃ j ∈ stack, (s.modeDef j.mode).exclusive = true ∧ (s.modeDef m).priority < (s.modeDef j.mode).priority) ↔
      ∃ w ∈ saved, (s.modeDef w.mode).exclusive = true ∧ (s.modeDef m).priority < (s.modeDef w.mode).priority := by
    have hmem : ∀ x, (∃ j ∈ stack, j.mode = x) ↔ ∃ w ∈ saved, w.mode = x := fun x => by
      simpa using h.mem_iff (a := x)
    constructor
    · rintro ⟨j, hj, hp⟩
      obtain ⟨w, hw, e⟩ := (hmem j.mode).1 ⟨j, hj, rfl⟩
      exact ⟨w, hw, e ▸ hp⟩
    · rintro ⟨w, hw, hp⟩
      obtain ⟨j, hj, e⟩ := (hmem w.mode).2 ⟨w, hw, rfl⟩
      exact ⟨j, hj, e ▸ hp⟩
  simp [State.lawState, ← hmodes]

/-- The modes put back, by the law of R67, are the restored ones of R82. -/
theorem map_law_putBack (stack : List ModeInst) (saved : List SavedMode)
    (h : stack.Perm (putBack s.modes.nextOrder 0 saved)) :
    (putBack s.modes.nextOrder 0 saved).map (fun i => { i with state := s.lawState stack i.mode }) = s.restored saved := by
  have hmodes := (h.map ModeInst.mode).trans (.of_eq (putBack_modes s.modes.nextOrder 0 saved))
  simp [putBack, State.restored, SavedMode.inst, lawState_of_modes stack saved _ hmodes]

/-- A stack restored from none (R82). -/
theorem restoredStack_perm (h : s.modes.stack = []) (hn : s.modes.nextOrder < 65536) :
    s.restoredStack.Perm (s.restored s.current.saved) ∧
      (s.current.saved.Pairwise (fun v w => (s.modeDef w.mode).priority ≤ (s.modeDef v.mode).priority) →
        s.restoredStack = s.restored s.current.saved) ∧
      (s.placedAll s.current.saved (s.modes.stack, s.modes.nextOrder)).2 =
        (s.modes.nextOrder + s.current.saved.length) % 65536 := by
  have hzero : s.modes.nextOrder = (s.modes.nextOrder + 0) % 65536 := by omega
  have hperm := placedAll_perm (s := s) s.current.saved [] s.modes.nextOrder 0
  have hsorted := placedAll_of_sorted (s := s) s.current.saved [] s.modes.nextOrder 0
  have horder := placedAll_order (s := s) s.current.saved [] s.modes.nextOrder 0
  rw [← hzero] at hperm hsorted horder
  rw [State.restoredStack, h]
  refine ⟨?_, fun hs => ?_, horder⟩
  · rw [← map_law_putBack _ _ hperm]
    exact hperm.map _
  · rw [← map_law_putBack _ _ hperm, hsorted hs (by simp)]
    rfl

/-! ### The player's record and the latches (R14, R150) -/

theorem onCurrent_players (f : Player → Player) : (s.onCurrent f).game.players =
    if s.game.current = 0 then s.game.players else s.game.players.modify (s.game.current - 1) f := by
  unfold State.onCurrent State.onPlayer
  split <;> simp

/-- A write to the current player's record, read back. -/
theorem onCurrent_player? (f : Player → Player) (k : Nat) :
    (s.onCurrent f).player? k = if k = s.game.current then (s.player? k).map f else s.player? k := by
  unfold State.player?
  rw [onCurrent_players]
  by_cases hk : k = 0
  · simp [hk]
  · by_cases hc : s.game.current = 0
    · simp [hk, hc]
    · have hidx : s.game.current - 1 = k - 1 ↔ k = s.game.current := by omega
      simp [hk, hc, List.getElem?_modify, hidx]
      split <;> simp
theorem player?_congr (h : t.game.players = s.game.players) (k : Nat) : t.player? k = s.player? k := by
  simp [State.player?, h]
theorem current_of_player? {q : Player} (h : s.player? s.game.current = some q) : s.current = q := by
  simp [State.current, h]

/-- The latches of the members of the per-ball groups go out (R14). -/
theorem clearPerBall_latch (i : Nat) (hi : i < 72) : (s.clearPerBall.switch i).latch = true ↔
    (s.switch i).latch = true ∧ ∀ g < 8, (s.group g).perBall = true → i ∉ (s.group g).members := by
  have hmem : i ∈ (s.scanner.groups.toList.flatMap fun g => if g.perBall then g.members else []) ↔
      ∃ g < 8, (s.group g).perBall = true ∧ i ∈ (s.group g).members := by
    rw [List.mem_flatMap]
    constructor
    · rintro ⟨x, hx, hi⟩
      obtain ⟨g, hg, e⟩ := List.mem_iff_getElem.1 hx
      have hg' : g < 8 := by simpa [Config.groupCount] using hg
      have hread : s.group g = x := by simp [State.group, readTable, Config.groupCount, hg', ← e]
      refine ⟨g, hg', ?_⟩
      rw [hread]
      split at hi <;> simp_all
    · rintro ⟨g, hg, hp, hi⟩
      refine ⟨s.group g, ?_, by simpa [hp] using hi⟩
      simp [State.group, readTable, Config.groupCount, hg]
  have hread : (s.clearPerBall.switch i) =
      if (s.scanner.groups.toList.flatMap fun g => if g.perBall then g.members else []).contains i then
        { s.switch i with latch := false } else s.switch i := by
    simp only [State.clearPerBall, State.clearLatches, State.switch, State.onScanner_scanner]
    rw [readTable_mapTable _ _ Switch.reset _ _ hi]
  rw [hread]
  split
  · rename_i h
    obtain ⟨g, hg, hp, hm⟩ := hmem.1 (List.contains_iff_mem.1 h)
    simp only [Bool.false_eq_true, false_iff, not_and]
    exact fun _ hall => hall g hg hp hm
  · rename_i h
    refine ⟨fun hl => ⟨hl, fun g hg hp hm => h (List.contains_iff_mem.2 (hmem.2 ⟨g, hg, hp, hm⟩))⟩, And.left⟩

/-! ### The ball start (R150) -/

/-- A ball start up to step 2: the player's record and the latches of the per-ball groups. -/
def State.ballCleared (s : State) : State :=
  (s.onCurrent fun p => p.ballReset s.game.params).clearPerBall.onCensus fun c =>
    { c with validated := false, missingReturns := 0 }

/-- A ball start up to step 4: the saved modes have not yet returned. -/
def State.ballReady (s : State) : State := s.ballCleared.freshBall.toPhase .serve

/-- A ball start up to its record, before the ball is served. -/
def State.ballBegun (s : State) : State :=
  s.ballReady.modesRestore.emit .gameBallStarted s.ballReady.modesRestore.game.ballNumber
    s.ballReady.modesRestore.game.players.length 0

theorem ballStart_eq : s.ballStart = if 1 ≤ s.ballBegun.shooter then s.ballBegun.toPhase .play
    else s.ballBegun.queueOrder 0 .serve false := by
  unfold State.ballStart State.ballBegun State.ballReady State.ballCleared
  with_reducible rfl

theorem onGame_beside_congr (f : Game → Game) (hf : ∀ g : Game, { f g with search := .reset } = f { g with search := .reset })
    (h : t.beside = s.beside) : (t.onGame f).beside = (s.onGame f).beside := by
  have hgame : ∀ x : State, (x.onGame f).beside = x.beside.onGame f := fun x => by simp [State.beside, State.onGame, hf]
  rw [hgame, hgame, h]

theorem freshBall_beside : s.freshBall.beside = (s.onGame fun g => { g with lastTilt := none }).beside := by
  unfold State.freshBall
  exact onGame_beside_congr _ (fun _ => rfl) (by simp)
theorem freshServe_beside : (s.freshBall.toPhase .serve).beside =
    (s.onGame fun g => { g with lastTilt := none, phase := .serve }).beside := by
  rw [toPhase_beside]
  exact onGame_beside_congr (fun g => { g with phase := .serve }) (fun _ => rfl) freshBall_beside

theorem ballCleared_scanner : s.ballCleared.scanner = s.clearPerBall.scanner := by
  simp [State.ballCleared, State.clearPerBall, State.clearLatches]
theorem ballCleared_game : s.ballCleared.game = (s.onCurrent fun p => p.ballReset s.game.params).game := by
  simp [State.ballCleared, State.clearPerBall, State.clearLatches]
theorem ballCleared_devices : s.ballCleared.devices = s.devices := by
  simp [State.ballCleared, State.clearPerBall, State.clearLatches]

theorem ballReady_scanner : s.ballReady.scanner = s.clearPerBall.scanner := by
  rw [State.ballReady, scanner_of_beside freshServe_beside, State.onGame_scanner, ballCleared_scanner]
theorem ballReady_modes : s.ballReady.modes = s.modes :=
  (modes_of_beside freshServe_beside).trans (by simp [State.ballCleared, State.clearPerBall, State.clearLatches])
theorem ballReady_time : s.ballReady.time = s.time :=
  (time_of_beside freshServe_beside).trans (by simp [State.ballCleared, State.clearPerBall, State.clearLatches])
theorem ballReady_validated : s.ballReady.census.validated = false :=
  (congrArg Census.validated (census_of_beside freshServe_beside)).trans (by simp [State.ballCleared])
theorem ballReady_phase : s.ballReady.game.phase = .serve :=
  (phase_of_beside freshServe_beside).trans (by simp)
theorem ballReady_lastTilt : s.ballReady.game.lastTilt = none :=
  (lastTilt_of_beside freshServe_beside).trans (by simp)
theorem ballReady_current : s.ballReady.game.current = s.game.current :=
  (current_of_beside freshServe_beside).trans (by simp [ballCleared_game])
theorem ballReady_ballNumber : s.ballReady.game.ballNumber = s.game.ballNumber :=
  (ballNumber_of_beside freshServe_beside).trans (by simp [ballCleared_game])
theorem ballReady_players :
    s.ballReady.game.players = (s.onCurrent fun p => p.ballReset s.game.params).game.players :=
  (players_of_beside freshServe_beside).trans (by simp [ballCleared_game])
theorem ballReady_logged {q : List EventRecord} (h : s.Logged q) : s.ballReady.Logged q := by
  unfold State.ballReady State.freshBall State.ballCleared State.clearPerBall
  simp [h]
theorem ballReady_tallies : s.ballReady.tallies = s.tallies := by
  have hcleared : s.ballCleared.tallies = s.tallies := by simp [State.tallies, ballCleared_devices]
  simp [State.ballReady, State.freshBall, hcleared]
theorem ballReady_queue (d : Nat) (hd : d < 8) :
    (s.ballReady.device d).queue = (s.device d).queue.filter fun o => o.reason != .search := by
  have hcleared : s.ballCleared.device d = s.device d := by simp [State.device, ballCleared_devices]
  simp [State.ballReady, State.toPhase, searchOff_queue _ hd, State.freshBall, hcleared]

/-- The ball start before the ball is served, in its parts. -/
theorem ballBegun_scanner : s.ballBegun.scanner = s.clearPerBall.scanner := by
  simp [State.ballBegun, modesRestore_eq, ballReady_scanner]
theorem ballBegun_devices : s.ballBegun.devices = s.ballReady.devices := by
  simp [State.ballBegun, modesRestore_eq]
theorem ballBegun_validated : s.ballBegun.census.validated = false := by
  simp [State.ballBegun, modesRestore_eq, ballReady_validated]
theorem ballBegun_time : s.ballBegun.time = s.time := by
  simp [State.ballBegun, modesRestore_eq, ballReady_time]
theorem ballBegun_phase : s.ballBegun.game.phase = .serve := by
  simp [State.ballBegun, modesRestore_eq, ballReady_phase]
theorem ballBegun_lastTilt : s.ballBegun.game.lastTilt = none := by
  simp [State.ballBegun, modesRestore_eq, ballReady_lastTilt]
theorem ballBegun_current : s.ballBegun.game.current = s.game.current := by
  simp [State.ballBegun, modesRestore_eq, ballReady_current]
theorem ballBegun_ballNumber : s.ballBegun.game.ballNumber = s.game.ballNumber := by
  simp [State.ballBegun, modesRestore_eq, ballReady_ballNumber]
theorem ballBegun_players : s.ballBegun.game.players =
    (s.ballReady.onCurrent fun p => { p with saved := [] }).game.players := by
  simp [State.ballBegun, modesRestore_eq]
theorem ballBegun_stack : s.ballBegun.modes.stack = s.ballReady.restoredStack := by
  simp [State.ballBegun, modesRestore_eq]
theorem ballBegun_nextOrder : s.ballBegun.modes.nextOrder =
    (s.ballReady.placedAll s.ballReady.current.saved (s.ballReady.modes.stack, s.ballReady.modes.nextOrder)).2 := by
  simp [State.ballBegun, modesRestore_eq]
theorem ballBegun_events : s.ballBegun.events = List.foldl appendEvent s.ballReady.events
    (ballStartRecords s.ballBegun.modes.stack s.game.current s.game.ballNumber s.game.players.length s.time) := by
  have hcode : ∀ r : RunState, r.code = if r = .running then 0 else 1 := fun r => by cases r <;> rfl
  have hcount : (s.onCurrent fun p => p.ballReset s.game.params).game.players.length = s.game.players.length := by
    rw [onCurrent_players]; split <;> simp
  have hcount' : (s.ballReady.onCurrent fun p => { p with saved := [] }).game.players.length = s.game.players.length := by
    rw [onCurrent_players, ballReady_players]; split <;> simp [hcount]
  rw [ballBegun_stack]
  simp [State.ballBegun, modesRestore_eq, restoredRecords, ballStartRecords, ballReady_current, ballReady_ballNumber,
    ballReady_time, hcount', hcode]

/-- The current player's record at a ball start (R150). -/
theorem ballBegun_player {q : Player} (h : s.player? s.game.current = some q) :
    s.ballReady.player? s.ballReady.game.current = some (q.ballReset s.game.params) ∧
      s.ballBegun.player? s.game.current = some { q.ballReset s.game.params with saved := [] } := by
  have hready : s.ballReady.player? s.game.current = some (q.ballReset s.game.params) := by
    rw [player?_congr ballReady_players, onCurrent_player?, if_pos rfl, h]
    rfl
  refine ⟨by rw [ballReady_current, hready], ?_⟩
  rw [player?_congr ballBegun_players, onCurrent_player?, if_pos ballReady_current.symm, hready]
  rfl

theorem onPhase_self {p : Phase} (h : s.game.phase = p) : (s.onGame fun g => { g with phase := p }) = s := by
  subst h; rfl

/-- Past its record a ball start has the ball served, or begins in PLAY: nothing else beside the orders and the search. -/
theorem ballStart_beside : s.ballStart.beside =
    (s.ballBegun.onGame fun g => { g with phase := if 1 ≤ s.ballBegun.shooter then .play else .serve }).beside := by
  rw [ballStart_eq]
  split
  · exact toPhase_beside ..
  · rw [queueOrder_beside, onPhase_self ballBegun_phase]
theorem ballStart_logged : s.ballStart.Logged s.ballBegun.events := by
  rw [ballStart_eq]
  split <;> simp [logged_self]

theorem record_of_tallies (h : t.tallies = s.tallies) (d : Nat) : (t.device d).record = (s.device d).record :=
  (congrArg Device.record (tally_of_tallies h d) :)
theorem shooter_of_tallies (h : t.tallies = s.tallies) : t.shooter = s.shooter := by
  have hn : (t.device 1).settled = (s.device 1).settled := (congrArg Device.settled (tally_of_tallies h 1) :)
  simp [State.shooter, State.countOf, configured_congr _ 1 (record_of_tallies h 1), hn]

theorem ballBegun_tallies : s.ballBegun.tallies = s.tallies := by
  rw [← ballReady_tallies (s := s)]
  simp [State.tallies, ballBegun_devices]

/-- The trough's queue after a ball start (R150 step 7). -/
theorem ballStart_queue (hc : s.configured 0 = true) (ht : s.time = s.scanner.now) :
    (s.ballStart.device 0).queue = s.servedQueue := by
  have hqueue : (s.ballBegun.device 0).queue = (s.device 0).queue.filter fun o => o.reason != .search := by
    rw [← ballReady_queue 0 (by decide)]
    simp [State.device, ballBegun_devices]
  have hwaits : (s.ballBegun.device 0).searchWaits = false := by simp [Device.searchWaits, hqueue]
  rw [ballStart_eq, State.servedQueue, shooter_of_tallies ballBegun_tallies]
  split
  · rename_i h
    have hplay : (s.ballBegun.toPhase .play).device 0 = s.ballBegun.device 0 := by
      simp only [State.toPhase, State.searchWait, onSearch_device, onGame_device]
    rw [hplay, hqueue, if_pos (.inl h)]
  · rename_i h
    have hconf : s.ballBegun.configured 0 = true := by rw [configured_congr _ 0 (record_of_tallies ballBegun_tallies 0), hc]
    rw [queueOrder_queue 0 .serve false hconf (by decide) hwaits, hqueue, ballBegun_time, ht]
    simp [h]

/-! ### NEXT_BALL (R154) -/

/-- Ball `ball` of player `p` has begun in `t`, with one extra ball spent when `extra` is 1: what a ball start makes of the state `s`
before it. -/
def State.BallStarted (s t : State) (p ball extra : Nat) : Prop :=
  t.inPlay = true ∧ t.game.current = p ∧ t.game.ballNumber = ball ∧ t.census.validated = false ∧
    t.game.lastTilt = none ∧ t.game.phase = (if 1 ≤ s.shooter then .play else .serve) ∧
    (s.configured 0 = true → (t.device 0).queue = s.servedQueue) ∧
    (∀ i < 72, (t.switch i).latch = true ↔
      (s.switch i).latch = true ∧ ∀ g < 8, (s.group g).perBall = true → i ∉ (s.group g).members) ∧
    (∃ before after, t.events = List.foldl appendEvent s.events (before ++
      ballStartRecords t.modes.stack p ball s.game.players.length s.scanner.now ++ after)) ∧
    (∀ q, s.player? p = some q → s.modes.stack = [] → s.modes.nextOrder < 65536 →
      t.modes.nextOrder = (s.modes.nextOrder + q.saved.length) % 65536 ∧ t.modes.stack.Perm (s.restored q.saved) ∧
      (q.saved.Pairwise (fun v w => (s.modeDef w.mode).priority ≤ (s.modeDef v.mode).priority) →
        t.modes.stack = s.restored q.saved)) ∧
    ∀ q, s.player? p = some q → ∃ q', t.player? p = some q' ∧ q'.score = q.score ∧ q'.playfieldMult = 1 ∧
      q'.bonusCount = 0 ∧ q'.bonusMult = (if s.game.params.bonusMultCarry = true then q.bonusMult else 1) ∧
      q'.flags = q.flags &&& s.game.params.flagCarry ∧
      q'.locksLit = (if s.game.params.lockLitCarry = true then q.locksLit else 0) ∧
      q'.locksMade = q.locksMade ∧ q'.tiltWarnings = 0 ∧ q'.extraBalls = q.extraBalls - extra ∧ q'.saved = []

/-- The state `x` in which ball `ball` of player `p` is about to start, by work on `s` at the time of its latest scan. -/
structure State.BallDue (s x : State) (p ball extra : Nat) : Prop where
  scanner : x.scanner = s.scanner
  modes : x.modes = s.modes
  devices : x.devices = s.devices
  params : x.game.params = s.game.params
  current : x.game.current = p
  ballNumber : x.game.ballNumber = ball
  count : x.game.players.length = s.game.players.length
  time : x.time = s.scanner.now
  logged : x.Logged s.events
  player : ∀ q, s.player? p = some q → x.player? p = some { q with extraBalls := q.extraBalls - extra }

/-- The ball start and the tests of the devices after it, in their parts. -/
theorem started_beside : s.ballStart.settleDevices.beside =
    (s.ballBegun.onGame fun g => { g with phase := if 1 ≤ s.ballBegun.shooter then .play else .serve }).beside := by
  rw [settleDevices_beside, ballStart_beside]

theorem started_phase : s.ballStart.settleDevices.game.phase = if 1 ≤ s.shooter then .play else .serve := by
  rw [phase_of_beside started_beside, ← shooter_of_tallies (ballBegun_tallies (s := s))]
  simp

theorem ballStart_ball : s.ballStart.game.phase ≠ .idle ∧ s.ballStart.game.phase ≠ .ballOver := by
  rw [phase_of_beside ballStart_beside, State.onGame_game]
  split <;> simp

/-- A restored stack is found from the modes and the saved modes alone. -/
theorem restored_congr (h : t.modes = s.modes) (l : List SavedMode) : t.restored l = s.restored l := by
  have hdef : t.modeDef = s.modeDef := by funext m; simp [State.modeDef, h]
  simp [State.restored, hdef, h]

theorem ballStarted_of_due {x : State} {p ball extra : Nat} (h : s.BallDue x p ball extra) :
    s.BallStarted x.ballStart.settleDevices p ball extra := by
  have hscanner : x.ballStart.settleDevices.scanner = x.clearPerBall.scanner := by
    rw [scanner_of_beside started_beside, State.onGame_scanner, ballBegun_scanner]
  have hmodes : x.ballStart.settleDevices.modes = x.ballBegun.modes := by
    rw [modes_of_beside started_beside, State.onGame_modes]
  have hplayers : x.ballStart.settleDevices.game.players = x.ballBegun.game.players := by
    rw [players_of_beside started_beside, State.onGame_game]
  have hevents : x.ballStart.settleDevices.events = x.ballStart.events := settleDevices_events ballStart_ball
  have hdevice : x.device 0 = s.device 0 := by rw [State.device, State.device, h.devices]
  have hshooter : x.shooter = s.shooter := shooter_of_tallies (by rw [State.tallies, State.tallies, h.devices])
  have hconf : x.configured 0 = s.configured 0 := configured_congr s 0 (congrArg Device.record hdevice)
  have hqueue : x.servedQueue = s.servedQueue := by
    rw [State.servedQueue, State.servedQueue, hshooter, hdevice, h.scanner]
  refine ⟨?inPlay, ?current, ?ball, ?validated, ?lastTilt, ?phase, ?queue, ?latch, ?events, ?stack, ?player⟩
  case inPlay =>
    rw [State.inPlay, started_phase]
    split <;> rfl
  case current => rw [current_of_beside started_beside, State.onGame_game, ballBegun_current, h.current]
  case ball => rw [ballNumber_of_beside started_beside, State.onGame_game, ballBegun_ballNumber, h.ballNumber]
  case validated => rw [census_of_beside started_beside, State.onGame_census, ballBegun_validated]
  case lastTilt => rw [lastTilt_of_beside started_beside, State.onGame_game, ballBegun_lastTilt]
  case phase => rw [started_phase, hshooter]
  case queue =>
    intro hc
    rw [settleDevices_device ballStart_ball 0 (by simp), ballStart_queue (hconf.trans hc) (h.time.trans (by rw [h.scanner])), hqueue]
  case latch =>
    intro i hi
    have hlatch := clearPerBall_latch (s := x) i hi
    simp only [State.switch, State.group, h.scanner] at hlatch ⊢
    rw [hscanner]
    exact hlatch
  case events =>
    obtain ⟨before, hb⟩ := ballReady_logged h.logged
    obtain ⟨after, ha⟩ := ballStart_logged (s := x)
    refine ⟨before, after, ?_⟩
    rw [hevents, ha, ballBegun_events, hb, hmodes, h.current, h.ballNumber, h.count, h.time]
    simp only [List.foldl_append]
  case stack =>
    intro q hq hs hn
    have hq' : x.player? x.game.current = some { q with extraBalls := q.extraBalls - extra } := by
      rw [h.current]; exact h.player q hq
    have hcur := current_of_player? (ballBegun_player hq').1
    have hm : x.ballReady.modes = s.modes := ballReady_modes.trans h.modes
    have hrest := restoredStack_perm (s := x.ballReady) (by rw [hm, hs]) (by rw [hm]; exact hn)
    have hdef : x.ballReady.modeDef = s.modeDef := by funext m; simp [State.modeDef, hm]
    rw [← ballBegun_stack, ← ballBegun_nextOrder, hcur, restored_congr hm, hdef, hm] at hrest
    obtain ⟨hperm, hsorted, horder⟩ := hrest
    rw [hmodes]
    exact ⟨horder, hperm, hsorted⟩
  case player =>
    intro q hq
    have hq' : x.player? x.game.current = some { q with extraBalls := q.extraBalls - extra } := by
      rw [h.current]; exact h.player q hq
    have hbegun := (ballBegun_player hq').2
    rw [h.current, h.params] at hbegun
    exact ⟨_, (player?_congr hplayers p).trans hbegun, rfl, rfl, rfl, rfl, rfl, rfl, rfl, rfl, rfl, rfl⟩

/-- The end of the game that no further ball follows (R155). -/
theorem gameOver_parts : s.gameOver.game.phase = .idle ∧ s.gameOver.game.current = 0 ∧
    s.gameOver.game.ballNumber = s.game.ballNumber ∧
    s.gameOver.game.players = s.game.players.map fun q => { q with saved := [] } := by
  have hover : ((s.toPhase .idle).emitFor 0 .gameOver 0 0 0).beside = (s.onGame fun g => { g with phase := .idle }).beside := by
    rw [emitFor_beside, toPhase_beside]
  unfold State.gameOver State.modesGameEnd
  generalize (s.toPhase .idle).emitFor 0 .gameOver 0 0 0 = u at hover ⊢
  dsimp only
  rw [phase_of_beside (recover_beside _), current_of_beside (recover_beside _), ballNumber_of_beside (recover_beside _),
    players_of_beside (recover_beside _)]
  simp only [State.onGame_game, State.onModes_game]
  exact ⟨phase_of_beside hover, trivial, (ballNumber_of_beside hover).trans rfl,
    congrArg _ ((players_of_beside hover).trans rfl)⟩

/-- The states from which the next ball starts (R154). -/
theorem ballDue_shootAgain (l : Link) (k : Event) (u a v : Nat) :
    s.BallDue ((({ s with link := l, time := s.scanner.now } : State).onCurrent fun p =>
      { p with extraBalls := p.extraBalls - 1 }).emit k u a v) s.game.current s.game.ballNumber 1 := by
  refine ⟨by simp, by simp, by simp, by simp, by simp, by simp, ?_, by simp, ?_, fun q hq => ?_⟩
  · rw [State.emit_game, onCurrent_players]
    split <;> simp
  · exact emit_logged _ _ _ _ ((onCurrent_logged _).2 ⟨[], rfl⟩)
  · refine (onCurrent_player? _ _).trans ?_
    rw [if_pos rfl]
    exact congrArg _ hq
theorem ballDue_turn (l : Link) (p ball : Nat) :
    s.BallDue ({ s with link := l, time := s.scanner.now }.onGame fun g => { g with current := p, ballNumber := ball }) p ball 0 :=
  ⟨rfl, rfl, rfl, rfl, rfl, rfl, rfl, rfl, ⟨[], rfl⟩, fun _ hq => hq⟩

/-- The Link Port plays no part in it. -/
theorem State.BallStarted.withLink {p ball extra : Nat} (h : s.BallStarted t p ball extra) (l : Link) :
    s.BallStarted { t with link := l } p ball extra := h

/-- An offered request whose work keeps the frame: its answer stands in its place (R175). -/
theorem request_of_framed (type tag : Byte) (p : List Byte) (f : List Byte → State → State × Answer) (g : State → State)
    (a : Answer) (h : s.Offers ⟨type, tag, p⟩) (hg : ∀ u : State, (g u).frame = u.frame)
    (hf : ∀ l, f p { s with link := l, time := s.scanner.now } = (g { s with link := l, time := s.scanner.now }, a)) :
    ∃ l, s.request type tag p f =
      { g { s with link := l, time := s.scanner.now } with link := s.answeredLink ⟨type, tag, p⟩ a.bytes } := by
  obtain ⟨l, e, hl⟩ := request_of_offers s type tag p f h
  have hframe := hg { s with link := l, time := s.scanner.now }
  have hlink : (g { s with link := l, time := s.scanner.now }).link = l := congrArg Frame.link hframe
  have hin : (g { s with link := l, time := s.scanner.now }).inHand = false :=
    (inHand_congr _ _ (paused_of_frame hframe)).trans h.2.1
  refine ⟨l, ?_⟩
  rw [e, hf l]
  dsimp only
  rw [if_neg (by rw [hin]; decide), State.reply, State.onLink, hlink, hl]

theorem nextBallRequest_of_quiet (hp : s.game.phase = .ballOver) (hq : s.quietEngine = true) (l : Link) :
    nextBallRequest [] { s with link := l, time := s.scanner.now } =
      (({ s with link := l, time := s.scanner.now } : State).nextBall.settleDevices, .ok []) := by
  have hcatch : ({ s with link := l, time := s.scanner.now } : State).catchUp = { s with link := l, time := s.scanner.now } :=
    catchUp_of_quiet _ hq
  refine (if_pos hp).trans ?_
  rw [hcatch]
  rfl

/-- The four cases of R154. -/
theorem nextBall_of_extra (h : 1 ≤ s.current.extraBalls) :
    ∃ k u a v, s.nextBall = ((s.onCurrent fun p => { p with extraBalls := p.extraBalls - 1 }).emit k u a v).ballStart := by
  rw [State.nextBall, if_pos h]
  exact ⟨_, _, _, _, rfl⟩
theorem nextBall_of_turn (h : s.current.extraBalls = 0) (hp : s.game.current < s.game.players.length) :
    s.nextBall = (s.onGame fun g => { g with current := s.game.current + 1, ballNumber := s.game.ballNumber }).ballStart := by
  rw [State.nextBall, if_neg (by omega), if_pos hp]
  rfl
theorem nextBall_of_ball (h : s.current.extraBalls = 0) (hp : s.game.players.length ≤ s.game.current)
    (hb : s.game.ballNumber + 1 ≤ s.game.params.ballsPerGame) :
    s.nextBall = (s.onGame fun g => { g with current := 1, ballNumber := s.game.ballNumber + 1 }).ballStart := by
  rw [State.nextBall, if_neg (by omega), if_neg (by omega), if_pos hb]
  rfl
theorem nextBall_of_end (h : s.current.extraBalls = 0) (hp : s.game.players.length ≤ s.game.current)
    (hb : s.game.params.ballsPerGame < s.game.ballNumber + 1) : s.nextBall = s.gameOver := by
  rw [State.nextBall, if_neg (by omega), if_neg (by omega), if_neg (by omega)]

theorem flipen_of_idle (h : s.game.phase = .idle) : s.flipen = false := by simp [State.flipen, State.inPlay, h]

/-- Settles O40: the four cases of R154, each by its ball start or by the end of the game. -/
theorem nextBallMovesOn : Obligations.NextBallMovesOn := by
  intro tag s ho
  refine ⟨fun hp => ?_, fun q hp hquiet hq => ?_⟩
  · refine congrArg Host.Outcome.next (request_only_answered s 11 tag [] nextBallRequest .phase ho fun l => ?_)
    exact if_neg hp
  · obtain ⟨l, e⟩ := request_of_framed 11 tag [] nextBallRequest (fun u => u.nextBall.settleDevices) (.ok []) ho
      (fun u => by simp) (nextBallRequest_of_quiet hp hquiet)
    dsimp only at e
    generalize hx : ({ s with link := l, time := s.scanner.now } : State) = x at e
    have hgame : x.game = s.game := by rw [← hx]
    have hcur : x.current = q := current_of_player? (by rw [← hx]; exact hq)
    refine ⟨_, congrArg Host.Outcome.next e, rfl, fun hextra => ?_, fun hextra hturn => ?_, fun hextra hturn hball => ?_,
      fun hextra hturn hball => ?_⟩
    · have hstart : s.BallStarted x.nextBall.settleDevices s.game.current s.game.ballNumber 1 := by
        obtain ⟨k, u, a, v, hnext⟩ := nextBall_of_extra (s := x) (by rw [hcur]; exact hextra)
        rw [hnext, ← hx]
        exact ballStarted_of_due (ballDue_shootAgain l k u a v)
      exact hstart.withLink _
    · have hstart : s.BallStarted x.nextBall.settleDevices (s.game.current + 1) s.game.ballNumber 0 := by
        rw [nextBall_of_turn (s := x) (by rw [hcur, hextra]) (by rw [hgame]; exact hturn), hgame, ← hx]
        exact ballStarted_of_due (ballDue_turn l _ _)
      exact hstart.withLink _
    · have hstart : s.BallStarted x.nextBall.settleDevices 1 (s.game.ballNumber + 1) 0 := by
        rw [nextBall_of_ball (s := x) (by rw [hcur, hextra]) (by rw [hgame]; exact hturn) (by rw [hgame]; exact hball), hgame,
          ← hx]
        exact ballStarted_of_due (ballDue_turn l _ _)
      exact hstart.withLink _
    · have hover := gameOver_parts (s := x)
      have hbeside := settleDevices_beside x.gameOver
      rw [← nextBall_of_end (s := x) (by rw [hcur, hextra]) (by rw [hgame]; exact hturn) (by rw [hgame]; exact hball)]
        at hover hbeside
      obtain ⟨hphase, hcurrent, hnumber, hplayers⟩ := hover
      have hidle := (phase_of_beside hbeside).trans hphase
      have hflip := flipen_of_idle hidle
      have hnone := (current_of_beside hbeside).trans hcurrent
      have hball := (ballNumber_of_beside hbeside).trans hnumber
      have hlist := (players_of_beside hbeside).trans hplayers
      rw [hgame] at hball hlist
      generalize x.nextBall.settleDevices = u at hidle hflip hnone hball hlist
      exact ⟨hidle, hflip, hnone, hball, hlist⟩

end Sys2Proof.Machine
end

