-- ==== Sys2Proof/Proofs/Points.lean ====
section
/-! Points: what an addition to the score makes of the current player's record and of the Event Queue (R54, R55). -/

namespace Sys2Proof.Machine

open Sys2Proof

variable {s t : State}

/-! ### Records and the current player's record -/

/-- The state with the records `l` queued in turn. -/
def State.queued (s : State) (l : List EventRecord) : State := { s with events := List.foldl appendEvent s.events l }

theorem queued_nil : s.queued [] = s := rfl
theorem queued_queued (l m : List EventRecord) : (s.queued l).queued m = s.queued (l ++ m) := by
  simp [State.queued]
theorem emit_eq_queued (e : Event) (u a v : Nat) : s.emit e u a v = s.queued [⟨e, s.game.current, u, s.time, a, v⟩] := rfl
theorem queued_onCurrent (l : List EventRecord) (f : Player → Player) :
    (s.queued l).onCurrent f = (s.onCurrent f).queued l := by
  unfold State.onCurrent State.onPlayer
  split <;> split <;> simp_all [State.queued, State.onGame]

theorem onCurrent_onCurrent (f g : Player → Player) : (s.onCurrent f).onCurrent g = s.onCurrent fun p => g (f p) := by
  by_cases h : s.game.current = 0
  · simp [State.onCurrent, State.onPlayer, h]
  · simp [State.onCurrent, State.onPlayer, h, State.onGame, List.modify_modify_eq, Function.comp_def]

/-- A write to the current player's record takes effect on that record alone. -/
theorem onCurrent_of_player {q : Player} (hq : s.player? s.game.current = some q) (f g : Player → Player) (h : f q = g q) :
    s.onCurrent f = s.onCurrent g := by
  have hlist : s.game.players.modify (s.game.current - 1) f = s.game.players.modify (s.game.current - 1) g := by
    refine List.ext_getElem? fun j => ?_
    rw [List.getElem?_modify, List.getElem?_modify]
    split
    · rename_i hj
      subst hj
      unfold State.player? at hq
      split at hq
      · cases hq
      · simp [hq, h]
    · rfl
  unfold State.onCurrent State.onPlayer State.onGame
  dsimp only
  rw [hlist]

/-! ### The threshold check and the score limit (R54, R55) -/

/-- The REPLAY records for the thresholds `l` reached, the first of them having index `n` plus `j`. -/
def State.replayRecords (s : State) (n j before : Nat) (l : List Nat) : List EventRecord :=
  ((l.zipIdx j).filter fun x => decide (before < x.1)).map fun x => ⟨.scoreReplay, s.game.current, n + x.2 + 1, s.time, 0, x.1⟩

theorem replays_eq (b a n j : Nat) (l : List Nat) : s.replays b a l (n + j) =
    (s.onCurrent fun p => { p with nextReplay := n + j + (l.takeWhile fun x => decide (x ≤ a)).length }).queued
      (s.replayRecords n j b (l.takeWhile fun x => decide (x ≤ a))) := by
  induction l generalizing s j with
  | nil => rfl
  | cons x l ih =>
    rw [State.replays]
    split
    · rename_i hx
      rw [Nat.add_assoc, ih, List.takeWhile_cons_of_pos (by simpa using hx)]
      split
      · rename_i hb
        rw [emit_eq_queued, queued_onCurrent, queued_queued]
        simp [State.replayRecords, State.queued, List.zipIdx_cons, hb, Nat.add_assoc, Nat.add_comm 1]
      · rename_i hb
        simp [State.replayRecords, List.zipIdx_cons, hb, Nat.add_assoc, Nat.add_comm 1]
    · rename_i hx
      rw [List.takeWhile_cons_of_neg (by simpa using hx)]
      rfl

/-- The record of player `q` once `n` points have been added to its score, before the limit is marked. -/
def Player.scored (q : Player) (g : Params) (n : Nat) : Player :=
  { q with
    score := min (q.score + n) 99999999990
    nextReplay := q.nextReplay + (g.reached q (min (q.score + n) 99999999990)).length }

theorem queued_current {q : Player} (hq : s.player? s.game.current = some q) (f : Player → Player) (l : List EventRecord) :
    ((s.onCurrent f).queued l).current = f q := by
  have hread : (s.onCurrent f).player? (s.onCurrent f).game.current = some (f q) := by
    rw [State.onCurrent_current, onCurrent_player?, if_pos rfl, hq]
    rfl
  exact current_of_player? hread

/-- The score and the thresholds of an addition. -/
theorem replays_scored {q : Player} (hq : s.player? s.game.current = some q) (n : Nat) :
    (s.onCurrent fun p => { p with score := min (q.score + n) Config.scoreLimit }).replays q.score
      (min (q.score + n) Config.scoreLimit) (s.game.params.thresholds.drop q.nextReplay) q.nextReplay =
    (s.onCurrent fun p => p.scored s.game.params n).queued
      (s.replayRecords q.nextReplay 0 q.score (s.game.params.reached q (min (q.score + n) 99999999990))) := by
  have h := replays_eq (s := s.onCurrent fun p => { p with score := min (q.score + n) Config.scoreLimit }) q.score
    (min (q.score + n) Config.scoreLimit) q.nextReplay 0 (s.game.params.thresholds.drop q.nextReplay)
  rw [Nat.add_zero, onCurrent_onCurrent] at h
  have hscored := onCurrent_of_player hq (fun p => { p with
    score := min (q.score + n) Config.scoreLimit
    nextReplay := q.nextReplay + 0 + (s.game.params.reached q (min (q.score + n) 99999999990)).length })
    (fun p => p.scored s.game.params n) rfl
  rw [← hscored]
  refine h.trans ?_
  rw [State.replayRecords, State.onCurrent_current, State.onCurrent_time]
  rfl

/-- An addition to the score changes the current player's record, and queues its SCORE records. -/
theorem addPoints_eq {q : Player} (hq : s.player? s.game.current = some q) (n : Nat) :
    s.addPoints n = (s.onCurrent fun p => p.plus s.game.params n).queued (s.scoreRecords q s.time n) := by
  have hcur := current_of_player? hq
  unfold State.addPoints
  dsimp only
  rw [hcur, State.onCurrent_params, replays_scored hq, queued_current hq]
  have hmarked : (q.scored s.game.params n).limitReported = q.limitReported := rfl
  rw [hmarked, State.scoreRecords]
  split
  · rename_i h
    obtain ⟨hn, hl⟩ := h
    have hplus : (s.onCurrent fun p => { p.scored s.game.params n with limitReported := true }) =
        s.onCurrent fun p => p.plus s.game.params n := onCurrent_of_player hq _ _ (by simp [Player.scored, Player.plus, hn])
    rw [queued_onCurrent, onCurrent_onCurrent, hplus, emit_eq_queued, queued_queued]
    simp [State.queued, State.replayRecords]
  · rename_i h
    have hplus : (s.onCurrent fun p => p.scored s.game.params n) = s.onCurrent fun p => p.plus s.game.params n :=
      onCurrent_of_player hq _ _ (by
        have : (q.limitReported || decide (99999999990 < q.score + n)) = q.limitReported := by
          cases hl : q.limitReported <;> simp_all
        simp [Player.scored, Player.plus, this])
    rw [hplus, List.append_nil]
    rfl

end Sys2Proof.Machine
end

