-- ==== Sys2Proof/Proofs/Walks.lean ====
section
/-! A direct walk that leaves no trigger: of an empty chain, of one entry that is passed over, and of one plain entry (R33, R34). -/

namespace Sys2Proof.Machine

open Sys2Proof

variable {s t : State}

/-- The state after a walk that has ended with its root. -/
def State.walked (s : State) : State := s.onEngine fun c => { c with root := none, walking := none }

/-- The state in which a direct walk of trigger `x` visits its chain. -/
def State.visiting (s : State) (x : Nat) : State := s.onEngine fun c => { c with root := some ⟨x, 1, s.time⟩, walking := some x }

theorem finishRoot_of_none (h : s.engine.root = none) : s.finishRoot = s := by
  have hpending : s.pendingWalk = s := by simp [State.pendingWalk, h]
  have hrepeated : ∀ n, repeated State.pendingWalk n s = s := fun n => by
    induction n with
    | zero => rfl
    | succ n ih => rw [repeated, hpending, ih]
  exact hrepeated _

/-- A direct walk whose visits leave no trigger ends its root at once (R42). -/
theorem directWalk_of_done (x : Nat) (e : Edge) (b : Bool) (hp : s.inPlay = true)
    (ht : ((s.visiting x).walkChain e (s.chain x)).engine.triggers = [])
    (hr : ((s.visiting x).walkChain e (s.chain x)).engine.root = some ⟨x, 1, s.time⟩) :
    s.directWalk x e b = ((s.visiting x).walkChain e (s.chain x)).walked := by
  have hwalk : (s.onEngine fun c => { c with root := some ⟨x, 1, s.time⟩ }).walk x e =
      ((s.visiting x).walkChain e (s.chain x)).onEngine fun c => { c with walking := none } := rfl
  rw [State.directWalk, if_pos hp, hwalk]
  generalize (s.visiting x).walkChain e (s.chain x) = u at ht hr
  have hafter : (u.onEngine fun c => { c with walking := none }).afterWalk = u.walked := by
    simp [State.afterWalk, hr, ht, State.walked, State.onEngine]
  dsimp only
  rw [hafter, finishRoot_of_none (s := u.walked) rfl, ite_self]

/-- An empty chain is walked with no effect. -/
theorem directWalk_of_nil (x : Nat) (e : Edge) (b : Bool) (hp : s.inPlay = true) (ht : s.engine.triggers = [])
    (hc : s.chain x = []) : s.directWalk x e b = s.walked := by
  rw [directWalk_of_done x e b hp (by rw [hc]; exact ht) (by rw [hc]; rfl), hc]
  rfl

/-- A chain of one entry of the other edge is walked with no effect. -/
theorem directWalk_of_otherEdge (x k : Nat) (e : Edge) (b : Bool) (hp : s.inPlay = true) (ht : s.engine.triggers = [])
    (hc : s.chain x = [k]) (he : (s.award k).edge ≠ e) : s.directWalk x e b = s.walked := by
  have hmatch : (s.visiting x).entryMatches e ((s.visiting x).award k) = false := by
    have haward : (s.visiting x).award k = s.award k := rfl
    simp [State.entryMatches, haward, he]
  have hwalk : (s.visiting x).walkChain e (s.chain x) = s.visiting x := by
    simp [hc, State.walkChain, hmatch]
  rw [directWalk_of_done x e b hp (by rw [hwalk]; exact ht) (by rw [hwalk]; rfl), hwalk]
  rfl

/-- The records of the award of plain entry `k` to the record `q` (R34, R54, R55). -/
def State.entryRecords (s : State) (k : Nat) (q : Player) : List EventRecord :=
  let e := s.award k
  let points := e.base * s.multiplier e.classes
  s.scoreRecords q s.time points ++
    if e.report = true then [⟨.awardEntry, s.game.current, k, s.time, s.multiplier e.classes, points⟩] else []

/-- The award of plain entry `k`. -/
theorem matchPoints_eq {q : Player} (hq : s.player? s.game.current = some q) (k : Nat) (h : (s.award k).source = .fixed) :
    s.matchPoints k (s.award k) = (s.onCurrent fun p =>
      p.plus s.game.params ((s.award k).base * s.multiplier (s.award k).classes)).queued (s.entryRecords k q) := by
  unfold State.matchPoints State.entryBase State.entryRecords
  rw [h]
  dsimp only
  split
  · rw [State.awardReported, State.award1, addPoints_eq hq, emit_eq_queued, queued_queued]
    simp [State.queued]
  · rw [State.award1, addPoints_eq hq, List.append_nil]

/-- Of the root of a walk that awards, nothing is left either. -/
theorem visiting_walked (x : Nat) (f : Player → Player) (l : List EventRecord) :
    (((s.visiting x).onCurrent f).queued l).walked = ((s.onCurrent f).queued l).walked := by
  have hcurrent : (s.visiting x).onCurrent f = (s.onCurrent f).onEngine fun c =>
      { c with root := some ⟨x, 1, s.time⟩, walking := some x } := by
    have hgame : (s.visiting x).game = s.game := rfl
    unfold State.onCurrent State.onPlayer
    rw [hgame]
    split <;> rfl
  rw [hcurrent]
  rfl

/-- A chain of one plain entry of the walk's edge, whose condition passes, awards its base. -/
theorem directWalk_of_plain {q : Player} (x k : Nat) (e : Edge) (b : Bool) (hp : s.inPlay = true) (ht : s.engine.triggers = [])
    (hc : s.chain x = [k]) (hk : (s.award k).Plain e) (hcond : s.conditionPasses (s.award k).condition = true)
    (hq : s.player? s.game.current = some q) : s.directWalk x e b =
      ((s.onCurrent fun p => p.plus s.game.params ((s.award k).base * s.multiplier (s.award k).classes)).queued
        (s.entryRecords k q)).walked := by
  obtain ⟨hstate, hedge, hgate, hball, hsource, hactions⟩ := hk
  have haward : (s.visiting x).award k = s.award k := rfl
  have hmatch : (s.visiting x).entryMatches e (s.award k) = true := by
    have hcond' : (s.visiting x).conditionPasses (s.award k).condition = true := hcond
    simp [State.entryMatches, State.modeGate, State.ballGate, hstate, hedge, hgate, hball, hcond']
  have hcarry : (s.visiting x).carryOut k (s.award k) = ((s.visiting x).onCurrent fun p =>
      p.plus s.game.params ((s.award k).base * s.multiplier (s.award k).classes)).queued (s.entryRecords k q) := by
    rw [State.carryOut, hactions]
    exact matchPoints_eq (s := s.visiting x) hq k hsource
  have hwalk : (s.visiting x).walkChain e (s.chain x) = ((s.visiting x).onCurrent fun p =>
      p.plus s.game.params ((s.award k).base * s.multiplier (s.award k).classes)).queued (s.entryRecords k q) := by
    rw [hc, State.walkChain, haward]
    rw [if_pos hmatch]
    split
    · exact hcarry
    · exact hcarry
  have hengine : ((s.visiting x).walkChain e (s.chain x)).engine = (s.visiting x).engine := by
    rw [hwalk]
    exact State.onCurrent_engine ..
  rw [directWalk_of_done x e b hp (by rw [hengine]; exact ht) (by rw [hengine]; rfl), hwalk]
  exact visiting_walked ..

end Sys2Proof.Machine
end

