-- ==== Sys2Proof/Proofs/Evidence.lean ====
section
/-! Device evidence (R93, R101, R104, R106): what a closure makes of the device that names its switch, and what it leaves alone. -/

namespace Sys2Proof.Machine

open Sys2Proof

variable {q s t : State} {d : Nat}

/-! ### What the evidence of device `d` leaves alone -/

/-- State `s` is `q` but for the evidence of device `d` and what follows from it: the walks, the time, the phase out of play, the
arrivals of the other devices and, but for the trough, the launches owed are as they were. -/
structure State.Evident (d : Nat) (q s : State) : Prop where
  engine : s.engine = q.engine
  time : s.time = q.time
  inPlay : q.inPlay = true → s.inPlay = true
  arrivals : ∀ e, e ≠ d → (s.device e).arrivals = (q.device e).arrivals
  owed : d ≠ 0 → s.devices.launchOwed = q.devices.launchOwed

theorem State.Evident.refl (d : Nat) (s : State) : s.Evident d s := ⟨rfl, rfl, id, fun _ _ => rfl, fun _ => rfl⟩

theorem evident_of_parts (he : t.engine = s.engine) (ht : t.time = s.time) (hp : t.game.phase = s.game.phase)
    (hd : t.devices = s.devices) (h : q.Evident d s) : q.Evident d t := by
  obtain ⟨engine, time, inPlay, arrivals, owed⟩ := h
  refine ⟨he.trans engine, ht.trans time, fun hq => ?_, fun e hne => ?_, fun hd0 => ?_⟩
  · rw [← inPlay hq, State.inPlay, State.inPlay, hp]
  · rw [← arrivals e hne, State.device, State.device, hd]
  · rw [hd, owed hd0]

/-- What changes orders and search alone, and no launch owed. -/
theorem evident_of_beside (hb : t.beside = s.beside) (ht : t.tallies = s.tallies)
    (ho : t.devices.launchOwed = s.devices.launchOwed) (h : q.Evident d s) : q.Evident d t := by
  obtain ⟨engine, time, inPlay, arrivals, owed⟩ := h
  refine ⟨(engine_of_beside hb).trans engine, (time_of_beside hb).trans time, fun hq => ?_, fun e hne => ?_, fun hd0 => ?_⟩
  · rw [← inPlay hq, State.inPlay, State.inPlay, phase_of_beside hb]
  · exact (congrArg Device.arrivals (tally_of_tallies ht e) :).trans (arrivals e hne)
  · rw [ho, owed hd0]

@[simp] theorem onCensus_evident (f : Census → Census) (h : q.Evident d s) : q.Evident d (s.onCensus f) :=
  evident_of_parts (s := s) rfl rfl rfl rfl h
@[simp] theorem emit_evident (k : Event) (u a v : Nat) (h : q.Evident d s) : q.Evident d (s.emit k u a v) :=
  evident_of_parts (s := s) rfl rfl rfl rfl h
@[simp] theorem setLocked_evident (e n : Nat) (h : q.Evident d s) : q.Evident d (s.setLocked e n) :=
  evident_of_parts (s := s) rfl rfl rfl rfl h
@[simp] theorem onDevice_evident (f : Device → Device) (h : q.Evident d s) : q.Evident d (s.onDevice d f) := by
  obtain ⟨engine, time, inPlay, arrivals, owed⟩ := h
  refine ⟨engine, time, inPlay, fun e hne => ?_, owed⟩
  rw [State.onDevice_other s d e f (Ne.symm hne)]
  exact arrivals e hne
theorem onDevices_evident (f : Devices → Devices) (hu : ∀ c, (f c).units = c.units)
    (ho : ∀ c, (f c).launchOwed = c.launchOwed) (h : q.Evident d s) : q.Evident d (s.onDevices f) := by
  obtain ⟨engine, time, inPlay, arrivals, owed⟩ := h
  refine ⟨engine, time, inPlay, fun e hne => ?_, fun hd => (ho _).trans (owed hd)⟩
  rw [onDevices_device s f hu]
  exact arrivals e hne
theorem ite_evident {c : Prop} [Decidable c] (hs : q.Evident d s) (ht : q.Evident d t) : q.Evident d (if c then s else t) := by
  split
  · exact hs
  · exact ht

@[simp] theorem dropSearch_owed (e : Nat) : (s.dropSearch e).devices.launchOwed = s.devices.launchOwed := by
  unfold State.dropSearch; split <;> rfl
@[simp] theorem searchEnd_owed (c : Nat) : (s.searchEnd c).devices.launchOwed = s.devices.launchOwed := by
  have hfold : ∀ (l : List Nat) (x : State), (l.foldl State.dropSearch x).devices.launchOwed = x.devices.launchOwed := by
    intro l
    induction l with
    | nil => exact fun _ => rfl
    | cons e l ih => exact fun x => (ih _).trans (dropSearch_owed e)
  unfold State.searchEnd State.dropSearches State.searchWait
  simp only [State.onSearch_devices]
  rw [hfold, State.emit_devices]

theorem countActivity_evident (h : q.Evident d s) : q.Evident d s.countActivity := by
  unfold State.countActivity
  exact ite_evident (ite_evident
    (evident_of_beside (searchEnd_beside s 1) (searchEnd_tallies s 1) (searchEnd_owed 1) h)
    (evident_of_beside (s := s) (onSearch_beside s _) rfl rfl h)) h
theorem findByCount_evident (u : Option Nat) (k : Nat) (h : q.Evident d s) : q.Evident d (s.findByCount u k) := by
  induction k generalizing s with
  | zero => exact h
  | succ k ih => exact ih (emit_evident _ _ _ _ (onCensus_evident _ h))
theorem recompute_evident (u : Option Nat) (h : q.Evident d s) : q.Evident d (s.recompute u) := by
  unfold State.recompute
  dsimp only
  exact ite_evident (ite_evident h (emit_evident _ _ _ _ (onCensus_evident _ h)))
    (ite_evident (onCensus_evident _ (findByCount_evident _ _ h))
      (emit_evident _ _ _ _ (onCensus_evident _ (findByCount_evident _ _ h))))
theorem settleAt_evident (n : Nat) (h : q.Evident d s) : q.Evident d (s.settleAt d n) := by
  have hset : q.Evident d (s.onDevice d fun v => { v with settled := n }).countActivity :=
    countActivity_evident (onDevice_evident _ h)
  have hlost : q.Evident d (if n < (s.device d).settled then
      (s.onDevice d fun v => { v with settled := n }).countActivity.lockedLost d
      else (s.onDevice d fun v => { v with settled := n }).countActivity) := by
    unfold State.lockedLost
    exact ite_evident (ite_evident (emit_evident _ _ _ _ (setLocked_evident _ _ hset)) hset) hset
  unfold State.settleAt
  exact ite_evident h (recompute_evident _ (ite_evident (onCensus_evident _ hlost) hlost))

/-- No launch is owed for an order that leaves another device's queue than the trough's. -/
theorem complete_owed (p : Bool) (k : Nat) (hd : d ≠ 0) :
    (s.complete d p k).devices.launchOwed = s.devices.launchOwed := by
  have hcycle : (s.cycleOver d p).devices.launchOwed = s.devices.launchOwed := by
    unfold State.cycleOver State.enterEjectWait State.joinLine
    dsimp only
    (repeat' split) <;> rfl
  have hleft : ∀ o, (s.cycleOver d p).orderLeft d o = s.cycleOver d p := fun o => by
    cases o <;> simp [State.orderLeft, hd]
  rw [complete_eq, hleft, ite_self]
  exact hcycle
theorem complete_evident (p : Bool) (k : Nat) (h : q.Evident d s) : q.Evident d (s.complete d p k) := by
  obtain ⟨engine, time, inPlay, arrivals, owed⟩ := h
  have hserved := complete_served (s := s) d p k
  refine ⟨hserved.engine.trans engine, hserved.time.trans time, fun hq => hserved.inPlay (inPlay hq), fun e hne => ?_,
    fun hd => (complete_owed p k hd).trans (owed hd)⟩
  rw [complete_device_other d e p k (Ne.symm hne)]
  exact arrivals e hne
theorem faultSelf_evident (h : q.Evident d s) : q.Evident d (s.faultSelf d) := complete_evident true _ (emit_evident _ _ _ _ h)
theorem success_evident (h : q.Evident d s) : q.Evident d (s.success d) := by
  unfold State.success State.confirm
  dsimp only
  split
  case h_1 => exact ite_evident h (onDevice_evident _ h)
  case h_2 => exact ite_evident h (complete_evident true _ h)
  case h_3 => exact complete_evident true _ h
  all_goals exact h
theorem dueArrivals_evident (k : Nat) (h : q.Evident d s) : q.Evident d (s.dueArrivals d k) := onDevice_evident _ h
theorem reactCount_evident (h : q.Evident d s) : q.Evident d (s.reactCount d) := by
  unfold State.reactCount
  dsimp only
  split
  case h_1 => exact ite_evident (dueArrivals_evident _ h) (dueArrivals_evident _ h)
  case h_2 => exact ite_evident (ite_evident (dueArrivals_evident _ h) (complete_evident true _ h)) (dueArrivals_evident _ h)
  case h_3 => exact ite_evident (faultSelf_evident h) h
  case h_7 => exact h
  all_goals exact ite_evident (success_evident h) h
theorem countEntry_evident (h : q.Evident d s) : q.Evident d (s.countEntry d) := by
  unfold State.countEntry State.restartSettle
  exact onDevice_evident _ (onDevice_evident _ h)
theorem attemptFailed_evident (h : q.Evident d s) : q.Evident d (s.attemptFailed d) := by
  have hgranted := onDevices_evident (fun c => { c with granted := c.granted.filter (· != d) }) (fun _ => rfl) (fun _ => rfl) h
  unfold State.attemptFailed
  exact ite_evident (emit_evident _ _ _ _ (onDevice_evident _ hgranted))
    (dueArrivals_evident _ (emit_evident _ _ _ _ (onDevice_evident _ hgranted)))
theorem entryClosure_evident (h : q.Evident d s) : q.Evident d (s.entryClosure d) := by
  unfold State.entryClosure
  dsimp only
  split
  · exact onDevice_evident _ h
  · exact countEntry_evident h
  · refine ite_evident (countEntry_evident h) ?_
    split
    · exact onDevice_evident _ h
    · exact attemptFailed_evident h
    all_goals exact countEntry_evident h
theorem exitClosure_evident (h : q.Evident d s) : q.Evident d (s.exitClosure d) := by
  have hcount := settleAt_evident ((s.device d).settled - 1) h
  unfold State.exitClosure
  dsimp only
  split
  · exact success_evident h
  · exact h
  · split
    case h_1 => exact h
    case h_4 => exact faultSelf_evident hcount
    case h_2 => exact reactCount_evident hcount
    case h_3 => exact reactCount_evident hcount
    all_goals exact ite_evident h (success_evident hcount)
theorem deviceEvidence_evident (i : Nat) : s.Evident d (State.deviceEvidence i s d) := by
  have hentry := ite_evident (c := s.configured d = true ∧ (s.device d).record.entrySwitch = some i)
    (entryClosure_evident (.refl d s)) (.refl d s)
  unfold State.deviceEvidence
  exact ite_evident (exitClosure_evident hentry) hentry

/-! ### A device without a SEARCH order, through a new settled count (R92, R167) -/

theorem dropSearch_device (e : Nat) (hs : (s.device d).searchWaits = false) : (s.dropSearch e).device d = s.device d := by
  unfold State.dropSearch
  split
  · rename_i he
    have hne : e ≠ d := fun h => by subst h; rw [hs] at he; cases he
    rw [leaveLine_device, State.onDevice_other s e d _ hne]
  · rfl
theorem foldl_dropSearch_device (l : List Nat) (hs : (s.device d).searchWaits = false) :
    (l.foldl State.dropSearch s).device d = s.device d := by
  induction l generalizing s with
  | nil => rfl
  | cons e l ih =>
    have hstep := dropSearch_device e hs
    rw [List.foldl_cons, ih (by rw [hstep]; exact hs), hstep]
theorem searchEnd_device (c : Nat) (hs : (s.device d).searchWaits = false) : (s.searchEnd c).device d = s.device d := by
  unfold State.searchEnd State.dropSearches State.searchWait
  simp only [onSearch_device]
  exact foldl_dropSearch_device (s := s.emit .searchEnded s.game.search.round c 0) _ hs
theorem countActivity_device (hs : (s.device d).searchWaits = false) : s.countActivity.device d = s.device d := by
  unfold State.countActivity
  split
  · split
    · exact searchEnd_device 1 hs
    · rfl
  · rfl
@[simp] theorem findByCount_device (u : Option Nat) (k e : Nat) : (s.findByCount u k).device e = s.device e := by
  induction k generalizing s with
  | zero => rfl
  | succ k ih => exact ih.trans rfl
@[simp] theorem recompute_device (u : Option Nat) (e : Nat) : (s.recompute u).device e = s.device e := by
  unfold State.recompute
  dsimp only
  split <;> split <;> simp
@[simp] theorem lockedLost_device (c e : Nat) : (s.lockedLost c).device e = s.device e := by
  unfold State.lockedLost
  dsimp only
  split <;> rfl
theorem settleAt_device (n : Nat) (hd : d < 8) (hs : (s.device d).searchWaits = false) :
    (s.settleAt d n).device d = { s.device d with settled := n } := by
  have hself : (s.onDevice d fun v => { v with settled := n }).device d = { s.device d with settled := n } :=
    State.onDevice_self s d _ hd
  have hset : (s.onDevice d fun v => { v with settled := n }).countActivity.device d = { s.device d with settled := n } := by
    rw [countActivity_device (by rw [hself]; exact hs), hself]
  unfold State.settleAt
  dsimp only
  split
  · rename_i h
    rw [h]
  · rw [recompute_device]
    split <;> split <;> simp [hset]

/-! ### The device that the switch is an entry switch of (R93) -/

/-- What an entry closure at `stamp` makes of device `v` is `w`: an entry counted, evidence kept or an attempt failed. -/
def Device.EntryMade (stamp : Stamp) (v w : Device) : Prop :=
  let f := v.record.figures
  let settle := some ⟨stamp, f.settle⟩
  (f.counting = .positions → w = { v with settle := settle }) ∧
  (f.counting = .entryExit → w = { v with entries := v.entries + 1, settle := settle }) ∧
  (f.counting = .entryBlind → v.searching = true ∨ v.state ≠ .pulsing ∧ v.state ≠ .confirming →
    w = { v with entries := v.entries + 1, settle := settle }) ∧
  (f.counting = .entryBlind → v.searching = false → v.state = .pulsing → w = { v with evidence := some .fallback }) ∧
  (f.counting = .entryBlind → v.searching = false → v.state = .confirming → v.settled ≤ v.base →
    w.entries = v.entries ∧ w.settle = v.settle ∧ w.settled = v.settled ∧ w.queue = v.queue ∧
    if v.record.autoRetry = true ∧ v.retries < f.retryLimit then
      w.state = .retryWait ∧ w.retries = v.retries + 1 ∧ w.timer = some ⟨stamp, f.retryInterval⟩
    else w.state = .fault ∧ w.retries = v.retries)

theorem restartSettle_device (hd : d < 8) : (s.restartSettle d).device d =
    { s.device d with settle := some ⟨s.time, (s.device d).record.figures.settle⟩ } := by
  rw [State.restartSettle, State.onDevice_self s d _ hd]
  rfl
theorem countEntry_device (hd : d < 8) : (s.countEntry d).device d =
    { s.device d with entries := (s.device d).entries + 1,
                      settle := some ⟨s.time, (s.device d).record.figures.settle⟩ } := by
  have hself : (s.onDevice d fun v => { v with entries := v.entries + 1 }).device d =
      { s.device d with entries := (s.device d).entries + 1 } := State.onDevice_self s d _ hd
  rw [State.countEntry, restartSettle_device hd, hself]
  rfl

/-- A failed attempt waits for its retry (R103). -/
theorem attemptFailed_device_retry (hd : d < 8)
    (h : (s.device d).record.autoRetry = true ∧ (s.device d).retries < (s.device d).record.figures.retryLimit) :
    (s.attemptFailed d).device d =
      { s.device d with retries := (s.device d).retries + 1, state := .retryWait, evidence := none
                        timer := some ⟨s.time, (s.device d).record.figures.retryInterval⟩ } := by
  unfold State.attemptFailed
  dsimp only
  rw [if_pos h, emit_device, State.onDevice_self _ d _ hd]
  rfl

/-- A failed attempt beyond the retries is a fault (R103). -/
theorem attemptFailed_device_fault (hd : d < 8)
    (h : ¬((s.device d).record.autoRetry = true ∧ (s.device d).retries < (s.device d).record.figures.retryLimit)) :
    (s.attemptFailed d).device d =
      { s.device d with state := .fault, evidence := none, timer := none, base := 0
                        accounted := (s.device d).settled - ((s.device d).settled - (s.device d).base)
                        arrivals := List.replicate ((s.device d).settled - (s.device d).base) s.time } := by
  unfold State.attemptFailed State.dueArrivals
  dsimp only
  rw [if_neg h, State.onDevice_self _ d _ hd, emit_device, State.onDevice_self _ d _ hd]
  rfl

variable {w : Device}

/-- Where no arrival follows, the entry closure is what the counting method and the state make of it. -/
theorem entryClosure_made (hd : d < 8) (ha : (s.device d).arrivals = [])
    (hw : ((s.entryClosure d).device d).arrivals = [] → w = (s.entryClosure d).device d) :
    Device.EntryMade s.time (s.device d) w := by
  have hset : ∀ y, (s.entryClosure d).device d = y → y.arrivals = [] → w = y := fun y e h => by rw [hw (by rw [e, h]), e]
  refine ⟨fun hc => ?_, fun hc => ?_, fun hc hs => ?_, fun hc hs hp => ?_, fun hc hs hp hn => ?_⟩
  · refine hset _ ?_ ha
    simp only [State.entryClosure, hc]
    exact restartSettle_device hd
  · refine hset _ ?_ ha
    simp only [State.entryClosure, hc]
    exact countEntry_device hd
  · refine hset _ ?_ ha
    have hcount : s.entryClosure d = s.countEntry d := by
      simp only [State.entryClosure, hc]
      rcases hs with hs | ⟨hp, hp'⟩
      · rw [if_pos hs]
      · rw [ite_eq_left_iff]
        intro _
        split <;> simp_all
    rw [hcount]
    exact countEntry_device hd
  · refine hset _ ?_ ha
    have hkept : s.entryClosure d = s.onDevice d fun v => { v with evidence := some .fallback } := by
      simp [State.entryClosure, hc, hs, hp]
    rw [hkept]
    exact State.onDevice_self s d _ hd
  · have hfail : s.entryClosure d = s.attemptFailed d := by simp [State.entryClosure, hc, hs, hp]
    rw [hfail] at hset
    split
    · rename_i h
      rw [hset _ (attemptFailed_device_retry hd h) ha]
      exact ⟨rfl, rfl, rfl, rfl, rfl, rfl, rfl⟩
    · rename_i h
      rw [hset _ (attemptFailed_device_fault hd h) (by simp [Nat.sub_eq_zero_of_le hn])]
      exact ⟨rfl, rfl, rfl, rfl, rfl, rfl⟩

/-! ### The device that the switch is an exit switch of (R101, R104, R106) -/

/-- Device `w` has completed the head order of `v` with every ball accounted for (R102). -/
def Device.Completed (v w : Device) : Prop :=
  w.queue = v.queue.tail ∧ w.retries = 0 ∧ w.base = 0 ∧ w.timer = none ∧ w.evidence = none ∧
    w.accounted = w.settled ∧ (w.state = if v.queue.tail = [] then .idle else .ejectWait)

/-- What an exit closure makes of device `v` is `w`: a ball that left by itself, evidence kept or an order completed. -/
def Device.ExitMade (v w : Device) : Prop :=
  let f := v.record.figures
  let cycling := v.state = .pulsing ∨ v.state = .confirming ∨ v.state = .retryWait
  (f.counting = .entryBlind → w = v) ∧
  (f.counting = .positions → v.state = .pulsing → v.searching = false → v.evidence = none →
    w = { v with evidence := some .success }) ∧
  (f.counting = .positions → ¬cycling ∨ v.searching = true ∧ v.state ≠ .retryWait → w = v) ∧
  (f.counting = .entryExit → v.state = .idle → v.settled ≤ v.accounted →
    w.settled = v.settled - 1 ∧ w.accounted = v.settled - 1 ∧ w.queue = v.queue) ∧
  (f.counting = .entryExit → v.state = .ejectWait → v.settled ≤ v.accounted → w.settled = v.settled - 1 ∧
    (v.settled - 1 < v.accounted → v.Completed w)) ∧
  (f.counting = .entryExit → v.state = .fault → v.settled ≤ v.accounted → w.settled = v.settled - 1 ∧ v.Completed w) ∧
  (f.counting = .entryExit → v.state = .pulsing → v.searching = false → v.evidence = none →
    w = { v with settled := v.settled - 1, evidence := some .success }) ∧
  (f.counting = .entryExit → v.state = .confirming ∨ v.state = .retryWait → v.searching = false → v.evidence = none →
    v.settled ≤ v.base → w.settled = v.settled - 1 ∧ v.Completed w) ∧
  (f.counting = .entryExit → cycling → v.searching = true ∨ v.evidence ≠ none → w = v)

/-- A completion with no held rise left. -/
theorem completed_of_complete {k : Nat} (hd : d < 8) (hk : k = 0) :
    ((s.complete d true k).device d).arrivals = [] ∧
      ((s.complete d true k).device d).settled = (s.device d).settled ∧
      (s.device d).Completed ((s.complete d true k).device d) := by
  subst hk
  rw [complete_device_self d true 0 hd]
  exact ⟨rfl, rfl, rfl, rfl, rfl, rfl, rfl, rfl, rfl⟩

theorem dueArrivals_device (k : Nat) (hd : d < 8) : (s.dueArrivals d k).device d =
    { s.device d with accounted := (s.device d).settled - k, arrivals := List.replicate k s.time } :=
  State.onDevice_self s d _ hd

/-- The count that follows a ball's leaving a device whose balls are all accounted for brings no arrival, and completes the head
order that waited (R106). -/
theorem reactCount_of_fallen (hd : d < 8) (hn : (s.device d).settled ≤ (s.device d).accounted) :
    ((s.device d).state = .idle → (s.reactCount d).device d =
      { s.device d with accounted := (s.device d).settled, arrivals := [] }) ∧
    ((s.device d).state = .ejectWait → (s.device d).searchWaits = false → (s.device d).settled < (s.device d).accounted →
      s.reactCount d = s.completeFallen d) ∧
    ((s.device d).state = .ejectWait → ¬(s.device d).settled < (s.device d).accounted →
      (s.reactCount d).device d = { s.device d with accounted := (s.device d).settled, arrivals := [] }) := by
  have hdue : ∀ k, k = 0 → (s.dueArrivals d k).device d =
      { s.device d with accounted := (s.device d).settled, arrivals := [] } := fun k hk => by
    rw [dueArrivals_device k hd, hk]; rfl
  have hzero : (s.device d).settled - (s.device d).accounted = 0 := by omega
  refine ⟨fun hs => ?_, fun hs hw hlt => ?_, fun hs hlt => ?_⟩
  · simp only [State.reactCount, hs]
    split
    · rw [← hs]; exact hdue 0 rfl
    · rw [← hs]; exact hdue _ hzero
  · simp [State.reactCount, hs, hw, hlt]
  · simp only [State.reactCount, hs, hlt, if_false]
    rw [← hs]; exact hdue _ hzero

/-- Where no arrival follows, the exit closure is what the counting method and the state make of it. -/
theorem exitClosure_made (hd : d < 8) (ha : (s.device d).arrivals = []) (hs : (s.device d).searchWaits = false)
    (hw : ((s.exitClosure d).device d).arrivals = [] → w = (s.exitClosure d).device d) : (s.device d).ExitMade w := by
  have hset : ∀ y, (s.exitClosure d).device d = y → y.arrivals = [] → w = y := fun y e h => by rw [hw (by rw [e, h]), e]
  have hleft := settleAt_device ((s.device d).settled - 1) hd hs
  generalize hu : s.settleAt d ((s.device d).settled - 1) = u at hleft
  have hsettled : (u.device d).settled = (s.device d).settled - 1 := by rw [hleft]
  have hstate : (u.device d).state = (s.device d).state := by rw [hleft]
  have haccounted : (u.device d).accounted = (s.device d).accounted := by rw [hleft]
  have hsearch : (u.device d).searchWaits = false := by rw [hleft]; exact hs
  have hdone : ∀ (x : State) k, x.device d = u.device d → s.exitClosure d = x.complete d true k → k = 0 →
      w.settled = (s.device d).settled - 1 ∧ (s.device d).Completed w := fun x k hx he hk => by
    obtain ⟨harr, hcount, hcompleted⟩ := completed_of_complete (s := x) hd hk
    rw [hset _ (congrArg (State.device · d) he) harr]
    rw [hx, hleft] at hcompleted
    exact ⟨hcount.trans (by rw [hx, hsettled]), hcompleted⟩
  refine ⟨fun hc => ?_, fun hc hp hn he => ?_, fun hc hp => ?_, fun hc hp hn => ?_, fun hc hp hn => ?_, fun hc hp hn => ?_,
    fun hc hp hn he => ?_, fun hc hp hn he hb => ?_, fun hc hp hn => ?_⟩
  · refine hset _ ?_ ha
    simp only [State.exitClosure, hc]
  · refine hset _ ?_ ha
    have hkept : s.exitClosure d = s.onDevice d fun v => { v with evidence := some .success } := by
      simp [State.exitClosure, State.success, hc, hp, hn, he]
    rw [hkept]
    exact State.onDevice_self s d _ hd
  · refine hset _ ?_ ha
    have hkept : s.exitClosure d = s := by
      simp only [State.exitClosure, State.success, hc]
      cases hst : (s.device d).state <;> simp_all
    rw [hkept]
  · have hreact : s.exitClosure d = u.reactCount d := by simp only [State.exitClosure, hc, hp, hu]
    have hmade := (reactCount_of_fallen (s := u) hd (by omega)).1 (hstate.trans hp)
    rw [hset _ ((congrArg (State.device · d) hreact).trans hmade) rfl, hleft]
    exact ⟨rfl, rfl, rfl⟩
  · have hreact : s.exitClosure d = u.reactCount d := by simp only [State.exitClosure, hc, hp, hu]
    obtain ⟨-, hfallen, hstill⟩ := reactCount_of_fallen (s := u) hd (by omega)
    by_cases hlt : (u.device d).settled < (u.device d).accounted
    · have hcomplete := hdone u _ rfl (hreact.trans (hfallen (hstate.trans hp) hsearch hlt)) (by omega)
      exact ⟨hcomplete.1, fun _ => hcomplete.2⟩
    · have hmade := hstill (hstate.trans hp) hlt
      rw [hset _ ((congrArg (State.device · d) hreact).trans hmade) rfl]
      exact ⟨hsettled, fun h => absurd h (by omega)⟩
  · have hself : s.exitClosure d = u.faultSelf d := by simp only [State.exitClosure, hc, hp, hu]
    exact hdone (u.emit .deviceFaultCleared d 1 0) _ rfl hself (by rw [emit_device]; omega)
  · have hkept : s.exitClosure d = u.success d := by simp [State.exitClosure, hc, hp, hn, he, hu]
    have hmade : (u.success d).device d = { u.device d with evidence := some .success } := by
      have : u.success d = u.onDevice d fun v => { v with evidence := some .success } := by
        simp [State.success, hleft, hp, hn, he]
      rw [this]
      exact State.onDevice_self u d _ hd
    rw [hset _ ((congrArg (State.device · d) hkept).trans hmade) (by rw [hleft]; exact ha), hleft]
  · have hkept : s.exitClosure d = u.confirm d := by
      rcases hp with hp | hp <;> simp [State.exitClosure, State.success, hc, hp, hn, he, hu, hleft]
    exact hdone u _ rfl hkept (by rw [hleft]; dsimp only; omega)
  · refine hset _ ?_ ha
    have hkept : s.exitClosure d = s := by
      simp only [State.exitClosure, hc]
      cases hst : (s.device d).state <;> simp_all [Option.isSome_iff_ne_none]
    rw [hkept]

end Sys2Proof.Machine
end

