-- ==== Sys2Proof/Proofs/Closures.lean ====
section
/-! A closure in SERVE or PLAY (O7): the latch, the report and the census, the evidence of one device at most, and the walk. -/

namespace Sys2Proof.Machine

open Sys2Proof

variable {s t u v : State} {tr : Transition} {i d : Nat}

/-! ### The latch and the report -/

/-- The Switch Scanner with the transition `tr` handed on and the latch of its switch set. -/
def State.latchedScanner (s : State) (tr : Transition) : Scanner :=
  (State.onSwitch { s with scanner := { s.scanner with waiting := s.scanner.waiting.erase tr } } tr.switch fun w =>
    { w with latch := true }).scanner

/-- The state of a closure in play once its latch is set and its report is queued. -/
def State.reported (s : State) (tr : Transition) : State :=
  { s with scanner := s.latchedScanner tr, time := tr.stamp, events := s.reportedEvents tr }

/-- The state of a closure in play once it has been offered to the census. -/
def State.offered (s : State) (tr : Transition) : State :=
  if tr.role = .playfield then (s.reported tr).playfieldActivity.offerClosure tr.switch else s.reported tr

theorem reportSwitch_eq (tr : Transition) : s.reportSwitch tr = { s with events := (s.reportSwitch tr).events } := by
  unfold State.reportSwitch
  split <;> rfl

theorem latchedScanner_switch (j : Nat) : readTable (s.latchedScanner tr).switches .reset j =
    if tr.switch = j ∧ tr.switch < Config.switchCount then { s.switch tr.switch with latch := true } else s.switch j :=
  State.onSwitch_switch _ tr.switch j _

/-- A closure in play, up to the evidence of the devices and the walk. -/
theorem closure_of_play (b : Bool) (hq : s.quietEngine = true) (hp : s.inPlay = true) :
    State.closure b tr (s.handingOn tr) = (s.offered tr).evidenceAndWalk b tr deviceNumbers := by
  rw [handingOn_of_quiet tr hq]
  generalize hx : ({ s with scanner := { s.scanner with waiting := s.scanner.waiting.erase tr }, time := tr.stamp } : State) = x
  have hreport : (x.onSwitch tr.switch fun w => { w with latch := true }).reportSwitch tr = s.reported tr := by
    rw [reportSwitch_eq, reportSwitch_events (s := s) (by rw [← hx]; rfl) (by rw [← hx]; rfl)
      (congrArg SwitchRecord.report ((onLatch_record ..).trans (by rw [← hx]; rfl))), ← hx]
    rfl
  have hplay : x.inPlay = true := by rw [← hx]; exact hp
  rw [State.closure, if_pos hplay, hreport]
  rfl

/-! ### What the offer to the census keeps -/

/-- State `v` is `u` but for the census, the quiet timer, the search and its orders, and the end of SERVE. -/
structure State.Offered (u v : State) : Prop where
  engine : v.engine = u.engine
  modes : v.modes = u.modes
  time : v.time = u.time
  players : v.game.players = u.game.players
  current : v.game.current = u.game.current
  params : v.game.params = u.game.params
  switches : v.scanner.switches = u.scanner.switches
  inPlay : u.inPlay = true → v.inPlay = true
  tallies : v.tallies = u.tallies
  device : ∀ d, (u.device d).searchWaits = false → v.device d = u.device d
  owed : v.devices.launchOwed = u.devices.launchOwed

theorem State.Offered.refl (u : State) : u.Offered u := ⟨rfl, rfl, rfl, rfl, rfl, rfl, rfl, id, rfl, fun _ _ => rfl, rfl⟩

theorem State.Offered.trans {w : State} (h : u.Offered v) (h' : v.Offered w) : u.Offered w where
  engine := h'.engine.trans h.engine
  modes := h'.modes.trans h.modes
  time := h'.time.trans h.time
  players := h'.players.trans h.players
  current := h'.current.trans h.current
  params := h'.params.trans h.params
  switches := h'.switches.trans h.switches
  inPlay := fun hu => h'.inPlay (h.inPlay hu)
  tallies := h'.tallies.trans h.tallies
  device := fun d hd => (h'.device d (by rw [h.device d hd]; exact hd)).trans (h.device d hd)
  owed := h'.owed.trans h.owed

theorem searchEnd_offered (c : Nat) : u.Offered (u.searchEnd c) := by
  have hb := searchEnd_beside u c
  refine ⟨engine_of_beside hb, modes_of_beside hb, time_of_beside hb, players_of_beside hb, current_of_beside hb,
    params_of_beside hb, congrArg Scanner.switches (scanner_of_beside hb), fun hp => ?_, searchEnd_tallies u c,
    fun d => searchEnd_device c, searchEnd_owed c⟩
  rw [← hp, State.inPlay, State.inPlay, phase_of_beside hb]
theorem playfieldActivity_offered : u.Offered u.playfieldActivity := by
  have hquiet : u.Offered (u.onScanner fun c => { c with quiet := 0 }) :=
    ⟨rfl, rfl, rfl, rfl, rfl, rfl, rfl, id, rfl, fun _ _ => rfl, rfl⟩
  unfold State.playfieldActivity
  dsimp only
  split
  · exact hquiet.trans (searchEnd_offered 0)
  · exact hquiet
theorem foundByClosure_offered (i : Nat) : u.Offered (u.foundByClosure i) := by
  unfold State.foundByClosure
  split
  · exact ⟨rfl, rfl, rfl, rfl, rfl, rfl, rfl, id, rfl, fun _ _ => rfl, rfl⟩
  · exact .refl u
theorem serveToPlay_offered : u.Offered u.serveToPlay := by
  unfold State.serveToPlay
  split
  · exact ⟨rfl, rfl, rfl, rfl, rfl, rfl, rfl, fun _ => rfl, rfl, fun _ _ => rfl, rfl⟩
  · exact .refl u
theorem validate_offered (i : Nat) : u.Offered (u.validate i) := by
  unfold State.validate
  split
  · exact .trans (v := State.emit (u.onCensus _) .ballValidated i _ 0)
      ⟨rfl, rfl, rfl, rfl, rfl, rfl, rfl, id, rfl, fun _ _ => rfl, rfl⟩ serveToPlay_offered
  · exact .refl u
theorem offerClosure_offered (i : Nat) : u.Offered (u.offerClosure i) := (foundByClosure_offered i).trans (validate_offered i)

theorem offered_offered : (s.reported tr).Offered (s.offered tr) := by
  unfold State.offered
  split
  · exact playfieldActivity_offered.trans (offerClosure_offered _)
  · exact .refl _

/-! ### What the offer makes of the census (R118, R120, R121, R151) -/

/-- A ball that was missing is found. -/
theorem foundByClosure_census (i : Nat) : (u.foundByClosure i).census =
    if 1 ≤ u.census.missing ∧ u.census.playfield = 0 then { u.census with missing := u.census.missing - 1, playfield := 1 }
    else u.census := by
  unfold State.foundByClosure
  split <;> rfl

/-- The ball is valid from now on; at its first closure the ball save is armed. -/
theorem validate_census (i : Nat) (hp : u.inPlay = true) : (u.validate i).census =
    { u.census with
      validated := true
      save := if u.census.validated = false ∧ u.census.save = none ∧ u.game.params.ballSaveTime ≠ 0 then
        some ⟨u.game.params.ballSaveTime, .one⟩ else u.census.save } := by
  have hserve : ∀ x : State, x.serveToPlay.census = x.census := fun x => serveToPlay_served.census
  unfold State.validate
  split
  · rename_i h
    rw [hserve]
    cases hs : u.census.save <;> by_cases ht : u.game.params.ballSaveTime = 0 <;> simp [h.2, hs, ht]
  · rename_i h
    have hv : u.census.validated = true := by simpa [hp] using h
    rw [if_neg (by rw [hv]; simp)]
    generalize u.census = c at hv
    cases c
    exact congrArg (Census.mk _ _ _ _ · _ _ _ _ _ _) hv

theorem validate_phase (i : Nat) (hp : u.inPlay = true) :
    (u.validate i).game.phase = if u.census.validated = true then u.game.phase else .play := by
  have hplay : u.game.phase = .serve ∨ u.game.phase = .play := by simpa [State.inPlay] using hp
  have hserve : ∀ x : State, x.game.phase = u.game.phase → x.serveToPlay.game.phase = .play := fun x hx => by
    unfold State.serveToPlay
    split
    · rfl
    · rw [hx] at *; tauto
  unfold State.validate
  split
  · rename_i h
    rw [if_neg (c := u.census.validated = true) (by simp [h.2])]
    exact hserve _ rfl
  · rename_i h
    rw [if_pos (by simpa [hp] using h)]

/-! ### Devices that the switch is no switch of -/

/-- Device `d` names switch `i` neither as its entry nor as its exit switch, or it is not configured. -/
def State.Unnamed (s : State) (i d : Nat) : Prop :=
  s.configured d = true → (s.device d).record.entrySwitch ≠ some i ∧ (s.device d).record.exitSwitch ≠ some i

theorem unnamed_of_record (h : (t.device d).record = (s.device d).record) (hn : s.Unnamed i d) : t.Unnamed i d := fun hc => by
  rw [h]
  exact hn (by rwa [configured_congr s d h] at hc)

/-- Work that carries the stamp of `tr`, with nothing paused. -/
structure State.Working (tr : Transition) (s : State) : Prop where
  paused : s.engine.paused = none
  time : s.time = tr.stamp

theorem at_of_working (h : s.Working tr) : s.at tr.stamp = s := by
  rw [← h.time]; rfl

theorem evidenceThenArrivals_of_none (b : Bool) (h : s.Working tr)
    (ha : ((State.deviceEvidence tr.switch s d).device d).arrivals = []) :
    State.evidenceThenArrivals b tr s d = State.deviceEvidence tr.switch s d := by
  rw [State.evidenceThenArrivals, h.paused, at_of_working h]
  exact arrivalsWithin_of_none _ b _ d ha

theorem deviceEvidence_of_unnamed (h : s.Unnamed i d) : State.deviceEvidence i s d = s := by
  have hentry : ¬(s.configured d = true ∧ (s.device d).record.entrySwitch = some i) := fun hc => (h hc.1).1 hc.2
  have hexit : ¬(s.configured d = true ∧ (s.device d).record.exitSwitch = some i) := fun hc => (h hc.1).2 hc.2
  unfold State.deviceEvidence
  rw [if_neg hentry]
  exact if_neg hexit

/-- Devices that do not name the switch have no evidence of its closure. -/
theorem foldl_evidence_of_unnamed (b : Bool) (l : List Nat) (h : s.Working tr) (hn : ∀ d ∈ l, s.Unnamed tr.switch d)
    (ha : ∀ d ∈ l, (s.device d).arrivals = []) : l.foldl (State.evidenceThenArrivals b tr) s = s := by
  induction l with
  | nil => rfl
  | cons d l ih =>
    have hd := deviceEvidence_of_unnamed (hn d (List.mem_cons_self ..))
    rw [List.foldl_cons, evidenceThenArrivals_of_none b h (by rw [hd]; exact ha d (List.mem_cons_self ..)), hd]
    exact ih (fun e he => hn e (List.mem_cons_of_mem _ he)) fun e he => ha e (List.mem_cons_of_mem _ he)

/-- The evidence of the one device that names the switch, where it brings no arrival. -/
theorem foldl_evidence_of_named (b : Bool) (hd : d < 8) (h : s.Working tr)
    (hn : ∀ e < 8, e ≠ d → s.Unnamed tr.switch e) (ha : ∀ e < 8, (s.device e).arrivals = [])
    (hmade : ((State.deviceEvidence tr.switch s d).device d).arrivals = []) :
    deviceNumbers.foldl (State.evidenceThenArrivals b tr) s = State.deviceEvidence tr.switch s d := by
  have hmem : d ∈ deviceNumbers := by simp [deviceNumbers, hd]
  obtain ⟨l, m, hl⟩ := List.append_of_mem hmem
  have hnodup : (l ++ d :: m).Nodup := by rw [← hl]; exact List.nodup_range
  have hlt : ∀ e ∈ l ++ d :: m, e < 8 := fun e he => by rw [← hl] at he; simpa [deviceNumbers] using he
  obtain ⟨-, hdm, hdisjoint⟩ := List.nodup_append.1 hnodup
  have hkept := deviceEvidence_evident (s := s) (d := d) tr.switch
  have hrecord : ∀ e, ((State.deviceEvidence tr.switch s d).device e).record = (s.device e).record := by
    obtain ⟨-, -, -, hrecord, -⟩ := sameSettings_of_frame_eq (State.deviceEvidence_frame s tr.switch d)
    exact hrecord
  rw [hl, List.foldl_append, List.foldl_cons]
  rw [foldl_evidence_of_unnamed b l h
      (fun e he => hn e (hlt e (by simp [he])) (hdisjoint e he d (by simp)))
      (fun e he => ha e (hlt e (by simp [he]))),
    evidenceThenArrivals_of_none b h hmade]
  refine foldl_evidence_of_unnamed b m ⟨by rw [hkept.engine]; exact h.paused, hkept.time.trans h.time⟩ (fun e he => ?_)
    fun e he => ?_
  · have hne : e ≠ d := fun x => (List.nodup_cons.1 hdm).1 (x ▸ he)
    exact unnamed_of_record (hrecord e) (hn e (hlt e (by simp [he])) hne)
  · have hne : e ≠ d := fun x => (List.nodup_cons.1 hdm).1 (x ▸ he)
    rw [hkept.arrivals e hne]
    exact ha e (hlt e (by simp [he]))

end Sys2Proof.Machine
end

