-- ==== Sys2Proof/Proofs/PlayClosures.lean ====
section
/-! A closure in SERVE or PLAY from its hand-on to its last test of the devices (O7). -/

namespace Sys2Proof.Machine

open Sys2Proof

variable {s t u : State} {tr : Transition} {i d : Nat}

theorem quietEngine_parts (h : s.quietEngine = true) :
    s.engine.root = none ∧ s.engine.paused = none ∧ ∀ d < 8, (s.device d).arrivals = [] := by
  simpa [State.quietEngine, deviceNumbers, and_assoc] using h

theorem ball_of_inPlay (h : s.inPlay = true) : s.game.phase ≠ .idle ∧ s.game.phase ≠ .ballOver := by
  have hplay : s.game.phase = .serve ∨ s.game.phase = .play := by simpa [State.inPlay] using h
  rcases hplay with hp | hp <;> simp [hp]

/-- With a ball on, the tests of the devices change the devices alone. -/
theorem settleDevices_eq (h : s.inPlay = true) : s.settleDevices = { s with devices := s.settleDevices.devices } := by
  have hb := settleDevices_beside s
  have hg := settleDevices_game (ball_of_inPlay h)
  have he := settleDevices_events (ball_of_inPlay h)
  generalize s.settleDevices = x at hb hg he
  cases s
  cases x
  simp_all [State.beside]

theorem settleDevices_inPlay (h : s.inPlay = true) : s.settleDevices.inPlay = s.inPlay := by
  rw [State.inPlay, settleDevices_game (ball_of_inPlay h), State.inPlay]

/-! ### The offer in its parts -/

theorem offered_engine : (s.offered tr).engine = s.engine := offered_offered.engine
theorem offered_working (h : s.engine.paused = none) : (s.offered tr).Working tr :=
  ⟨by rw [offered_engine]; exact h, offered_offered.time⟩
theorem offered_inPlay (h : s.inPlay = true) : (s.offered tr).inPlay = true := offered_offered.inPlay h
theorem offered_tallies : (s.offered tr).tallies = s.tallies := offered_offered.tallies
theorem offered_modes : (s.offered tr).modes = s.modes := offered_offered.modes
theorem offered_players : (s.offered tr).game.players = s.game.players := offered_offered.players
theorem offered_current : (s.offered tr).game.current = s.game.current := offered_offered.current
theorem offered_params : (s.offered tr).game.params = s.game.params := offered_offered.params
theorem offered_arrivals (d : Nat) : ((s.offered tr).device d).arrivals = (s.device d).arrivals :=
  (congrArg Device.arrivals (tally_of_tallies (offered_tallies (s := s) (tr := tr)) d) :)
theorem offered_unnamed (h : s.Unnamed i d) : (s.offered tr).Unnamed i d :=
  unnamed_of_record (record_of_tallies offered_tallies d) h
theorem offered_latch (j : Nat) : ((s.offered tr).switch j).latch =
    if tr.switch = j ∧ tr.switch < Config.switchCount then true else (s.switch j).latch := by
  have hread : (s.offered tr).switch j = readTable (s.latchedScanner tr).switches .reset j :=
    congrArg (readTable · Switch.reset j) (offered_offered (s := s) (tr := tr)).switches
  rw [hread, latchedScanner_switch]
  split <;> rfl
theorem offered_cabinet (h : tr.role = .cabinet) : s.offered tr = s.reported tr := by
  rw [State.offered, if_neg (by rw [h]; decide)]
theorem offered_logged : (s.offered tr).Logged (s.reportedEvents tr) := by
  have hreported : (s.reported tr).Logged (s.reportedEvents tr) := ⟨[], rfl⟩
  unfold State.offered
  split
  · exact offerClosure_logged _ (playfieldActivity_logged hreported)
  · exact hreported

theorem playfieldActivity_beside :
    u.playfieldActivity.beside = (u.onScanner fun c => { c with quiet := 0 }).beside := by
  unfold State.playfieldActivity
  dsimp only
  split
  · exact searchEnd_beside _ 0
  · rfl
theorem foundByClosure_scanner (i : Nat) : (u.foundByClosure i).scanner = u.scanner := by
  unfold State.foundByClosure; split <;> rfl
theorem foundByClosure_game (i : Nat) : (u.foundByClosure i).game = u.game := by
  unfold State.foundByClosure; split <;> rfl
theorem validate_scanner (i : Nat) : (u.validate i).scanner = u.scanner := by
  unfold State.validate
  split
  · exact serveToPlay_served.scanner
  · rfl

/-- What an offer to the census makes of it, and of the phase (R118, R120, R121, R151). -/
theorem offerClosure_parts (i : Nat) (hp : u.inPlay = true) :
    (u.offerClosure i).scanner = u.scanner ∧ (u.offerClosure i).census.validated = true ∧
      (u.offerClosure i).game.phase = (if u.census.validated = true then u.game.phase else .play) ∧
      ((u.offerClosure i).census.missing, (u.offerClosure i).census.playfield) =
        (if 1 ≤ u.census.missing ∧ u.census.playfield = 0 then (u.census.missing - 1, 1)
          else (u.census.missing, u.census.playfield)) ∧
      (u.offerClosure i).census.save =
        (if u.census.validated = false ∧ u.census.save = none ∧ u.game.params.ballSaveTime ≠ 0 then
          some ⟨u.game.params.ballSaveTime, .one⟩ else u.census.save) := by
  have hfound := foundByClosure_census (u := u) i
  have hgame := foundByClosure_game (u := u) i
  have hplay : (u.foundByClosure i).inPlay = true := by rw [State.inPlay, hgame]; exact hp
  have hvalidated : (u.foundByClosure i).census.validated = u.census.validated := by rw [hfound]; split <;> rfl
  have hsave : (u.foundByClosure i).census.save = u.census.save := by rw [hfound]; split <;> rfl
  have hcensus := validate_census i hplay
  refine ⟨(validate_scanner i).trans (foundByClosure_scanner i), ?_, ?_, ?_, ?_⟩
  · rw [State.offerClosure, hcensus]
  · rw [State.offerClosure, validate_phase i hplay, hvalidated, hgame]
  · rw [State.offerClosure, hcensus, hfound]
    split <;> rfl
  · rw [State.offerClosure, hcensus]
    dsimp only
    rw [hvalidated, hsave, hgame]

/-- What a PLAYFIELD closure in play makes of the quiet timer, the census and the phase (R17, R118, R120, R121, R151). -/
theorem offered_playfield (hr : tr.role = .playfield) (hp : s.inPlay = true) :
    (s.offered tr).scanner.quiet = 0 ∧ (s.offered tr).census.validated = true ∧
      (s.offered tr).game.phase = (if s.census.validated = true then s.game.phase else .play) ∧
      ((s.offered tr).census.missing, (s.offered tr).census.playfield) =
        (if 1 ≤ s.census.missing ∧ s.census.playfield = 0 then (s.census.missing - 1, 1)
          else (s.census.missing, s.census.playfield)) ∧
      (s.offered tr).census.save =
        (if s.census.validated = false ∧ s.census.save = none ∧ s.game.params.ballSaveTime ≠ 0 then
          some ⟨s.game.params.ballSaveTime, .one⟩ else s.census.save) := by
  have hb := playfieldActivity_beside (u := s.reported tr)
  have hcensus : (s.reported tr).playfieldActivity.census = s.census := (census_of_beside hb).trans rfl
  have hphase : (s.reported tr).playfieldActivity.game.phase = s.game.phase := (phase_of_beside hb).trans rfl
  have hparams : (s.reported tr).playfieldActivity.game.params = s.game.params := (params_of_beside hb).trans rfl
  have hquiet : (s.reported tr).playfieldActivity.scanner.quiet = 0 :=
    (congrArg Scanner.quiet (scanner_of_beside hb)).trans rfl
  have hplay : (s.reported tr).playfieldActivity.inPlay = true := by rw [State.inPlay, hphase]; exact hp
  obtain ⟨hscanner, hrest⟩ := offerClosure_parts tr.switch hplay
  rw [hcensus, hphase, hparams] at hrest
  rw [State.offered, if_pos hr]
  exact ⟨by rw [hscanner, hquiet], hrest⟩

/-! ### The closure as a whole -/

theorem exec_switchClosure (b : Bool) (hw : s.waitingOf i = some tr) (hc : tr.closed = true)
    (hr : tr.role = .playfield ∨ tr.role = .cabinet) :
    exec (.switchClosure i b) s = .next (State.closure b tr (s.handingOn tr)) := by
  have hp : (tr.closed && tr.walked) = true := by rcases hr with h | h <;> simp [hc, Transition.walked, h]
  exact congrArg Host.Outcome.next (handOn_of_waiting s i _ _ tr hw hp)

/-- A closure of a switch that no device names goes on to its walk. -/
theorem closure_of_unnamed (b : Bool) (hq : s.quietEngine = true) (hp : s.inPlay = true)
    (hn : ∀ d < 8, s.Unnamed tr.switch d) : State.closure b tr (s.handingOn tr) =
      ((s.offered tr).settleDevices.directWalk tr.switch .close b).settleDevices := by
  obtain ⟨-, hpaused, harrivals⟩ := quietEngine_parts hq
  have hworking := offered_working (tr := tr) hpaused
  have hlt : ∀ d ∈ deviceNumbers, d < 8 := fun d hd => by simpa [deviceNumbers] using hd
  have hfold := foldl_evidence_of_unnamed b deviceNumbers hworking (fun d hd => offered_unnamed (hn d (hlt d hd)))
    (fun d hd => (offered_arrivals d).trans (harrivals d (hlt d hd)))
  rw [closure_of_play b hq hp, State.evidenceAndWalk, hfold]
  refine (evidenceAndWalk_nil (s.offered tr) b tr hworking.paused).trans ?_
  rw [at_of_working hworking]

/-- The state from which the closure's own walk is made. -/
theorem settled_parts (hp : s.inPlay = true) : (s.offered tr).settleDevices.inPlay = true ∧
    (s.offered tr).settleDevices.engine = s.engine ∧ (s.offered tr).settleDevices.tallies = s.tallies := by
  have hplay := offered_inPlay (tr := tr) hp
  refine ⟨?_, ?_, ?_⟩
  · rw [settleDevices_inPlay hplay]; exact hplay
  · rw [engine_of_beside (settleDevices_beside _), offered_engine]
  · rw [settleDevices_tallies]; exact offered_tallies

theorem chain_congr (h : t.engine = s.engine) (x : Nat) : t.chain x = s.chain x := by
  have haward : t.award = s.award := by funext k; simp [State.award, h]
  simp [State.chain, haward]

/-! ### The walk of a closure and what follows it -/

/-- The state of a closure once the walk has left nothing of itself, and the devices have been tested again. -/
def State.ended (u : State) : State := u.settleDevices.walked.settleDevices

theorem walked_inPlay : u.walked.inPlay = u.inPlay := rfl

theorem ended_eq (h : u.inPlay = true) : u.ended =
    { u with engine := { u.engine with root := none, walking := none }, devices := u.ended.devices } := by
  have hfirst := settleDevices_eq h
  have hplay : u.settleDevices.walked.inPlay = true := by rw [walked_inPlay, settleDevices_inPlay h, h]
  have hsecond := settleDevices_eq hplay
  rw [State.ended]
  generalize u.settleDevices.walked.settleDevices = x at hsecond
  generalize u.settleDevices = y at hfirst hsecond
  rw [hfirst] at hsecond
  rw [hsecond]
  rfl

/-- The latches after a closure. -/
theorem latch_of_offered (hs : t.scanner = (s.offered tr).scanner) (j : Nat) : (t.switch j).latch =
    if tr.switch = j ∧ tr.switch < Config.switchCount then true else (s.switch j).latch := by
  rw [← offered_latch, State.switch, hs, State.switch]

/-- A closure whose walk awards nothing. -/
theorem ended_parts (hp : s.inPlay = true) :
    (tr.switch < 72 → ((s.offered tr).ended.switch tr.switch).latch = true) ∧
      (∀ j, j ≠ tr.switch → ((s.offered tr).ended.switch j).latch = (s.switch j).latch) ∧
      (s.offered tr).ended.game.players = s.game.players ∧
      (s.offered tr).ended.engine.triggers = s.engine.triggers ∧ (s.offered tr).ended.engine.root = none ∧
      (s.offered tr).ended.modes = s.modes ∧
      (tr.role = .cabinet → (s.offered tr).ended.census = s.census ∧
        (s.offered tr).ended.scanner.quiet = s.scanner.quiet ∧ (s.offered tr).ended.game.phase = s.game.phase ∧
        (s.offered tr).ended.events = s.reportedEvents tr) := by
  have hended := ended_eq (offered_inPlay (tr := tr) hp)
  have hengine := offered_engine (s := s) (tr := tr)
  have hplayers := offered_players (s := s) (tr := tr)
  have hmodes := offered_modes (s := s) (tr := tr)
  have hcabinet := offered_cabinet (s := s) (tr := tr)
  have hlatch := fun t h => latch_of_offered (s := s) (t := t) (tr := tr) h
  generalize (s.offered tr).ended = x at hended
  generalize s.offered tr = o at hended hengine hplayers hmodes hcabinet hlatch
  have hscanner : x.scanner = o.scanner := by rw [hended]
  refine ⟨fun hi => ?_, fun j hj => ?_, ?_, ?_, ?_, ?_, fun hrole => ?_⟩
  · rw [hlatch x hscanner, if_pos ⟨rfl, hi⟩]
  · rw [hlatch x hscanner, if_neg fun h => hj h.1.symm]
  · rw [hended, ← hplayers]
  · rw [hended, ← hengine]
  · rw [hended]
  · rw [hended, ← hmodes]
  · rw [hended, hcabinet hrole]
    exact ⟨rfl, rfl, rfl, rfl⟩

theorem ended_playfield (hp : s.inPlay = true) : (s.offered tr).ended.scanner = (s.offered tr).scanner ∧
    (s.offered tr).ended.census = (s.offered tr).census ∧ (s.offered tr).ended.game = (s.offered tr).game := by
  have hended := ended_eq (offered_inPlay (tr := tr) hp)
  generalize (s.offered tr).ended = x at hended
  generalize s.offered tr = o at hended
  rw [hended]
  exact ⟨rfl, rfl, rfl⟩

/-- An empty chain (the first clause of O7). -/
theorem closure_of_emptyChain (b : Bool) (hq : s.quietEngine = true) (hp : s.inPlay = true) (ht : s.engine.triggers = [])
    (hn : ∀ d < 8, s.Unnamed tr.switch d) (hc : s.chain tr.switch = []) :
    State.closure b tr (s.handingOn tr) = (s.offered tr).ended := by
  obtain ⟨hplay, hengine, -⟩ := settled_parts (tr := tr) hp
  rw [closure_of_unnamed b hq hp hn, directWalk_of_nil _ _ b hplay (by rw [hengine, ht]) (by rw [chain_congr hengine, hc])]
  rfl

/-- A chain of one entry that is passed over. -/
theorem closure_of_otherEdge (b : Bool) {k : Nat} (hq : s.quietEngine = true) (hp : s.inPlay = true)
    (ht : s.engine.triggers = []) (hn : ∀ d < 8, s.Unnamed tr.switch d) (hc : s.chain tr.switch = [k])
    (hk : (s.award k).edge = .opening) : State.closure b tr (s.handingOn tr) = (s.offered tr).ended := by
  obtain ⟨hplay, hengine, -⟩ := settled_parts (tr := tr) hp
  have haward : (s.offered tr).settleDevices.award k = s.award k := by rw [State.award, hengine, State.award]
  rw [closure_of_unnamed b hq hp hn, directWalk_of_otherEdge _ k _ b hplay (by rw [hengine, ht])
    (by rw [chain_congr hengine, hc]) (by rw [haward, hk]; decide)]
  rfl

/-! ### The award of a plain entry -/

theorem bip_congr (ht : t.tallies = s.tallies) (hc : t.census = s.census) : t.bip = s.bip := by
  have hcount : t.countOf = s.countOf := by
    funext d
    have hn : (t.device d).settled = (s.device d).settled := (congrArg Device.settled (tally_of_tallies ht d) :)
    rw [State.countOf, State.countOf, configured_congr s d (record_of_tallies ht d), hn]
  have hlocked : t.locked = s.locked := by funext d; rw [State.locked, State.locked, hc]
  rw [State.bip, State.bip, shooter_of_tallies ht, hc, hcount, hlocked]

/-- The total multiplier is found from the playfield multiplier of the current player, the modes and the balls in play. -/
theorem multiplier_congr (hm : t.modes = s.modes) (hb : t.bip = s.bip) (hg : t.game.params = s.game.params)
    (hp : t.current.playfieldMult = s.current.playfieldMult) (c : Classes) : t.multiplier c = s.multiplier c := by
  have hloan : t.loan = s.loan := by
    funext j
    have hdef : t.modeDef = s.modeDef := by funext m; rw [State.modeDef, State.modeDef, hm]
    rw [State.loan, State.loan, hdef]
  rw [State.multiplier, State.multiplier, State.factorP, State.factorP, State.factorM, State.factorM, State.factorF,
    State.factorF, hloan, hm, hb, hg, hp]

/-- The state of a closure from whose walk the plain entry `k` has been awarded. -/
def State.awarded (u : State) (k : Nat) (q : Player) : State :=
  ((u.onCurrent fun p => p.plus u.game.params ((u.award k).base * u.multiplier (u.award k).classes)).queued
    (u.entryRecords k q)).walked.settleDevices

theorem onCurrent_eq (f : Player → Player) : u.onCurrent f = { u with game := (u.onCurrent f).game } := by
  unfold State.onCurrent State.onPlayer
  split <;> rfl

/-- The award changes the current player's record and the Event Queue, and with the tests after it the devices. -/
theorem settle_walked_eq (f : Player → Player) (l : List EventRecord) (h : u.inPlay = true) :
    ((u.onCurrent f).queued l).walked.settleDevices =
      { u with game := (u.onCurrent f).game, events := List.foldl appendEvent u.events l
               engine := { u.engine with root := none, walking := none }
               devices := ((u.onCurrent f).queued l).walked.settleDevices.devices } := by
  have hphase := State.onCurrent_phase u f
  have heq := onCurrent_eq (u := u) f
  generalize u.onCurrent f = w at hphase heq
  have hplay : (w.queued l).walked.inPlay = true := by
    rw [← h, State.inPlay, State.inPlay, ← hphase]
    rfl
  have hsettle := settleDevices_eq hplay
  generalize (w.queued l).walked.settleDevices = x at hsettle
  rw [hsettle, heq]
  rfl

theorem awarded_eq (h : u.inPlay = true) (k : Nat) (q : Player) : u.awarded k q =
    let w := u.onCurrent fun p => p.plus u.game.params ((u.award k).base * u.multiplier (u.award k).classes)
    { u with game := w.game, events := List.foldl appendEvent u.events (u.entryRecords k q)
             engine := { u.engine with root := none, walking := none }, devices := (u.awarded k q).devices } :=
  settle_walked_eq _ _ h

theorem awarded_tallies (k : Nat) (q : Player) : (u.awarded k q).tallies = u.tallies := by
  rw [State.awarded, settleDevices_tallies, State.walked, onEngine_tallies]
  exact onCurrent_tallies ..

/-- The award in its parts. -/
theorem entryAwarded_awarded (h : u.inPlay = true) (k : Nat) {q : Player} (hq : u.player? u.game.current = some q) :
    u.EntryAwarded (u.awarded k q) k q u.time u.events := by
  have heq := awarded_eq h k q
  have htallies := awarded_tallies (u := u) k q
  generalize u.awarded k q = x at heq htallies
  dsimp only at heq
  generalize hn : (u.award k).base * u.multiplier (u.award k).classes = n at heq
  have hgame : x.game = (u.onCurrent fun p => p.plus u.game.params n).game := by rw [heq]
  have hplayer : ∀ j, x.player? j = if j = u.game.current then (u.player? j).map fun p => p.plus u.game.params n
      else u.player? j := fun j => (player?_congr (congrArg Game.players hgame) j).trans (onCurrent_player? _ j)
  have hcurrent : x.player? u.game.current = some (q.plus u.game.params n) := by rw [hplayer, if_pos rfl, hq]; rfl
  have hmult : x.multiplier (u.award k).classes = u.multiplier (u.award k).classes := by
    refine multiplier_congr (by rw [heq]) (bip_congr htallies (by rw [heq])) ?_ ?_ _
    · rw [hgame, State.onCurrent_params]
    · have hx : x.game.current = u.game.current := by rw [hgame, State.onCurrent_current]
      rw [current_of_player? (hx ▸ hcurrent), current_of_player? hq]
      rfl
  refine ⟨?_, fun j hj => ?_, ?_⟩
  · rw [hmult, hn, hcurrent]
  · rw [hplayer, if_neg hj]
  · rw [hmult, heq]
    rfl

/-- An award reads of the state before it the entry, the players and the parameters alone. -/
theorem entryAwarded_congr {k : Nat} {q : Player} {x : Stamp} {l : List EventRecord} (he : u.engine = s.engine)
    (hl : u.game.players = s.game.players) (hc : u.game.current = s.game.current) (hp : u.game.params = s.game.params)
    (h : u.EntryAwarded t k q x l) : s.EntryAwarded t k q x l := by
  have haward : u.award k = s.award k := by rw [State.award, he, State.award]
  have hplayer : u.player? = s.player? := funext fun j => player?_congr hl j
  have hrecords : ∀ n, u.scoreRecords q x n = s.scoreRecords q x n := fun n => by
    rw [State.scoreRecords, State.scoreRecords, hc, hp]
  unfold State.EntryAwarded at h ⊢
  dsimp only at h ⊢
  rw [haward, hplayer, hc, hp] at h
  simpa only [hrecords] using h

/-- A chain of one plain entry whose condition passes (the second clause of O7). -/
theorem closure_of_plain (b : Bool) {k : Nat} {q : Player} (hq : s.quietEngine = true) (hp : s.inPlay = true)
    (ht : s.engine.triggers = []) (hn : ∀ d < 8, s.Unnamed tr.switch d) (hc : s.chain tr.switch = [k])
    (hplayer : s.player? s.game.current = some q) (hk : (s.award k).Plain .close)
    (hcond : (s.award k).condition = none ∨ (s.award k).condition = some ⟨.latch, tr.switch, none, .whenSet⟩)
    (hi : tr.switch < 72) :
    State.closure b tr (s.handingOn tr) = (s.offered tr).settleDevices.awarded k q ∧
      s.EntryAwarded ((s.offered tr).settleDevices.awarded k q) k q tr.stamp (s.offered tr).events := by
  obtain ⟨hplay, hengine, -⟩ := settled_parts (tr := tr) hp
  have hball := ball_of_inPlay (offered_inPlay (tr := tr) hp)
  have hgame := settleDevices_game hball
  have hevents := settleDevices_events hball
  have hscanner := scanner_of_beside (settleDevices_beside (s.offered tr))
  have htime := (time_of_beside (settleDevices_beside (s.offered tr))).trans offered_offered.time
  have hlatch := latch_of_offered hscanner tr.switch
  rw [closure_of_unnamed b hq hp hn]
  have hplayers := (congrArg Game.players hgame).trans offered_players
  have hcurrent := (congrArg Game.current hgame).trans offered_current
  have hparams := (congrArg Game.params hgame).trans offered_params
  generalize (s.offered tr).settleDevices = z at hplay hengine hlatch hplayers hcurrent hparams hevents htime
  have haward : z.award k = s.award k := by rw [State.award, hengine, State.award]
  have hpass : z.conditionPasses (z.award k).condition = true := by
    rw [haward]
    rcases hcond with h | h <;> rw [h]
    · rfl
    · simp [State.conditionPasses, State.operandValue, State.latched, hlatch, hi]
  have hcurrentPlayer : z.player? z.game.current = some q := by rw [player?_congr hplayers, hcurrent, hplayer]
  refine ⟨?_, ?_⟩
  · rw [directWalk_of_plain _ k _ b hplay (by rw [hengine, ht]) (by rw [chain_congr hengine, hc]) (by rw [haward]; exact hk)
      hpass hcurrentPlayer]
    rfl
  · have hawarded := entryAwarded_awarded hplay k hcurrentPlayer
    rw [htime, hevents] at hawarded
    exact entryAwarded_congr hengine hplayers hcurrent hparams hawarded

/-- What a plain award leaves of the walk, the modes, the latch and the census. -/
theorem awarded_parts {k : Nat} {q : Player} (hp : s.inPlay = true) :
    let t := (s.offered tr).settleDevices.awarded k q
    t.engine.triggers = s.engine.triggers ∧ t.engine.root = none ∧ t.modes = s.modes ∧
      (tr.switch < 72 → (t.switch tr.switch).latch = true) ∧ t.census = (s.offered tr).census := by
  obtain ⟨hplay, hengine, -⟩ := settled_parts (tr := tr) hp
  have hb := settleDevices_beside (s.offered tr)
  have hmodes := (modes_of_beside hb).trans offered_modes
  have hcensus := census_of_beside hb
  have hscanner := scanner_of_beside hb
  have heq := awarded_eq hplay k q
  have hlatch := fun t h => latch_of_offered (s := s) (t := t) (tr := tr) h
  generalize (s.offered tr).settleDevices.awarded k q = x at heq
  generalize (s.offered tr).settleDevices = z at heq hengine hmodes hcensus hscanner
  dsimp only at heq ⊢
  refine ⟨?_, ?_, ?_, fun hi => ?_, ?_⟩
  · rw [heq, ← hengine]
  · rw [heq]
  · rw [heq, ← hmodes]
  · rw [hlatch x (by rw [heq, ← hscanner]), if_pos ⟨rfl, hi⟩]
  · rw [heq, ← hcensus]

/-! ### The closure of a switch that one device names -/

@[simp] theorem followInterlock_owed : u.followInterlock.devices.launchOwed = u.devices.launchOwed := by
  unfold State.followInterlock State.joinLine
  (repeat' split) <;> rfl
theorem settleDevices_owed (hp : u.inPlay = true) (h : u.devices.launchOwed = 0) : u.settleDevices.devices.launchOwed = 0 := by
  rw [settleDevices_of_ball (ball_of_inPlay hp), followInterlock_owed]
  rcases launchTest_cases (s := u) with e | ⟨ho, -, -⟩
  · rw [e, h]
  · omega

/-- Past the evidence, a device with no launch owed is left alone. -/
theorem ended_device (hp : u.inPlay = true) (ho : d = 1 → u.devices.launchOwed = 0) : u.ended.device d = u.device d := by
  have hplay : u.settleDevices.walked.inPlay = true := by rw [walked_inPlay, settleDevices_inPlay hp, hp]
  have howed : d = 1 → u.settleDevices.walked.devices.launchOwed = 0 := fun hd => settleDevices_owed hp (ho hd)
  rw [State.ended, settleDevices_device (ball_of_inPlay hplay) d howed, State.walked, onEngine_device,
    settleDevices_device (ball_of_inPlay hp) d ho]

/-- Where its evidence brings no arrival, the closure leaves the device that names the switch as its evidence made it. -/
theorem closure_device (b : Bool) (hq : s.quietEngine = true) (hp : s.inPlay = true) (ht : s.engine.triggers = [])
    (hc : s.chain tr.switch = []) (hd : d < 8) (ho : d = 1 → s.devices.launchOwed = 0)
    (hn : ∀ e < 8, e ≠ d → s.Unnamed tr.switch e)
    (ha : ((State.deviceEvidence tr.switch (s.offered tr) d).device d).arrivals = []) :
    (State.closure b tr (s.handingOn tr)).device d = (State.deviceEvidence tr.switch (s.offered tr) d).device d := by
  obtain ⟨-, hpaused, harrivals⟩ := quietEngine_parts hq
  have hworking := offered_working (tr := tr) hpaused
  have hfold := foldl_evidence_of_named b hd hworking (fun e he hne => offered_unnamed (hn e he hne))
    (fun e he => (offered_arrivals e).trans (harrivals e he)) ha
  have hevident := deviceEvidence_evident (s := s.offered tr) (d := d) tr.switch
  have hengine := hevident.engine.trans offered_engine
  have hplay := hevident.inPlay (offered_inPlay hp)
  have howed : d = 1 → (State.deviceEvidence tr.switch (s.offered tr) d).devices.launchOwed = 0 := fun h1 =>
    (hevident.owed (by omega)).trans (offered_offered.owed.trans (ho h1))
  have htime := hevident.time.trans hworking.time
  rw [closure_of_play b hq hp, State.evidenceAndWalk, hfold]
  generalize State.deviceEvidence tr.switch (s.offered tr) d = y at hengine hplay howed htime
  have hsettled : y.settleDevices.engine = s.engine := (engine_of_beside (settleDevices_beside y)).trans hengine
  have hwalk : y.ownWalk b tr = y.ended := by
    refine (evidenceAndWalk_nil y b tr (by rw [hengine]; exact hpaused)).trans ?_
    rw [at_of_working ⟨by rw [hengine]; exact hpaused, htime⟩, directWalk_of_nil _ _ b (by rw [settleDevices_inPlay hplay, hplay])
      (by rw [hsettled, ht]) (by rw [chain_congr hsettled, hc])]
    rfl
  rw [hwalk, ended_device hplay howed]

/-- The evidence of a device that names the switch once. -/
theorem deviceEvidence_of_entry (hc : s.configured d = true) (he : (s.device d).record.entrySwitch = some i)
    (hx : (s.device d).record.exitSwitch ≠ some i) : State.deviceEvidence i s d = s.entryClosure d := by
  have hrecord : ((s.entryClosure d).device d).record = (s.device d).record := by
    obtain ⟨-, -, -, hrecord, -⟩ := sameSettings_of_frame_eq (State.entryClosure_frame s d)
    exact hrecord d
  have hentry : (if s.configured d = true ∧ (s.device d).record.entrySwitch = some i then s.entryClosure d else s) =
      s.entryClosure d := if_pos ⟨hc, he⟩
  unfold State.deviceEvidence
  dsimp only
  rw [hentry]
  exact if_neg fun h => hx (hrecord ▸ h.2)
theorem deviceEvidence_of_exit (hc : s.configured d = true) (hx : (s.device d).record.exitSwitch = some i)
    (he : (s.device d).record.entrySwitch ≠ some i) : State.deviceEvidence i s d = s.exitClosure d := by
  have hentry : (if s.configured d = true ∧ (s.device d).record.entrySwitch = some i then s.entryClosure d else s) = s :=
    if_neg fun h => he h.2
  unfold State.deviceEvidence
  dsimp only
  rw [hentry]
  exact if_pos ⟨hc, hx⟩

/-- Settles O7: the walk of an empty chain, of one plain entry and of one that is passed over, and the evidence of one device. -/
theorem closureInPlay : Obligations.ClosureInPlay := by
  refine ⟨fun i b s tr hw hc hr hq hp ht hn hchain => ?_, fun i k b s tr q hi hw hc hr hq hp ht hn hchain hplayer => ?_,
    fun i d b s tr hw hc hr hq hp ht hchain hd hconf ho hs hn => ?_⟩
  · obtain rfl := waitingOf_switch hw
    refine ⟨_, exec_switchClosure b hw hc hr, ?_⟩
    rw [closure_of_emptyChain b hq hp ht hn hchain]
    obtain ⟨hlatch, hothers, hplayers, htriggers, hroot, hmodes, hcabinet⟩ := ended_parts (tr := tr) hp
    refine ⟨hlatch, hothers, hplayers, htriggers.trans ht, hroot, hmodes, hcabinet, fun hrole => ?_⟩
    obtain ⟨hscanner, hcensus, hgame⟩ := ended_playfield (tr := tr) hp
    rw [hscanner, hcensus, hgame]
    exact offered_playfield hrole hp
  · obtain rfl := waitingOf_switch hw
    refine ⟨fun hplain hcond => ?_, fun hedge => ?_⟩
    · obtain ⟨hclosure, hawarded⟩ := closure_of_plain b hq hp ht hn hchain hplayer hplain hcond hi
      obtain ⟨htriggers, hroot, hmodes, hlatch, hcensus⟩ := awarded_parts (tr := tr) (k := k) (q := q) hp
      refine ⟨_, exec_switchClosure b hw hc hr, ?_⟩
      rw [hclosure]
      refine ⟨htriggers.trans ht, hroot, hmodes, hlatch hi, fun hrole => ?_, fun hrole => ?_⟩
      · rw [hcensus]
        rw [offered_cabinet hrole] at hawarded ⊢
        exact ⟨rfl, hawarded⟩
      · rw [hcensus]
        obtain ⟨-, hvalidated, -⟩ := offered_playfield hrole hp
        obtain ⟨more, hmore⟩ := offered_logged (s := s) (tr := tr)
        exact ⟨hvalidated, more, hmore ▸ hawarded⟩
    · obtain ⟨-, -, hplayers, -, hroot, -, hcabinet⟩ := ended_parts (tr := tr) hp
      refine ⟨_, exec_switchClosure b hw hc hr, ?_⟩
      rw [closure_of_otherEdge b hq hp ht hn hchain hedge]
      exact ⟨hroot, hplayers, fun hrole => (hcabinet hrole).2.2.2⟩
  · obtain rfl := waitingOf_switch hw
    obtain ⟨-, hpaused, harrivals⟩ := quietEngine_parts hq
    have hkept : (s.offered tr).device d = s.device d := offered_offered.device d hs
    have hconf' : (s.offered tr).configured d = true := by rw [configured_congr s d (congrArg Device.record hkept), hconf]
    have htime := (offered_working (tr := tr) hpaused).time
    have hdevice := closure_device (tr := tr) b hq hp ht hchain hd ho hn
    refine ⟨_, exec_switchClosure b hw hc hr, fun hentry hexit => ?_, fun hexit hentry => ?_⟩
    · rw [deviceEvidence_of_entry hconf' (by rw [hkept]; exact hentry) (by rw [hkept]; exact hexit)] at hdevice
      have hmade := entryClosure_made hd (by rw [hkept]; exact harrivals d hd) hdevice
      rw [hkept, htime] at hmade
      exact hmade
    · rw [deviceEvidence_of_exit hconf' (by rw [hkept]; exact hexit) (by rw [hkept]; exact hentry)] at hdevice
      have hmade := exitClosure_made hd (by rw [hkept]; exact harrivals d hd) (by rw [hkept]; exact hs) hdevice
      rw [hkept] at hmade
      exact hmade

end Sys2Proof.Machine
end

