-- ==== Sys2Proof/Proofs/Bounds.lean ====
section
/-! The bounds of the part's collections (R41, R54, R95, R175, R188): what each operation does with the Event Queue, the
pending-trigger list, the reply queue, the eject queues and the scores, and that no step passes a bound (O55). -/

namespace Sys2Proof.Machine

open Sys2Proof

/-- The five bounds of `State.CollectionsHeld`, as one fact that lemmas can be about. -/
structure State.Held (s : State) : Prop where
  events : s.EventsHeld
  triggers : s.TriggersHeld
  slots : s.SlotsHeld
  queues : s.QueuesHeld
  scores : s.ScoresHeld

theorem held_iff {s : State} : s.Held ↔ s.CollectionsHeld :=
  ⟨fun ⟨he, ht, hl, hq, hs⟩ => ⟨he, ht, hl, hq, hs⟩, fun ⟨he, ht, hl, hq, hs⟩ => ⟨he, ht, hl, hq, hs⟩⟩

variable {s : State}

/-! ### Updates of one block -/

/-- What the bounds read. -/
theorem held_congr {t : State} (he : t.events = s.events) (ht : t.engine.triggers = s.engine.triggers)
    (hl : t.link.slots = s.link.slots) (hq : ∀ d, (t.device d).queue = (s.device d).queue)
    (hp : t.game.players.map Player.score = s.game.players.map Player.score) : t.Held ↔ s.Held := by
  have hscores : ∀ u : State, u.ScoresHeld ↔ ∀ n ∈ u.game.players.map Player.score, n ≤ Config.scoreLimit := fun u => by
    simp [State.ScoresHeld]
  simp only [held_iff, State.CollectionsHeld, hscores, State.EventsHeld, State.TriggersHeld, State.SlotsHeld,
    State.QueuesHeld, he, ht, hl, hq, hp]

@[simp] theorem onScanner_held (f : Scanner → Scanner) : (s.onScanner f).Held ↔ s.Held := held_congr rfl rfl rfl (fun _ => rfl) rfl
@[simp] theorem onModes_held (f : Modes → Modes) : (s.onModes f).Held ↔ s.Held := held_congr rfl rfl rfl (fun _ => rfl) rfl
@[simp] theorem onCensus_held (f : Census → Census) : (s.onCensus f).Held ↔ s.Held := held_congr rfl rfl rfl (fun _ => rfl) rfl
@[simp] theorem onSearch_held (f : Search → Search) : (s.onSearch f).Held ↔ s.Held := held_congr rfl rfl rfl (fun _ => rfl) rfl
@[simp] theorem at_held (t : Stamp) : (s.at t).Held ↔ s.Held := held_congr rfl rfl rfl (fun _ => rfl) rfl
@[simp] theorem atNow_held : s.atNow.Held ↔ s.Held := at_held _
@[simp] theorem onSwitch_held (i : Nat) (f : Switch → Switch) : (s.onSwitch i f).Held ↔ s.Held := onScanner_held _
@[simp] theorem setLocked_held (d n : Nat) : (s.setLocked d n).Held ↔ s.Held := onCensus_held _
@[simp] theorem setStack_held (l : List ModeInst) : (s.setStack l).Held ↔ s.Held := onModes_held _
@[simp] theorem onEngine_held (f : Engine → Engine) (hf : ∀ c, (f c).triggers = c.triggers) :
    (s.onEngine f).Held ↔ s.Held := held_congr rfl (hf _) rfl (fun _ => rfl) rfl
@[simp] theorem onDevices_held (f : Devices → Devices) (hf : ∀ c, (f c).units = c.units) :
    (s.onDevices f).Held ↔ s.Held := held_congr rfl rfl rfl (fun d => by rw [onDevices_device s f hf]) rfl
@[simp] theorem onDevice_held (d : Nat) (f : Device → Device) (hf : ∀ v, (f v).queue = v.queue) :
    (s.onDevice d f).Held ↔ s.Held :=
  held_congr rfl rfl rfl (fun e => by rw [State.onDevice_device]; split <;> simp_all) rfl
@[simp] theorem onGame_held (f : Game → Game) (hf : ∀ g, (f g).players = g.players) :
    (s.onGame f).Held ↔ s.Held := held_congr rfl rfl rfl (fun _ => rfl) (congrArg _ (hf _))
@[simp] theorem onPlayer_held (p : Nat) (f : Player → Player) (hf : ∀ q, (f q).score = q.score) :
    (s.onPlayer p f).Held ↔ s.Held := by
  unfold State.onPlayer
  split
  · rfl
  · exact held_congr rfl rfl rfl (fun _ => rfl) (map_modify _ _ _ _ fun q _ => hf q)
@[simp] theorem onCurrent_held (f : Player → Player) (hf : ∀ q, (f q).score = q.score) :
    (s.onCurrent f).Held ↔ s.Held := onPlayer_held _ f hf

/-- The list of pending triggers emptied. -/
@[simp] theorem onEngine_held_of_nil (f : Engine → Engine) (hf : ∀ c, (f c).triggers = []) (h : s.Held) :
    (s.onEngine f).Held := ⟨h.1, by simp [hf], h.3, h.4, h.5⟩

/-- A device given a queue within the bound. -/
theorem onDevice_held_of_le (d : Nat) (f : Device → Device) (hf : (f (s.device d)).queue.length ≤ Config.queueOrders)
    (h : s.Held) : (s.onDevice d f).Held := by
  refine ⟨h.1, h.2, h.3, fun e he => ?_, h.5⟩
  rw [State.onDevice_device]
  split
  · exact hf
  · exact h.4 e he

/-- Every device has a queue within the bound, one that does not exist an empty one. -/
theorem queue_length_of_held (h : s.Held) (d : Nat) : (s.device d).queue.length ≤ Config.queueOrders := by
  by_cases hd : d < Config.deviceCount
  · exact h.queues d hd
  · simp [State.device, readTable_of_le _ _ _ (Nat.not_lt.1 hd), Device.reset]

/-- A device whose queue gets shorter. -/
theorem onDevice_held_of_shorter (d : Nat) (f : Device → Device) (hf : ∀ v, (f v).queue.length ≤ v.queue.length)
    (h : s.Held) : (s.onDevice d f).Held := onDevice_held_of_le d f ((hf _).trans (queue_length_of_held h d)) h

/-- The players' records, where every score stays within the limit. -/
theorem onGame_held_of_scores (f : Game → Game) (hf : ∀ q ∈ (f s.game).players, q.score ≤ Config.scoreLimit) (h : s.Held) :
    (s.onGame f).Held := ⟨h.1, h.2, h.3, h.4, hf⟩

/-- Each player's record written in a way that leaves the score alone. -/
theorem onPlayers_held (f : Game → Game) (k : Game → Player → Player) (hk : ∀ g q, (k g q).score = q.score)
    (hf : ∀ g, (f g).players = g.players.map (k g)) : (s.onGame f).Held ↔ s.Held :=
  held_congr rfl rfl rfl (fun _ => rfl) (by simp [hf, Function.comp_def, hk])

/-- A player's record written with a score within the limit. -/
theorem onPlayer_held_of_score (p : Nat) (f : Player → Player)
    (hf : ∀ q, q.score ≤ Config.scoreLimit → (f q).score ≤ Config.scoreLimit) (h : s.Held) : (s.onPlayer p f).Held := by
  unfold State.onPlayer
  split
  · exact h
  · refine onGame_held_of_scores _ (fun q hq => ?_) h
    obtain ⟨i, hi, rfl⟩ := List.mem_iff_getElem.1 hq
    have hi' : i < s.game.players.length := by simpa using hi
    have hq := h.5 _ (List.getElem_mem hi')
    simp only [List.getElem_modify]
    split
    · exact hf _ hq
    · exact hq

/-- The Link Port, where no more slots are held than before. -/
theorem onLink_held_of_le (f : Link → Link) (hf : (f s.link).slots.length ≤ Config.replySlots) (h : s.Held) :
    (s.onLink f).Held := ⟨h.1, h.2, hf, h.4, h.5⟩
theorem onLink_held (f : Link → Link) (hf : (f s.link).slots.length ≤ s.link.slots.length) (h : s.Held) :
    (s.onLink f).Held := onLink_held_of_le f (hf.trans h.3) h

/-- A record joins the Event Queue, or is counted at its end (R188, R189). -/
@[simp] theorem emitFor_held (p : Nat) (e : Event) (u a v : Nat) (h : s.Held) : (s.emitFor p e u a v).Held :=
  ⟨appendEvent_length _ _ h.1, h.2, h.3, h.4, h.5⟩
@[simp] theorem emit_held (e : Event) (u a v : Nat) (h : s.Held) : (s.emit e u a v).Held := emitFor_held _ e u a v h

theorem repeated_held (f : State → State) (hf : ∀ x : State, x.Held → (f x).Held) (k : Nat) (h : s.Held) :
    (repeated f k s).Held := repeated_keeps f hf k s h
theorem foldl_held {α : Type} (f : State → α → State) (hf : ∀ (x : State) a, x.Held → (f x a).Held) (l : List α)
    (h : s.Held) : (l.foldl f s).Held := foldl_keeps f hf l s h

/-- A choice between two states within the bounds. -/
theorem ite_held {c : Prop} [Decidable c] {t : State} (hs : s.Held) (ht : t.Held) : (if c then s else t).Held := by
  split
  · exact hs
  · exact ht

/-! ### Orders and the search -/

@[simp] theorem leaveLine_held (d : Nat) : (s.leaveLine d).Held ↔ s.Held := onDevices_held _ fun _ => rfl
@[simp] theorem joinLine_held (d : Nat) (h : s.Held) : (s.joinLine d).Held := by
  unfold State.joinLine; split <;> simp [h]
@[simp] theorem enterEjectWait_held (d : Nat) (h : s.Held) : (s.enterEjectWait d).Held := by
  unfold State.enterEjectWait; dsimp only; split <;> simp [h]
@[simp] theorem followInterlock_held (h : s.Held) : s.followInterlock.Held := by
  unfold State.followInterlock; (repeat' split) <;> simp [h]
@[simp] theorem dropSearch_held (d : Nat) (h : s.Held) : (s.dropSearch d).Held := by
  unfold State.dropSearch
  split
  · exact (leaveLine_held _).2 (onDevice_held_of_shorter _ _ (fun v => List.length_filter_le _ _) h)
  · exact h
@[simp] theorem dropSearches_held (h : s.Held) : s.dropSearches.Held :=
  (onSearch_held _).2 (foldl_held _ (fun _ d => dropSearch_held d) _ h)
@[simp] theorem searchNext_held (h : s.Held) : s.searchNext.Held := by
  unfold State.searchNext
  split
  · exact (onSearch_held _).2 h
  · exact (onSearch_held _).2 (enterEjectWait_held _ (onDevice_held_of_le _ _ (by simp) h))

/-- An order joins a queue only while it holds fewer than 8 (R95, R96). -/
@[simp] theorem queueOrder_held (d : Nat) (r : Reason) (l : Bool) (h : s.Held) : (s.queueOrder d r l).Held := by
  have hdrop := dropSearch_held d h
  unfold State.queueOrder
  dsimp only
  split
  · split
    · exact emit_held _ _ _ _ hdrop
    · rename_i hroom
      have hjoin := onDevice_held_of_le d (fun v => { v with queue := v.queue ++ [⟨r, s.time, l⟩] })
        (by simp only [List.length_append, List.length_singleton]; omega) hdrop
      (repeat' split) <;> simp [hjoin]
  · exact h
@[simp] theorem launchTest_held (h : s.Held) : s.launchTest.Held := by
  unfold State.launchTest; split <;> simp [h]
@[simp] theorem recoverDevice_held (d : Nat) (h : s.Held) : (s.recoverDevice d).Held := by
  unfold State.recoverDevice
  split
  · exact repeated_held _ (fun _ => queueOrder_held _ _ _) _ h
  · exact h
@[simp] theorem recover_held (h : s.Held) : s.recover.Held := by
  unfold State.recover
  split
  · exact foldl_held _ (fun _ d => recoverDevice_held d) _ h
  · exact h
@[simp] theorem settleDevices_held (h : s.Held) : s.settleDevices.Held := by simp (disch := simp [h]) [State.settleDevices]
@[simp] theorem searchOff_held (h : s.Held) : s.searchOff.Held := by simp [State.searchOff, h]
@[simp] theorem searchWait_held (h : s.Held) : s.searchWait.Held := by simp [State.searchWait, h]
@[simp] theorem toPhase_held (p : Phase) (h : s.Held) : (s.toPhase p).Held := by
  unfold State.toPhase; dsimp only; (repeat' split) <;> simp [h]
@[simp] theorem searchEnd_held (c : Nat) (h : s.Held) : (s.searchEnd c).Held := by simp (disch := simp [h]) [State.searchEnd]
@[simp] theorem playfieldActivity_held (h : s.Held) : s.playfieldActivity.Held := by
  unfold State.playfieldActivity; dsimp only; split <;> simp [h]
@[simp] theorem countActivity_held (h : s.Held) : s.countActivity.Held := by
  unfold State.countActivity; (repeat' split) <;> simp [h]

/-! ### Score and modes -/

@[simp] theorem replays_held (b a : Nat) (l : List Nat) (i : Nat) (h : s.Held) : (s.replays b a l i).Held := by
  induction l generalizing s i with
  | nil => simp [State.replays, h]
  | cons t l ih => simp only [State.replays]; (repeat' split) <;> simp [ih, h]

/-- Points are added up to the score limit (R54). -/
@[simp] theorem addPoints_held (n : Nat) (h : s.Held) : (s.addPoints n).Held := by
  have hscore : (s.onCurrent fun p => { p with score := min (s.current.score + n) Config.scoreLimit }).Held :=
    onPlayer_held_of_score _ _ (fun _ _ => Nat.min_le_right _ _) h
  unfold State.addPoints
  dsimp only
  split <;> simp [hscore]
@[simp] theorem award1_held (b : Nat) (c : Classes) (h : s.Held) : (s.award1 b c).Held := addPoints_held _ h
@[simp] theorem awardReported_held (e : Event) (u b : Nat) (c : Classes) (h : s.Held) : (s.awardReported e u b c).Held :=
  emit_held _ _ _ _ (award1_held b c h)
@[simp] theorem applyLaw_held (h : s.Held) : s.applyLaw.Held :=
  (setStack_held _).2 (foldl_held _ (fun x i hx => by split <;> simp [hx]) _ h)
@[simp] theorem endInstances_held (p : ModeInst → Bool) (r : Nat) (h : s.Held) : (s.endInstances p r).Held :=
  (setStack_held _).2 (foldl_held _ (fun _ _ => emit_held _ _ _ _) _ h)
@[simp] theorem modeStart_held (m : Nat) (h : s.Held) : (s.modeStart m).1.Held := by
  unfold State.modeStart; dsimp only; (repeat' split) <;> simp [h]
@[simp] theorem modeStop_held (m : Nat) (h : s.Held) : (s.modeStop m).1.Held := by
  unfold State.modeStop; split <;> simp [h]

/-- A trigger joins the list only while it holds fewer than 16 (R41). -/
@[simp] theorem appendTrigger_held (t : Nat) (h : s.Held) : (s.appendTrigger t).Held := by
  unfold State.appendTrigger
  (repeat' split)
  · rename_i hroom
    exact ⟨h.1, by simpa [State.TriggersHeld] using hroom, h.3, h.4, h.5⟩
  · exact emit_held _ _ _ _ h
  · exact h
@[simp] theorem modeComplete_held (m : Nat) (h : s.Held) : (s.modeComplete m).Held :=
  applyLaw_held (endInstances_held _ _ (appendTrigger_held _ (awardReported_held _ _ _ _ h)))
@[simp] theorem modeProgress_held (m : Nat) (h : s.Held) : (s.modeProgress m).1.Held := by
  unfold State.modeProgress; dsimp only; (repeat' split) <;> simp [h]
@[simp] theorem modeTimeouts_held (h : s.Held) : s.modeTimeouts.Held := by
  unfold State.modeTimeouts; split <;> simp [h]
@[simp] theorem modesMultiballEnd_held (h : s.Held) : s.modesMultiballEnd.Held := by
  unfold State.modesMultiballEnd; (repeat' split) <;> simp [h]
@[simp] theorem saveInstances_held (l : List ModeInst) (h : s.Held) : (s.saveInstances l).Held := by
  induction l generalizing s with
  | nil => exact h
  | cons i l ih =>
    simp only [State.saveInstances]
    split <;> exact ih (emit_held _ _ _ _ (by simp [h]))
@[simp] theorem modesBallEnd_held (h : s.Held) : s.modesBallEnd.Held := by
  have hends : ∀ u : State, u.Held →
      (((u.endInstances (fun i => (u.modeDef i.mode).atBallEnd == .ends) 4).saveInstances
        (u.endInstances (fun i => (u.modeDef i.mode).atBallEnd == .ends) 4).modes.stack).setStack []).Held :=
    fun u hu => (setStack_held _).2 (saveInstances_held _ (endInstances_held _ _ hu))
  unfold State.modesBallEnd
  dsimp only
  split
  · exact hends _ ((onModes_held _).2 (endInstances_held _ _ h))
  · exact hends _ h
@[simp] theorem modesRestore_held (h : s.Held) : s.modesRestore.Held := by
  have hplaced : (s.current.saved.foldl State.restoreOne s).Held := foldl_held _ (fun _ _ => (onModes_held _).2) _ h
  exact foldl_held _ (fun _ _ => emit_held _ _ _ _) _ (by simp [hplaced])
@[simp] theorem modesGameEnd_held : s.modesGameEnd.Held ↔ s.Held :=
  (onPlayers_held _ (fun _ p => { p with saved := [] }) (fun _ _ => rfl) fun _ => rfl).trans (onModes_held _)

/-! ### Census -/

@[simp] theorem findByCount_held (u : Option Nat) (k : Nat) (h : s.Held) : (s.findByCount u k).Held := by
  induction k generalizing s with
  | zero => exact h
  | succ k ih => simp [State.findByCount, ih, h]
@[simp] theorem recompute_held (u : Option Nat) (h : s.Held) : (s.recompute u).Held := by
  unfold State.recompute; dsimp only; (repeat' split) <;> simp [h]
@[simp] theorem lockedLost_held (d : Nat) (h : s.Held) : (s.lockedLost d).Held := by
  unfold State.lockedLost; dsimp only; split <;> simp [h]
@[simp] theorem settleAt_held (d n : Nat) (h : s.Held) : (s.settleAt d n).Held := by
  unfold State.settleAt
  dsimp only
  refine ite_held h (recompute_held _ ?_)
  (repeat' split) <;> simp (disch := simp [h])
@[simp] theorem saveEnd_held (c : Nat) (h : s.Held) : (s.saveEnd c).Held := by
  unfold State.saveEnd; split <;> simp [h]
@[simp] theorem saveExpiry_held (h : s.Held) : s.saveExpiry.Held := by
  unfold State.saveExpiry; split <;> simp [h]
@[simp] theorem serveToPlay_held (h : s.Held) : s.serveToPlay.Held := by
  unfold State.serveToPlay; split <;> simp [h]
@[simp] theorem offerClosure_held (i : Nat) (h : s.Held) : (s.offerClosure i).Held := by
  have hfound : (s.foundByClosure i).Held := by
    unfold State.foundByClosure; dsimp only; split <;> simp [h]
  unfold State.offerClosure State.validate; dsimp only; split <;> simp [hfound]
@[simp] theorem launchServe_held (h : s.Held) : s.launchServe.Held := queueOrder_held _ _ _ h
@[simp] theorem releaseFrom_held (k w : Nat) (h : s.Held) : (s.releaseFrom k w).1.Held :=
  repeated_held _ (fun x hx => by simp [hx]) _ h
@[simp] theorem releaseLocked_held (w : Nat) (l : List Nat) (h : s.Held) : (s.releaseLocked w l).1.Held := by
  induction l generalizing s w with
  | nil => exact h
  | cons k l ih => simp [State.releaseLocked, ih, h]
@[simp] theorem serveFromTrough_held (w : Nat) (h : s.Held) : (s.serveFromTrough w).1.Held := by
  induction w generalizing s with
  | zero => exact h
  | succ w ih => simp only [State.serveFromTrough]; split <;> simp [ih, h]
@[simp] theorem servingProcedure_held (w : Nat) (b : Bool) (h : s.Held) : (s.servingProcedure w b).1.Held := by
  unfold State.servingProcedure; dsimp only; split <;> simp [h]
@[simp] theorem multiballServe_held (k : Nat) (h : s.Held) : (s.multiballServe k).1.Held := by
  unfold State.multiballServe; dsimp only; split <;> simp [h]
@[simp] theorem multiballRise_held (h : s.Held) : s.multiballRise.Held := by
  unfold State.multiballRise; split <;> simp [h]
@[simp] theorem startModeOf_held (k : Nat) (h : s.Held) : (s.startModeOf k).Held := by
  unfold State.startModeOf; split <;> simp [h]
@[simp] theorem multiballStart_held (k : Nat) (h : s.Held) : (s.multiballStart k).Held := by
  have hrise := multiballRise_held (multiballServe_held k h)
  unfold State.multiballStart; dsimp only; split <;> simp (disch := simp [hrise])
@[simp] theorem multiballStack_held (k : Nat) (h : s.Held) : (s.multiballStack k).Held := by
  simp (disch := simp [h]) [State.multiballStack]
@[simp] theorem mbStart_held (k : Nat) (h : s.Held) : (s.mbStart k).Held := by
  unfold State.mbStart; (repeat' split) <;> simp [h]
@[simp] theorem addBall_held (h : s.Held) : s.addBall.Held := by
  unfold State.addBall; split <;> simp [h]
@[simp] theorem multiballEnd_held (h : s.Held) : s.multiballEnd.Held := by
  have hjackpot : ∀ u : State, u.Held →
      (u.onGame fun g => { g with players := g.players.map fun p => { p with jackpot := jackpotStart g.params } }).Held :=
    fun u => (onPlayers_held _ (fun g p => { p with jackpot := jackpotStart g.params }) (fun _ _ => rfl) fun _ => rfl).2
  unfold State.multiballEnd
  dsimp only
  refine modesMultiballEnd_held (ite_held (hjackpot _ ?_) ?_) <;> split <;> simp [h]
@[simp] theorem multiballFall_held (h : s.Held) : s.multiballFall.Held := by
  unfold State.multiballFall; split <;> simp [h]
@[simp] theorem ballEnd_held (h : s.Held) : s.ballEnd.Held := by
  have hmodes := modesBallEnd_held (saveEnd_held 4 h)
  exact recover_held (emit_held _ _ _ _ (toPhase_held _ (addPoints_held _ hmodes)))
@[simp] theorem ballLost_held (h : s.Held) : s.ballLost.Held := by
  unfold State.ballLost State.ballEndTest; split <;> simp [h]
@[simp] theorem declareMissing_held (h : s.Held) : s.declareMissing.Held := by
  unfold State.declareMissing State.replaceMissing; dsimp only; (repeat' split) <;> simp (disch := simp [h]) [h]
@[simp] theorem saveDrain_held (r : BallSave) (h : s.Held) : (s.saveDrain r).Held := by
  unfold State.saveDrain; dsimp only; split <;> simp (disch := simp [h])
@[simp] theorem lostDrain_held (h : s.Held) : s.lostDrain.Held := by simp [State.lostDrain, h]
@[simp] theorem drain_held (h : s.Held) : s.drain.Held := by
  unfold State.drain; dsimp only; (repeat' split) <;> simp [h]
@[simp] theorem returnBall_held (d : Nat) (h : s.Held) : (s.returnBall d).Held := queueOrder_held _ _ _ h
@[simp] theorem makeLock_held (d : Nat) (h : s.Held) : (s.makeLock d).Held := by
  unfold State.makeLock
  dsimp only
  refine ite_held (mbStart_held _ (emit_held _ _ _ _ ?_)) (emit_held _ _ _ _ ?_) <;> split <;> simp [h]
@[simp] theorem censusArrival_held (d : Nat) (h : s.Held) : (s.censusArrival d).Held := by
  unfold State.censusArrival State.lockDecision; (repeat' split) <;> simp [h]

/-! ### Eject cycles and evidence -/

@[simp] theorem restartSettle_held (d : Nat) (h : s.Held) : (s.restartSettle d).Held := by simp [State.restartSettle, h]
@[simp] theorem dueArrivals_held (d k : Nat) (h : s.Held) : (s.dueArrivals d k).Held := by simp [State.dueArrivals, h]

/-- A completed order leaves its queue (R102). -/
@[simp] theorem complete_held (d : Nat) (p : Bool) (k : Nat) (h : s.Held) : (s.complete d p k).Held := by
  have hover : (s.cycleOver d p).Held := by
    unfold State.cycleOver
    refine ite_held (onDevice_held_of_shorter _ _ ?_ (by simp [h])) (enterEjectWait_held d
      (onDevice_held_of_shorter _ _ ?_ (by simp [h]))) <;> cases p <;> simp
  have horder : ∀ o, ((s.cycleOver d p).orderLeft d o).Held := fun o => by
    unfold State.orderLeft; (repeat' split) <;> simp [hover]
  rw [complete_eq]
  split <;> simp [hover, horder]
@[simp] theorem confirm_held (d : Nat) (h : s.Held) : (s.confirm d).Held := complete_held _ _ _ h
@[simp] theorem faultSelf_held (d : Nat) (h : s.Held) : (s.faultSelf d).Held := complete_held _ _ _ (emit_held _ _ _ _ h)
@[simp] theorem attemptFailed_held (d : Nat) (h : s.Held) : (s.attemptFailed d).Held := by
  unfold State.attemptFailed; dsimp only; split <;> simp (disch := simp [h])
@[simp] theorem success_held (d : Nat) (h : s.Held) : (s.success d).Held := by
  unfold State.success; dsimp only; (repeat' split) <;> simp [h]
@[simp] theorem reactCount_held (d : Nat) (h : s.Held) : (s.reactCount d).Held := by
  unfold State.reactCount State.completeFallen; dsimp only; (repeat' split) <;> simp [h]
@[simp] theorem settleOut_held (d : Nat) (h : s.Held) : (s.settleOut d).Held := by
  unfold State.settleOut; dsimp only; (repeat' split) <;> refine reactCount_held _ (settleAt_held _ _ ?_) <;> simp [h]
@[simp] theorem countEntry_held (d : Nat) (h : s.Held) : (s.countEntry d).Held := by simp [State.countEntry, h]
@[simp] theorem deviceEvidence_held (i d : Nat) (h : s.Held) : (State.deviceEvidence i s d).Held := by
  have hentry : ∀ u : State, u.Held → (u.entryClosure d).Held := fun u hu => by
    unfold State.entryClosure; dsimp only; (repeat' split) <;> simp [hu]
  have hexit : ∀ u : State, u.Held → (u.exitClosure d).Held := fun u hu => by
    unfold State.exitClosure; dsimp only; (repeat' split) <;> simp [hu]
  unfold State.deviceEvidence; dsimp only; (repeat' split) <;> simp [h, hentry, hexit]
@[simp] theorem handToDevices_held (i : Nat) (h : s.Held) : (s.handToDevices i).Held :=
  settleDevices_held (foldl_held _ (fun _ d => deviceEvidence_held i d) _ h)
@[simp] theorem positionTransition_held (i : Nat) (c : Bool) (h : s.Held) : (s.positionTransition i c).Held := by
  have hsettle : ∀ l : List Nat, (l.foldl State.restartSettle s).Held := fun l =>
    foldl_held _ (fun _ d => restartSettle_held d) l h
  unfold State.positionTransition; dsimp only; split <;> simp [hsettle]
@[simp] theorem grant_held (d : Nat) (h : s.Held) : (s.grant d).Held := by
  have hqueue : ∀ (u : State) (f : Device → Device), u.Held →
      (∀ v, (f v).queue = v.queue.filter fun o => o.reason != .search) → (u.onDevice d f).Held := fun u f hu hf =>
    onDevice_held_of_shorter d f (fun v => by rw [hf]; exact List.length_filter_le _ _) hu
  unfold State.grant
  dsimp only
  split <;> simp [h, hqueue]
@[simp] theorem arbiterGrant_held (h : s.Held) : s.arbiterGrant.Held := by
  unfold State.arbiterGrant; (repeat' split) <;> simp [h]
@[simp] theorem endPulse_held (d : Nat) (h : s.Held) : (s.endPulse d).Held := by
  unfold State.endPulse; dsimp only; (repeat' split) <;> simp [h]
@[simp] theorem endWindow_held (d : Nat) (h : s.Held) : (s.endWindow d).Held := by
  unfold State.endWindow; dsimp only; split <;> simp [h]
@[simp] theorem cutPulses_held (h : s.Held) : s.cutPulses.Held :=
  settleDevices_held (foldl_held _ (fun _ d => endPulse_held d) _ h)

/-- Devices whose queues are emptied (R110, R113). -/
theorem clearDevices_held (f : Nat → Device → Device) (hf : ∀ i v, (f i v).queue = []) (h : s.Held) :
    (s.clearDevices f).Held := by
  refine ⟨h.1, h.2, h.3, fun d hd => ?_, h.5⟩
  have hq : ((s.clearDevices f).device d).queue = [] := by
    simp [State.device, State.clearDevices, readTable_mapTable _ _ Device.reset _ d hd, hf]
  simp [hq]
@[simp] theorem cancelDevices_held (h : s.Held) : s.cancelDevices.Held := clearDevices_held _ (fun _ _ => rfl) h

/-! ### Walks, roots and arrivals -/

@[simp] theorem act_held (a : Action) (h : s.Held) : (s.act a).Held := by
  unfold State.act; dsimp only; split <;> simp [h, State.clearLatches]
@[simp] theorem carryOut_held (i : Nat) (e : AwardEntry) (h : s.Held) : (s.carryOut i e).Held := by
  refine foldl_held _ (fun _ a => act_held a) _ ?_
  unfold State.matchPoints; (repeat' split) <;> simp [h]
@[simp] theorem walkChain_held (g : Edge) (l : List Nat) (h : s.Held) : (s.walkChain g l).Held := by
  induction l generalizing s with
  | nil => exact h
  | cons i l ih => simp only [State.walkChain]; (repeat' split) <;> simp [ih, h]
@[simp] theorem walk_held (t : Nat) (g : Edge) (h : s.Held) : (s.walk t g).Held := by simp [State.walk, h]
@[simp] theorem afterWalk_held (h : s.Held) : s.afterWalk.Held := by
  unfold State.afterWalk; (repeat' split) <;> simp [h]

/-- The trigger of a pending walk leaves the list. -/
@[simp] theorem pendingWalk_held (h : s.Held) : s.pendingWalk.Held := by
  unfold State.pendingWalk
  split
  · exact h
  · simp [h]
  · rename_i r t rest _ hl
    have hrest : ((s.at r.stamp).onEngine fun c =>
        { c with triggers := rest, root := some { r with walks := r.walks + 1 } }).Held := by
      refine ⟨h.1, ?_, h.3, h.4, h.5⟩
      have ht := h.triggers
      simp only [State.TriggersHeld, hl, List.length_cons] at ht
      exact (Nat.le_succ _).trans ht
    split <;> simp [h, hrest]
@[simp] theorem finishRoot_held (h : s.Held) : s.finishRoot.Held := repeated_held _ (fun _ => pendingWalk_held) _ h
@[simp] theorem directWalk_held (t : Nat) (g : Edge) (b : Bool) (h : s.Held) : (s.directWalk t g b).Held := by
  unfold State.directWalk
  dsimp only
  refine ite_held (ite_held ?_ (finishRoot_held ?_)) h <;> exact afterWalk_held (walk_held _ _ (by simp [h]))
@[simp] theorem rootFromList_held (b : Bool) (h : s.Held) : (s.rootFromList b).Held := by
  unfold State.rootFromList; dsimp only; (repeat' split) <;> simp [h]
@[simp] theorem takeArrival_held (d : Nat) (b : Bool) (h : s.Held) : (s.takeArrival d b).Held := by
  unfold State.takeArrival
  split
  · exact h
  · exact directWalk_held _ _ _ (censusArrival_held _ (ite_held (emit_held _ _ _ _ (by simp [h])) (by simp [h])))
@[simp] theorem takeArrivals_held (d : Nat) (h : s.Held) : (s.takeArrivals d).Held :=
  repeated_held _ (fun _ => takeArrival_held d false) _ h
@[simp] theorem arrivalsWithin_held (b : Bool) (w : PausedWork) (d : Nat) (h : s.Held) : (s.arrivalsWithin b w d).Held := by
  unfold State.arrivalsWithin; split <;> simp [h]
@[simp] theorem evidenceAndWalk_held (b : Bool) (t : Transition) (l : List Nat) (h : s.Held) :
    (s.evidenceAndWalk b t l).Held := by
  have hevidence := foldl_held (State.evidenceThenArrivals b t)
    (fun x d hx => by unfold State.evidenceThenArrivals; split <;> simp (disch := simp [hx]) [hx]) l h
  unfold State.evidenceAndWalk State.ownWalk; split <;> simp (disch := simp [hevidence]) [hevidence]
@[simp] theorem triggerRoot_held (b : Bool) (t : Nat) (h : s.Held) : (s.triggerRoot b t).Held := by
  unfold State.triggerRoot; dsimp only; split <;> simp [h]
@[simp] theorem faultCleared_held (d : Nat) (x : Stamp) (h : s.Held) : (s.faultCleared d x).Held := by
  unfold State.faultCleared
  dsimp only
  refine ite_held (settleDevices_held (emit_held _ _ _ _ ?_)) h
  split <;> simp [h]
@[simp] theorem faultArrivals_held (b : Bool) (d : Nat) (x : Stamp) (h : s.Held) : (s.faultArrivals b d x).Held := by
  unfold State.faultArrivals; dsimp only; split <;> simp [h]

/-! ### Work that has paused, and catching up -/

@[simp] theorem answerInHand_held (p : List Byte) (h : s.Held) : (s.answerInHand p).Held := by
  unfold State.answerInHand
  split
  · exact onLink_held _ (by simp) h
  · exact h
@[simp] theorem resume_held (b : Bool) (h : s.Held) : (s.resume b).Held := by
  unfold State.resume; dsimp only; (repeat' split) <;> simp (disch := simp [h]) [h]
@[simp] theorem finishWork_held (h : s.Held) : s.finishWork.Held := resume_held _ (finishRoot_held h)
@[simp] theorem catchUp_held (h : s.Held) : s.catchUp.Held := by
  unfold State.catchUp
  split
  · exact h
  · exact settleDevices_held (foldl_held _ (fun _ d => takeArrivals_held d) _ (finishWork_held h))
theorem deviceEvent_held (due : State → Bool) (f : State → State) (hf : ∀ u : State, u.Held → (f u).Held) (h : s.Held) :
    (s.deviceEvent due f).Held := by
  unfold State.deviceEvent; dsimp only; split <;> simp (disch := simp [h, hf]) [h]
theorem handOn_held (i : Nat) (p : Transition → Bool) (f : Transition → State → State)
    (hf : ∀ t (u : State), u.Held → (f t u).Held) (h : s.Held) : (s.handOn i p f).Held := by
  unfold State.handOn State.handingOn; split <;> simp (disch := simp [h, hf]) [h, hf]

/-! ### Hand-ons, games and resets -/

@[simp] theorem reportSwitch_held (t : Transition) (h : s.Held) : (s.reportSwitch t).Held := by
  unfold State.reportSwitch; split <;> simp [h]
@[simp] theorem closure_held (b : Bool) (t : Transition) (h : s.Held) : (s.closure b t).Held := by
  unfold State.closure
  dsimp only
  refine evidenceAndWalk_held _ _ _ ?_
  (repeat' split) <;> simp (disch := simp [h])
@[simp] theorem opening_held (b : Bool) (t : Transition) (h : s.Held) : (s.opening b t).Held := by
  simp (disch := simp [h]) [State.opening]
@[simp] theorem tilt_held (i : Nat) (h : s.Held) : (s.tilt i).Held :=
  saveEnd_held 2 (onEngine_held_of_nil _ (fun _ => rfl) (emit_held _ _ _ _ (toPhase_held _ h)))
@[simp] theorem tiltClosure_held (i : Nat) (h : s.Held) : (s.tiltClosure i).Held := by
  unfold State.tiltClosure; dsimp only; (repeat' split) <;> simp [h]
@[simp] theorem endGame_held (i : Option Nat) (h : s.Held) : (s.endGame i).Held := by
  unfold State.endGame
  dsimp only
  refine recover_held ((onGame_held (fun g => { g with current := 0 }) fun _ => rfl).2
    (toPhase_held _ (emitFor_held _ _ _ _ _ ?_)))
  split <;> simp [h]
@[simp] theorem beginRound_held (r : Nat) (h : s.Held) : (s.beginRound r).Held := by simp (disch := simp [h]) [State.beginRound]
@[simp] theorem pauseEnd_held (h : s.Held) : s.pauseEnd.Held := by
  unfold State.pauseEnd State.searchFail; dsimp only; (repeat' split) <;> simp (disch := simp [h])
@[simp] theorem freshBall_held (h : s.Held) : s.freshBall.Held := by simp (disch := simp [h]) [State.freshBall]
@[simp] theorem ballStart_held (h : s.Held) : s.ballStart.Held := by
  have hcleared : s.ballCleared.Held := by
    simp [State.ballCleared, State.clearPerBall, State.clearLatches, Player.ballReset, h]
  have hbegun : s.ballBegun.Held :=
    emit_held _ _ _ _ (modesRestore_held (toPhase_held _ (freshBall_held hcleared)))
  rw [ballStart_eq]
  split <;> simp [hbegun]

/-- A new record has no points (R145). -/
theorem onNewPlayers_held (f : Game → Game)
    (hf : ∀ q ∈ (f s.game).players, q ∈ s.game.players ∨ ∃ g, q = .start g) (h : s.Held) : (s.onGame f).Held := by
  refine onGame_held_of_scores f (fun q hq => ?_) h
  rcases hf q hq with hq | ⟨g, rfl⟩
  · exact h.5 q hq
  · exact Nat.zero_le _
@[simp] theorem gameStart_held (h : s.Held) : s.gameStart.Held := by
  have hplayers := onNewPlayers_held (fun g => { g with players := [.start g.params], current := 1, ballNumber := 1 })
    (fun q hq => .inr ⟨_, List.mem_singleton.1 hq⟩) h
  unfold State.gameStart State.censusGameStart State.clearAllLatches
  dsimp only
  refine ballStart_held (emit_held _ _ _ _ ?_)
  simp [hplayers]
@[simp] theorem gameOver_held (h : s.Held) : s.gameOver.Held := by
  simp (disch := simp [h]) [State.gameOver]
@[simp] theorem nextBall_held (h : s.Held) : s.nextBall.Held := by
  unfold State.nextBall; dsimp only; (repeat' split) <;> simp (disch := simp [h])

/-- A soft reset leaves its own record in the Event Queue and empties the list of triggers, the slots, the eject queues and the
list of players (R178, R191). -/
@[simp] theorem softReset_held (cause : Nat) (h : s.Held) : (s.softReset cause).Held := by
  have hlogged : (({ s.atNow with events := [] } : State).emitFor 0 .restartedSoft 0 cause 0).Held :=
    emitFor_held _ _ _ _ _ ⟨Nat.zero_le _, h.2, h.3, h.4, h.5⟩
  have hlink := onLink_held Link.softReset (Nat.zero_le _) hlogged
  have hengine : ∀ u : State, u.Held → (u.onEngine fun c =>
      { c with triggers := [], root := none, walking := none, paused := none }).Held :=
    fun u => onEngine_held_of_nil _ fun _ => rfl
  have hgame : ∀ u : State, u.Held → (u.onGame fun g =>
      { g with phase := .idle, players := [], current := 0, ballNumber := 0, lastTilt := none, search := .reset }).Held :=
    fun u => onNewPlayers_held _ fun q hq => absurd hq List.not_mem_nil
  have hcensus : ∀ u : State, u.Held → u.censusSoftReset.Held := fun u hu => by
    have := foldl_held State.lockedLost (fun _ d => lockedLost_held d) deviceNumbers hu
    simp [State.censusSoftReset, State.holdLocked, this]
  unfold State.softReset
  dsimp only
  refine recover_held (hcensus _ (clearDevices_held _ (fun _ _ => rfl) (hgame _ ((onModes_held _).2 (hengine _ ?_)))))
  exact (onScanner_held _).2 ((onScanner_held _).2 hlink)

/-! ### The link -/

/-- A frame is accepted only where a slot is free (R175). -/
theorem accept_slots (l : Link) (r : Request) (h : l.slots.length ≤ Config.replySlots) :
    (l.accept r).slots.length ≤ Config.replySlots := by
  unfold Link.accept
  split
  · rename_i hfree
    simpa using hfree.1
  · exact h
theorem takeFrame_slots (l : Link) (h : l.slots.length ≤ Config.replySlots) :
    l.takeFrame.slots.length ≤ Config.replySlots := by
  unfold Link.takeFrame
  split
  · exact h
  · split
    · exact accept_slots _ _ h
    · exact h

/-- The receiver writes no slot. -/
@[simp] theorem takeByte_slots (l : Link) (b : Byte) : (l.takeByte b).slots = l.slots := by
  unfold Link.takeByte Link.lengthByte Link.dataByte; (repeat' split) <;> rfl

/-- The transmitter frees a slot or none. -/
theorem sendByte_slots (l : Link) : l.sendByte.slots.length ≤ l.slots.length := by
  unfold Link.sendByte
  split
  · rename_i hs
    split <;> simp [hs]
  · exact Nat.le_refl _
theorem repeated_sendByte_slots (k : Nat) (l : Link) : (repeated Link.sendByte k l).slots.length ≤ l.slots.length := by
  induction k generalizing l with
  | zero => exact Nat.le_refl _
  | succ k ih => exact (ih _).trans (sendByte_slots l)
theorem replySent_held (h : s.Held) : s.replySent.Held := by
  unfold State.replySent
  split
  · have hsent := fun k => onLink_held (repeated Link.sendByte k) (repeated_sendByte_slots k s.link) h
    dsimp only
    split
    · exact softReset_held 0 (hsent _)
    · exact hsent _
  · exact h
theorem idle_held (h : s.Held) : s.idle.Held := by
  unfold State.idle
  (repeat' split)
  · exact pendingWalk_held h
  · exact resume_held true h
  · exact onLink_held _ (sendByte_slots _) h
  · exact h
  · exact h

/-! ### Requests -/

/-- A request handed on keeps its slot, or takes a free one in which it arrives (R175). -/
theorem toHandOn_held {r : Request} {u : State} (hu : s.toHandOn r = some u) (h : s.Held) : u.Held := by
  unfold State.toHandOn at hu
  split at hu
  · cases hu
  · obtain ⟨l, hl, rfl⟩ := Option.map_eq_some_iff.1 hu
    have hslots : l.slots.length ≤ Config.replySlots := by
      unfold Link.toHandOn at hl
      (repeat' split at hl) <;> cases hl
      · exact h.slots
      · rename_i hw
        have hroom := ((takesWhole_iff _).1 hw).1
        simpa using hroom
    exact ⟨h.1, h.2, hslots, h.4, h.5⟩

/-- The hand-on and the answer of a request keep the bounds when its work does. -/
theorem request_held (type tag : Byte) (p : List Byte) (f : List Byte → State → State × Answer)
    (hf : ∀ u : State, u.Held → (f p u).1.Held) (h : s.Held) : (s.request type tag p f).Held := by
  unfold State.request
  split
  · exact h
  · rename_i u hu
    have hwork := hf u (toHandOn_held hu h)
    split
    · exact hwork
    · exact onLink_held _ (by simp) hwork
theorem load_held (ok : Bool) (bad : Option Nat) (apply : State → State × Answer) (ha : (apply s).1.Held) (h : s.Held) :
    (s.load ok bad apply).1.Held := by
  unfold State.load
  (repeat' split) <;> assumption
theorem checked_held (ok : Bool) (bad : Option Nat) (taken : State × Answer) (ht : taken.1.Held) (h : s.Held) :
    (s.checked ok bad taken).1.Held := by
  unfold State.checked
  (repeat' split) <;> assumption
theorem scored_held (taken : State × Answer) (ht : taken.1.Held) (h : s.Held) : (s.scored taken).1.Held := by
  unfold State.scored
  split <;> assumption

/-! ### The work of the requests -/

theorem setParams_held (g : Params) (h : s.Held) : (s.setParams g).Held := by
  unfold State.setParams; dsimp only; (repeat' split) <;> simp (disch := simp [h])

/-- A load empties its device's queue (R90). -/
theorem loadDevice_held (d : Nat) (r : DeviceRecord) (h : s.Held) : (s.loadDevice d r).Held := by
  have hload : ∀ u : State, u.Held → (u.onDevice d fun v => v.load r).Held := fun u =>
    onDevice_held_of_le d _ (Nat.zero_le _)
  have hmeasure : ∀ u : State, u.Held → (u.measure d).Held := fun u hu => by
    unfold State.measure; split <;> simp [hu]
  have halign : ∀ u : State, u.Held → (u.alignLocked d).Held := fun u hu => by
    unfold State.alignLocked; split <;> simp [hu]
  unfold State.loadDevice State.quenchUnused
  refine settleDevices_held (recompute_held _ (halign _ (ite_held ((onCensus_held _).2 ?_) ?_))) <;>
    exact hmeasure _ ((onScanner_held _).2 (hload _ (by simp [h])))
theorem hostTrigger_held (b : Bool) (t : Nat) (h : s.Held) : (s.hostTrigger b t).1.Held := by
  unfold State.hostTrigger; split <;> simp [h]
theorem modeOperation_held (m op : Nat) (h : s.Held) : (s.modeOperation m op).1.Held := by
  unfold State.modeOperation; split <;> simp [h]

/-- The record of a player is one of the list. -/
theorem mem_of_player? {i : Nat} {q : Player} (hq : s.player? i = some q) : q ∈ s.game.players := by
  unfold State.player? at hq
  split at hq
  · cases hq
  · exact List.mem_of_getElem? hq

/-- SET_PLAYER holds a score at the limit (R147). -/
theorem writePlayer_held (i : Nat) (f : PlayerField) (n : Nat) (h : s.Held) : (s.writePlayer i f n).1.Held := by
  unfold State.writePlayer
  split
  · exact h
  · rename_i q hq
    have hscore : q.score ≤ Config.scoreLimit := h.scores q (mem_of_player? hq)
    refine onPlayer_held_of_score i _ (fun q' hq' => ?_) h
    cases f
    case score =>
      have : downToTen (min n Config.scoreLimit) ≤ min n Config.scoreLimit := Nat.div_mul_le_self _ _
      exact max_le hscore (this.trans (Nat.min_le_right _ _))
    all_goals exact hq'
theorem hostEject_held (d : Nat) (h : s.Held) : (s.hostEject d).1.Held := by
  unfold State.hostEject; dsimp only; (repeat' split) <;> simp (disch := simp [h]) [h]
theorem faultClear_held (b : Bool) (d : Nat) (h : s.Held) : (s.faultClear b d).Held := by
  unfold State.faultClear State.faultHost; split <;> simp (disch := simp [h]) [h]

/-! ### The requests by their payloads -/

theorem loadGame_held (p : List Byte) (h : s.Held) : (loadGame p s).1.Held := by
  unfold loadGame
  exact load_held _ _ _ (setParams_held _ h) h
theorem loadSwitch_held (p : List Byte) (h : s.Held) : (loadSwitch p s).1.Held :=
  load_held _ _ _ (by simp [State.quenchUnused, h]) h
theorem loadGroup_held (p : List Byte) (h : s.Held) : (loadGroup p s).1.Held := load_held _ _ _ (by simp [h]) h
theorem loadMode_held (p : List Byte) (h : s.Held) : (loadMode p s).1.Held := load_held _ _ _ (by simp [h]) h
theorem loadMultiball_held (p : List Byte) (h : s.Held) : (loadMultiball p s).1.Held := load_held _ _ _ (by simp [h]) h
theorem loadAward_held (p : List Byte) (h : s.Held) : (loadAward p s).1.Held := load_held _ _ _ (by simp [h]) h
theorem setDevice_held (p : List Byte) (h : s.Held) : (setDevice p s).1.Held := by
  refine load_held _ _ _ ?_ h
  dsimp only
  exact loadDevice_held _ _ h
theorem clearTables_held (p : List Byte) (h : s.Held) : (clearTables p s).1.Held := by
  refine load_held _ _ _ ?_ h
  dsimp only
  (repeat' split) <;> simp [h]
theorem startGame_held (p : List Byte) (h : s.Held) : (startGame p s).1.Held := by
  refine checked_held _ _ _ ?_ h
  (repeat' split)
  · exact h
  · exact h
  · dsimp only
    exact settleDevices_held (gameStart_held (atNow_held.2 (catchUp_held h)))
theorem addPlayer_held (p : List Byte) (h : s.Held) : (addPlayer p s).1.Held := by
  refine checked_held _ _ _ ?_ h
  split
  · exact emitFor_held _ _ _ _ _ (onNewPlayers_held _ (fun q hq =>
      (List.mem_append.1 hq).imp_right fun hq => ⟨_, List.mem_singleton.1 hq⟩) h)
  · exact h
theorem nextBallRequest_held (p : List Byte) (h : s.Held) : (nextBallRequest p s).1.Held := by
  refine checked_held _ _ _ ?_ h
  split
  · dsimp only
    exact settleDevices_held (nextBall_held (atNow_held.2 (catchUp_held h)))
  · exact h
theorem endGameRequest_held (p : List Byte) (h : s.Held) : (endGameRequest p s).1.Held := by
  refine checked_held _ _ _ ?_ h
  split
  · dsimp only
    exact endGame_held none h
  · exact h
theorem trigger_held (b : Bool) (p : List Byte) (h : s.Held) : (trigger b p s).1.Held :=
  checked_held _ _ _ (scored_held _ (hostTrigger_held _ _ h) h) h
theorem grantRequest_held (p : List Byte) (h : s.Held) : (grant p s).1.Held :=
  checked_held _ _ _ (scored_held _ (awardReported_held _ _ _ _ h) h) h
theorem modeControl_held (b : Bool) (p : List Byte) (h : s.Held) : (modeControl b p s).1.Held := by
  refine checked_held _ _ _ (scored_held _ ?_ h) h
  dsimp only
  exact settleDevices_held (rootFromList_held _ (modeOperation_held _ _ h))
theorem setPlayer_held (p : List Byte) (h : s.Held) : (setPlayer p s).1.Held :=
  checked_held _ _ _ (scored_held _ (writePlayer_held _ _ _ h) h) h
theorem eject_held (p : List Byte) (h : s.Held) : (eject p s).1.Held := checked_held _ _ _ (hostEject_held _ h) h
theorem clearFault_held (b : Bool) (p : List Byte) (h : s.Held) : (clearFault b p s).1.Held :=
  checked_held _ _ _ (faultClear_held _ _ h) h
theorem clearLatchesRequest_held (p : List Byte) (h : s.Held) : (clearLatchesRequest p s).1.Held :=
  checked_held _ _ _ (ite_held ((onScanner_held _).2 h) ((onScanner_held _).2 h)) h
theorem restart_held (p : List Byte) (h : s.Held) : (restart p s).1.Held :=
  checked_held _ _ _ (show (s.onLink fun l => { l with restarting := true }).Held from onLink_held _ (Nat.le_refl _) h) h
theorem readBack_held (ok : Bool) (bad : Option Nat) (data : List Byte) (h : s.Held) : (s.readBack ok bad data).1.Held :=
  checked_held _ _ _ h h

/-- The records fetched leave the Event Queue (R190). -/
theorem fetch_held (p : List Byte) (h : s.Held) : (fetch p s).1.Held := by
  refine checked_held _ _ _ ?_ h
  refine ⟨?_, h.2, h.3, h.4, h.5⟩
  simpa [State.EventsHeld] using h.1.trans (Nat.le_add_right _ _)

/-! ### Every command and every step -/

/-- A closure of a SLAM switch ends the game that is on. -/
theorem slamClosure_held (i : Nat) (h : s.Held) : ∃ t, exec (.slamClosure i) s = .next t ∧ t.Held := by
  refine ⟨_, rfl, handOn_held _ _ _ (fun t u hu => ?_) h⟩
  have hdevices := handToDevices_held t.switch (reportSwitch_held t hu)
  exact ite_held (endGame_held _ hdevices) hdevices
theorem tenth_held (h : s.Held) : ∃ t, exec .tenth s = .next t ∧ t.Held := by
  have hmodes : s.modesTenth.Held := by
    unfold State.modesTenth State.countDown; dsimp only; split <;> simp [h]
  refine ⟨_, rfl, ?_⟩
  unfold State.censusTenth State.saveCountDown; dsimp only; split <;> simp [hmodes]
theorem retryReady_held (d : Nat) (h : s.Held) : (s.retryReady d).Held := joinLine_held d (by simp [h])

/-- No command passes a bound. -/
theorem exec_held (c : Instr) (h : s.Held) : ∃ t, exec c s = .next t ∧ t.Held := by
  cases c
  case hardReset => exact ⟨_, rfl, held_iff.2 reset_collectionsHeld⟩
  case switchScan k => exact ⟨_, rfl, by unfold State.scan; dsimp only; split <;> simp [h]⟩
  case switchClosure i b => exact ⟨_, rfl, handOn_held _ _ _ (fun t _ => closure_held b t) h⟩
  case switchOpening i b => exact ⟨_, rfl, handOn_held _ _ _ (fun t _ => opening_held b t) h⟩
  case tiltClosure i =>
    exact ⟨_, rfl, handOn_held _ _ _ (fun t _ hu => tiltClosure_held _ (handToDevices_held _ (reportSwitch_held t hu))) h⟩
  case slamClosure i => exact slamClosure_held i h
  case tiltSlamOpening i => exact ⟨_, rfl, handOn_held _ _ _ (fun t _ => reportSwitch_held t) h⟩
  case deviceSwitchTransition i =>
    exact ⟨_, rfl, handOn_held _ _ _ (fun t _ hu => positionTransition_held _ _ (reportSwitch_held t hu)) h⟩
  case tenth => exact tenth_held h
  case modeTimeout => exact ⟨_, rfl, ite_held (modeTimeouts_held ((at_held _).2 h)) h⟩
  case ballSaveExpired => exact ⟨_, rfl, ite_held (saveExpiry_held ((at_held _).2 h)) h⟩
  case arrival d b => exact ⟨_, rfl, ite_held h (settleDevices_held (takeArrival_held d b (finishWork_held h)))⟩
  case settleExpired d => exact ⟨_, rfl, deviceEvent_held _ _ (fun _ => settleOut_held d) h⟩
  case holdOffExpired d => exact ⟨_, rfl, deviceEvent_held _ _ (fun _ => joinLine_held d) h⟩
  case coilGrant => exact ⟨_, rfl, deviceEvent_held _ _ (fun _ => arbiterGrant_held) h⟩
  case pulseEnd d => exact ⟨_, rfl, deviceEvent_held _ _ (fun _ => endPulse_held d) h⟩
  case confirmWindowEnd d => exact ⟨_, rfl, deviceEvent_held _ _ (fun _ => endWindow_held d) h⟩
  case retryIntervalEnd d => exact ⟨_, rfl, deviceEvent_held _ _ (fun _ => retryReady_held d) h⟩
  case searchWindowEnd d => exact ⟨_, rfl, deviceEvent_held _ _ (fun _ => complete_held _ _ _) h⟩
  case searchArm => exact ⟨_, rfl, deviceEvent_held _ _ (fun _ => beginRound_held 1) h⟩
  case searchStep => exact ⟨_, rfl, deviceEvent_held _ _ (fun _ => searchNext_held) h⟩
  case searchPauseEnd => exact ⟨_, rfl, deviceEvent_held _ _ (fun _ => pauseEnd_held) h⟩
  case requestFrame => exact ⟨_, rfl, onLink_held_of_le _ (takeFrame_slots _ h.slots) h⟩
  case interByteGap | framingError => exact ⟨_, rfl, onLink_held _ (Nat.le_refl _) h⟩
  case lineBreak | lineBreakEnd => exact ⟨_, rfl, onLink_held _ (by split <;> exact Nat.le_refl _) h⟩
  case byteReceived b => exact ⟨_, rfl, onLink_held _ (by simp) h⟩
  case longBreak => exact ⟨_, rfl, ite_held (softReset_held 1 (onLink_held _ (Nat.le_refl _) h)) h⟩
  case replySent => exact ⟨_, rfl, replySent_held h⟩
  case unknownType type tag p => exact ⟨_, rfl, ite_held (request_held _ _ _ _ (fun _ hu => hu) h) h⟩
  case setGame tag p => exact ⟨_, rfl, request_held _ _ _ _ (fun _ => loadGame_held p) h⟩
  case setSwitch tag p => exact ⟨_, rfl, request_held _ _ _ _ (fun _ => loadSwitch_held p) h⟩
  case setGroup tag p => exact ⟨_, rfl, request_held _ _ _ _ (fun _ => loadGroup_held p) h⟩
  case setDevice tag p => exact ⟨_, rfl, request_held _ _ _ _ (fun _ => setDevice_held p) h⟩
  case setMode tag p => exact ⟨_, rfl, request_held _ _ _ _ (fun _ => loadMode_held p) h⟩
  case setMultiball tag p => exact ⟨_, rfl, request_held _ _ _ _ (fun _ => loadMultiball_held p) h⟩
  case setAward tag p => exact ⟨_, rfl, request_held _ _ _ _ (fun _ => loadAward_held p) h⟩
  case clearTables tag p => exact ⟨_, rfl, request_held _ _ _ _ (fun _ => clearTables_held p) h⟩
  case startGame tag p => exact ⟨_, rfl, request_held _ _ _ _ (fun _ => startGame_held p) h⟩
  case addPlayer tag p => exact ⟨_, rfl, request_held _ _ _ _ (fun _ => addPlayer_held p) h⟩
  case nextBall tag p => exact ⟨_, rfl, request_held _ _ _ _ (fun _ => nextBallRequest_held p) h⟩
  case endGame tag p => exact ⟨_, rfl, request_held _ _ _ _ (fun _ => endGameRequest_held p) h⟩
  case triggerRequest tag p => exact ⟨_, rfl, request_held _ _ _ _ (fun _ => trigger_held _ _) h⟩
  case grantRequest tag p => exact ⟨_, rfl, request_held _ _ _ _ (fun _ => grantRequest_held p) h⟩
  case modeControl tag p => exact ⟨_, rfl, request_held _ _ _ _ (fun _ => modeControl_held _ _) h⟩
  case setPlayer tag p => exact ⟨_, rfl, request_held _ _ _ _ (fun _ => setPlayer_held p) h⟩
  case ejectRequest tag p => exact ⟨_, rfl, request_held _ _ _ _ (fun _ => eject_held p) h⟩
  case clearFault tag p => exact ⟨_, rfl, request_held _ _ _ _ (fun _ => clearFault_held _ _) h⟩
  case clearLatches tag p => exact ⟨_, rfl, request_held _ _ _ _ (fun _ => clearLatchesRequest_held p) h⟩
  case readStatus | readPlayer | readModes | readDevice | readAward | readSwitches =>
    exact ⟨_, rfl, request_held _ _ _ _ (fun _ => readBack_held _ _ _) h⟩
  case fetchEvents tag p => exact ⟨_, rfl, request_held _ _ _ _ (fun _ => fetch_held p) h⟩
  case restartRequest tag p => exact ⟨_, rfl, request_held _ _ _ _ (fun _ => restart_held p) h⟩

/-- Settles O55: a step is a command taken from the queue, or the part's own work on an empty one. -/
theorem stepKeepsCollections : Obligations.StepKeepsCollections := by
  intro s t hs ht
  have h := held_iff.2 hs
  unfold step at ht
  split at ht
  · cases ht
    exact held_iff.1 (idle_held h)
  · rename_i c rest _
    obtain ⟨u, e, hu⟩ := exec_held (s := { s with pending := rest }) c ⟨h.1, h.2, h.3, h.4, h.5⟩
    rw [e] at ht
    cases ht
    exact held_iff.1 hu

end Sys2Proof.Machine
end

