-- ==== Sys2Proof/Proofs/AwardLoads.lean ====
section
/-! SET_AWARD: the entry that a payload carries reads back from its three parts, the head, the condition and the rest (O34). -/

namespace Sys2Proof.Machine

open Sys2Proof

/-! ### The parts of a SET_AWARD payload (section 12.2.1) -/

/-- The number of bytes of a condition after its mark. -/
def AwardEntry.conditionSize (e : AwardEntry) : Nat := ((e.condition.map Condition.bytes).getD []).length

/-- The payload up to its condition, with the condition. -/
def AwardEntry.front (e : AwardEntry) (i : Nat) : List Byte :=
  u8 i ++ u8 e.state.code ++ u8 e.trigger ++ u8 e.edge.code ++ u8 e.gateKind.code ++ u8 e.gateMode ++
    u8 e.ballGate.code ++ optional e.condition Condition.bytes

/-- The payload behind its condition. -/
def AwardEntry.rear (e : AwardEntry) : List Byte :=
  u8 e.source.code ++ u48 e.base ++ u8 e.classes.code ++ u8 (if e.continuation = .goOn then 1 else 0) ++ mark e.report ++
    u8 e.actions.length ++ e.actions.flatMap Action.bytes

variable (e : AwardEntry) (i : Nat)

theorem payload_eq_front_rear : e.payload i = e.front i ++ e.rear := by
  simp [AwardEntry.payload, AwardEntry.bytes, AwardEntry.front, AwardEntry.rear]

theorem front_length : (e.front i).length = 8 + e.conditionSize := by
  simp [AwardEntry.front, AwardEntry.conditionSize, optional, mark, u8]
  omega

/-- A field behind the condition. -/
theorem fieldAt_rear (k w : Nat) : fieldAt (e.payload i) (8 + e.conditionSize + k) w = fieldAt e.rear k w := by
  rw [payload_eq_front_rear, ← front_length e i, fieldAt_append]

theorem byteAt_rear (k : Nat) : byteAt (e.payload i) (8 + e.conditionSize + k) = byteAt e.rear k := fieldAt_rear e i k 1
theorem byteAt_rear_first : byteAt (e.payload i) (8 + e.conditionSize) = byteAt e.rear 0 := byteAt_rear e i 0

/-- The codes of an entry's enumerations, each below the number of its values. -/
theorem entryCodes_lt : e.state.code < 3 ∧ e.edge.code < 2 ∧ e.gateKind.code < 3 ∧ e.ballGate.code < 3 ∧ e.source.code < 4 ∧
    e.classes.code < 8 := by
  refine ⟨?_, ?_, ?_, ?_, ?_, ?_⟩
  · cases e.state <;> decide
  · cases e.edge <;> decide
  · cases e.gateKind <;> decide
  · cases e.ballGate <;> decide
  · cases e.source <;> decide
  · obtain ⟨_ | _, _ | _, _ | _⟩ := e.classes <;> decide

/-- The fields before the condition. -/
theorem awardPayload_front (hi : i < 256) (ht : e.trigger < 104) (hg : e.gateMode < 16) :
    byteAt (e.payload i) 0 = i ∧ byteAt (e.payload i) 1 = e.state.code ∧ byteAt (e.payload i) 2 = e.trigger ∧
      byteAt (e.payload i) 3 = e.edge.code ∧ byteAt (e.payload i) 4 = e.gateKind.code ∧
      byteAt (e.payload i) 5 = e.gateMode ∧ byteAt (e.payload i) 6 = e.ballGate.code ∧
      byteAt (e.payload i) 7 = (if e.condition.isSome then 1 else 0) := by
  obtain ⟨hstate, hedge, hgate, hball, -, -⟩ := entryCodes_lt e
  refine ⟨?_, ?_, ?_, ?_, ?_, ?_, ?_, ?_⟩ <;>
    simp [AwardEntry.payload, AwardEntry.bytes, optional, byteAt, fieldAt, mark, u8, leBytes, leNat]
  case refine_8 => split <;> decide
  all_goals omega

/-- The fields of a condition (R30). -/
theorem awardPayload_condition (c : Condition) (hc : e.condition = some c) (ha : c.operandA < 256)
    (hb : ∀ b, c.operandB = some b → b < 256) :
    e.conditionSize = (if c.operandB.isSome then 5 else 4) ∧
      byteAt (e.payload i) 8 = c.source.code ∧ byteAt (e.payload i) 9 = c.operandA ∧
      byteAt (e.payload i) 10 = (if c.operandB.isSome then 1 else 0) ∧
      (∀ b, c.operandB = some b → byteAt (e.payload i) 11 = b) ∧
      byteAt (e.payload i) (7 + e.conditionSize) = c.polarity.code := by
  have hsource : c.source.code < 5 := by cases c.source <;> decide
  have hpolarity : c.polarity.code < 2 := by cases c.polarity <;> decide
  have hsize : e.conditionSize = (if c.operandB.isSome then 5 else 4) := by
    cases ho : c.operandB <;> simp [AwardEntry.conditionSize, hc, Condition.bytes, optional, mark, u8, leBytes, ho]
  rw [hsize]
  cases ho : c.operandB with
  | none =>
    simp [AwardEntry.payload, AwardEntry.bytes, hc, Condition.bytes, optional, byteAt, fieldAt, mark, u8, leBytes, leNat, ho]
    omega
  | some b =>
    have := hb b ho
    simp [AwardEntry.payload, AwardEntry.bytes, hc, Condition.bytes, optional, byteAt, fieldAt, mark, u8, leBytes, leNat, ho]
    omega

/-- The fields behind the condition, up to the actions. -/
theorem awardPayload_rear (hb : e.base ≤ 9999990) (hn : e.actions.length ≤ 4) :
    byteAt e.rear 0 = e.source.code ∧ fieldAt e.rear 1 6 = e.base ∧ byteAt e.rear 7 = e.classes.code ∧
      byteAt e.rear 8 = (if e.continuation = .goOn then 1 else 0) ∧ byteAt e.rear 9 = (if e.report then 1 else 0) ∧
      byteAt e.rear 10 = e.actions.length := by
  obtain ⟨-, -, -, -, hsource, hclasses⟩ := entryCodes_lt e
  refine ⟨?_, ?_, ?_, ?_, ?_, ?_⟩ <;>
    simp [AwardEntry.rear, byteAt, fieldAt, mark, u8, u48, leBytes, leNat]
  case refine_4 | refine_5 => split <;> decide
  all_goals omega

/-- The bytes of actions, seven for each. -/
theorem actionBytes_length (l : List Action) : (l.flatMap Action.bytes).length = 7 * l.length := by
  induction l with
  | nil => rfl
  | cons a l ih => simp [Action.bytes, u8, ih]; omega

/-- Action `j` of a list reads back from its bytes. -/
theorem actionBytes_readBack (l : List Action) (h : ∀ a ∈ l, a.argument < 256 ^ 6) (j : Nat) (hj : j < l.length) :
    byteAt (l.flatMap Action.bytes) (7 * j) = l[j].kind.code ∧
      fieldAt (l.flatMap Action.bytes) (7 * j + 1) 6 = l[j].argument := by
  induction l generalizing j with
  | nil => exact absurd hj (by simp)
  | cons a l ih =>
    have hlen : a.bytes.length = 7 := by simp [Action.bytes, u8]
    cases j with
    | zero =>
      have hcode : a.kind.code < 256 := by cases a.kind <;> decide
      have ha := h a (by simp)
      have hbytes : (a :: l).flatMap Action.bytes = u8 a.kind.code ++ (leBytes 6 a.argument ++ l.flatMap Action.bytes) := by
        simp [Action.bytes]
      have hone : (u8 a.kind.code).length + 0 = 1 := by simp [u8]
      rw [hbytes]
      refine ⟨(fieldAt_leBytes_append 1 _ _).trans (Nat.mod_eq_of_lt hcode), ?_⟩
      rw [show 7 * 0 + 1 = (u8 a.kind.code).length + 0 from hone.symm, fieldAt_append, fieldAt_leBytes_append]
      exact Nat.mod_eq_of_lt ha
    | succ j =>
      have hbytes : (a :: l).flatMap Action.bytes = a.bytes ++ l.flatMap Action.bytes := rfl
      rw [hbytes, byteAt, show 7 * (j + 1) = a.bytes.length + 7 * j by omega, Nat.add_assoc, fieldAt_append, fieldAt_append]
      exact ih (fun b hb => h b (by simp [hb])) j (by simpa using hj)

/-- The parts of a payload are those of its entry. -/
theorem awardParts_payload (hi : i < 256) (ht : e.trigger < 104) (hg : e.gateMode < 16) (hb : e.base ≤ 9999990)
    (hn : e.actions.length ≤ 4)
    (hc : ∀ c, e.condition = some c → c.operandA < 256 ∧ ∀ b, c.operandB = some b → b < 256) :
    awardParts (e.payload i) = ⟨e.conditionSize, 8 + e.conditionSize, e.actions.length⟩ := by
  have h7 := (awardPayload_front e i hi ht hg).2.2.2.2.2.2.2
  have hcount := (awardPayload_rear e hb hn).2.2.2.2.2
  have hsize : (if byteAt (e.payload i) 7 = 0 then 0 else if byteAt (e.payload i) 10 = 0 then 4 else 5) =
      e.conditionSize := by
    cases hcond : e.condition with
    | none => simp [h7, AwardEntry.conditionSize, hcond]
    | some c =>
      obtain ⟨hA, hB⟩ := hc c hcond
      obtain ⟨es, -, -, h10, -, -⟩ := awardPayload_condition e i c hcond hA hB
      cases ho : c.operandB <;> simp [h7, h10, es, hcond, ho]
  unfold awardParts
  simp only [hsize]
  rw [byteAt_rear, hcount]

/-! ### What is in its range passes its check and is stored as it stands (R25, R26) -/

/-- The value source of a code, as SET_AWARD reads it (section 12.2.1). -/
def valueSourceOfCode (n : Nat) : ValueSource := match n with | 0 => .fixed | 1 => .jackpot | 2 => .modeValue | _ => .none

/-- An operand of a condition in its ranges: its check passes, it is a byte, and nothing of it is dropped. -/
theorem operand_inRange (src : Source) (x : Nat) (h : src.operandOk x = true) (hs : src.stored x = x) : x < 256 := by
  cases src <;> simp [Source.operandOk, Source.stored, Config.switchCount, Config.groupCount] at h hs <;> omega

theorem condition_inRange (c : Condition) (h : c.inRange = true) :
    (c.source.operandOk c.operandA = true ∧ c.source.stored c.operandA = c.operandA ∧ c.operandA < 256) ∧
      ∀ b, c.operandB = some b → c.source.operandOk b = true ∧ c.source.stored b = b ∧ b < 256 := by
  simp only [Condition.inRange, Bool.and_eq_true, beq_iff_eq, Option.all_eq_true] at h
  obtain ⟨⟨hok, hstored⟩, hB⟩ := h
  refine ⟨⟨hok, hstored, operand_inRange _ _ hok hstored⟩, fun b hb => ?_⟩
  obtain ⟨hokB, hstoredB⟩ := hB b hb
  exact ⟨hokB, hstoredB, operand_inRange _ _ hokB hstoredB⟩

/-- The code of a condition source and of a polarity read back. -/
theorem sourceOfCode_code (src : Source) : src.code < 5 ∧ sourceOfCode src.code = src := by
  cases src <;> exact ⟨by decide, rfl⟩
theorem polarityOfCode_code (p : Polarity) :
    p.code < 2 ∧ (if p.code = 1 then Polarity.whenClear else .whenSet) = p := by
  cases p <;> exact ⟨by decide, rfl⟩

/-- The code of an action's kind reads back; an argument in its range is stored as it stands and fits its six bytes. -/
theorem actionKindOfCode_code (k : ActionKind) : k.code < 17 ∧ actionKindOfCode k.code = k := by
  cases k <;> exact ⟨by decide, rfl⟩
theorem argument_inRange (k : ActionKind) (x : Nat) (h : k.argumentOk x = true) (hs : k.stored x = x) : x < 256 ^ 6 := by
  cases k <;> simp [ActionKind.argumentOk, ActionKind.stored, Config.pointLimit, Config.bonusCountLimit] at h hs <;> omega

/-- A class set reads back from its code. -/
theorem classesOf_code (c : Classes) : classesOf c.code = c := by
  obtain ⟨_ | _, _ | _, _ | _⟩ := c <;> decide

/-- A point value in its range is held as it stands. -/
theorem heldPoints_of_ok (hi n : Nat) (h : pointsOk hi n = true) : heldPoints hi n = n := by
  simp only [pointsOk, Bool.and_eq_true, decide_eq_true_eq, beq_iff_eq] at h
  unfold heldPoints downToTen
  omega

/-- An entry in its ranges, its parts by name (R22, R26). -/
structure AwardEntry.Loadable (e : AwardEntry) : Prop where
  state : e.state ≠ .empty
  trigger : e.trigger < 104
  gateMode : e.gateMode < 16
  gate : e.gateKind = .any → e.gateMode = 0
  condition : ∀ c, e.condition = some c → c.inRange = true
  base : heldPoints Config.pointLimit e.base = e.base
  baseLimit : e.base ≤ 9999990
  count : e.actions.length ≤ 4
  argumentOk : ∀ a ∈ e.actions, a.kind.argumentOk a.argument = true
  stored : ∀ a ∈ e.actions, a.kind.stored a.argument = a.argument

theorem loadable_of_inRange (h : e.inRange = true) : e.Loadable := by
  simp only [AwardEntry.inRange, Bool.and_eq_true, Bool.or_eq_true, bne_iff_ne, beq_iff_eq, decide_eq_true_eq,
    List.all_eq_true, Option.all_eq_true] at h
  obtain ⟨⟨⟨⟨⟨⟨⟨hstate, htrigger⟩, hmode⟩, hgate⟩, hcond⟩, hbase⟩, hcount⟩, hactions⟩ := h
  have haction : ∀ a ∈ e.actions, a.kind.argumentOk a.argument = true ∧ a.kind.stored a.argument = a.argument := fun a ha => by
    simpa [Action.inRange] using hactions a ha
  refine ⟨hstate, htrigger, hmode, fun hany => ?_, hcond, heldPoints_of_ok _ _ hbase, ?_, hcount,
    fun a ha => (haction a ha).1, fun a ha => (haction a ha).2⟩
  · exact hgate.resolve_left fun hne => hne hany
  · simp only [pointsOk, Bool.and_eq_true, decide_eq_true_eq] at hbase
    exact hbase.1

/-! ### The payload of an entry in its ranges -/

section loadable

variable (h : e.Loadable) (hi : i < 256)
include h hi

theorem awardParts_loadable :
    awardParts (e.payload i) = ⟨e.conditionSize, 8 + e.conditionSize, e.actions.length⟩ := by
  refine awardParts_payload e i hi h.trigger h.gateMode h.baseLimit h.count fun c hc => ?_
  obtain ⟨⟨-, -, hA⟩, hB⟩ := condition_inRange c (h.condition c hc)
  exact ⟨hA, fun b hb => (hB b hb).2.2⟩

theorem awardLengthOk_loadable : awardLengthOk (e.payload i) = true := by
  have hlen : (e.payload i).length = 19 + e.conditionSize + 7 * e.actions.length := by
    rw [payload_eq_front_rear, List.length_append, front_length]
    have := actionBytes_length e.actions
    simp [AwardEntry.rear, u8, u48, mark] at this ⊢
    omega
  simp [awardLengthOk, awardParts_loadable e i h hi, hlen]

/-- Action `j` of the payload is that of the entry. -/
theorem awardAction_loadable (j : Nat) (hj : j < e.actions.length) :
    awardAction (e.payload i) j = (e.actions[j].kind.code, e.actions[j].argument) := by
  have hargs : ∀ a ∈ e.actions, a.argument < 256 ^ 6 := fun a ha =>
    argument_inRange _ _ (h.argumentOk a ha) (h.stored a ha)
  obtain ⟨hkind, harg⟩ := actionBytes_readBack e.actions hargs j hj
  have hrear : ∀ k w, fieldAt e.rear (11 + k) w = fieldAt (e.actions.flatMap Action.bytes) k w := fun k w => by
    have hfirst : (u8 e.source.code ++ u48 e.base ++ u8 e.classes.code ++
        u8 (if e.continuation = .goOn then 1 else 0) ++ mark e.report ++ u8 e.actions.length).length = 11 := by
      simp [u8, u48, mark]
    rw [AwardEntry.rear, ← hfirst, fieldAt_append]
  unfold awardAction
  simp only [awardParts_loadable e i h hi, Nat.add_assoc (8 + e.conditionSize), byteAt_rear, fieldAt_rear]
  rw [byteAt, Nat.add_assoc 11, hrear, hrear]
  exact Prod.ext hkind harg

/-- The condition reads back. -/
theorem awardCondition_loadable : awardCondition (e.payload i) = e.condition := by
  unfold awardCondition
  simp only [awardParts_loadable e i h hi]
  cases hc : e.condition with
  | none => simp [AwardEntry.conditionSize, hc]
  | some c =>
    obtain ⟨⟨hokA, hstoredA, hA⟩, hB⟩ := condition_inRange c (h.condition c hc)
    obtain ⟨es, h8, h9, -, h11, hlast⟩ := awardPayload_condition e i c hc hA fun b hb => (hB b hb).2.2
    have esource := (sourceOfCode_code c.source).2
    have epolarity := (polarityOfCode_code c.polarity).2
    rw [show 8 + e.conditionSize - 1 = 7 + e.conditionSize by omega, hlast, h8, h9, esource, hstoredA, epolarity]
    obtain ⟨source, a, b, polarity⟩ := c
    cases b with
    | none => simp [es]
    | some b => simp [es, h11 b rfl, (hB b rfl).2.1]

/-- The entry reads back. -/
theorem awardOf_loadable : awardOf (e.payload i) = e := by
  obtain ⟨-, h1, h2, h3, h4, h5, h6, -⟩ := awardPayload_front e i hi h.trigger h.gateMode
  obtain ⟨hsource, hbase, hclasses, hcont, hreport, -⟩ := awardPayload_rear e h.baseLimit h.count
  have hactions : (List.range e.actions.length).map (fun j =>
      (⟨actionKindOfCode (awardAction (e.payload i) j).1,
        (actionKindOfCode (awardAction (e.payload i) j).1).stored (awardAction (e.payload i) j).2⟩ : Action)) = e.actions := by
    refine List.ext_getElem (by simp) fun j _ hj => ?_
    simp [awardAction_loadable e i h hi j hj, (actionKindOfCode_code _).2, h.stored _ (List.getElem_mem hj)]
  have estate : (if e.state.code = 2 then EntryState.enabled else if e.state.code = 1 then .disabled else .empty) = e.state := by
    cases e.state <;> rfl
  have eedge : (if e.edge.code = 1 then Edge.opening else .close) = e.edge := by cases e.edge <;> rfl
  have ekind : (if e.gateKind.code = 2 then GateKind.absent else if e.gateKind.code = 1 then .running else .any) =
      e.gateKind := by cases e.gateKind <;> rfl
  have egate : (if e.gateKind.code = 0 then 0 else e.gateMode) = e.gateMode := by
    have := h.gate
    cases hk : e.gateKind <;> simp_all [GateKind.code]
  have eball : (if e.ballGate.code = 2 then BallGate.multi else if e.ballGate.code = 1 then .single else .any) =
      e.ballGate := by cases e.ballGate <;> rfl
  have esource : valueSourceOfCode e.source.code = e.source := by cases e.source <;> rfl
  have econt : (if (if e.continuation = .goOn then 1 else 0) = 1 then Continuation.goOn else .stop) = e.continuation := by
    cases e.continuation <;> rfl
  unfold awardOf
  simp only [awardParts_loadable e i h hi, awardCondition_loadable e i h hi, hactions, byteAt_rear, byteAt_rear_first,
    fieldAt_rear, h1, h2, h3, h4, h5, h6, hsource, hbase, hclasses, hcont, hreport, estate, eedge, ekind, egate, eball,
    econt, h.base, classesOf_code, (markByte_readBack e.report).2]
  exact congrArg (fun v => ({ e with source := v } : AwardEntry)) esource

/-- The checks of the condition's fields pass. -/
theorem conditionChecks_loadable : ∀ c ∈ conditionChecks (e.payload i), c.2 = true := by
  unfold conditionChecks
  simp only [awardParts_loadable e i h hi]
  cases hc : e.condition with
  | none => simp [AwardEntry.conditionSize, hc]
  | some c =>
    obtain ⟨⟨hokA, -, hA⟩, hB⟩ := condition_inRange c (h.condition c hc)
    obtain ⟨es, h8, h9, h10, h11, hlast⟩ := awardPayload_condition e i c hc hA fun b hb => (hB b hb).2.2
    obtain ⟨hsource, esource⟩ := sourceOfCode_code c.source
    have hpolarity := (polarityOfCode_code c.polarity).1
    rw [show 8 + e.conditionSize - 1 = 7 + e.conditionSize by omega, hlast, h8, h9, h10, esource]
    cases ho : c.operandB with
    | none => simp [es, ho, hsource, hokA, hpolarity, isMark]
    | some b => simp [es, ho, h11 b ho, hsource, hokA, (hB b ho).1, hpolarity, isMark]

/-- The checks of the actions' fields pass. -/
theorem actionChecks_loadable : ∀ c ∈ actionChecks (e.payload i), c.2 = true := by
  intro c hc
  simp only [actionChecks, awardParts_loadable e i h hi, List.mem_flatMap, List.mem_range, Nat.min_eq_left h.count] at hc
  obtain ⟨j, hj, hc⟩ := hc
  obtain ⟨hkind, ekind⟩ := actionKindOfCode_code e.actions[j].kind
  have harg := h.argumentOk _ (List.getElem_mem hj)
  simp only [awardAction_loadable e i h hi j hj, ekind, List.mem_cons, List.not_mem_nil, or_false] at hc
  rcases hc with rfl | rfl
  · exact decide_eq_true hkind
  · exact harg

/-- Every check passes (R25 step 3). -/
theorem awardBad_loadable : awardBad (e.payload i) = none := by
  obtain ⟨-, h1, h2, h3, h4, h5, h6, h7⟩ := awardPayload_front e i hi h.trigger h.gateMode
  obtain ⟨hsource, -, hclasses, hcont, hreport, hcount⟩ := awardPayload_rear e h.baseLimit h.count
  obtain ⟨hstate, hedge, hkind, hball, hsrc, hcls⟩ := entryCodes_lt e
  have hcontinue : (if e.continuation = .goOn then 1 else 0) < 2 := by split <;> decide
  have hpresent := (markByte_readBack e.condition.isSome).1
  have hmark := (markByte_readBack e.report).1
  refine firstBad_of_all _ fun c hc => ?_
  simp only [awardParts_loadable e i h hi, byteAt_rear, byteAt_rear_first, h1, h2, h3, h4, h5, h6, h7, hsource, hclasses,
    hcont, hreport, hcount, List.mem_append] at hc
  rcases hc with ((hc | hc) | hc) | hc
  · simp only [List.mem_cons, List.not_mem_nil, or_false] at hc
    rcases hc with rfl | rfl | rfl | rfl | rfl | rfl | rfl <;>
      simp [hstate, h.trigger, hedge, hkind, h.gateMode, hball, hpresent]
  · exact conditionChecks_loadable e i h hi c hc
  · simp only [List.mem_cons, List.not_mem_nil, or_false] at hc
    rcases hc with rfl | rfl | rfl | rfl | rfl <;> simp [hsrc, hcls, hcontinue, hmark, h.count]
  · exact actionChecks_loadable e i h hi c hc

/-- No value is held or rounded (R26). -/
theorem awardHeld_loadable : awardHeld (e.payload i) = false := by
  have hbase := (awardPayload_rear e h.baseLimit h.count).2.1
  simp only [awardHeld, awardOf_loadable e i h hi, awardParts_loadable e i h hi, fieldAt_rear, hbase, bne_self_eq_false,
    Bool.false_or, List.any_eq_false, List.mem_range]
  intro j hj
  simp [awardAction_loadable e i h hi j hj, (actionKindOfCode_code _).2, h.stored _ (List.getElem_mem hj)]

end loadable

/-! ### The load -/

/-- SET_AWARD in IDLE stores the entry. -/
theorem loadAward_payload (s : State) (hp : s.game.phase = .idle) (hi : i < 256) (he : e.inRange = true) :
    loadAward (e.payload i) s = (s.onEngine fun c => { c with awards := writeTable c.awards i e }, .ok []) := by
  have h := loadable_of_inRange e he
  have h0 := (awardPayload_front e i hi h.trigger h.gateMode).1
  unfold loadAward
  rw [load_of_idle _ _ _ _ hp (awardLengthOk_loadable e i h hi) (awardBad_loadable e i h hi)]
  simp [awardOf_loadable e i h hi, awardHeld_loadable e i h hi, h0, h.state, Answer.applied]

/-- Settles O34: the payload of an entry in its ranges reads back as the entry. -/
theorem setAwardStoresEntry : Obligations.SetAwardStoresEntry := by
  intro tag s i e hp hi he h
  exact congrArg Host.Outcome.next (request_of_work s
    { s with engine := { s.engine with awards := writeTable s.engine.awards i e } } 7 tag _ loadAward _ h rfl
    fun l => loadAward_payload e i { s with link := l, time := s.scanner.now } hp hi he)

end Sys2Proof.Machine
end

