-- ==== Sys2Proof/Proofs/ReadReplies.lean ====
section
/-! The six reads: each answers OK with its data, whose items are those the rules list (O51). -/

namespace Sys2Proof.Machine

open Sys2Proof

/-! ### The answer of a read -/

/-- An offered read whose payload passes its checks: the data behind OK is all that changes. -/
theorem request_read {s : State} (type tag : Byte) (p : List Byte) (f : List Byte → State → State × Answer)
    (data : State → List Byte) (h : s.Offers ⟨type, tag, p⟩) (hf : ∀ x, f p x = x.readBack true none (data x))
    (hd : ∀ l, data { s with link := l, time := s.scanner.now } = data s) :
    s.request type tag p f = s.onlyAnswered ⟨type, tag, p⟩ (0 :: data s) :=
  request_only_answered s type tag p f (.ok (data s)) h fun l => by rw [hf, hd]; rfl

/-! ### Codes by their place in the rule's list -/

theorem phase_idxOf (c : Phase) : [Phase.idle, .serve, .play, .tilt, .ballOver].idxOf c = c.code := by
  cases c <;> rfl

theorem deviceState_idxOf (c : DeviceState) :
    [DeviceState.disabled, .idle, .ejectWait, .pulsing, .confirming, .retryWait, .fault].idxOf c = c.code := by
  cases c <;> rfl

theorem searchPhase_idxOf (c : SearchPhase) : [SearchPhase.off, .waiting, .round, .pause].idxOf c = c.code := by
  cases c <;> rfl

theorem counting_idxOf (c : Counting) : [Counting.positions, .entryExit, .entryBlind].idxOf c = c.code := by
  cases c <;> rfl

theorem deviceRole_idxOf (c : DeviceRole) : [DeviceRole.unused, .trough, .shooter, .lock, .saucer].idxOf c = c.code := by
  cases c <;> rfl

theorem reason_idxOf (c : Reason) :
    [Reason.serve, .launch, .return, .release, .search, .recover, .host].idxOf c = c.code := by
  cases c <;> rfl

theorem role_idxOf (c : Role) : [Role.playfield, .cabinet, .tilt, .slam, .unused, .device].idxOf c = c.code := by
  cases c <;> rfl

theorem runState_code (c : RunState) : (if c = .running then 0 else 1) = c.code := by cases c <;> rfl

/-- The code of the saves of a ball save record: 255 for UNLIMITED. -/
theorem saves_byte (c : Saves) : (if c = .one then 1 else 255) = if c = .unlimited then 255 else 1 := by cases c <;> rfl

/-! ### The reads -/

theorem byteAt_cons (b : Byte) (p : List Byte) : byteAt (b :: p) 0 = b.toNat := by simp [byteAt, fieldAt, leNat]

theorem byteAt_cons_cons (a b : Byte) (p : List Byte) : byteAt (a :: b :: p) 1 = b.toNat := by
  simp [byteAt, fieldAt, leNat]

/-- STATUS answers with its snapshot (R180). -/
theorem exec_readStatus {s : State} {tag : Byte} (h : s.Offers ⟨20, tag, []⟩) :
    exec (.readStatus tag []) s = .next (s.onlyAnswered ⟨20, tag, []⟩ (0 :: s.statusData)) :=
  congrArg Host.Outcome.next (request_read 20 tag [] status _ h (fun _ => rfl) fun _ => rfl)

/-- READ_PLAYER answers with the player's record (R181). -/
theorem exec_readPlayer {s : State} {tag i : Byte} (hlo : 1 ≤ i.toNat) (hhi : i.toNat ≤ 4) (h : s.Offers ⟨21, tag, [i]⟩) :
    exec (.readPlayer tag [i]) s = .next (s.onlyAnswered ⟨21, tag, [i]⟩ (0 :: s.playerData i.toNat)) :=
  congrArg Host.Outcome.next (request_read 21 tag [i] readPlayer (fun x => x.playerData i.toNat) h
    (fun x => by simp [readPlayer, byteAt_cons, firstBad, hlo, hhi]) fun _ => rfl)

/-- READ_MODES answers with the stack, a saved list or a definition (R85). -/
theorem exec_readModes {s : State} {tag k n : Byte} (hk : k.toNat < 3) (hplayer : k.toNat = 1 → 1 ≤ n.toNat ∧ n.toNat ≤ 4)
    (hmode : k.toNat = 2 → n.toNat < 16) (h : s.Offers ⟨22, tag, [k, n]⟩) :
    exec (.readModes tag [k, n]) s = .next (s.onlyAnswered ⟨22, tag, [k, n]⟩ (0 :: s.modesData k.toNat n.toNat)) :=
  congrArg Host.Outcome.next (request_read 22 tag [k, n] readModes (fun x => x.modesData k.toNat n.toNat) h
    (fun x => by
      rw [readModes, byteAt_cons, byteAt_cons_cons]
      interval_cases k.toNat <;> simp_all [firstBad, Config.modeCount]) fun _ => rfl)

/-- READ_DEVICE answers with the device's record, figures and state (R91). -/
theorem exec_readDevice {s : State} {tag d : Byte} (hd : d.toNat < 8) (h : s.Offers ⟨23, tag, [d]⟩) :
    exec (.readDevice tag [d]) s = .next (s.onlyAnswered ⟨23, tag, [d]⟩ (0 :: s.deviceData d.toNat)) :=
  congrArg Host.Outcome.next (request_read 23 tag [d] readDevice (fun x => x.deviceData d.toNat) h
    (fun x => by simp [readDevice, deviceField, byteAt_cons, firstBad, Config.deviceCount, hd]) fun _ => rfl)

/-- READ_AWARD answers with the entry as stored and its successor (R27). -/
theorem exec_readAward {s : State} {tag i : Byte} (h : s.Offers ⟨24, tag, [i]⟩) :
    exec (.readAward tag [i]) s = .next (s.onlyAnswered ⟨24, tag, [i]⟩ (0 :: ((s.award i.toNat).bytes i.toNat ++
      mark (s.successor i.toNat).isSome ++ u8 ((s.successor i.toNat).getD 0)))) :=
  congrArg Host.Outcome.next (request_read 24 tag [i] readAward (fun x => (x.award i.toNat).bytes i.toNat ++
      mark (x.successor i.toNat).isSome ++ u8 ((x.successor i.toNat).getD 0)) h
    (fun x => by rw [readAward, byteAt_cons]; rfl) fun _ => rfl)

/-- READ_SWITCHES answers with every switch (R182). -/
theorem exec_readSwitches {s : State} {tag : Byte} (h : s.Offers ⟨25, tag, []⟩) :
    exec (.readSwitches tag []) s = .next (s.onlyAnswered ⟨25, tag, []⟩ (0 :: (List.range 72).flatMap s.switchData)) :=
  congrArg Host.Outcome.next (request_read 25 tag [] readSwitches (fun x => (List.range 72).flatMap x.switchData) h
    (fun _ => rfl) fun _ => rfl)

/-! ### The items of the data -/

/-- The successor of an entry is the next non-EMPTY entry of its trigger (R27). -/
theorem successor_eq (s : State) (i : Nat) : s.successor i = if (s.award i).state = .empty then none else
    (List.range 256).find? fun j => decide (i < j) && (s.award j).state != .empty &&
      (s.award j).trigger == (s.award i).trigger := by
  simp only [State.successor, State.chain, List.find?_filter, Config.awardCount]
  congr! 4
  grind

/-- A device stands in the ready line as its number stands among those of the line. -/
theorem inLine_eq_contains (s : State) (d : Nat) : s.inLine d = (s.devices.ready.map Ready.device).contains d := by
  simp only [State.inLine, List.contains_eq_any_beq, List.any_map]
  congr! 2
  exact Bool.beq_comm

/-- The measured total is the sum of the settled counts of the eight devices (R114). -/
theorem measured_eq_sum (s : State) : ((List.range 8).map s.countOf).sum = s.measured := by
  simp [State.measured, State.trough, State.shooter, playfieldDevices, List.range, List.range.loop, Nat.add_assoc]

/-- The pending entries or the raw count of a device, held at 255 (R91). -/
theorem unsettledCount_byte (s : State) (d : Nat) : count8 (s.unsettledCount d) =
    u8 (if s.configured d = false then 0 else min 255 (if (s.device d).record.figures.counting = .positions then
      ((s.device d).record.positions.filter fun i => (s.switch i).debounced).length else (s.device d).entries)) := by
  cases hc : s.configured d <;> simp [count8, State.unsettledCount, State.rawCount, hc, Nat.min_comm]

/-- The configured mark and the effective figures of a device, 14 bytes of 0 when it is DISABLED (R91). -/
theorem configuredBytes_figureBytes (r : DeviceRecord) : r.configuredBytes ++ r.figureBytes =
    if r.configured = true then mark true ++ u8 r.figures.counting.code ++ u8 r.figures.capacity ++ u16 r.figures.pulse ++
        u16 r.figures.settle ++ u16 r.figures.confirm ++ u16 r.figures.retryInterval ++ u8 r.figures.retryLimit ++
        u16 r.figures.holdOff ++ u8 (r.keepLimit.getD (r.figures.capacity - 1))
      else mark false ++ u8 (if r.role = .unused then 0 else 1) ++ List.replicate 14 0 := by
  cases hc : r.configured <;>
    simp [DeviceRecord.configuredBytes, DeviceRecord.figureBytes, DeviceRecord.keepLimitInForce, hc]

/-- Settles O51: each reply is its data laid out item by item. -/
theorem readsChangeNothing : Obligations.ReadsChangeNothing := by
  intro tag s statusDevice bip status player stack saved counting record device switch
  have hstatusDevice : statusDevice = s.statusDevice :=
    funext fun d => by simp only [statusDevice, deviceState_idxOf, State.statusDevice]
  have hstatus : status = s.statusData := by
    simp only [status, hstatusDevice, phase_idxOf, searchPhase_idxOf, measured_eq_sum, saves_byte, State.statusData,
      State.statusGame, State.statusCensus, State.statusRest, List.append_assoc]
    cases s.census.save <;> rfl
  have hplayer (i : Nat) : player i = s.playerData i := by
    cases hq : s.player? i <;> simp [player, State.playerData, Player.bytes, hq]
  have hstack (i : Nat) : stack = s.modesData 0 i := by
    simp only [stack, runState_code]
    rfl
  have hsaved (i : Nat) : saved i = s.modesData 1 i := by
    cases hq : s.player? i <;> simp only [saved, State.modesData, hq] <;> rfl
  have hrecord : record = DeviceRecord.bytes := by
    have hcode : counting = Counting.code := funext counting_idxOf
    funext r
    simp only [record, deviceRole_idxOf, hcode, DeviceRecord.bytes, Overrides.bytes, List.append_assoc]
  have hdevice (d : Nat) : device d = s.deviceData d := by
    simp only [device, hrecord, deviceState_idxOf, reason_idxOf, counting, counting_idxOf, State.deviceData,
      unsettledCount_byte, inLine_eq_contains, List.append_assoc, configuredBytes_figureBytes]
    rfl
  have hswitch : switch = s.switchData := funext fun i => by simp only [switch, role_idxOf, State.switchData]
  rw [hstatus, hswitch]
  refine ⟨exec_readStatus, fun i hlo hhi h => ?_, fun n h => ?_, fun n hlo hhi h => ?_,
    fun n hn h => exec_readModes (by simp) (by simp) (fun _ => hn) h, fun d hd h => ?_, fun i h => ?_, exec_readSwitches⟩
  · rw [exec_readPlayer hlo hhi h, hplayer]
  · rw [exec_readModes (by simp) (by simp) (by simp) h, hstack n.toNat]
    rfl
  · rw [exec_readModes (by simp) (fun _ => ⟨hlo, hhi⟩) (by simp) h, hsaved]
    rfl
  · rw [exec_readDevice hd h, hdevice]
  · rw [exec_readAward h, successor_eq]
    rfl

end Sys2Proof.Machine
end

