-- ==== Sys2Proof/Proofs/Recast.lean ====
section
/-! The Award Engine and the Link Port beside the actions: an action reads and writes of the engine the pending-trigger list at
most, and of the link nothing, so that a root, a pause or a link put in their place makes no difference to what it does. -/

namespace Sys2Proof.Machine

open Sys2Proof

variable (s : State) (f : Engine → Engine) (l : Link)

/-- The state with its Award Engine rewritten and its Link Port replaced. -/
def State.recast (s : State) (f : Engine → Engine) (l : Link) : State := { s with engine := f s.engine, link := l }

/-- The rewriting leaves the list alone, and the walk that a lost trigger's record names. -/
structure Transparent (f : Engine → Engine) : Prop where
  triggers : ∀ e, (f e).triggers = e.triggers
  walking : ∀ e, (f e).walking = e.walking
  append : ∀ e x, f { e with triggers := x } = { f e with triggers := x }

/-! ### What a recast leaves alone -/

@[simp] theorem recast_scanner : (s.recast f l).scanner = s.scanner := rfl
@[simp] theorem recast_modes : (s.recast f l).modes = s.modes := rfl
@[simp] theorem recast_devices : (s.recast f l).devices = s.devices := rfl
@[simp] theorem recast_census : (s.recast f l).census = s.census := rfl
@[simp] theorem recast_game : (s.recast f l).game = s.game := rfl
@[simp] theorem recast_events : (s.recast f l).events = s.events := rfl
@[simp] theorem recast_time : (s.recast f l).time = s.time := rfl
@[simp] theorem recast_switch (i : Nat) : (s.recast f l).switch i = s.switch i := rfl
@[simp] theorem recast_group (g : Nat) : (s.recast f l).group g = s.group g := rfl
@[simp] theorem recast_modeDef (m : Nat) : (s.recast f l).modeDef m = s.modeDef m := rfl
@[simp] theorem recast_inst? (m : Nat) : (s.recast f l).inst? m = s.inst? m := rfl
@[simp] theorem recast_device (d : Nat) : (s.recast f l).device d = s.device d := rfl
@[simp] theorem recast_configured (d : Nat) : (s.recast f l).configured d = s.configured d := rfl
@[simp] theorem recast_multiballDef (k : Nat) : (s.recast f l).multiballDef k = s.multiballDef k := rfl
@[simp] theorem recast_locked (d : Nat) : (s.recast f l).locked d = s.locked d := rfl
@[simp] theorem recast_player? (p : Nat) : (s.recast f l).player? p = s.player? p := rfl
@[simp] theorem recast_current : (s.recast f l).current = s.current := rfl
@[simp] theorem recast_inPlay : (s.recast f l).inPlay = s.inPlay := rfl
@[simp] theorem recast_multiplier (c : Classes) : (s.recast f l).multiplier c = s.multiplier c := rfl
@[simp] theorem recast_committed : (s.recast f l).committed = s.committed := rfl
@[simp] theorem recast_inLine (d : Nat) : (s.recast f l).inLine d = s.inLine d := rfl
@[simp] theorem recast_headReady (d : Nat) : (s.recast f l).headReady d = s.headReady d := rfl
@[simp] theorem recast_searchable (d : Nat) : (s.recast f l).searchable d = s.searchable d := rfl
@[simp] theorem recast_ballAvailable : (s.recast f l).ballAvailable = s.ballAvailable := rfl
@[simp] theorem recast_lawState (k : List ModeInst) (m : Nat) : (s.recast f l).lawState k m = s.lawState k m := rfl
@[simp] theorem recast_modeGate (e : AwardEntry) : (s.recast f l).modeGate e = s.modeGate e := rfl
@[simp] theorem recast_conditionPasses (c : Option Condition) :
    (s.recast f l).conditionPasses c = s.conditionPasses c := rfl
@[simp] theorem recast_entryMatches (g : Edge) (e : AwardEntry) : (s.recast f l).entryMatches g e = s.entryMatches g e := rfl
@[simp] theorem recast_entryBase (e : AwardEntry) : (s.recast f l).entryBase e = s.entryBase e := rfl
@[simp] theorem recast_placed (i : ModeInst) (k : List ModeInst) : (s.recast f l).placed i k = s.placed i k := by
  induction k with
  | nil => rfl
  | cons j k ih => simp [State.placed, ih]

/-! ### Block updates -/

@[simp] theorem onScanner_recast (g : Scanner → Scanner) : (s.recast f l).onScanner g = (s.onScanner g).recast f l := rfl
@[simp] theorem onModes_recast (g : Modes → Modes) : (s.recast f l).onModes g = (s.onModes g).recast f l := rfl
@[simp] theorem onCensus_recast (g : Census → Census) : (s.recast f l).onCensus g = (s.onCensus g).recast f l := rfl
@[simp] theorem onDevices_recast (g : Devices → Devices) : (s.recast f l).onDevices g = (s.onDevices g).recast f l := rfl
@[simp] theorem onDevice_recast (d : Nat) (g : Device → Device) :
    (s.recast f l).onDevice d g = (s.onDevice d g).recast f l := rfl
@[simp] theorem onSearch_recast (g : Search → Search) : (s.recast f l).onSearch g = (s.onSearch g).recast f l := rfl
@[simp] theorem setLocked_recast (d n : Nat) : (s.recast f l).setLocked d n = (s.setLocked d n).recast f l := rfl
@[simp] theorem setStack_recast (k : List ModeInst) : (s.recast f l).setStack k = (s.setStack k).recast f l := rfl
@[simp] theorem emit_recast (e : Event) (u a v : Nat) : (s.recast f l).emit e u a v = (s.emit e u a v).recast f l := rfl
@[simp] theorem at_recast (t : Stamp) : (s.recast f l).at t = (s.at t).recast f l := rfl
@[simp] theorem leaveLine_recast (d : Nat) : (s.recast f l).leaveLine d = (s.leaveLine d).recast f l := rfl
@[simp] theorem clearLatches_recast (k : List Nat) : (s.recast f l).clearLatches k = (s.clearLatches k).recast f l := by
  simp only [State.clearLatches, onScanner_recast]
@[simp] theorem onPlayer_recast (p : Nat) (g : Player → Player) :
    (s.recast f l).onPlayer p g = (s.onPlayer p g).recast f l := by
  unfold State.onPlayer; split <;> rfl
@[simp] theorem onCurrent_recast (g : Player → Player) : (s.recast f l).onCurrent g = (s.onCurrent g).recast f l :=
  onPlayer_recast ..
theorem foldl_recast {α : Type} (g : State → α → State) (hg : ∀ x a, g (x.recast f l) a = (g x a).recast f l) (k : List α) :
    k.foldl g (s.recast f l) = (k.foldl g s).recast f l := by
  induction k generalizing s with
  | nil => rfl
  | cons a k ih => rw [List.foldl_cons, hg, ih, List.foldl_cons]
theorem repeated_recast (g : State → State) (hg : ∀ x, g (x.recast f l) = (g x).recast f l) (k : Nat) :
    repeated g k (s.recast f l) = (repeated g k s).recast f l := by
  induction k generalizing s with
  | zero => rfl
  | succ k ih => rw [repeated, hg, ih, repeated]

/-! ### Orders -/

@[simp] theorem joinLine_recast (d : Nat) : (s.recast f l).joinLine d = (s.joinLine d).recast f l := by
  unfold State.joinLine; split <;> simp_all
@[simp] theorem enterEjectWait_recast (d : Nat) : (s.recast f l).enterEjectWait d = (s.enterEjectWait d).recast f l := by
  unfold State.enterEjectWait; dsimp only; split <;> simp_all
@[simp] theorem dropSearch_recast (d : Nat) : (s.recast f l).dropSearch d = (s.dropSearch d).recast f l := by
  unfold State.dropSearch; split <;> simp_all
@[simp] theorem searchNext_recast : (s.recast f l).searchNext = s.searchNext.recast f l := by
  have hfind : deviceNumbers.find? (fun d => decide ((s.recast f l).game.search.nextDevice ≤ d) && decide (1 ≤ d) &&
      (s.recast f l).searchable d) = deviceNumbers.find? fun d => decide (s.game.search.nextDevice ≤ d) && decide (1 ≤ d) &&
      s.searchable d := rfl
  rw [State.searchNext, State.searchNext, hfind]
  split <;> simp
@[simp] theorem queueOrder_recast (d : Nat) (r : Reason) (b : Bool) :
    (s.recast f l).queueOrder d r b = (s.queueOrder d r b).recast f l := by
  unfold State.queueOrder; dsimp only; split_ifs <;> simp_all

/-! ### Points and modes -/

@[simp] theorem replays_recast (b a : Nat) (k : List Nat) (i : Nat) :
    (s.recast f l).replays b a k i = (s.replays b a k i).recast f l := by
  induction k generalizing s i with
  | nil => simp [State.replays]
  | cons t k ih =>
    by_cases ha : t ≤ a
    · by_cases hb : b < t <;> simp [State.replays, ha, hb, ih]
    · simp [State.replays, ha]
@[simp] theorem addPoints_recast (n : Nat) : (s.recast f l).addPoints n = (s.addPoints n).recast f l := by
  unfold State.addPoints; dsimp only; split_ifs <;> simp_all
@[simp] theorem award1_recast (b : Nat) (c : Classes) : (s.recast f l).award1 b c = (s.award1 b c).recast f l := by
  simp [State.award1]
@[simp] theorem awardReported_recast (e : Event) (u b : Nat) (c : Classes) :
    (s.recast f l).awardReported e u b c = (s.awardReported e u b c).recast f l := by
  simp [State.awardReported]
@[simp] theorem applyLaw_recast : (s.recast f l).applyLaw = s.applyLaw.recast f l := by
  simp only [State.applyLaw, State.lawEvents, recast_modes, recast_lawState]
  rw [foldl_recast s f l _ fun x i => by split_ifs <;> simp_all]
  rfl
@[simp] theorem endInstances_recast (p : ModeInst → Bool) (r : Nat) :
    (s.recast f l).endInstances p r = (s.endInstances p r).recast f l := by
  simp only [State.endInstances, recast_modes]
  rw [foldl_recast s f l _ fun x i => rfl]
  rfl
@[simp] theorem modeStart_recast (m : Nat) :
    (s.recast f l).modeStart m = ((s.modeStart m).1.recast f l, (s.modeStart m).2) := by
  by_cases hd : (s.modeDef m).defined = false
  · simp [State.modeStart, hd]
  · cases hi : s.inst? m with
    | some i => simp [State.modeStart, hd, hi]
    | none => by_cases hfull : Config.stackInstances ≤ s.modes.stack.length <;> simp [State.modeStart, hd, hi, hfull]
@[simp] theorem modeStop_recast (m : Nat) :
    (s.recast f l).modeStop m = ((s.modeStop m).1.recast f l, (s.modeStop m).2) := by
  cases hi : s.inst? m <;> simp [State.modeStop, hi]

/-! ### Multiball -/

@[simp] theorem releaseFrom_recast (k w : Nat) :
    (s.recast f l).releaseFrom k w = ((s.releaseFrom k w).1.recast f l, (s.releaseFrom k w).2) := by
  simp only [State.releaseFrom, recast_locked]
  rw [repeated_recast s f l _ fun x => by simp]
@[simp] theorem releaseLocked_recast (w : Nat) (k : List Nat) :
    (s.recast f l).releaseLocked w k = ((s.releaseLocked w k).1.recast f l, (s.releaseLocked w k).2) := by
  induction k generalizing s w with
  | nil => rfl
  | cons d k ih => simp [State.releaseLocked, ih]
@[simp] theorem serveFromTrough_recast (w : Nat) :
    (s.recast f l).serveFromTrough w = ((s.serveFromTrough w).1.recast f l, (s.serveFromTrough w).2) := by
  induction w generalizing s with
  | zero => rfl
  | succ w ih =>
    by_cases h : s.ballAvailable = true <;> simp [State.serveFromTrough, State.launchServe, h, ih]
@[simp] theorem servingProcedure_recast (w : Nat) (b : Bool) :
    (s.recast f l).servingProcedure w b = ((s.servingProcedure w b).1.recast f l, (s.servingProcedure w b).2) := by
  cases b <;> simp [State.servingProcedure]
@[simp] theorem multiballServe_recast (k : Nat) :
    (s.recast f l).multiballServe k = ((s.multiballServe k).1.recast f l, (s.multiballServe k).2) := by
  unfold State.multiballServe; dsimp only; split_ifs <;> simp_all
@[simp] theorem multiballRise_recast : (s.recast f l).multiballRise = s.multiballRise.recast f l := by
  by_cases h : 2 ≤ s.committed <;> simp [State.multiballRise, h]
@[simp] theorem startModeOf_recast (k : Nat) : (s.recast f l).startModeOf k = (s.startModeOf k).recast f l := by
  cases h : (s.multiballDef k).startMode <;> simp [State.startModeOf, h]
@[simp] theorem multiballStart_recast (k : Nat) :
    (s.recast f l).multiballStart k = (s.multiballStart k).recast f l := by
  by_cases h : (s.multiballDef k).saveTime = 0 <;> simp [State.multiballStart, h]
@[simp] theorem multiballStack_recast (k : Nat) :
    (s.recast f l).multiballStack k = (s.multiballStack k).recast f l := by
  simp [State.multiballStack]
@[simp] theorem mbStart_recast (k : Nat) : (s.recast f l).mbStart k = (s.mbStart k).recast f l := by
  unfold State.mbStart; split_ifs <;> simp_all
@[simp] theorem addBall_recast : (s.recast f l).addBall = s.addBall.recast f l := by
  unfold State.addBall State.launchServe; split_ifs <;> simp_all

/-! ### Actions -/

variable {f}

theorem appendTrigger_recast (hf : Transparent f) (t : Nat) :
    (s.recast f l).appendTrigger t = (s.appendTrigger t).recast f l := by
  have hengine : (s.recast f l).engine = f s.engine := rfl
  have happend : (s.recast f l).onEngine (fun c => { c with triggers := c.triggers ++ [t] }) =
      (s.onEngine fun c => { c with triggers := c.triggers ++ [t] }).recast f l := by
    simp only [State.onEngine, State.recast, hf.triggers s.engine, hf.append s.engine (s.engine.triggers ++ [t])]
  have hlength : (s.recast f l).engine.triggers.length = s.engine.triggers.length := by rw [hengine, hf.triggers]
  have hwalking : (s.recast f l).engine.walking = s.engine.walking := hf.walking _
  by_cases hp : s.inPlay = true
  · by_cases hroom : s.engine.triggers.length < Config.pendingTriggers
    · simp [State.appendTrigger, hp, hlength, hroom, happend]
    · simp [State.appendTrigger, hp, hlength, hroom, hwalking]
  · simp [State.appendTrigger, hp]
theorem modeProgress_recast (hf : Transparent f) (m : Nat) :
    (s.recast f l).modeProgress m = ((s.modeProgress m).1.recast f l, (s.modeProgress m).2) := by
  have hcomplete (x : State) : (x.recast f l).modeComplete m = (x.modeComplete m).recast f l := by
    simp [State.modeComplete, appendTrigger_recast _ _ hf]
  cases hi : s.inst? m with
  | none => simp [State.modeProgress, hi]
  | some i =>
    by_cases hs : i.state = .suspended
    · simp [State.modeProgress, hi, hs]
    · by_cases hg : (s.modeDef m).goal = 0
      · simp [State.modeProgress, hi, hs, hg]
      · by_cases hp : (i.advanced (s.modeDef m)).progress = (s.modeDef m).goal <;>
          simp [State.modeProgress, hi, hs, hg, hp, hcomplete]

/-- An action that raises a trigger needs the list in its place, and no other action does. -/
theorem act_recast (a : Action) (ha : a.kind = .trigger ∨ a.kind = .modeProgress → Transparent f) :
    (s.recast f l).act a = (s.act a).recast f l := by
  unfold State.act
  split
  case h_7 h => simp [modeProgress_recast _ _ (ha (.inr h))]
  case h_17 h => exact appendTrigger_recast _ _ (ha (.inl h)) _
  all_goals simp
theorem acts_recast (k : List Action) (ha : ∀ a ∈ k, a.kind = .trigger ∨ a.kind = .modeProgress → Transparent f) :
    k.foldl State.act (s.recast f l) = (k.foldl State.act s).recast f l := by
  induction k generalizing s with
  | nil => rfl
  | cons a k ih =>
    rw [List.foldl_cons, act_recast s l a (ha a List.mem_cons_self), ih _ fun b hb => ha b (List.mem_cons_of_mem _ hb),
      List.foldl_cons]
theorem matchPoints_recast (i : Nat) (e : AwardEntry) :
    (s.recast f l).matchPoints i e = (s.matchPoints i e).recast f l := by
  cases hb : s.entryBase e with
  | none => simp [State.matchPoints, hb]
  | some b => by_cases hr : e.report = true <;> simp [State.matchPoints, hb, hr]
theorem carryOut_recast (hf : Transparent f) (i : Nat) (e : AwardEntry) :
    (s.recast f l).carryOut i e = (s.carryOut i e).recast f l := by
  rw [State.carryOut, matchPoints_recast, acts_recast _ _ _ fun _ _ _ => hf, State.carryOut]

end Sys2Proof.Machine
end

