-- ==== Sys2Proof/Proofs/Turn.lean ====
section
/-! What a walk leaves alone: the time stamp of the work in hand, the phase and the current player. -/

namespace Sys2Proof.Machine

open Sys2Proof

/-- The time stamp of the work in hand, the phase and the current player: what every record of a walk carries, and what decides
whether the walk is made. -/
def State.turn (s : State) : Stamp × Phase × Nat := (s.time, s.game.phase, s.game.current)

variable {s t : State}

theorem turn_of_beside (h : t.beside = s.beside) : t.turn = s.turn := by
  rw [State.turn, State.turn, time_of_beside h, phase_of_beside h, current_of_beside h]
theorem inPlay_of_turn (h : t.turn = s.turn) : t.inPlay = s.inPlay := by
  simp only [State.turn, Prod.mk.injEq] at h
  rw [State.inPlay, State.inPlay, h.2.1]
theorem time_of_turn (h : t.turn = s.turn) : t.time = s.time := congrArg (·.1) h
theorem phase_of_turn (h : t.turn = s.turn) : t.game.phase = s.game.phase := congrArg (·.2.1) h
theorem current_of_turn (h : t.turn = s.turn) : t.game.current = s.game.current := congrArg (·.2.2) h

variable (s)

@[simp] theorem onScanner_turn (f : Scanner → Scanner) : (s.onScanner f).turn = s.turn := rfl
@[simp] theorem onEngine_turn (f : Engine → Engine) : (s.onEngine f).turn = s.turn := rfl
@[simp] theorem onModes_turn (f : Modes → Modes) : (s.onModes f).turn = s.turn := rfl
@[simp] theorem onCensus_turn (f : Census → Census) : (s.onCensus f).turn = s.turn := rfl
@[simp] theorem emit_turn (e : Event) (u a v : Nat) : (s.emit e u a v).turn = s.turn := rfl
@[simp] theorem setStack_turn (l : List ModeInst) : (s.setStack l).turn = s.turn := rfl
@[simp] theorem setLocked_turn (d n : Nat) : (s.setLocked d n).turn = s.turn := rfl
@[simp] theorem clearLatches_turn (l : List Nat) : (s.clearLatches l).turn = s.turn := onScanner_turn s _
@[simp] theorem onCurrent_turn (f : Player → Player) : (s.onCurrent f).turn = s.turn := by
  unfold State.onCurrent State.onPlayer; split <;> rfl
@[simp] theorem queueOrder_turn (d : Nat) (r : Reason) (b : Bool) : (s.queueOrder d r b).turn = s.turn :=
  turn_of_beside (queueOrder_beside s d r b)
@[simp] theorem settleDevices_turn : s.settleDevices.turn = s.turn := turn_of_beside (settleDevices_beside s)

theorem repeated_turn (f : State → State) (hf : ∀ x, (f x).turn = x.turn) (k : Nat) : (repeated f k s).turn = s.turn :=
  repeated_keeps (p := fun x => x.turn = s.turn) f (fun x h => (hf x).trans h) k s rfl
theorem foldl_turn {α : Type} (f : State → α → State) (hf : ∀ x a, (f x a).turn = x.turn) (l : List α) :
    (l.foldl f s).turn = s.turn :=
  foldl_keeps (p := fun x => x.turn = s.turn) f (fun x a h => (hf x a).trans h) l s rfl

/-! ### Points, modes and multiball -/

@[simp] theorem replays_turn (b a : Nat) (k : List Nat) (i : Nat) : (s.replays b a k i).turn = s.turn := by
  induction k generalizing s i with
  | nil => exact onCurrent_turn s _
  | cons t k ih => unfold State.replays; (repeat' split) <;> simp [ih]
@[simp] theorem addPoints_turn (n : Nat) : (s.addPoints n).turn = s.turn := by
  unfold State.addPoints; dsimp only; split <;> simp
@[simp] theorem award1_turn (b : Nat) (c : Classes) : (s.award1 b c).turn = s.turn := addPoints_turn s _
@[simp] theorem awardReported_turn (e : Event) (u b : Nat) (c : Classes) : (s.awardReported e u b c).turn = s.turn :=
  award1_turn s b c
@[simp] theorem applyLaw_turn : s.applyLaw.turn = s.turn :=
  foldl_turn s _ (fun x i => by split <;> simp) s.modes.stack
@[simp] theorem endInstances_turn (p : ModeInst → Bool) (r : Nat) : (s.endInstances p r).turn = s.turn :=
  foldl_turn s (fun x (i : ModeInst) => x.emit .modeEnded i.mode r i.value) (fun _ _ => rfl) (s.modes.stack.filter p)
@[simp] theorem modeStart_turn (m : Nat) : (s.modeStart m).1.turn = s.turn := by
  unfold State.modeStart; dsimp only; (repeat' split) <;> simp
@[simp] theorem modeStop_turn (m : Nat) : (s.modeStop m).1.turn = s.turn := by
  unfold State.modeStop; split <;> simp
@[simp] theorem appendTrigger_turn (t : Nat) : (s.appendTrigger t).turn = s.turn := by
  unfold State.appendTrigger; (repeat' split) <;> simp
@[simp] theorem modeComplete_turn (m : Nat) : (s.modeComplete m).turn = s.turn := by simp [State.modeComplete]
@[simp] theorem modeProgress_turn (m : Nat) : (s.modeProgress m).1.turn = s.turn := by
  unfold State.modeProgress; dsimp only; (repeat' split) <;> simp
@[simp] theorem releaseFrom_turn (k w : Nat) : (s.releaseFrom k w).1.turn = s.turn := repeated_turn s _ (fun _ => by simp) _
@[simp] theorem releaseLocked_turn (w : Nat) (k : List Nat) : (s.releaseLocked w k).1.turn = s.turn := by
  induction k generalizing s w with
  | nil => rfl
  | cons d k ih => simp [State.releaseLocked, ih]
@[simp] theorem serveFromTrough_turn (w : Nat) : (s.serveFromTrough w).1.turn = s.turn := by
  induction w generalizing s with
  | zero => rfl
  | succ w ih => unfold State.serveFromTrough; split <;> simp [ih, State.launchServe]
@[simp] theorem servingProcedure_turn (w : Nat) (b : Bool) : (s.servingProcedure w b).1.turn = s.turn := by
  cases b <;> simp [State.servingProcedure]
@[simp] theorem multiballServe_turn (k : Nat) : (s.multiballServe k).1.turn = s.turn := by
  unfold State.multiballServe; dsimp only; split <;> simp
@[simp] theorem multiballRise_turn : s.multiballRise.turn = s.turn := by unfold State.multiballRise; split <;> simp
@[simp] theorem startModeOf_turn (k : Nat) : (s.startModeOf k).turn = s.turn := by
  unfold State.startModeOf; split <;> simp
@[simp] theorem mbStart_turn (k : Nat) : (s.mbStart k).turn = s.turn := by
  unfold State.mbStart State.multiballStack State.multiballStart; dsimp only; (repeat' split) <;> simp
@[simp] theorem addBall_turn : s.addBall.turn = s.turn := by
  unfold State.addBall State.launchServe; split <;> simp

/-! ### Walks -/

@[simp] theorem act_turn (a : Action) : (s.act a).turn = s.turn := by
  unfold State.act; dsimp only; split <;> simp
@[simp] theorem matchPoints_turn (i : Nat) (e : AwardEntry) : (s.matchPoints i e).turn = s.turn := by
  unfold State.matchPoints; (repeat' split) <;> simp
@[simp] theorem carryOut_turn (i : Nat) (e : AwardEntry) : (s.carryOut i e).turn = s.turn :=
  (foldl_turn _ State.act act_turn _).trans (matchPoints_turn s i e)
@[simp] theorem walkChain_turn (g : Edge) (k : List Nat) : (s.walkChain g k).turn = s.turn := by
  induction k generalizing s with
  | nil => rfl
  | cons i k ih => simp only [State.walkChain]; (repeat' split) <;> simp [ih]
@[simp] theorem walk_turn (t : Nat) (g : Edge) : (s.walk t g).turn = s.turn := by simp [State.walk]
@[simp] theorem afterWalk_turn : s.afterWalk.turn = s.turn := by unfold State.afterWalk; (repeat' split) <;> simp

end Sys2Proof.Machine
end

