-- ==== Sys2Proof/Proofs/Roots.lean ====
section
/-! The roots (R42, R43): each pending walk counts, so that a root ends within 32 walks, paused between them or not; and TRIGGER,
which is walked at once, waits in the list or is lost (O41). -/

namespace Sys2Proof.Machine

open Sys2Proof

variable (s : State) (l : Link)

/-! ### A walk keeps its root -/

/-- The engine with the root put in its place. -/
def rootedAs (r : Option Root) (c : Engine) : Engine := { c with root := r }

/-- The engine with the paused work put in its place. -/
def pausedAs (w : Option PausedWork) (c : Engine) : Engine := { c with paused := w }

theorem transparent_rootedAs (r : Option Root) : Transparent (rootedAs r) := ⟨fun _ => rfl, fun _ => rfl, fun _ _ => rfl⟩
theorem transparent_pausedAs (w : Option PausedWork) : Transparent (pausedAs w) := ⟨fun _ => rfl, fun _ => rfl, fun _ _ => rfl⟩

theorem recast_rootedAs_self : s.recast (rootedAs s.engine.root) s.link = s := rfl

@[simp] theorem carryOut_root (i : Nat) (e : AwardEntry) : (s.carryOut i e).engine.root = s.engine.root := by
  have h := carryOut_recast s s.link (transparent_rootedAs s.engine.root) i e
  rw [recast_rootedAs_self] at h
  rw [h]
  rfl
@[simp] theorem walkChain_root (g : Edge) (k : List Nat) : (s.walkChain g k).engine.root = s.engine.root := by
  induction k generalizing s with
  | nil => rfl
  | cons i k ih => simp only [State.walkChain]; (repeat' split) <;> simp [ih]
theorem walk_root (t : Nat) (g : Edge) : (s.walk t g).engine.root = s.engine.root := walkChain_root _ g _

/-! ### A pause makes no difference to a walk -/

variable (w : Option PausedWork)

theorem walkChain_pausedAs (g : Edge) (k : List Nat) :
    (s.recast (pausedAs w) l).walkChain g k = (s.walkChain g k).recast (pausedAs w) l := by
  induction k generalizing s with
  | nil => rfl
  | cons i k ih =>
    have haward : (s.recast (pausedAs w) l).award i = s.award i := rfl
    have hcarry := carryOut_recast s l (transparent_pausedAs w) i (s.award i)
    by_cases hm : s.entryMatches g (s.award i) = true
    · cases hc : (s.award i).continuation <;> simp [State.walkChain, haward, hm, hc, hcarry, ih]
    · simp [State.walkChain, haward, hm, ih]
theorem walk_pausedAs (t : Nat) (g : Edge) : (s.recast (pausedAs w) l).walk t g = (s.walk t g).recast (pausedAs w) l :=
  congrArg (fun x : State => x.onEngine fun c => { c with walking := none })
    (walkChain_pausedAs (s.onEngine fun c => { c with walking := some t }) l w g (s.chain t))
theorem afterWalk_pausedAs : (s.recast (pausedAs w) l).afterWalk = s.afterWalk.recast (pausedAs w) l := by
  have hroot : (s.recast (pausedAs w) l).engine.root = s.engine.root := rfl
  have htriggers : (s.recast (pausedAs w) l).engine.triggers = s.engine.triggers := rfl
  cases hr : s.engine.root with
  | none => simp [State.afterWalk, hroot, hr]
  | some r =>
    unfold State.afterWalk
    rw [hroot, hr, htriggers]
    dsimp only
    split_ifs <;> rfl
theorem pendingWalk_pausedAs : (s.recast (pausedAs w) l).pendingWalk = s.pendingWalk.recast (pausedAs w) l := by
  have hroot : (s.recast (pausedAs w) l).engine.root = s.engine.root := rfl
  have htriggers : (s.recast (pausedAs w) l).engine.triggers = s.engine.triggers := rfl
  unfold State.pendingWalk
  rw [hroot, htriggers, recast_inPlay]
  split
  case h_1 => rfl
  case h_2 => rfl
  case h_3 r t rest _ _ =>
    split_ifs
    · exact (congrArg State.afterWalk (walk_pausedAs ((s.at r.stamp).onEngine fun c =>
        { c with triggers := rest, root := some { r with walks := r.walks + 1 } }) l w t .close)).trans
          (afterWalk_pausedAs _ l w)
    · rfl

/-! ### A root ends (R42, R43) -/

variable {s} {r : Root}

/-- No root is in progress, and no trigger waits for one. -/
structure State.RootEnded (s : State) : Prop where
  root : s.engine.root = none
  triggers : s.engine.triggers = []

/-- After a walk the root has ended, or goes on with fewer than 32 walks made. -/
theorem afterWalk_cases (hr : s.engine.root = some r) :
    s.afterWalk.RootEnded ∨ s.afterWalk = s ∧ s.engine.triggers ≠ [] ∧ r.walks < Config.rootWalks := by
  by_cases ht : s.engine.triggers = []
  · exact .inl ⟨by simp [State.afterWalk, hr, ht], by simp [State.afterWalk, hr, ht]⟩
  · by_cases hn : Config.rootWalks ≤ r.walks
    · exact .inl ⟨by simp [State.afterWalk, hr, ht, hn], by simp [State.afterWalk, hr, ht, hn]⟩
    · exact .inr ⟨by simp [State.afterWalk, hr, ht, hn], ht, by omega⟩

/-- A pending walk ends the root or is counted by it. -/
theorem pendingWalk_cases (hr : s.engine.root = some r) :
    s.pendingWalk.RootEnded ∨ s.pendingWalk.engine.root = some { r with walks := r.walks + 1 } ∧ r.walks + 1 < 32 := by
  cases ht : s.engine.triggers with
  | nil =>
    have h : s.pendingWalk = s.onEngine fun c => { c with root := none } := by simp [State.pendingWalk, hr, ht]
    exact .inl (h ▸ ⟨rfl, ht⟩)
  | cons t rest =>
    by_cases hp : s.inPlay = true
    · have h : s.pendingWalk = (((s.at r.stamp).onEngine fun c =>
          { c with triggers := rest, root := some { r with walks := r.walks + 1 } }).walk t .close).afterWalk := by
        simp [State.pendingWalk, hr, ht, hp]
      generalize hu : ((s.at r.stamp).onEngine fun c =>
        { c with triggers := rest, root := some { r with walks := r.walks + 1 } }).walk t .close = u at h
      have hroot : u.engine.root = some { r with walks := r.walks + 1 } := by rw [← hu, walk_root]; rfl
      rw [h]
      obtain hend | ⟨heq, -, hlt⟩ := afterWalk_cases hroot
      · exact .inl hend
      · exact .inr ⟨by rw [heq, hroot], hlt⟩
    · have h : s.pendingWalk = s.onEngine fun c => { c with triggers := [], root := none } := by
        simp [State.pendingWalk, hr, ht, hp]
      exact .inl (h ▸ ⟨rfl, rfl⟩)

/-- A root ends after at most the walks left to it; until then it is in progress. -/
theorem root_ends (n : Nat) (hr : s.engine.root = some r) (hn : r.walks < 32) (hw : 32 ≤ r.walks + n) :
    ∃ m ≤ n, (repeated State.pendingWalk m s).RootEnded ∧
      ∀ j < m, (repeated State.pendingWalk j s).engine.root.isSome = true := by
  induction n generalizing s r with
  | zero => omega
  | succ n ih =>
    obtain hend | ⟨hroot, hlt⟩ := pendingWalk_cases hr
    · exact ⟨1, by omega, hend, fun j hj => by rw [show j = 0 by omega, repeated, hr]; rfl⟩
    · obtain ⟨m, hm, hend, hbefore⟩ := ih hroot hlt (by dsimp only; omega)
      refine ⟨m + 1, by omega, hend, fun j hj => ?_⟩
      cases j with
      | zero => rw [repeated, hr]; rfl
      | succ j => exact hbefore j (by omega)

theorem repeated_add {α : Type} (f : α → α) (m n : Nat) (x : α) : repeated f (m + n) x = repeated f n (repeated f m x) := by
  induction m generalizing x with
  | zero => rw [Nat.zero_add]; rfl
  | succ m ih => rw [Nat.succ_add, repeated, repeated, ih]

theorem pendingWalk_of_none (h : s.engine.root = none) : s.pendingWalk = s := by simp [State.pendingWalk, h]

theorem repeated_pendingWalk_of_none (h : s.engine.root = none) (k : Nat) : repeated State.pendingWalk k s = s := by
  induction k with
  | zero => rfl
  | succ k ih => rw [repeated, pendingWalk_of_none h, ih]

/-- Once the root has ended, its work is finished. -/
theorem finishRoot_of_ended {m : Nat} (hm : m ≤ 32) (h : (repeated State.pendingWalk m s).RootEnded) :
    s.finishRoot = repeated State.pendingWalk m s := by
  rw [State.finishRoot, show Config.rootWalks = m + (32 - m) by rw [Config.rootWalks]; omega, repeated_add,
    repeated_pendingWalk_of_none h.root]

/-- While the root is in progress, idle steps make its walks, whatever work has paused. -/
theorem repeated_idle_pausedAs (m : Nat) (h : ∀ j < m, (repeated State.pendingWalk j s).engine.root.isSome = true) :
    repeated State.idle m (s.recast (pausedAs w) l) = (repeated State.pendingWalk m s).recast (pausedAs w) l := by
  induction m generalizing s with
  | zero => rfl
  | succ m ih =>
    have hroot : (s.recast (pausedAs w) l).engine.root.isSome = true := h 0 (by omega)
    rw [repeated, State.idle, if_pos hroot, pendingWalk_pausedAs, ih fun j hj => h (j + 1) (by omega), repeated]

/-! ### The first walk of a root -/

/-- The first walk of a TRIGGER, and whether its root goes on. -/
def State.firstWalk (s : State) (t : Nat) : State := s.directWalk t .close true

theorem directWalk_false (hp : s.inPlay = true) (t : Nat) : s.directWalk t .close false = (s.firstWalk t).finishRoot := by
  simp [State.firstWalk, State.directWalk, hp]

/-- The first walk ends its root, or leaves it in progress with one walk made. -/
theorem firstWalk_cases (hp : s.inPlay = true) (t : Nat) :
    (s.firstWalk t).RootEnded ∨ (s.firstWalk t).engine.root = some ⟨t, 1, s.time⟩ := by
  have hroot : ((s.onEngine fun c => { c with root := some ⟨t, 1, s.time⟩ }).walk t .close).engine.root =
      some ⟨t, 1, s.time⟩ := walk_root _ t .close
  have hfirst : s.firstWalk t =
      ((s.onEngine fun c => { c with root := some ⟨t, 1, s.time⟩ }).walk t .close).afterWalk := by
    simp [State.firstWalk, State.directWalk, hp]
  rw [hfirst]
  obtain hend | ⟨heq, -, -⟩ := afterWalk_cases hroot
  · exact .inl hend
  · exact .inr (by rw [heq, hroot])

/-- The root of a TRIGGER ends within 31 pending walks. -/
theorem firstWalk_ends (hp : s.inPlay = true) (t : Nat) : ∃ m ≤ 31, (s.firstWalk t).finishRoot =
    repeated State.pendingWalk m (s.firstWalk t) ∧ (repeated State.pendingWalk m (s.firstWalk t)).RootEnded ∧
      ∀ j < m, (repeated State.pendingWalk j (s.firstWalk t)).engine.root.isSome = true := by
  obtain hend | hroot := firstWalk_cases hp t
  · exact ⟨0, by omega, finishRoot_of_ended (m := 0) (by omega) hend, hend, by omega⟩
  · obtain ⟨m, hm, hend, hbefore⟩ := root_ends 31 hroot (by dsimp only; omega) (by dsimp only; omega)
    exact ⟨m, hm, finishRoot_of_ended (by omega) hend, hend, hbefore⟩

/-! ### TRIGGER (R44, R185) -/

/-- A TRIGGER that its payload checks let through reaches the Award Engine in SERVE and PLAY. -/
theorem trigger_of_inPlay (b : Bool) {v : Byte} (hp : s.inPlay = true) (hlo : 72 ≤ v.toNat) (hhi : v.toNat ≤ 79) :
    trigger b [v] s = s.hostTrigger b v.toNat := by
  have hphase : s.scored (s.hostTrigger b v.toNat) = s.hostTrigger b v.toNat := by
    unfold State.inPlay at hp
    cases hs : s.game.phase <;> simp_all [State.scored]
  simp [trigger, State.checked, byteAt_cons, firstBad, hlo, hhi, hphase]

/-- The oldest request that waits, once `q` has taken a slot behind the ready replies. -/
theorem firstWaiting_append (q : Request) (k : List Slot) (h : firstWaiting k = none) :
    firstWaiting (k ++ [.waiting q]) = some q := by
  induction k with
  | nil => rfl
  | cons x k ih =>
    cases x with
    | waiting _ => exact absurd h (by simp [firstWaiting])
    | ready _ => exact ih h

/-- An offered request is handed on as the oldest that waits. -/
theorem toHandOn_waiting {q : Request} (h : s.Offers q) :
    ∃ l, s.toHandOn q = some { s with link := l, time := s.scanner.now } ∧ firstWaiting l.slots = some q ∧
      ∀ a : Answer, { l with slots := answerSlot ⟨q.type, q.tag, a.bytes⟩ l.slots } = s.answeredLink q a.bytes := by
  obtain ⟨l, he, hl⟩ := toHandOn_of_offers s q h
  refine ⟨l, he, ?_, hl⟩
  unfold State.toHandOn Link.toHandOn at he
  obtain ⟨hr, -, -, hw | ⟨hw, -⟩⟩ := h
  all_goals
    simp only [hr, hw] at he
    split at he <;> simp only [if_true, Bool.false_eq_true, if_false, Option.map_some, Option.some.injEq, reduceCtorEq] at he
  · have hlink : s.link = l := congrArg State.link he
    rw [← hlink]
    exact hw
  · split at he <;> simp only [Option.map_some, Option.map_none, Option.some.injEq, reduceCtorEq] at he
    have hlink : { s.link with slots := s.link.slots ++ [.waiting q], restarting := false } = l := congrArg State.link he
    rw [← hlink]
    exact firstWaiting_append q _ hw

/-! ### The time stamp of a root -/

/-- The work in hand carries the stamp `x`, and so does the root in progress. -/
structure State.Stamped (s : State) (x : Stamp) : Prop where
  time : s.time = x
  root : ∀ r, s.engine.root = some r → r.stamp = x

theorem afterWalk_stamped {x : Stamp} (h : s.Stamped x) : s.afterWalk.Stamped x := by
  refine ⟨(time_of_turn (afterWalk_turn s)).trans h.time, fun r hr => ?_⟩
  cases hroot : s.engine.root with
  | none =>
    rw [State.afterWalk, hroot, hroot] at hr
    exact absurd hr (by simp)
  | some r' =>
    obtain hend | ⟨heq, -, -⟩ := afterWalk_cases hroot
    · exact absurd (hend.root.symm.trans hr) (by simp)
    · exact h.root r (heq ▸ hr)
theorem pendingWalk_stamped {x : Stamp} (h : s.Stamped x) : s.pendingWalk.Stamped x := by
  unfold State.pendingWalk
  split
  case h_1 => exact h
  case h_2 => exact ⟨h.time, fun _ hr => absurd hr (by simp [State.onEngine])⟩
  case h_3 r t rest hroot _ =>
    split_ifs
    · refine afterWalk_stamped ⟨(time_of_turn (walk_turn _ t .close)).trans (h.root r hroot), fun r' hr' => ?_⟩
      rw [walk_root] at hr'
      have heq : { r with walks := r.walks + 1 } = r' := Option.some.inj hr'
      rw [← heq]
      exact h.root r hroot
    · exact ⟨h.time, fun _ hr => absurd hr (by simp [State.onEngine])⟩
theorem repeated_pendingWalk_stamped {x : Stamp} (m : Nat) (h : s.Stamped x) :
    (repeated State.pendingWalk m s).Stamped x :=
  repeated_keeps (p := fun u => State.Stamped u x) _ (fun _ => pendingWalk_stamped) m s h
theorem firstWalk_stamped (hp : s.inPlay = true) (t : Nat) : (s.firstWalk t).Stamped s.time := by
  have hfirst : s.firstWalk t =
      ((s.onEngine fun c => { c with root := some ⟨t, 1, s.time⟩ }).walk t .close).afterWalk := by
    simp [State.firstWalk, State.directWalk, hp]
  rw [hfirst]
  refine afterWalk_stamped ⟨time_of_turn (walk_turn _ t .close), fun r hr => ?_⟩
  rw [walk_root] at hr
  have heq : ⟨t, 1, s.time⟩ = r := Option.some.inj hr
  rw [← heq]

/-! ### The two ends of a TRIGGER (R185) -/

/-- The state in which the root of a TRIGGER has ended, and the devices have been tested. -/
def State.triggered (s : State) (t : Nat) : State := (s.firstWalk t).finishRoot.settleDevices

theorem triggerRoot_false (hp : s.inPlay = true) (t : Nat) : s.triggerRoot false t = s.triggered t := by
  obtain ⟨m, -, hfinish, hend, -⟩ := firstWalk_ends hp t
  rw [State.triggerRoot, directWalk_false hp, hfinish]
  simp [hend.root, State.triggered, hfinish]

theorem triggerRoot_true (t : Nat) : s.triggerRoot true t =
    if (s.firstWalk t).engine.root.isSome then
      (s.firstWalk t).recast (pausedAs (some (.trigger s.time))) (s.firstWalk t).link
    else (s.firstWalk t).settleDevices := rfl

theorem triggered_engine (hp : s.inPlay = true) (t : Nat) : (s.triggered t).RootEnded := by
  obtain ⟨m, -, hfinish, hend, -⟩ := firstWalk_ends hp t
  have hengine := engine_of_beside (settleDevices_beside (s.firstWalk t).finishRoot)
  rw [← State.triggered, hfinish] at hengine
  exact ⟨by rw [hengine, hend.root], by rw [hengine, hend.triggers]⟩

theorem firstWalk_frame (t : Nat) : (s.firstWalk t).frame = s.frame := State.directWalk_frame s t .close true
theorem triggered_frame (t : Nat) : (s.triggered t).frame = s.frame := by
  rw [State.triggered, State.settleDevices_frame, State.finishRoot_frame, firstWalk_frame]

/-- Once its root has ended, a TRIGGER in hand is answered by an idle step. -/
theorem idle_pausedTrigger {u : State} {q : Request} (hr : u.engine.root = none) (hn : u.engine.paused = none)
    (hw : firstWaiting u.settleDevices.link.slots = some q) :
    (u.recast (pausedAs (some (.trigger u.time))) u.link).idle = u.settleDevices.reply q (.ok (u8 0)) := by
  have hback : ((u.recast (pausedAs (some (.trigger u.time))) u.link).onEngine fun c => { c with paused := none }).at u.time =
      u := by
    simp [State.recast, State.onEngine, State.at, pausedAs, ← hn]
  have hroot : (u.recast (pausedAs (some (.trigger u.time))) u.link).engine.root = none := hr
  have hpaused : (u.recast (pausedAs (some (.trigger u.time))) u.link).engine.paused = some (.trigger u.time) := rfl
  rw [State.idle, hroot, hpaused, if_neg (by decide), if_pos (by rfl), resume_trigger _ true u.time hpaused, hback,
    answerInHand_of_waiting _ q _ hw]
  rfl

theorem inHand_pausedTrigger (stamp : Stamp) : (s.recast (pausedAs (some (.trigger stamp))) l).inHand = true := rfl
theorem inHand_reply (q : Request) (a : Answer) : (s.reply q a).inHand = s.inHand := rfl
theorem root_pausedAs : (s.recast (pausedAs w) l).engine.root = s.engine.root := rfl

/-- A TRIGGER whose root pauses is answered by idle steps as one whose root does not. -/
theorem idle_triggered (hp : s.inPlay = true) (hn : s.engine.paused = none) (t : Nat) {q : Request}
    (hw : firstWaiting s.link.slots = some q) (hr : (s.firstWalk t).engine.root.isSome = true) :
    ∃ n ≤ 32, repeated State.idle n (s.triggerRoot true t) = (s.triggered t).reply q (.ok (u8 0)) := by
  obtain ⟨m, hm, hfinish, hend, hbefore⟩ := firstWalk_ends hp t
  have hframe : (s.firstWalk t).finishRoot.frame = (s.firstWalk t).frame := State.finishRoot_frame _
  have hstamp : (s.firstWalk t).finishRoot.time = s.time :=
    (repeated_pendingWalk_stamped Config.rootWalks (firstWalk_stamped hp t)).time
  have hlink : (s.firstWalk t).finishRoot.link = (s.firstWalk t).link := State.link_of_frame hframe
  have hpaused : (s.firstWalk t).finishRoot.engine.paused = none :=
    (paused_of_frame (hframe.trans (firstWalk_frame t))).trans hn
  have hslots : (s.triggered t).link = s.link := State.link_of_frame (triggered_frame t)
  have hidle := idle_pausedTrigger (u := (s.firstWalk t).finishRoot) (q := q) (by rw [hfinish]; exact hend.root) hpaused
    (by rw [← State.triggered, hslots]; exact hw)
  rw [← State.triggered, hstamp, hlink] at hidle
  refine ⟨m + 1, by omega, ?_⟩
  rw [triggerRoot_true, if_pos hr, repeated_add, repeated_idle_pausedAs _ _ m hbefore, ← hfinish, repeated, repeated, hidle]

variable {tag v : Byte}

/-- What a TRIGGER comes to in the state in which it is handed on: it is answered at once, or stays in hand while its root pauses. -/
theorem triggerRoot_answered (hp : s.inPlay = true) (hn : s.engine.paused = none) (t : Nat) {q : Request}
    (hw : firstWaiting s.link.slots = some q) :
    (s.triggerRoot false t).inHand = false ∧
      (s.triggerRoot false t).reply q (.ok (u8 0)) = (s.triggered t).reply q (.ok (u8 0)) ∧ ∃ t',
        (let x := s.triggerRoot true t; if x.inHand then x else x.reply q (.ok (u8 0))) = t' ∧
        t'.inHand = t'.engine.root.isSome ∧ ∃ n ≤ 32, repeated State.idle n t' = (s.triggered t).reply q (.ok (u8 0)) := by
  have hquiet : (s.triggered t).inHand = false := inHand_of_none _ ((paused_of_frame (triggered_frame t)).trans hn)
  have hroot : (s.triggered t).engine.root = none := (triggered_engine hp t).root
  refine ⟨by rw [triggerRoot_false hp, hquiet], by rw [triggerRoot_false hp], ?_⟩
  by_cases hr : (s.firstWalk t).engine.root.isSome = true
  · have htrue := idle_triggered hp hn t hw hr
    have hpaused : s.triggerRoot true t = (s.firstWalk t).recast (pausedAs (some (.trigger s.time))) (s.firstWalk t).link := by
      rw [triggerRoot_true, if_pos hr]
    have hhand : (s.triggerRoot true t).inHand = true := by rw [hpaused, inHand_pausedTrigger]
    have hgoing : (s.triggerRoot true t).engine.root.isSome = true := by rw [hpaused, root_pausedAs, hr]
    exact ⟨s.triggerRoot true t, if_pos hhand, hhand.trans hgoing.symm, htrue⟩
  · have hend : (s.firstWalk t).engine.root = none := by simpa using hr
    have hsame : s.triggerRoot true t = s.triggered t := by
      rw [triggerRoot_true, if_neg hr, State.triggered, finishRoot_of_none hend]
    refine ⟨(s.triggered t).reply q (.ok (u8 0)), by simp [hsame, hquiet], ?_, 0, by omega, rfl⟩
    rw [inHand_reply, hquiet, State.reply_engine, hroot]
    rfl

/-- TRIGGER with an empty list, in the state in which it is handed on (R44, R175, R185). -/
theorem triggerRequest_of_empty (hp : s.inPlay = true) (hlo : 72 ≤ v.toNat) (hhi : v.toNat ≤ 79) (ho : s.Offers ⟨13, tag, [v]⟩)
    (ht : s.engine.triggers = []) : ∃ l, firstWaiting l.slots = some ⟨13, tag, [v]⟩ ∧
      (∀ x : State, x.link = l → x.reply ⟨13, tag, [v]⟩ (.ok (u8 0)) =
        { x with link := s.answeredLink ⟨13, tag, [v]⟩ [0, 0] }) ∧
      ∀ b, exec (.triggerRequest tag ⟨[v], b⟩) s = .next (
        let x := State.triggerRoot b { s with link := l, time := s.scanner.now } v.toNat
        if x.inHand then x else x.reply ⟨13, tag, [v]⟩ (.ok (u8 0))) := by
  obtain ⟨l, he, hw, hl⟩ := toHandOn_waiting ho
  have hreply : ∀ x : State, x.link = l → x.reply ⟨13, tag, [v]⟩ (.ok (u8 0)) =
      { x with link := s.answeredLink ⟨13, tag, [v]⟩ [0, 0] } := fun x hx => by
    rw [State.reply, State.onLink, hx, hl]
    rfl
  refine ⟨l, hw, hreply, fun b => congrArg Host.Outcome.next ?_⟩
  have hpx : State.inPlay { s with link := l, time := s.scanner.now } = true := hp
  simp only [State.request, he, trigger_of_inPlay b hpx hlo hhi, State.hostTrigger, if_pos ht]

/-- An empty chain leaves the players, the census, the modes and the switches as they are. -/
theorem triggered_of_nil (hp : s.inPlay = true) (ht : s.engine.triggers = []) {t : Nat} (hc : s.chain t = []) :
    (s.triggered t).game.players = s.game.players ∧ (s.triggered t).census = s.census ∧ (s.triggered t).modes = s.modes ∧
      (s.triggered t).scanner = s.scanner := by
  have hwalk : (s.firstWalk t).finishRoot = s.walked := by
    rw [State.firstWalk, directWalk_of_nil t .close true hp ht hc, finishRoot_of_none (s := s.walked) rfl]
  have hb := settleDevices_beside s.walked
  rw [State.triggered, hwalk]
  exact ⟨(players_of_beside hb).trans rfl, (census_of_beside hb).trans rfl, (modes_of_beside hb).trans rfl,
    (scanner_of_beside hb).trans rfl⟩

/-- TRIGGER with triggers waiting reaches the list alone (R41, R44). -/
theorem triggerRequest_of_waiting (b : Bool) (hp : s.inPlay = true) (hlo : 72 ≤ v.toNat) (hhi : v.toNat ≤ 79)
    (ho : s.Offers ⟨13, tag, [v]⟩) (ht : s.engine.triggers ≠ []) (t : State) (hn : t.engine.paused = s.engine.paused)
    (h : ∀ l, State.appendTrigger { s with link := l, time := s.scanner.now } v.toNat =
      { t with link := l, time := s.scanner.now }) :
    exec (.triggerRequest tag ⟨[v], b⟩) s = .next { t with
      link := s.answeredLink ⟨13, tag, [v]⟩ (0 :: u8 (if s.engine.triggers.length < Config.pendingTriggers then 1 else 2))
      time := s.scanner.now } := by
  refine congrArg Host.Outcome.next (request_of_work s t 13 tag [v] (trigger b) (.ok (u8
    (if s.engine.triggers.length < Config.pendingTriggers then 1 else 2))) ho hn fun l => ?_)
  rw [trigger_of_inPlay b (s := { s with link := l, time := s.scanner.now }) hp hlo hhi, State.hostTrigger, if_neg ht, h]

/-- Settles O41: the list empty, with room and full. -/
theorem triggerWalksOrWaits : Obligations.TriggerWalksOrWaits := by
  intro tag v b s hp hlo hhi ho
  have hpx : ∀ l, State.inPlay { s with link := l, time := s.scanner.now } = true := fun _ => hp
  refine ⟨fun ht => ?_, fun hne hroom => ?_, fun hfull => ?_⟩
  · obtain ⟨l, hw, hreply, hexec⟩ := triggerRequest_of_empty hp hlo hhi ho ht
    have hnone : s.engine.paused = none := ho.2.2.1 rfl
    obtain ⟨hquiet, hanswer, t', htrue, hhand, hidle⟩ := triggerRoot_answered (hpx l) hnone v.toNat hw
    have hended := triggered_engine (hpx l) v.toNat
    have hlink : (State.triggered { s with link := l, time := s.scanner.now } v.toNat).link = l :=
      State.link_of_frame (triggered_frame v.toNat)
    have hkept := triggered_of_nil (hpx l) ht (t := v.toNat)
    have hfalse := hexec false
    have htrue' := hexec true
    dsimp only at hfalse
    rw [htrue] at htrue'
    rw [hquiet, if_neg (by decide), hanswer] at hfalse
    generalize State.triggered { s with link := l, time := s.scanner.now } v.toNat = y at hended hlink hkept hfalse hidle
    rw [hreply y hlink] at hfalse hidle
    have hsettings := settingsChangeOnlyByLoads _ s _ hfalse (by simp) fun type tag' p he _ h8 => by
      simp only [Instr.request?, Option.some.injEq, Prod.mk.injEq] at he
      rw [← he.1] at h8
      exact absurd h8 (by decide)
    exact ⟨_, hfalse, hended.root, hended.triggers, rfl, hsettings, hkept, t', htrue', hhand, hidle⟩
  · have hroom' : s.engine.triggers.length < Config.pendingTriggers := hroom
    have h := triggerRequest_of_waiting b hp hlo hhi ho hne
      { s with engine := { s.engine with triggers := s.engine.triggers ++ [v.toNat] } } rfl
      fun l => by simp [State.appendTrigger, hpx, hroom', State.onEngine]
    rw [if_pos hroom'] at h
    exact h
  · have hfull' : ¬s.engine.triggers.length < Config.pendingTriggers := by rw [Config.pendingTriggers]; omega
    have hne : s.engine.triggers ≠ [] := fun h => by rw [h] at hfull; exact absurd hfull (by decide)
    have h := triggerRequest_of_waiting b hp hlo hhi ho hne
      { s with events := (appendEvent s.events
          ⟨.triggerLost, s.game.current, v.toNat, s.scanner.now, s.engine.walking.getD 255, 0⟩) } rfl
      fun l => by simp [State.appendTrigger, hpx, hfull', State.emit, State.emitFor]
    rw [if_neg hfull'] at h
    exact h

end Sys2Proof.Machine
end

