-- ==== Sys2Proof/Proofs/ModeStack.lean ====
section
/-! The mode stack (R67, R68): what ending instances and the law make of it, and what an award leaves alone. -/

namespace Sys2Proof.Machine

open Sys2Proof

variable {s t : State}

/-! ### The stack -/

theorem inst?_eq_none_iff (m : Nat) : s.inst? m = none ↔ m ∉ s.modes.stack.map ModeInst.mode := by
  simp [State.inst?, List.find?_eq_none]

theorem inst?_congr (h : t.modes.stack = s.modes.stack) (m : Nat) : t.inst? m = s.inst? m := by
  rw [State.inst?, State.inst?, h]

/-- What is found in the stack after a rewriting of it that leaves the modes in their places. -/
theorem inst?_setStack_map (g : ModeInst → ModeInst) (hg : ∀ i, (g i).mode = i.mode) (m : Nat) :
    (s.setStack (s.modes.stack.map g)).inst? m = (s.inst? m).map g := by
  have hcomp : (fun i : ModeInst => i.mode == m) ∘ g = fun i => i.mode == m := by funext i; simp [hg]
  rw [State.inst?, State.setStack_modes, List.find?_map, hcomp]
  rfl

/-- Events queued one after another change the Event Queue alone. -/
theorem foldl_emits {α : Type} (f : State → α → State)
    (hf : ∀ x a, f x a = { x with events := (f x a).events }) (l : List α) :
    l.foldl f s = { s with events := (l.foldl f s).events } := by
  induction l generalizing s with
  | nil => rfl
  | cons a l ih =>
    rw [List.foldl_cons, ih, hf]

/-- Instances that end leave the stack; beside it only the Event Queue changes (R68). -/
theorem endInstances_eq (p : ModeInst → Bool) (r : Nat) : s.endInstances p r =
    { s with modes := { s.modes with stack := s.modes.stack.filter fun i => !p i }, events := (s.endInstances p r).events } := by
  have hfold := foldl_emits (s := s) (fun x (i : ModeInst) => x.emit .modeEnded i.mode r i.value) (fun _ _ => rfl)
    (s.modes.stack.filter p)
  unfold State.endInstances
  dsimp only
  rw [hfold]
  rfl

/-- The law sets the states of the instances; beside them only the Event Queue changes (R67). -/
theorem applyLaw_eq : s.applyLaw = { s with
    modes := { s.modes with
      stack := s.modes.stack.map fun i => { i with state := s.lawState s.modes.stack i.mode } }
    events := s.applyLaw.events } := by
  have hfold := foldl_emits (s := s) (fun x (i : ModeInst) => if s.lawState s.modes.stack i.mode = i.state then x
    else x.emit (if i.state = .running then .modeSuspended else .modeResumed) i.mode i.time i.value)
    (fun x i => by split <;> rfl) s.modes.stack
  unfold State.applyLaw State.lawEvents
  dsimp only
  rw [hfold]
  rfl

theorem endInstances_modes (p : ModeInst → Bool) (r : Nat) :
    (s.endInstances p r).modes = { s.modes with stack := s.modes.stack.filter fun i => !p i } := by rw [endInstances_eq]
theorem endInstances_game (p : ModeInst → Bool) (r : Nat) : (s.endInstances p r).game = s.game := by rw [endInstances_eq]
theorem endInstances_engine (p : ModeInst → Bool) (r : Nat) : (s.endInstances p r).engine = s.engine := by
  rw [endInstances_eq]
theorem applyLaw_modes : s.applyLaw.modes = { s.modes with
    stack := s.modes.stack.map fun i => { i with state := s.lawState s.modes.stack i.mode } } := by rw [applyLaw_eq]
theorem applyLaw_game : s.applyLaw.game = s.game := by rw [applyLaw_eq]
theorem applyLaw_engine : s.applyLaw.engine = s.engine := by rw [applyLaw_eq]

/-- Once the instances of a mode have ended under the law, the others stand in their order (R67, R68). -/
theorem ended_modes (m r : Nat) : ((s.endInstances (fun i => i.mode == m) r).applyLaw).modes.stack.map ModeInst.mode =
    (s.modes.stack.filter fun i => i.mode != m).map ModeInst.mode := by
  rw [applyLaw_modes, endInstances_modes]
  simp only [List.map_map]
  rfl
theorem ended_inst? (m r : Nat) : ((s.endInstances (fun i => i.mode == m) r).applyLaw).inst? m = none := by
  rw [inst?_eq_none_iff, ended_modes]
  simp

/-! ### Points beside the modes -/

theorem replays_modes (b a : Nat) (k : List Nat) (i : Nat) : (s.replays b a k i).modes = s.modes := by
  induction k generalizing s i with
  | nil => exact State.onCurrent_modes ..
  | cons t k ih => unfold State.replays; (repeat' split) <;> simp [ih]
theorem addPoints_modes (n : Nat) : (s.addPoints n).modes = s.modes := by
  unfold State.addPoints
  dsimp only
  split <;> simp [replays_modes]
theorem awardReported_modes (e : Event) (u b : Nat) (c : Classes) : (s.awardReported e u b c).modes = s.modes :=
  addPoints_modes _
theorem awardReported_engine (e : Event) (u b : Nat) (c : Classes) : (s.awardReported e u b c).engine = s.engine := by
  have h := awardReported_recast s (fun _ => s.engine) s.link e u b c
  rw [show s.recast (fun _ => s.engine) s.link = s from rfl] at h
  rw [h]
  rfl

/-- An award and its report in one (R56). -/
theorem awardReported_eq {q : Player} (hq : s.player? s.game.current = some q) (e : Event) (u b : Nat) (c : Classes) :
    s.awardReported e u b c = (s.onCurrent fun p => p.plus s.game.params (b * s.multiplier c)).queued
      (s.scoreRecords q s.time (b * s.multiplier c) ++
        [⟨e, s.game.current, u, s.time, s.multiplier c, b * s.multiplier c⟩]) := by
  rw [State.awardReported, State.award1, addPoints_eq hq, emit_eq_queued, queued_queued]
  simp [State.queued]

/-- Progress and value play no part in a multiplier (R51). -/
theorem multiplier_setStack_map (g : ModeInst → ModeInst) (hmode : ∀ i, (g i).mode = i.mode) (hstate : ∀ i, (g i).state = i.state)
    (c : Classes) : (s.setStack (s.modes.stack.map g)).multiplier c = s.multiplier c := by
  have hloan : (s.setStack (s.modes.stack.map g)).loan ∘ g = s.loan := by
    funext i
    have hdef : (s.setStack (s.modes.stack.map g)).modeDef = s.modeDef := rfl
    simp [State.loan, hdef, hmode, hstate]
  have hfactor : (s.setStack (s.modes.stack.map g)).factorM c = s.factorM c := by
    rw [State.factorM, State.factorM, State.setStack_modes, List.map_map, hloan]
  rw [State.multiplier, State.multiplier, hfactor]
  rfl

end Sys2Proof.Machine
end

