-- ==== Sys2Proof/Proofs/ModeControl.lean ====
section
/-! MODE_CONTROL STOP and PROGRESS (O46), with the root that the trigger of a completion begins. -/

namespace Sys2Proof.Machine

open Sys2Proof

variable {s t : State}

/-! ### The request (R84) -/

theorem modeOperation_frame (m op : Nat) : (s.modeOperation m op).1.frame = s.frame := by
  unfold State.modeOperation; split <;> simp

theorem modeOperation_one (k : Nat) : s.modeOperation k 1 = ((s.modeStop k).1, if (s.modeStop k).2 then 0 else 1) := rfl
theorem modeOperation_two (k : Nat) : s.modeOperation k 2 = ((s.modeProgress k).1, (s.modeProgress k).2.code) := rfl

variable {tag m op : Byte} {b : Bool}

/-- MODE_CONTROL in SERVE and PLAY is answered with the code that its operation comes to (R84). -/
theorem exec_modeControl (hp : s.inPlay = true) (hm : m.toNat < 16) (hop : op.toNat < 3) (code : Nat)
    (hcode : ∀ l, (State.modeOperation { s with link := l, time := s.scanner.now } m.toNat op.toNat).2 = code)
    (ho : s.Offers ⟨15, tag, [m, op]⟩) : ∃ l, exec (.modeControl tag ⟨[m, op], b⟩) s = .next
      { (((State.modeOperation { s with link := l, time := s.scanner.now } m.toNat op.toNat).1.rootFromList b).settleDevices) with
        link := s.answeredLink ⟨15, tag, [m, op]⟩ (0 :: u8 code) } := by
  obtain ⟨l, h⟩ := request_of_framed 15 tag [m, op] (modeControl b)
    (fun u => ((u.modeOperation m.toNat op.toNat).1.rootFromList b).settleDevices) (.ok (u8 code)) ho
    (fun u => by rw [State.settleDevices_frame, State.rootFromList_frame, modeOperation_frame]) fun l => by
      have hphase : ∀ x : State × Answer, State.scored { s with link := l, time := s.scanner.now } x = x := fun x => by
        unfold State.inPlay at hp
        cases hs : s.game.phase <;> simp_all [State.scored]
      simp [modeControl, State.checked, byteAt_cons, byteAt_cons_cons, firstBad, Config.modeCount, hm, hop, hphase, hcode]
  exact ⟨l, congrArg Host.Outcome.next h⟩

/-- No trigger waits, so that no root begins. -/
theorem rootFromList_of_nil (h : s.engine.triggers = []) : s.rootFromList b = s := by
  unfold State.rootFromList
  rw [h]
  cases s.engine.root <;> rfl

/-- An operation that raises no trigger ends with the tests of the devices, which leave the modes and the players alone. -/
theorem exec_modeControl_of_calm (hp : s.inPlay = true) (hm : m.toNat < 16) (hop : op.toNat < 3) (ht : s.engine.triggers = [])
    (code : Nat) (u : State → State)
    (hwork : ∀ l, State.modeOperation { s with link := l, time := s.scanner.now } m.toNat op.toNat =
      (u { s with link := l, time := s.scanner.now }, code))
    (hengine : ∀ x, (u x).engine = x.engine) (hgame : ∀ x, (u x).game = x.game)
    (ho : s.Offers ⟨15, tag, [m, op]⟩) : ∃ t l, exec (.modeControl tag ⟨[m, op], b⟩) s = .next t ∧
      t.modes = (u { s with link := l, time := s.scanner.now }).modes ∧ t.game.players = s.game.players ∧
      t.link = s.answeredLink ⟨15, tag, [m, op]⟩ (0 :: u8 code) := by
  obtain ⟨l, h⟩ := exec_modeControl (b := b) hp hm hop code (fun l => congrArg Prod.snd (hwork l)) ho
  rw [hwork l, rootFromList_of_nil (by rw [hengine]; exact ht)] at h
  have hb := settleDevices_beside (u { s with link := l, time := s.scanner.now })
  have hmodes := modes_of_beside hb
  have hplayers := (players_of_beside hb).trans (congrArg Game.players (hgame _))
  generalize (u { s with link := l, time := s.scanner.now }).settleDevices = y at h hmodes hplayers
  exact ⟨_, l, h, hmodes, hplayers, rfl⟩

/-! ### STOP (R77) -/

theorem modeStop_of_some {i : ModeInst} {k : Nat} (h : s.inst? k = some i) :
    s.modeStop k = ((s.endInstances (fun i => i.mode == k) 2).applyLaw, true) := by simp [State.modeStop, h]
theorem modeStop_of_none {k : Nat} (h : s.inst? k = none) : s.modeStop k = (s, false) := by simp [State.modeStop, h]

theorem stop_of_some {i : ModeInst} {k : Nat} (h : s.inst? k = some i) :
    s.modeOperation k 1 = ((s.endInstances (fun i => i.mode == k) 2).applyLaw, 0) := by
  rw [modeOperation_one, modeStop_of_some h]
  rfl
theorem stop_of_none {k : Nat} (h : s.inst? k = none) : s.modeOperation k 1 = (s, 1) := by
  rw [modeOperation_one, modeStop_of_none h]
  rfl

/-! ### PROGRESS (R74, R75) -/

/-- The stack with the instances of mode `k` advanced. -/
def State.advancedAll (s : State) (k : Nat) : State :=
  s.setStack (s.modes.stack.map fun j => if j.mode = k then j.advanced (s.modeDef k) else j)

theorem progress_of_none {k : Nat} (h : s.inst? k = none) : s.modeOperation k 2 = (s, 2) := by
  simp [State.modeOperation, State.modeProgress, h, ProgressResult.code]
theorem progress_of_suspended {i : ModeInst} {k : Nat} (h : s.inst? k = some i) (hs : i.state = .suspended) :
    s.modeOperation k 2 = (s, 3) := by
  simp [State.modeOperation, State.modeProgress, h, hs, ProgressResult.code]
theorem advanced_progress_of_goal {i : ModeInst} {d : ModeDef} (hg : d.goal ≠ 0) : (i.advanced d).progress = i.progress + 1 := by
  simp [ModeInst.advanced, hg]
theorem progress_of_short {i : ModeInst} {k : Nat} (h : s.inst? k = some i) (hs : i.state = .running)
    (hg : (s.modeDef k).goal = 0 ∨ i.progress + 1 ≠ (s.modeDef k).goal) : s.modeOperation k 2 = (s.advancedAll k, 0) := by
  have hnot : ¬((s.modeDef k).goal ≠ 0 ∧ (i.advanced (s.modeDef k)).progress = (s.modeDef k).goal) := fun ⟨h0, he⟩ => by
    rw [advanced_progress_of_goal h0] at he
    exact hg.elim h0 (· he)
  rw [modeOperation_two, State.modeProgress]
  simp only [h, hs]
  rw [if_neg (by decide), if_neg hnot]
  rfl
theorem progress_of_goal {i : ModeInst} {k : Nat} (h : s.inst? k = some i) (hs : i.state = .running)
    (hg : (s.modeDef k).goal ≠ 0) (he : i.progress + 1 = (s.modeDef k).goal) :
    s.modeOperation k 2 = ((s.advancedAll k).modeComplete k, 1) := by
  rw [modeOperation_two, State.modeProgress]
  simp only [h, hs]
  rw [if_neg (by decide), if_pos ⟨hg, by rw [advanced_progress_of_goal hg, he]⟩]
  rfl
theorem advancedAll_inst? {i : ModeInst} {k : Nat} (h : s.inst? k = some i) :
    (s.advancedAll k).inst? k = some (i.advanced (s.modeDef k)) := by
  have hmode : i.mode = k := by
    have h' := List.find?_some h
    simpa using h'
  rw [State.advancedAll, inst?_setStack_map _ (fun j => by split <;> rfl), h]
  simp [hmode]

/-! ### The completion (R59, R75) -/

/-- The state of a completion once the award is made and the trigger of mode `k` stands in the list (R75). -/
def State.completing (s : State) (k : Nat) : State :=
  (s.awardReported .awardCompletion k (s.modeDef k).completionValue (s.modeDef k).completionClasses).onEngine fun c =>
    { c with triggers := [88 + k] }

theorem modeComplete_eq (k : Nat) (hp : s.inPlay = true) (ht : s.engine.triggers = []) :
    s.modeComplete k = ((s.completing k).endInstances (fun i => i.mode == k) 1).applyLaw := by
  have happend : (s.awardReported .awardCompletion k (s.modeDef k).completionValue
      (s.modeDef k).completionClasses).appendTrigger (88 + k) = s.completing k := by
    have hengine := awardReported_engine (s := s) .awardCompletion k (s.modeDef k).completionValue
      (s.modeDef k).completionClasses
    have hpx : (s.awardReported .awardCompletion k (s.modeDef k).completionValue
        (s.modeDef k).completionClasses).inPlay = true := (inPlay_of_turn (awardReported_turn s ..)).trans hp
    rw [State.completing]
    simp [State.appendTrigger, State.onEngine, hpx, hengine, ht, Config.pendingTriggers]
  rw [State.modeComplete, happend]

/-- The points that the completion of mode `k` awards (R59). -/
def State.completionPoints (s : State) (k : Nat) : Nat :=
  (s.modeDef k).completionValue * s.multiplier (s.modeDef k).completionClasses

/-- The records of that award to the record `q` by work stamped `x`: those of the score, then AWARD COMPLETION (R56, R59). -/
def State.completionRecords (s : State) (q : Player) (x : Stamp) (k : Nat) : List EventRecord :=
  s.scoreRecords q x (s.completionPoints k) ++
    [⟨.awardCompletion, s.game.current, k, x, s.multiplier (s.modeDef k).completionClasses, s.completionPoints k⟩]

/-- What a completion leaves: the trigger in the list, none of its instances, the award's players, and its records first. -/
theorem modeComplete_parts (k : Nat) (hp : s.inPlay = true) (ht : s.engine.triggers = []) :
    (s.modeComplete k).engine = { s.engine with triggers := [88 + k] } ∧ (s.modeComplete k).inst? k = none ∧
      ∀ q, s.player? s.game.current = some q →
        (s.modeComplete k).game.players = (s.onCurrent fun p => p.plus s.game.params (s.completionPoints k)).game.players ∧
        (s.modeComplete k).Logged (List.foldl appendEvent s.events (s.completionRecords q s.time k)) := by
  rw [modeComplete_eq k hp ht]
  refine ⟨?_, ended_inst? k 1, fun q hq => ⟨?_, applyLaw_logged (endInstances_logged _ _ ?_)⟩⟩
  · rw [applyLaw_engine, endInstances_engine, State.completing, State.onEngine_engine, awardReported_engine]
  · rw [applyLaw_game, endInstances_game, State.completing, awardReported_eq hq]
    rfl
  · rw [State.completing, awardReported_eq hq, onEngine_logged]
    refine ⟨[], ?_⟩
    rw [State.queued, State.onCurrent_events]
    rfl

/-! ### The root of the trigger (R42) -/

/-- The state in which the root of trigger `x`, the only one in the list, begins. -/
def State.begun (s : State) (x : Nat) : State := s.onEngine fun c => { c with root := some ⟨x, 0, s.time⟩ }

theorem rootFromList_of_one {x : Nat} (hr : s.engine.root = none) (ht : s.engine.triggers = [x]) :
    s.rootFromList b = if b then s.begun x else (s.begun x).finishRoot := by
  unfold State.rootFromList
  rw [hr, ht]
  rfl

/-- A root begun from the list ends within 32 walks. -/
theorem begun_ends (x : Nat) : (s.begun x).finishRoot.RootEnded := by
  obtain ⟨m, hm, hend, -⟩ := root_ends (s := s.begun x) (r := ⟨x, 0, s.time⟩) 32 rfl (by dsimp only; omega) (by dsimp only; omega)
  rw [finishRoot_of_ended hm hend]
  exact hend

/-- The oldest trigger of the list is walked in SERVE and PLAY, and counted (R42). -/
theorem pendingWalk_of_cons {r : Root} {x : Nat} {rest : List Nat} (hr : s.engine.root = some r)
    (ht : s.engine.triggers = x :: rest) (hp : s.inPlay = true) : s.pendingWalk =
      (((s.at r.stamp).onEngine fun c =>
        { c with triggers := rest, root := some { r with walks := r.walks + 1 } }).walk x .close).afterWalk := by
  simp [State.pendingWalk, hr, ht, hp]

theorem walk_of_nil {x : Nat} {g : Edge} (h : s.chain x = []) : s.walk x g = s.onEngine fun c => { c with walking := none } := by
  rw [State.walk, h]
  rfl

/-- A root whose only trigger has an empty chain leaves nothing but its own end. -/
theorem begun_of_nil {x : Nat} (hp : s.inPlay = true) (ht : s.engine.triggers = [x]) (hc : s.chain x = []) :
    (s.begun x).finishRoot = s.onEngine fun c => { c with triggers := [], root := none, walking := none } := by
  have hwalk : (s.begun x).pendingWalk = s.onEngine fun c => { c with triggers := [], root := none, walking := none } := by
    rw [pendingWalk_of_cons (s := s.begun x) (r := ⟨x, 0, s.time⟩) (rest := []) rfl ht hp, walk_of_nil (by exact hc)]
    simp [State.afterWalk, State.begun, State.onEngine, State.at]
  have hend : (repeated State.pendingWalk 1 (s.begun x)).RootEnded := by
    rw [repeated, repeated, hwalk]
    exact ⟨rfl, rfl⟩
  rw [finishRoot_of_ended (by omega) hend, repeated, repeated, hwalk]

/-- The root of trigger `x`, worked to its end unless it pauses before its first walk, with an empty chain or not yet walked: the
engine alone is changed. -/
theorem rootFromList_calm {x : Nat} (hp : s.inPlay = true) (hr : s.engine.root = none) (ht : s.engine.triggers = [x])
    (hcalm : b = true ∨ s.chain x = []) : ∃ c, s.rootFromList b = { s with engine := c } := by
  rw [rootFromList_of_one hr ht]
  cases b with
  | true => exact ⟨_, rfl⟩
  | false =>
    have hc : s.chain x = [] := by simpa using hcalm
    rw [if_neg (by decide), begun_of_nil hp ht hc]
    exact ⟨_, rfl⟩

theorem chain_of_awards (h : t.engine.awards = s.engine.awards) (x : Nat) : t.chain x = s.chain x := by
  have haward : t.award = s.award := by funext i; rw [State.award, State.award, h]
  rw [State.chain, State.chain, haward]

/-! ### A PROGRESS that completes (R59, R75, R84) -/

/-- The state in which a completion has been carried out, at the time of the latest scan. -/
def State.completed (s : State) (l : Link) (k : Nat) : State :=
  (State.advancedAll { s with link := l, time := s.scanner.now } k).modeComplete k

theorem completed_time (l : Link) (k : Nat) : (s.completed l k).time = s.scanner.now := time_of_turn (modeComplete_turn _ k)
theorem completed_inPlay (l : Link) (k : Nat) : (s.completed l k).inPlay = s.inPlay := 
  (inPlay_of_turn (modeComplete_turn (State.advancedAll { s with link := l, time := s.scanner.now } k) k)).trans rfl

variable {i : ModeInst} {l : Link}

theorem completed_parts (k : Nat) (hp : s.inPlay = true) (ht : s.engine.triggers = []) :
    (s.completed l k).engine = { s.engine with triggers := [88 + k] } ∧ (s.completed l k).inst? k = none ∧
      ∀ q, s.player? s.game.current = some q →
        (s.completed l k).game.players = (s.onCurrent fun p => p.plus s.game.params (s.completionPoints k)).game.players ∧
        (s.completed l k).Logged (List.foldl appendEvent s.events (s.completionRecords q s.scanner.now k)) := by
  have hmult : (State.advancedAll { s with link := l, time := s.scanner.now } k).multiplier (s.modeDef k).completionClasses =
      s.multiplier (s.modeDef k).completionClasses :=
    multiplier_setStack_map (s := { s with link := l, time := s.scanner.now }) _ (fun j => by split <;> rfl)
      (fun j => by split <;> rfl) _
  obtain ⟨hengine, hinst, hq⟩ := modeComplete_parts (s := State.advancedAll { s with link := l, time := s.scanner.now } k) k hp ht
  refine ⟨hengine, hinst, fun q h => ?_⟩
  have hdef : (State.advancedAll { s with link := l, time := s.scanner.now } k).modeDef k = s.modeDef k := rfl
  obtain ⟨hplayers, hlogged⟩ := hq q h
  rw [State.completionPoints, hdef, hmult] at hplayers
  rw [State.completionRecords, State.completionPoints, hdef, hmult] at hlogged
  refine ⟨hplayers.trans ?_, hlogged⟩
  rw [onCurrent_players, onCurrent_players]
  rfl

/-- The state in which the request ends, with the trigger's root not yet walked or of no effect. -/
theorem completed_calm (k : Nat) (hp : s.inPlay = true) (hr : s.engine.root = none) (ht : s.engine.triggers = [])
    (hcalm : b = true ∨ s.chain (88 + k) = []) :
    (((s.completed l k).rootFromList b).settleDevices).inst? k = none ∧
      ∀ q, s.player? s.game.current = some q →
        (((s.completed l k).rootFromList b).settleDevices).player? s.game.current =
          some (q.plus s.game.params (s.completionPoints k)) ∧
        (∀ j, j ≠ s.game.current → (((s.completed l k).rootFromList b).settleDevices).player? j = s.player? j) ∧
        ∃ more, (((s.completed l k).rootFromList b).settleDevices).events =
          List.foldl appendEvent s.events (s.completionRecords q s.scanner.now k ++ more) := by
  obtain ⟨hengine, hinst, hq⟩ := completed_parts (l := l) k hp ht
  have hpx : (s.completed l k).inPlay = true := (completed_inPlay l k).trans hp
  obtain ⟨c, hc⟩ := rootFromList_calm (b := b) (s := s.completed l k) (x := 88 + k) hpx (by rw [hengine]; exact hr)
    (by rw [hengine]) (hcalm.imp_right fun h => by rw [chain_of_awards (s := s) (by rw [hengine]), h])
  rw [hc]
  generalize s.completed l k = y at hinst hq
  have hb := settleDevices_beside { y with engine := c }
  refine ⟨(inst?_congr (congrArg Modes.stack (modes_of_beside hb)) k).trans hinst, fun q h => ?_⟩
  obtain ⟨hplayers, hlogged⟩ := hq q h
  have hread := player?_congr ((players_of_beside hb).trans hplayers)
  obtain ⟨more, hmore⟩ := settleDevices_logged (logged_of_events (t := { y with engine := c }) rfl hlogged)
  refine ⟨?_, fun j hj => ?_, more, ?_⟩
  · rw [hread, onCurrent_player?, if_pos rfl, h]
    rfl
  · rw [hread, onCurrent_player?, if_neg hj]
  · rw [hmore, ← List.foldl_append]

/-- A PROGRESS that reaches the goal (R75, R84). -/
theorem exec_progress_goal (hp : s.inPlay = true) (hm : m.toNat < 16) (ht : s.engine.triggers = [])
    (ho : s.Offers ⟨15, tag, [m, 2]⟩) (hi : s.inst? m.toNat = some i) (hs : i.state = .running)
    (hg : (s.modeDef m.toNat).goal ≠ 0) (he : i.progress + 1 = (s.modeDef m.toNat).goal) :
    ∃ t l, exec (.modeControl tag ⟨[m, 2], b⟩) s = .next { t with link := s.answeredLink ⟨15, tag, [m, 2]⟩ [0, 1] } ∧
      t = ((s.completed l m.toNat).rootFromList b).settleDevices ∧
      t.engine = ((s.completed l m.toNat).rootFromList b).engine ∧
      (s.completed l m.toNat).engine = { s.engine with triggers := [88 + m.toNat] } ∧
      (s.completed l m.toNat).time = s.scanner.now := by
  have hop : ∀ l, State.modeOperation { s with link := l, time := s.scanner.now } m.toNat 2 =
      (s.completed l m.toNat, 1) := fun l => progress_of_goal hi hs hg he
  obtain ⟨l, h⟩ := exec_modeControl (op := 2) (b := b) hp hm (by decide) 1 (fun l => congrArg Prod.snd (hop l)) ho
  have hstate : (State.modeOperation { s with link := l, time := s.scanner.now } m.toNat 2).1 = s.completed l m.toNat :=
    congrArg Prod.fst (hop l)
  obtain ⟨hengine, -, -⟩ := completed_parts (l := l) m.toNat hp ht
  refine ⟨_, l, ?_, rfl, engine_of_beside (settleDevices_beside _), hengine, completed_time l m.toNat⟩
  rw [← hstate]
  exact h

/-- Settles O46: STOP and PROGRESS by what stands in the stack. -/
theorem modeControlStopsAndProgresses : Obligations.ModeControlStopsAndProgresses := by
  intro tag m b s hp ht hr hm
  refine ⟨fun ho => ⟨fun i hi => ?_, fun hi => ?_⟩, fun ho => ?_⟩
  · obtain ⟨t, l, hexec, hmodes, hplayers, hlink⟩ := exec_modeControl_of_calm (op := 1) (b := b) hp hm (by decide) ht 0
      (fun x => (x.endInstances (fun i => i.mode == m.toNat) 2).applyLaw) (fun l => stop_of_some hi)
      (fun x => applyLaw_engine.trans (endInstances_engine _ _)) (fun x => applyLaw_game.trans (endInstances_game _ _)) ho
    refine ⟨t, hexec, (inst?_congr (congrArg Modes.stack hmodes) _).trans (ended_inst? _ _), ?_, hplayers, hlink⟩
    rw [hmodes]
    exact ended_modes _ _
  · obtain ⟨t, l, hexec, hmodes, hplayers, hlink⟩ := exec_modeControl_of_calm (op := 1) (b := b) hp hm (by decide) ht 1
      (fun x => x) (fun l => stop_of_none hi) (fun _ => rfl) (fun _ => rfl) ho
    exact ⟨t, hexec, hmodes, hplayers, hlink⟩
  · intro d
    refine ⟨fun i hi hs hg => ?_, fun i hi hs hg he => ?_, fun i hi hs => ?_, fun hi => ?_⟩
    · obtain ⟨t, l, hexec, hmodes, hplayers, hlink⟩ := exec_modeControl_of_calm (op := 2) (b := b) hp hm (by decide) ht 0
        (fun x => x.advancedAll m.toNat) (fun l => progress_of_short hi hs hg) (fun _ => rfl) (fun _ => rfl) ho
      exact ⟨t, hexec, hplayers, hlink, (inst?_congr (congrArg Modes.stack hmodes) _).trans (advancedAll_inst? hi)⟩
    · obtain ⟨t, l, hexec, hstate, hroot, hengine, htime⟩ := exec_progress_goal (b := b) hp hm ht ho hi hs hg he
      have hone : ∀ c, (s.completed l m.toNat).rootFromList c = if c then (s.completed l m.toNat).begun (88 + m.toNat)
          else ((s.completed l m.toNat).begun (88 + m.toNat)).finishRoot := fun c =>
        rootFromList_of_one (by rw [hengine]; exact hr) (by rw [hengine])
      refine ⟨_, hexec, rfl, fun hcalm => ?_, fun hb => ?_, fun hb => ?_⟩
      · have hdone := completed_calm (l := l) m.toNat hp hr ht hcalm
        rw [← hstate] at hdone
        exact hdone
      · rw [hone, hb, if_neg (by decide)] at hroot
        have hended := begun_ends (s := s.completed l m.toNat) (88 + m.toNat)
        exact ⟨(congrArg Engine.root hroot).trans hended.root, (congrArg Engine.triggers hroot).trans hended.triggers⟩
      · rw [hone, hb, if_pos rfl, State.begun, State.onEngine_engine, htime, hengine] at hroot
        exact ⟨congrArg Engine.root hroot, congrArg Engine.triggers hroot⟩
    · obtain ⟨t, l, hexec, hmodes, hplayers, hlink⟩ := exec_modeControl_of_calm (op := 2) (b := b) hp hm (by decide) ht 3
        (fun x => x) (fun l => progress_of_suspended hi hs) (fun _ => rfl) (fun _ => rfl) ho
      exact ⟨t, hexec, hmodes, hplayers, hlink⟩
    · obtain ⟨t, l, hexec, hmodes, hplayers, hlink⟩ := exec_modeControl_of_calm (op := 2) (b := b) hp hm (by decide) ht 2
        (fun x => x) (fun l => progress_of_none hi) (fun _ => rfl) (fun _ => rfl) ho
      exact ⟨t, hexec, hmodes, hplayers, hlink⟩

end Sys2Proof.Machine
end

