-- ==== Sys2Proof/Proofs/TriggerWalks.lean ====
section
/-! The walk of a TRIGGER (O42): the entry that matches and the one that does not, the actions of an entry, the next entry of the
chain, and the walk of the trigger that an action raises. -/

namespace Sys2Proof.Machine

open Sys2Proof

variable {s : State} {tag v : Byte} {b : Bool}

/-! ### The entry that matches (R28 to R31, R33) -/

theorem modeGate_iff (e : AwardEntry) : s.modeGate e = true ↔ e.gateKind = .any ∨
    e.gateKind = .running ∧ (s.inst? e.gateMode).map ModeInst.state = some .running ∨
    e.gateKind = .absent ∧ s.inst? e.gateMode = none := by
  unfold State.modeGate
  cases e.gateKind with
  | any => simp
  | running => cases s.inst? e.gateMode <;> simp
  | absent => simp

theorem ballGate_iff (e : AwardEntry) : s.ballGate e = true ↔
    e.ballGate = .any ∨ e.ballGate = if s.census.multi = true then .multi else .single := by
  unfold State.ballGate
  cases e.ballGate <;> cases s.census.multi <;> simp

/-- The value of one operand, read of the current player's record `q` (R30). -/
theorem operandValue_iff {q : Player} (hq : s.player? s.game.current = some q) (k : Source) (x : Nat) :
    s.operandValue k x = true ↔
      k = .latch ∧ (s.switch x).latch = true ∨ k = .level ∧ (s.switch x).debounced = true ∨
      k = .flag ∧ q.flags.getLsbD x = true ∨ k = .lockLit ∧ 1 ≤ q.locksLit ∨
      k = .groupDone ∧ (s.group x).members ≠ [] ∧ ∀ j ∈ (s.group x).members, (s.switch j).latch = true := by
  unfold State.operandValue
  rw [current_of_player? hq]
  cases k <;> simp [State.latched, State.groupDone]

/-- The operands combined: a second operand adds nothing where the source ignores it (R31). -/
theorem operands_iff (c : Condition) : (s.operandValue c.source c.operandA ||
      (c.source != .lockLit && c.operandB.any (s.operandValue c.source))) = true ↔
    s.operandValue c.source c.operandA = true ∨ ∃ x, c.operandB = some x ∧ s.operandValue c.source x = true := by
  by_cases hl : c.source = .lockLit
  · simp [hl, State.operandValue]
  · cases c.operandB <;> simp [hl]

theorem conditionPasses_iff (k : Option Condition) : s.conditionPasses k = true ↔ ∀ c, k = some c →
    (c.polarity = .whenSet ↔ s.operandValue c.source c.operandA = true ∨
      ∃ x, c.operandB = some x ∧ s.operandValue c.source x = true) := by
  cases k with
  | none => simp [State.conditionPasses]
  | some c =>
    have h := operands_iff (s := s) c
    unfold State.conditionPasses
    dsimp only
    generalize (s.operandValue c.source c.operandA ||
      (c.source != .lockLit && c.operandB.any (s.operandValue c.source))) = z at h ⊢
    simp only [Option.some.injEq, forall_eq']
    rw [← h]
    cases c.polarity <;> simp

/-! ### The request -/

/-- A first walk that ends its root: the request is answered, whether or not the root would have paused (R185). -/
theorem triggerRequest_of_ended (b : Bool) (hp : s.inPlay = true) (hlo : 72 ≤ v.toNat) (hhi : v.toNat ≤ 79)
    (ho : s.Offers ⟨13, tag, [v]⟩) (ht : s.engine.triggers = [])
    (hend : ∀ l, (State.firstWalk { s with link := l, time := s.scanner.now } v.toNat).RootEnded) :
    ∃ l, exec (.triggerRequest tag ⟨[v], b⟩) s = .next
      { (State.firstWalk { s with link := l, time := s.scanner.now } v.toNat).settleDevices with
        link := s.answeredLink ⟨13, tag, [v]⟩ [0, 0] } := by
  obtain ⟨l, -, hreply, hexec⟩ := triggerRequest_of_empty hp hlo hhi ho ht
  have hnone : s.engine.paused = none := ho.2.2.1 rfl
  have hpx : State.inPlay { s with link := l, time := s.scanner.now } = true := hp
  have htriggered : State.triggered { s with link := l, time := s.scanner.now } v.toNat =
      (State.firstWalk { s with link := l, time := s.scanner.now } v.toNat).settleDevices := by
    rw [State.triggered, finishRoot_of_none (hend l).root]
  have hroot : State.triggerRoot b { s with link := l, time := s.scanner.now } v.toNat =
      State.triggered { s with link := l, time := s.scanner.now } v.toNat := by
    cases b with
    | false => exact triggerRoot_false hpx v.toNat
    | true => rw [triggerRoot_true, (hend l).root, htriggered]; rfl
  have hframe := triggered_frame (s := { s with link := l, time := s.scanner.now }) v.toNat
  have hquiet : (State.triggered { s with link := l, time := s.scanner.now } v.toNat).inHand = false :=
    inHand_of_none _ ((paused_of_frame hframe).trans hnone)
  have h := hexec b
  dsimp only at h
  rw [hroot, hquiet, if_neg (by decide), hreply _ (State.link_of_frame hframe), htriggered] at h
  exact ⟨l, h⟩

/-- The state after the visits of the chain of trigger `t`. -/
def State.visited (s : State) (t : Nat) : State := (s.visiting t).walkChain .close (s.chain t)

/-- A TRIGGER whose visits leave no trigger ends with what they have made of the players, the census, the modes and the rest. -/
theorem triggerRequest_of_visits (b : Bool) (hp : s.inPlay = true) (hlo : 72 ≤ v.toNat) (hhi : v.toNat ≤ 79)
    (ho : s.Offers ⟨13, tag, [v]⟩) (ht : s.engine.triggers = [])
    (hvisits : ∀ l, (State.visited { s with link := l, time := s.scanner.now } v.toNat).engine.triggers = []) :
    ∃ t l, exec (.triggerRequest tag ⟨[v], b⟩) s = .next t ∧
      (t.link = s.answeredLink ⟨13, tag, [v]⟩ [0, 0] ∧ t.engine.root = none) ∧
      (let w := State.visited { s with link := l, time := s.scanner.now } v.toNat
      t.game = w.game ∧ t.census = w.census ∧ t.modes = w.modes ∧ t.scanner = w.scanner ∧ t.events = w.events) := by
  have hroot : ∀ l, (State.visited { s with link := l, time := s.scanner.now } v.toNat).engine.root =
      some ⟨v.toNat, 1, s.scanner.now⟩ := fun l => walkChain_root _ _ _
  have hfirst : ∀ l, State.firstWalk { s with link := l, time := s.scanner.now } v.toNat =
      (State.visited { s with link := l, time := s.scanner.now } v.toNat).walked := fun l =>
    directWalk_of_done v.toNat .close true hp (hvisits l) (hroot l)
  obtain ⟨l, h⟩ := triggerRequest_of_ended b hp hlo hhi ho ht fun l => by
    rw [hfirst]
    exact ⟨rfl, hvisits l⟩
  have hturn : (State.visited { s with link := l, time := s.scanner.now } v.toNat).turn =
      (s.scanner.now, s.game.phase, s.game.current) := walkChain_turn _ _ _
  rw [hfirst] at h
  refine ⟨_, l, h, ?_⟩
  generalize State.visited { s with link := l, time := s.scanner.now } v.toNat = w at hturn ⊢
  have hphase : w.game.phase = s.game.phase := congrArg (·.2.1) hturn
  have hpw : w.walked.inPlay = true := by
    rw [← hp, State.inPlay, State.inPlay, ← hphase]
    rfl
  have heq := settleDevices_eq hpw
  generalize w.walked.settleDevices = y at heq
  rw [heq]
  exact ⟨⟨rfl, rfl⟩, rfl, rfl, rfl, rfl, rfl⟩

/-! ### A chain of one entry -/

theorem visited_of_match {t i : Nat} (hc : s.chain t = [i]) (hm : s.entryMatches .close (s.award i) = true) :
    s.visited t = (s.visiting t).carryOut i (s.award i) := by
  have hmatch : (s.visiting t).entryMatches .close ((s.visiting t).award i) = true := hm
  rw [State.visited, hc, State.walkChain, if_pos hmatch]
  cases ((s.visiting t).award i).continuation <;> rfl

theorem visited_of_noMatch {t i : Nat} (hc : s.chain t = [i]) (hm : s.entryMatches .close (s.award i) ≠ true) :
    s.visited t = s.visiting t := by
  have hmatch : ¬(s.visiting t).entryMatches .close ((s.visiting t).award i) = true := hm
  rw [State.visited, hc, State.walkChain, if_neg hmatch]
  rfl

/-- A FIXED entry without actions awards its base (R34, R49). -/
theorem carryOut_of_fixed {q : Player} (hq : s.player? s.game.current = some q) (i : Nat) (hs : (s.award i).source = .fixed)
    (ha : (s.award i).actions = []) : s.carryOut i (s.award i) = (s.onCurrent fun p =>
      p.plus s.game.params ((s.award i).base * s.multiplier (s.award i).classes)).queued (s.entryRecords i q) := by
  rw [State.carryOut, ha]
  exact matchPoints_eq hq i hs

/-- Actions that raise no trigger leave the engine alone. -/
theorem acts_engine (l : List Action) (h : ∀ a ∈ l, a.kind ≠ .trigger ∧ a.kind ≠ .modeProgress) :
    (l.foldl State.act s).engine = s.engine := by
  have hcast := acts_recast s (f := fun _ => s.engine) s.link l fun a ha hk =>
    hk.elim (fun hk => absurd hk (h a ha).1) fun hk => absurd hk (h a ha).2
  have hself : s.recast (fun _ => s.engine) s.link = s := rfl
  rw [hself] at hcast
  rw [hcast]
  rfl

/-- An entry of value source NONE is its actions (R49). -/
theorem carryOut_of_none (i : Nat) (e : AwardEntry) (hs : e.source = .none) : s.carryOut i e = e.actions.foldl State.act s := by
  simp [State.carryOut, State.matchPoints, State.entryBase, hs]

/-! ### Two walks: the state by what has been made of the current player's record and of the queue -/

/-- The state with the current player's record rewritten, the records `k` queued and the engine `c`. -/
def State.posted (s : State) (f : Player → Player) (k : List EventRecord) (c : Engine) : State :=
  ((s.onCurrent f).queued k).recast (fun _ => c) s.link

variable {f : Player → Player} {k : List EventRecord} {c : Engine} {q : Player}

theorem posted_onEngine (g : Engine → Engine) : (s.posted f k c).onEngine g = s.posted f k (g c) := rfl

theorem posted_eq : s.posted f k c =
    { s with game := (s.onCurrent f).game, events := List.foldl appendEvent s.events k, engine := c } := by
  rw [State.posted, onCurrent_eq]
  rfl

theorem posted_player? (j : Nat) :
    (s.posted f k c).player? j = if j = s.game.current then (s.player? j).map f else s.player? j :=
  onCurrent_player? f j

theorem posted_game : (s.posted f k c).game = (s.onCurrent f).game := rfl

theorem posted_gameCurrent : (s.posted f k c).game.current = s.game.current := State.onCurrent_current s f

theorem posted_inPlay (hp : s.inPlay = true) : (s.posted f k c).inPlay = true := by
  rw [← hp, State.inPlay, posted_game, State.onCurrent_phase, State.inPlay]

theorem posted_currentPlayer (hq : s.player? s.game.current = some q) :
    (s.posted f k c).player? (s.posted f k c).game.current = some (f q) := by
  rw [posted_gameCurrent, posted_player?, if_pos rfl, hq]
  rfl

theorem posted_currentPlayer' (hq : s.player? s.game.current = some q) :
    (s.posted f k c).player? s.game.current = some (f q) := by
  rw [posted_player?, if_pos rfl, hq]
  rfl

/-- The multiplier is found of the playfield multiplier, which points and flags leave alone. -/
theorem posted_multiplier (hq : s.player? s.game.current = some q) (hf : (f q).playfieldMult = q.playfieldMult) (w : Classes) :
    (s.posted f k c).multiplier w = s.multiplier w := by
  refine multiplier_congr ?_ ?_ ?_ ?_ w
  · rw [posted_eq]
  · refine bip_congr ?_ ?_
    · rw [posted_eq]
      rfl
    · rw [posted_eq]
  · rw [posted_game, State.onCurrent_params]
  · rw [current_of_player? (posted_currentPlayer hq), current_of_player? hq, hf]

/-- A plain entry is reached and awarded in its turn. -/
theorem posted_carryOut (hq : s.player? s.game.current = some q) (hf : (f q).playfieldMult = q.playfieldMult)
    (ha : c.awards = s.engine.awards) (i : Nat) (hs : (s.award i).source = .fixed) (hn : (s.award i).actions = []) :
    ∃ k', (s.posted f k c).carryOut i (s.award i) = s.posted
      (fun p => (f p).plus s.game.params ((s.award i).base * s.multiplier (s.award i).classes)) k' c := by
  have haward : (s.posted f k c).award i = s.award i := by rw [State.award, State.award, ← ha]; rfl
  have h := carryOut_of_fixed (posted_currentPlayer (f := f) (k := k) (c := c) hq) i (by rw [haward, hs]) (by rw [haward, hn])
  have hparams : (s.posted f k c).game.params = s.game.params := State.onCurrent_params s f
  rw [haward, posted_multiplier hq hf, hparams] at h
  refine ⟨k ++ (s.posted f k c).entryRecords i (f q), h.trans ?_⟩
  generalize (s.posted f k c).entryRecords i (f q) = more
  have hqueued (x : State) : (x.recast (fun _ => c) s.link).queued more = (x.queued more).recast (fun _ => c) s.link := rfl
  rw [State.posted, onCurrent_recast, queued_onCurrent, onCurrent_onCurrent, hqueued, queued_queued]
  rfl

/-- A plain entry whose condition passes matches (R33). -/
theorem entryMatches_of_plain {e : AwardEntry} {g : Edge} (h : e.Plain g) (hcond : s.conditionPasses e.condition = true) :
    s.entryMatches g e = true := by
  obtain ⟨hstate, hedge, hgate, hball, -, -⟩ := h
  simp [State.entryMatches, State.modeGate, State.ballGate, hstate, hedge, hgate, hball, hcond]

/-- The visit of a last entry that is plain. -/
theorem posted_walkChain (hq : s.player? s.game.current = some q) (hf : (f q).playfieldMult = q.playfieldMult)
    (ha : c.awards = s.engine.awards) {i : Nat} (hplain : (s.award i).Plain .close)
    (hcond : (s.posted f k c).conditionPasses (s.award i).condition = true) :
    ∃ k', (s.posted f k c).walkChain .close [i] = s.posted
      (fun p => (f p).plus s.game.params ((s.award i).base * s.multiplier (s.award i).classes)) k' c := by
  have haward : (s.posted f k c).award i = s.award i := by rw [State.award, State.award, ← ha]; rfl
  have hm : (s.posted f k c).entryMatches .close ((s.posted f k c).award i) = true := by
    rw [haward]
    exact entryMatches_of_plain hplain hcond
  obtain ⟨-, -, -, -, hsource, hactions⟩ := hplain
  obtain ⟨k', hk'⟩ := posted_carryOut (k := k) hq hf ha i hsource hactions
  refine ⟨k', ?_⟩
  rw [State.walkChain, if_pos hm, haward]
  cases (s.award i).continuation
  · exact hk'
  · rw [State.walkChain]
    exact hk'

/-- The walk of a trigger whose chain is one plain entry. -/
theorem posted_walk (hq : s.player? s.game.current = some q) (hf : (f q).playfieldMult = q.playfieldMult)
    (ha : c.awards = s.engine.awards) {u i : Nat} (hc : s.chain u = [i]) (hplain : (s.award i).Plain .close)
    (hcond : (s.award i).condition = none) :
    ∃ k', (s.posted f k c).walk u .close = s.posted
      (fun p => (f p).plus s.game.params ((s.award i).base * s.multiplier (s.award i).classes)) k' { c with walking := none } := by
  have hchain : (s.posted f k c).chain u = [i] := by rw [chain_of_awards (s := s) ha, hc]
  obtain ⟨k', hk'⟩ := posted_walkChain (k := k) (c := { c with walking := some u }) hq hf ha hplain (by rw [hcond]; rfl)
  refine ⟨k', ?_⟩
  rw [State.walk, hchain, posted_onEngine, hk', posted_onEngine]

theorem posted_afterWalk_of_triggers {r : Root} (hr : c.root = some r) (hw : r.walks < 32) (ht : c.triggers ≠ []) :
    (s.posted f k c).afterWalk = s.posted f k c := by
  obtain h | ⟨heq, -, -⟩ := afterWalk_cases (s := s.posted f k c) hr
  · have hroot := h.root
    have hlow : ¬Config.rootWalks ≤ r.walks := by rw [Config.rootWalks]; omega
    have hengine : (s.posted f k c).engine = c := rfl
    simp [State.afterWalk, hengine, hr, ht, hlow] at hroot
  · exact heq

/-! ### The first walk: a flag set, a trigger raised, and the next entry (R34, R35, R40) -/

variable {t u i j x : Nat}

/-- The flag `x` set (R35). -/
def Player.lit (x : Nat) (p : Player) : Player := { p with flags := p.flags ||| BitVec.twoPow 32 x }

/-- The engine after the first walk of the root of trigger `t`, which has raised trigger `u`. -/
def State.raised (s : State) (t u : Nat) : Engine :=
  { s.engine with root := some ⟨t, 1, s.time⟩, walking := none, triggers := [u] }

theorem carryOut_flagTrigger (hp : s.inPlay = true) (ht : s.engine.triggers = []) (hs : (s.award i).source = .none)
    (ha : (s.award i).actions = [⟨.flagSet, x⟩, ⟨.trigger, u⟩]) : (s.visiting t).carryOut i (s.award i) =
      s.posted (Player.lit x) [] { s.raised t u with walking := some t } := by
  rw [carryOut_of_none _ _ hs, ha]
  have hset : (s.visiting t).act ⟨.flagSet, x⟩ = s.posted (Player.lit x) []
      { s.engine with root := some ⟨t, 1, s.time⟩, walking := some t } :=
    onCurrent_recast s (fun _ => { s.engine with root := some ⟨t, 1, s.time⟩, walking := some t }) s.link (Player.lit x)
  rw [List.foldl_cons, List.foldl_cons, List.foldl_nil, hset]
  have happend := posted_inPlay (f := Player.lit x) (k := [])
    (c := { s.engine with root := some ⟨t, 1, s.time⟩, walking := some t }) hp
  have hroom : (s.posted (Player.lit x) []
      { s.engine with root := some ⟨t, 1, s.time⟩, walking := some t }).engine.triggers = [] := ht
  rw [State.act, State.appendTrigger, if_pos happend, hroom, if_pos (by decide), posted_onEngine]
  simp [State.raised, ht]

/-- What the first walk makes of the current player's record: the flag set, and with CONTINUE the points of entry `j`. -/
def State.afterFirst (s : State) (i j x : Nat) (p : Player) : Player :=
  if (s.award i).continuation = .goOn then
    (p.lit x).plus s.game.params ((s.award j).base * s.multiplier (s.award j).classes)
  else p.lit x

theorem firstWalk_flagTrigger (hp : s.inPlay = true) (ht : s.engine.triggers = []) (hq : s.player? s.game.current = some q)
    (hc : s.chain t = [i, j]) (hm : s.entryMatches .close (s.award i) = true) (hx : x < 32)
    (hs : (s.award i).source = .none) (ha : (s.award i).actions = [⟨.flagSet, x⟩, ⟨.trigger, u⟩])
    (hplain : (s.award j).Plain .close) (hcond : (s.award j).condition = some ⟨.flag, x, none, .whenSet⟩) :
    ∃ k', s.firstWalk t = s.posted (s.afterFirst i j x) k' (s.raised t u) := by
  have hcarry := carryOut_flagTrigger (t := t) hp ht hs ha
  have hvisit : ∃ k', (s.visiting t).walkChain .close [i, j] =
      s.posted (s.afterFirst i j x) k' { s.raised t u with walking := some t } := by
    have hmatch : (s.visiting t).entryMatches .close ((s.visiting t).award i) = true := hm
    have haward : (s.visiting t).award i = s.award i := rfl
    rw [State.walkChain, if_pos hmatch, haward, hcarry]
    cases hcont : (s.award i).continuation with
    | stop =>
      have hfirst : s.afterFirst i j x = Player.lit x := by funext p; simp [State.afterFirst, hcont]
      rw [hfirst]
      exact ⟨[], rfl⟩
    | goOn =>
      have hfirst : s.afterFirst i j x = fun p => (p.lit x).plus s.game.params
          ((s.award j).base * s.multiplier (s.award j).classes) := by funext p; simp [State.afterFirst, hcont]
      rw [hfirst]
      refine posted_walkChain (f := Player.lit x) (c := { s.raised t u with walking := some t }) hq rfl rfl hplain ?_
      rw [hcond]
      have hcurrent := current_of_player? (posted_currentPlayer (f := Player.lit x) (k := [])
        (c := { s.raised t u with walking := some t }) hq)
      simp [State.conditionPasses, State.operandValue, hcurrent, Player.lit, hx]
  obtain ⟨k', hk'⟩ := hvisit
  have hwalk : (s.onEngine fun c => { c with root := some ⟨t, 1, s.time⟩ }).walk t .close =
      s.posted (s.afterFirst i j x) k' (s.raised t u) := by
    have hchain : (s.onEngine fun c => { c with root := some ⟨t, 1, s.time⟩ }).chain t = [i, j] := hc
    rw [State.walk, hchain]
    exact congrArg (fun y : State => y.onEngine fun c => { c with walking := none }) hk'
  refine ⟨k', ?_⟩
  have hfirst : s.firstWalk t = ((s.onEngine fun c => { c with root := some ⟨t, 1, s.time⟩ }).walk t .close).afterWalk := by
    simp [State.firstWalk, State.directWalk, hp]
  rw [hfirst, hwalk]
  exact posted_afterWalk_of_triggers (r := ⟨t, 1, s.time⟩) rfl (show 1 < 32 by decide) (by simp [State.raised])

/-! ### The second walk: the trigger raised (R40, R42) -/

theorem pendingWalk_raised (hp : s.inPlay = true) (hq : s.player? s.game.current = some q)
    (hf : (f q).playfieldMult = q.playfieldMult) (hc : s.chain u = [i]) (hplain : (s.award i).Plain .close)
    (hcond : (s.award i).condition = none) :
    ∃ k' c', (s.posted f k (s.raised t u)).pendingWalk = s.posted
      (fun p => (f p).plus s.game.params ((s.award i).base * s.multiplier (s.award i).classes)) k' c' ∧ c'.root = none ∧
        c'.triggers = [] := by
  have hat : (s.posted f k (s.raised t u)).at s.time = s.posted f k (s.raised t u) := by
    rw [posted_eq]
    rfl
  obtain ⟨k', hk'⟩ := posted_walk (f := f) (k := k) (u := u) (i := i)
    (c := { s.raised t u with triggers := [], root := some ⟨t, 2, s.time⟩ }) hq hf rfl hc hplain hcond
  refine ⟨k', { s.raised t u with triggers := [], root := none }, ?_, rfl, rfl⟩
  rw [pendingWalk_of_cons (s := s.posted f k (s.raised t u)) (r := ⟨t, 1, s.time⟩) (x := u) (rest := []) rfl rfl
    (posted_inPlay hp), hat, posted_onEngine]
  refine (congrArg State.afterWalk hk').trans ?_
  simp only [State.afterWalk]
  rfl

/-! ### The two ends of the request -/

/-- With the breather the request stays in hand between the two walks; without it both have been made. -/
theorem triggerRequest_of_raised (hp : s.inPlay = true) (hlo : 72 ≤ v.toNat) (hhi : v.toNat ≤ 79)
    (ho : s.Offers ⟨13, tag, [v]⟩) (ht : s.engine.triggers = []) (hq : s.player? s.game.current = some q)
    (hfirst : ∀ l, ∃ k', State.firstWalk { s with link := l, time := s.scanner.now } v.toNat =
      State.posted { s with link := l, time := s.scanner.now } f k'
        (State.raised { s with link := l, time := s.scanner.now } v.toNat u))
    (hf : (f q).playfieldMult = q.playfieldMult) (hc : s.chain u = [i]) (hplain : (s.award i).Plain .close)
    (hcond : (s.award i).condition = none) :
    let second := (f q).plus s.game.params ((s.award i).base * s.multiplier (s.award i).classes)
    ∃ t t', exec (.triggerRequest tag ⟨[v], false⟩) s = .next t ∧
      (t.link = s.answeredLink ⟨13, tag, [v]⟩ [0, 0] ∧ t.engine.root = none) ∧ t.player? s.game.current = some second ∧
      exec (.triggerRequest tag ⟨[v], true⟩) s = .next t' ∧ t'.inHand = true ∧ t'.player? s.game.current = some (f q) ∧
      t'.engine.triggers = [u] ∧ t'.engine.root = some ⟨v.toNat, 1, s.scanner.now⟩ ∧
      t'.idle.player? s.game.current = some second := by
  intro second
  obtain ⟨l, hw, hreply, hexec⟩ := triggerRequest_of_empty hp hlo hhi ho ht
  obtain ⟨k1, hone⟩ := hfirst l
  obtain ⟨k2, c2, htwo, hroot, htriggers⟩ := pendingWalk_raised (s := { s with link := l, time := s.scanner.now }) (k := k1)
    (t := v.toNat) hp hq hf hc hplain hcond
  have hpx : State.inPlay { s with link := l, time := s.scanner.now } = true := hp
  have hread1 : (State.firstWalk { s with link := l, time := s.scanner.now } v.toNat).player? s.game.current = some (f q) := by
    rw [hone]
    exact posted_currentPlayer' hq
  have hread2 : (State.firstWalk { s with link := l, time := s.scanner.now } v.toNat).pendingWalk.player? s.game.current =
      some second := by
    rw [hone, htwo]
    exact posted_currentPlayer' hq
  have hone' : (State.firstWalk { s with link := l, time := s.scanner.now } v.toNat).engine =
      State.raised { s with link := l, time := s.scanner.now } v.toNat u := by rw [hone]; rfl
  have hend : (repeated State.pendingWalk 1 (State.firstWalk { s with link := l, time := s.scanner.now } v.toNat)).RootEnded := by
    rw [repeated, repeated, hone, htwo]
    exact ⟨hroot, htriggers⟩
  have htriggered := finishRoot_of_ended (by omega) hend
  have hfalse := hexec false
  have htrue := hexec true
  dsimp only at hfalse htrue
  have hframe := triggered_frame (s := { s with link := l, time := s.scanner.now }) v.toNat
  have hquiet : (State.triggered { s with link := l, time := s.scanner.now } v.toNat).inHand = false :=
    inHand_of_none _ ((paused_of_frame hframe).trans (ho.2.2.1 rfl))
  have hsettled : State.triggered { s with link := l, time := s.scanner.now } v.toNat =
      (State.firstWalk { s with link := l, time := s.scanner.now } v.toNat).pendingWalk.settleDevices := by
    rw [State.triggered, htriggered, repeated, repeated]
  have hended := (triggered_engine hpx v.toNat).root
  have hlink := State.link_of_frame hframe
  have hb := settleDevices_beside (State.firstWalk { s with link := l, time := s.scanner.now } v.toNat).pendingWalk
  rw [← hsettled] at hb
  have hplayer := (player?_congr (players_of_beside hb) s.game.current).trans hread2
  rw [triggerRoot_false hpx, hquiet, if_neg (by decide), hreply _ hlink] at hfalse
  have hpaused : State.triggerRoot true { s with link := l, time := s.scanner.now } v.toNat =
      (State.firstWalk { s with link := l, time := s.scanner.now } v.toNat).recast
        (pausedAs (some (.trigger s.scanner.now))) (State.firstWalk { s with link := l, time := s.scanner.now } v.toNat).link := by
    rw [triggerRoot_true, if_pos (by rw [hone']; rfl)]
  rw [hpaused, inHand_pausedTrigger, if_pos rfl] at htrue
  generalize State.triggered { s with link := l, time := s.scanner.now } v.toNat = y at hfalse hended hplayer
  generalize State.firstWalk { s with link := l, time := s.scanner.now } v.toNat = w at htrue hread1 hread2 hone'
  have hroot1 : w.engine.root = some ⟨v.toNat, 1, s.scanner.now⟩ := by rw [hone']; rfl
  refine ⟨_, _, hfalse, ⟨rfl, hended⟩, hplayer, htrue, inHand_pausedTrigger _ _, hread1, congrArg Engine.triggers hone', hroot1, ?_⟩
  have hidle : (w.recast (pausedAs (some (.trigger s.scanner.now))) w.link).idle =
      w.pendingWalk.recast (pausedAs (some (.trigger s.scanner.now))) w.link := by
    rw [State.idle, root_pausedAs, hroot1, if_pos (by rfl), pendingWalk_pausedAs]
  exact (congrArg (fun x : State => x.player? s.game.current) hidle).trans hread2

/-- Settles O42: one entry that matches, one that does not, the actions, and two entries with a trigger raised. -/
theorem walkAwardsFixedEntry : Obligations.WalkAwardsFixedEntry := by
  intro tag v b s i q hp hlo hhi ho ht hq e points modeGate ballGate holds condition passes ended
  have hmatch : s.entryMatches .close e = true ↔ passes := by
    have hholds : ∀ (c : Condition) y, s.operandValue c.source y = true ↔ holds c y := fun c y => operandValue_iff hq c.source y
    have hcondition : s.conditionPasses e.condition = true ↔ condition := by
      rw [conditionPasses_iff]
      simp only [hholds]
      rfl
    simp only [State.entryMatches, Bool.and_eq_true, beq_iff_eq, modeGate_iff, ballGate_iff, hcondition, and_assoc]
    rfl
  refine ⟨fun hc hpass hsource hactions => ?_, fun hc hpass => ?_, fun hc hpass hsource hkinds => ?_, ?_⟩
  · have hvisited : ∀ l, State.visited { s with link := l, time := s.scanner.now } v.toNat =
        ((State.visiting { s with link := l, time := s.scanner.now } v.toNat).onCurrent fun p =>
          p.plus s.game.params (points e)).queued (State.entryRecords { s with link := l, time := s.scanner.now } i q) := fun l =>
      (visited_of_match (s := { s with link := l, time := s.scanner.now }) hc (hmatch.2 hpass)).trans
        (carryOut_of_fixed (s := State.visiting { s with link := l, time := s.scanner.now } v.toNat) hq i hsource hactions)
    obtain ⟨t, l, hexec, hended, hgame, hcensus, hmodes, -, hevents⟩ := triggerRequest_of_visits b hp hlo hhi ho ht fun l => by
      rw [hvisited, State.queued, State.onCurrent_engine]
      exact ht
    rw [hvisited] at hgame hcensus hmodes hevents
    have hread : ∀ j, t.player? j = if j = s.game.current then (s.player? j).map fun p => p.plus s.game.params (points e)
        else s.player? j := fun j => (player?_congr (congrArg Game.players hgame) j).trans (onCurrent_player? _ j)
    refine ⟨t, hexec, hended, ?_, fun j hj => ?_, ?_, ?_, ?_⟩
    · rw [hread, if_pos rfl, hq]
      rfl
    · rw [hread, if_neg hj]
    · exact hcensus.trans (State.onCurrent_census _ _)
    · exact hmodes.trans (State.onCurrent_modes _ _)
    · rw [hevents, State.queued, State.onCurrent_events]
      rfl
  · have hvisited : ∀ l, State.visited { s with link := l, time := s.scanner.now } v.toNat =
        State.visiting { s with link := l, time := s.scanner.now } v.toNat := fun l =>
      visited_of_noMatch (s := { s with link := l, time := s.scanner.now }) hc fun h => hpass (hmatch.1 h)
    obtain ⟨t, l, hexec, hended, hgame, hcensus, hmodes, -, hevents⟩ := triggerRequest_of_visits b hp hlo hhi ho ht fun l => by
      rw [hvisited]
      exact ht
    rw [hvisited] at hgame hcensus hmodes hevents
    exact ⟨t, hexec, hended, congrArg Game.players hgame, hevents, hcensus, hmodes⟩
  · intro done
    have hcast : ∀ l, State.visited { s with link := l, time := s.scanner.now } v.toNat =
        done.recast (fun c => { c with root := some ⟨v.toNat, 1, s.scanner.now⟩, walking := some v.toNat }) l := fun l =>
      ((visited_of_match (s := { s with link := l, time := s.scanner.now }) hc (hmatch.2 hpass)).trans
        (carryOut_of_none i e hsource)).trans
        (acts_recast { s with time := s.scanner.now }
          (f := fun c => { c with root := some ⟨v.toNat, 1, s.scanner.now⟩, walking := some v.toNat }) l e.actions
          fun a ha h => h.elim (fun h => absurd h (hkinds a ha).1) fun h => absurd h (hkinds a ha).2)
    have hengine : done.engine = s.engine := acts_engine _ hkinds
    obtain ⟨t, l, hexec, hended, hgame, hcensus, hmodes, hscanner, hevents⟩ :=
      triggerRequest_of_visits b hp hlo hhi ho ht fun l => by
        rw [hcast]
        exact (congrArg Engine.triggers hengine).trans ht
    rw [hcast] at hgame hcensus hmodes hscanner hevents
    exact ⟨t, hexec, hended, congrArg Game.players hgame, hcensus, hmodes, hscanner, hevents⟩
  · intro j n u x hc hcu hlu hhu hx hpass hsource hactions plain hplainj hcondj hplainn hcondn lit first second
    have hlit : q.lit x = lit := by simp [lit, Player.lit, BitVec.twoPow_eq]
    have hfirst : s.afterFirst i j x q = first := by rw [State.afterFirst, hlit]
    have hmult : (s.afterFirst i j x q).playfieldMult = q.playfieldMult := by
      unfold State.afterFirst
      split <;> rfl
    obtain ⟨t, t', hfalse, hended, hplayer, htrue, hhand, hplayer', htriggers, hroot, hidle⟩ :=
      triggerRequest_of_raised hp hlo hhi ho ht hq (f := s.afterFirst i j x)
        (fun l => firstWalk_flagTrigger (s := { s with link := l, time := s.scanner.now }) hp ht hq hc (hmatch.2 hpass) hx hsource
          hactions hplainj hcondj) hmult hcu hplainn hcondn
    rw [hfirst] at hplayer hplayer' hidle
    exact ⟨t, t', hfalse, hended, hplayer, htrue, hhand, hplayer', htriggers, hroot, hidle⟩

end Sys2Proof.Machine
end

