-- ==== Sys2Proof/Proofs/Supply.lean ====
section
/-! The serving procedure (R132): the balls freed from the playfield devices and served from the trough, with the orders that carry
them and the balls committed to play. -/

namespace Sys2Proof.Machine

open Sys2Proof

variable {s t u : State} {f : Nat → Nat} {n k d : Nat}

/-! ### One order where no SEARCH order waits (R96) -/

/-- The order of another device leaves a device alone. -/
theorem queueOrder_device_other (d e : Nat) (r : Reason) (l : Bool) (hs : (s.device d).searchWaits = false) (h : d ≠ e) :
    (s.queueOrder d r l).device e = s.device e := by
  by_cases hc : s.configured d = true
  · by_cases hl : (s.device d).queue.length < 8
    · rw [queueOrder_of_room d r l hc hs hl]
      dsimp only
      split <;> simp [enterEjectWait_device, State.onDevice_other _ _ _ _ h, h]
    · have hd : s.dropSearch d = s := by simp [State.dropSearch, hs]
      simp [State.queueOrder, hc, hd, Config.queueOrders, Nat.le_of_not_lt hl]
  · simp [State.queueOrder, hc]

/-- An order leaves the search alone. -/
theorem queueOrder_game (d : Nat) (r : Reason) (l : Bool) (hs : (s.device d).searchWaits = false) :
    (s.queueOrder d r l).game = s.game := by
  have hd : s.dropSearch d = s := by simp [State.dropSearch, hs]
  unfold State.queueOrder
  simp only [hd, hs]
  split
  · split
    · rfl
    · rw [if_neg (by simp)]
      split
      · rw [enterEjectWait_game]
        rfl
      · rfl
  · rfl

/-- An order that finds room queues no record. -/
theorem queueOrder_events (d : Nat) (r : Reason) (l : Bool) (hc : s.configured d = true)
    (hs : (s.device d).searchWaits = false) (hl : (s.device d).queue.length < 8) : (s.queueOrder d r l).events = s.events := by
  rw [queueOrder_of_room d r l hc hs hl]
  dsimp only
  split
  · rw [enterEjectWait_events]
    rfl
  · rfl

/-! ### What the procedure has made of a state -/

/-- A waiting order of another reason does not make a SEARCH order wait. -/
theorem searchWaits_of_append {v w : Device} {o : Order} {m : Nat} (h : w.queue = v.queue ++ List.replicate m o)
    (hr : o.reason ≠ .search) : w.searchWaits = v.searchWaits := by
  cases m <;> simp [Device.searchWaits, h, hr]

/-- State `u` is `s` with `f k` balls of each playfield device `k` freed, each with its RELEASE order while the queue has room, and
`n` balls served from the trough. -/
structure State.Supplied (s u : State) (f : Nat → Nat) (n : Nat) : Prop where
  time : u.time = s.time
  modes : u.modes = s.modes
  game : u.game = s.game
  census : u.census = { s.census with locked := u.census.locked }
  tallies : u.tallies = s.tallies
  logged : u.Logged s.events
  locked : ∀ k < 8, u.locked k = s.locked k - f k
  released : ∀ k, 2 ≤ k → k < 8 → (u.device k).queue =
    (s.device k).queue ++ List.replicate (min (f k) (8 - (s.device k).queue.length)) ⟨.release, s.time, false⟩
  served : (u.device 0).queue = (s.device 0).queue ++ List.replicate n ⟨.serve, s.time, true⟩

theorem State.Supplied.refl (s : State) : s.Supplied s (fun _ => 0) 0 :=
  ⟨rfl, rfl, rfl, rfl, rfl, logged_self, fun _ _ => rfl, fun _ _ _ => by simp, by simp⟩

theorem configured_of_supplied (h : s.Supplied u f n) (d : Nat) : u.configured d = s.configured d :=
  configured_congr s d (record_of_tallies h.tallies d)
theorem countOf_of_supplied (h : s.Supplied u f n) (d : Nat) : u.countOf d = s.countOf d := by
  have hn : (u.device d).settled = (s.device d).settled := (congrArg Device.settled (tally_of_tallies h.tallies d) :)
  rw [State.countOf, State.countOf, configured_of_supplied h, hn]

/-- No SEARCH order waits, and no device holds more locks than it counts balls (R117). -/
def State.CanSupply (s : State) : Prop := ∀ k < 8, (s.device k).searchWaits = false ∧ s.locked k ≤ s.countOf k

/-- No SEARCH order waits in a device of the state supplied either. -/
theorem searchWaits_of_supplied (hs : s.CanSupply) (h : s.Supplied u f n) (hk : k = 0 ∨ 2 ≤ k ∧ k < 8) :
    (u.device k).searchWaits = false := by
  rcases hk with rfl | ⟨h2, h8⟩
  · rw [searchWaits_of_append h.served (by simp)]
    exact (hs 0 (by omega)).1
  · rw [searchWaits_of_append (h.released k h2 h8) (by simp)]
    exact (hs k h8).1

/-- One more ball of a playfield device is freed (R132 step 1). -/
theorem State.Supplied.release {m : Nat} (hs : s.CanSupply) (h : s.Supplied u (Function.update f k m) n) (h2 : 2 ≤ k)
    (h8 : k < 8) (hm : m < s.locked k) :
    s.Supplied ((u.setLocked k (u.locked k - 1)).queueOrder k .release false) (Function.update f k (m + 1)) n := by
  have hcount : 0 < s.countOf k := by have := (hs k h8).2; omega
  have hconf : u.configured k = true := by
    rw [configured_of_supplied h]
    by_contra hc
    simp [State.countOf, hc] at hcount
  have hwait : (u.device k).searchWaits = false := searchWaits_of_supplied hs h (.inr ⟨h2, h8⟩)
  have hw : ((u.setLocked k (u.locked k - 1)).device k).searchWaits = false := hwait
  have hbeside := queueOrder_beside (u.setLocked k (u.locked k - 1)) k .release false
  have hcensus := census_of_beside hbeside
  have hlocked (e : Nat) : ((u.setLocked k (u.locked k - 1)).queueOrder k .release false).locked e =
      if e = k then s.locked k - (m + 1) else u.locked e := by
    rw [State.locked, hcensus, ← State.locked, State.setLocked_locked, h.locked k h8]
    have hd : k < Config.deviceCount := h8
    by_cases he : e = k
    · simp [he, hd]
      omega
    · simp [he, Ne.symm he]
  refine ⟨(time_of_beside hbeside).trans h.time, (modes_of_beside hbeside).trans h.modes,
    (queueOrder_game _ _ _ hw).trans h.game, ?_, (queueOrder_tallies ..).trans h.tallies, queueOrder_logged _ _ _ h.logged,
    fun e he => ?_, fun e he2 he8 => ?_, ?_⟩
  · rw [hcensus, State.setLocked_census, h.census]
  · rw [hlocked]
    by_cases he' : e = k
    · simp [he']
    · simp [he', h.locked e he]
  · by_cases he' : e = k
    · subst he'
      have hq := h.released e h2 h8
      rw [Function.update_self] at hq ⊢
      have hdev : (u.setLocked e (u.locked e - 1)).device e = u.device e := rfl
      rw [queueOrder_queue (s := u.setLocked e (u.locked e - 1)) e .release false hconf h8 hw, hdev, hq]
      simp only [List.length_append, List.length_replicate, State.setLocked_time, h.time]
      split
      · rw [show min (m + 1) (8 - (s.device e).queue.length) = min m (8 - (s.device e).queue.length) by omega]
      · rw [show min (m + 1) (8 - (s.device e).queue.length) = min m (8 - (s.device e).queue.length) + 1 by omega,
          List.replicate_succ', List.append_assoc]
    · rw [queueOrder_device_other _ _ _ _ hw (Ne.symm he')]
      have hq := h.released e he2 he8
      rw [Function.update_of_ne he'] at hq ⊢
      exact hq
  · rw [queueOrder_device_other _ _ _ _ hw (by omega)]
    exact h.served

/-- One more ball is served from the trough (R132 step 2). -/
theorem State.Supplied.serve (hs : s.CanSupply) (ht : s.trough ≤ 8) (h : s.Supplied u f n)
    (hb : s.owed + n < s.trough) : s.Supplied u.launchServe f (n + 1) := by
  have hconf : s.configured 0 = true := by
    by_contra hc
    simp [State.trough, State.countOf, hc] at hb
  have hconf' : u.configured 0 = true := by rw [configured_of_supplied h, hconf]
  have howed : s.owed = (s.device 0).queue.length := by simp [State.owed, hconf]
  have hw : (u.device 0).searchWaits = false := searchWaits_of_supplied hs h (.inl rfl)
  have hl : (u.device 0).queue.length < 8 := by
    rw [h.served, List.length_append, List.length_replicate]
    omega
  have hbeside := queueOrder_beside u 0 .serve true
  have hcensus := census_of_beside hbeside
  have hlocked (e : Nat) : u.launchServe.locked e = u.locked e := congrArg (fun c : Census => readTable c.locked 0 e) hcensus
  refine ⟨(time_of_beside hbeside).trans h.time, (modes_of_beside hbeside).trans h.modes,
    (queueOrder_game _ _ _ hw).trans h.game, ?_, (queueOrder_tallies ..).trans h.tallies, queueOrder_logged _ _ _ h.logged,
    fun e he => (hlocked e).trans (h.locked e he), fun e he2 he8 => ?_, ?_⟩
  · rw [State.launchServe, hcensus]
    exact h.census
  · rw [State.launchServe, queueOrder_device_other _ _ _ _ hw (by omega)]
    exact h.released e he2 he8
  · rw [State.launchServe, queueOrder_queue 0 .serve true hconf' (by decide) hw, if_neg (by omega), h.served, h.time,
      List.replicate_succ', List.append_assoc]

/-! ### Step 1: the balls held as locks -/

/-- The balls held as locks in the devices from `j` up to and without `k`. -/
def State.heldFrom (s : State) (j k : Nat) : Nat := ((List.range' j (k - j)).map s.locked).sum

theorem heldFrom_self (j : Nat) : s.heldFrom j j = 0 := by simp [State.heldFrom]
theorem heldFrom_of_lt {j k : Nat} (h : j < k) : s.heldFrom j k = s.locked j + s.heldFrom (j + 1) k := by
  rw [State.heldFrom, State.heldFrom, show k - j = (k - (j + 1)) + 1 by omega, List.range'_succ]
  simp
theorem heldFrom_succ {j k : Nat} (h : j ≤ k) : s.heldFrom j (k + 1) = s.heldFrom j k + s.locked k := by
  rw [State.heldFrom, State.heldFrom, show k + 1 - j = (k - j) + 1 by omega, List.range'_1_concat]
  simp [Nat.add_sub_cancel' h]

/-- The balls that device `k` frees when the devices from `j` on are to free `w`. -/
def State.freedFrom (s : State) (j w k : Nat) : Nat := min (s.locked k) (w - s.heldFrom j k)

theorem sum_freedFrom (j w m : Nat) : ((List.range' j m).map (s.freedFrom j w)).sum = min w (s.heldFrom j (j + m)) := by
  induction m with
  | zero => simp [heldFrom_self]
  | succ m ih =>
    have := heldFrom_succ (s := s) (Nat.le_add_right j m)
    simp only [List.range'_1_concat, List.map_append, List.sum_append, ih, State.freedFrom, List.map_cons, List.map_nil,
      List.sum_singleton, ← Nat.add_assoc]
    omega

/-- A device frees what it holds as far as balls are wanted. -/
theorem State.Supplied.releaseFrom (hs : s.CanSupply) (h : s.Supplied u f n) (h2 : 2 ≤ k) (h8 : k < 8) (hf : f k = 0)
    (w : Nat) :
    s.Supplied (u.releaseFrom k w).1 (Function.update f k (min w (s.locked k))) n ∧
      (u.releaseFrom k w).2 = min w (s.locked k) := by
  have hlocked : u.locked k = s.locked k := by simp [h.locked k h8, hf]
  have hall (m r : Nat) (x : State) (hx : s.Supplied x (Function.update f k m) n) (hr : m + r ≤ s.locked k) :
      s.Supplied (repeated (fun s => (s.setLocked k (s.locked k - 1)).queueOrder k .release false) r x)
        (Function.update f k (m + r)) n := by
    induction r generalizing m x with
    | zero => exact hx
    | succ r ih =>
      rw [show m + (r + 1) = m + 1 + r by omega]
      exact ih _ _ (hx.release hs h2 h8 (by omega)) (by omega)
  rw [State.releaseFrom, hlocked]
  refine ⟨?_, rfl⟩
  have hstart : s.Supplied u (Function.update f k 0) n := by rwa [← hf, Function.update_eq_self]
  simpa using hall 0 (min w (s.locked k)) u hstart (by omega)

/-- The devices from `j` on free their balls in ascending order. -/
theorem State.Supplied.releaseLocked (hs : s.CanSupply) (j m w : Nat) (h : s.Supplied u f n) (h2 : 2 ≤ j) (h8 : j + m ≤ 8)
    (hf : ∀ k, j ≤ k → f k = 0) :
    s.Supplied (u.releaseLocked w (List.range' j m)).1
        (fun k => if j ≤ k ∧ k < j + m then s.freedFrom j w k else f k) n ∧
      (u.releaseLocked w (List.range' j m)).2 = min w (s.heldFrom j (j + m)) := by
  induction m generalizing j w u f with
  | zero =>
    refine ⟨?_, by simp [State.releaseLocked, heldFrom_self]⟩
    have hfun : (fun k => if j ≤ k ∧ k < j + 0 then s.freedFrom j w k else f k) = f := by
      funext k
      rw [if_neg (by omega)]
    rw [hfun]
    exact h
  | succ m ih =>
    obtain ⟨hone, hfreed⟩ := h.releaseFrom hs h2 (by omega) (hf j (Nat.le_refl j)) w
    obtain ⟨hrest, hmore⟩ := ih (j + 1) (w - min w (s.locked j)) hone (by omega) (by omega)
      (fun k hk => by rw [Function.update_of_ne (by omega)]; exact hf k (by omega))
    have hheld := heldFrom_of_lt (s := s) (show j < j + (m + 1) by omega)
    rw [show j + (m + 1) = j + 1 + m by omega] at hheld ⊢
    rw [List.range'_succ, State.releaseLocked]
    dsimp only
    rw [hfreed]
    refine ⟨?_, by rw [hmore, hheld]; omega⟩
    convert hrest using 1
    funext k
    rcases Nat.lt_trichotomy k j with hlt | rfl | hgt
    · rw [if_neg (by omega), if_neg (by omega), Function.update_of_ne (by omega)]
    · rw [if_pos (by omega), if_neg (by omega), Function.update_self, State.freedFrom, heldFrom_self]
      omega
    · have hsplit := heldFrom_of_lt (s := s) hgt
      by_cases hin : k < j + 1 + m
      · rw [if_pos (by omega), if_pos (by omega), State.freedFrom, State.freedFrom, hsplit]
        omega
      · rw [if_neg (by omega), if_neg (by omega), Function.update_of_ne (by omega)]

/-! ### Step 2: the trough -/

/-- The orders owed once `n` balls are served. -/
theorem owed_of_supplied (h : s.Supplied u f n) (hn : n ≠ 0 → s.configured 0 = true) : u.owed = s.owed + n := by
  rw [State.owed, State.owed, configured_of_supplied h, h.served]
  split
  · simp
  · rename_i hc
    by_contra hne
    exact hc (hn (by omega))

theorem trough_of_supplied (h : s.Supplied u f n) : u.trough = s.trough := countOf_of_supplied h 0

/-- A serve needs a configured trough. -/
theorem configured_of_trough (h : 0 < s.trough) : s.configured 0 = true := by
  by_contra hc
  simp [State.trough, State.countOf, hc] at h

/-- The trough serves while a ball is available. -/
theorem State.Supplied.serveFromTrough (hs : s.CanSupply) (ht : s.trough ≤ 8) (h : s.Supplied u f n)
    (hn : n ≠ 0 → s.configured 0 = true) (w : Nat) :
    s.Supplied (u.serveFromTrough w).1 f (n + min w (s.trough - (s.owed + n))) ∧
      (u.serveFromTrough w).2 = w - (s.trough - (s.owed + n)) := by
  induction w generalizing u n with
  | zero => exact ⟨by simpa [State.serveFromTrough] using h, by simp [State.serveFromTrough]⟩
  | succ w ih =>
    have hball : u.ballAvailable = true ↔ s.owed + n < s.trough := by
      rw [State.ballAvailable, owed_of_supplied h hn, trough_of_supplied h, decide_eq_true_iff]
    rw [State.serveFromTrough]
    by_cases hb : s.owed + n < s.trough
    · obtain ⟨hall, hshort⟩ := ih (h.serve hs ht hb) (fun _ => configured_of_trough (by omega))
      rw [if_pos (hball.2 hb)]
      refine ⟨?_, by omega⟩
      convert hall using 1
      omega
    · rw [if_neg (mt hball.1 hb)]
      refine ⟨?_, by dsimp only; omega⟩
      rw [show n + min (w + 1) (s.trough - (s.owed + n)) = n by omega]
      exact h

/-! ### The balls committed to play -/

/-- Every ball freed or served is committed to play (R116). -/
theorem committed_of_supplied (hs : s.CanSupply) (h : s.Supplied u f n) (hn : n ≠ 0 → s.configured 0 = true)
    (hf : ∀ k < 8, f k ≤ s.locked k) :
    u.committed = s.committed + (playfieldDevices.map f).sum + n := by
  have hfield : u.census.playfield = s.census.playfield := by rw [h.census]
  have hshooter : u.shooter = s.shooter := countOf_of_supplied h 1
  have htransit (k : Nat) (hk : k < 8) : u.countOf k - u.locked k = s.countOf k - s.locked k + f k := by
    have := hf k hk
    have := (hs k hk).2
    rw [countOf_of_supplied h, h.locked k hk]
    omega
  have hsum : (playfieldDevices.map fun k => u.countOf k - u.locked k).sum =
      (playfieldDevices.map fun k => s.countOf k - s.locked k).sum + (playfieldDevices.map f).sum := by
    simp only [playfieldDevices, List.map_cons, List.map_nil, List.sum_cons, List.sum_nil]
    rw [htransit 2 (by omega), htransit 3 (by omega), htransit 4 (by omega), htransit 5 (by omega), htransit 6 (by omega),
      htransit 7 (by omega)]
    omega
  rw [State.committed, State.committed, State.bip, State.bip, owed_of_supplied h hn, hfield, hshooter, hsum]
  omega

/-- The serving procedure for `w` balls (R132): what is freed, then what is served, and the shortfall. -/
theorem supplied_servingProcedure (hs : s.CanSupply) (ht : s.trough ≤ 8) (w : Nat) (b : Bool) :
    let released := if b = true then min w (s.heldFrom 2 8) else 0
    let served := min (w - released) (s.trough - s.owed)
    let r := s.servingProcedure w b
    s.Supplied r.1 (fun k => if b = true ∧ 2 ≤ k ∧ k < 8 then s.freedFrom 2 w k else 0) served ∧
      r.1.committed = s.committed + released + served ∧ r.2.released = released ∧
      r.2.shortfall = w - released - served := by
  have hrelease : ∃ f, s.Supplied (if b = true then s.releaseLocked w playfieldDevices else (s, 0)).1 f 0 ∧
      f = (fun k => if b = true ∧ 2 ≤ k ∧ k < 8 then s.freedFrom 2 w k else 0) ∧
      (if b = true then s.releaseLocked w playfieldDevices else (s, 0)).2 = if b = true then min w (s.heldFrom 2 8) else 0 := by
    cases b with
    | false => exact ⟨fun _ => 0, State.Supplied.refl s, by simp, rfl⟩
    | true =>
      have h := (State.Supplied.refl s).releaseLocked hs 2 6 w (by omega) (by omega) (fun _ _ => rfl)
      exact ⟨_, h.1, by simp, h.2⟩
  obtain ⟨f, hsupplied, rfl, hreleased⟩ := hrelease
  obtain ⟨hall, hshort⟩ := hsupplied.serveFromTrough hs ht (fun h => absurd rfl h)
    (w - if b = true then min w (s.heldFrom 2 8) else 0)
  simp only [Nat.zero_add, Nat.add_zero] at hall hshort
  intro released served r
  have hr : r = ((State.serveFromTrough (if b = true then s.releaseLocked w playfieldDevices else (s, 0)).1 (w - released)).1,
      ⟨released, (State.serveFromTrough (if b = true then s.releaseLocked w playfieldDevices else (s, 0)).1
        (w - released)).2⟩) := by
    show s.servingProcedure w b = _
    rw [State.servingProcedure, hreleased]
  have hn : served ≠ 0 → s.configured 0 = true := fun h => configured_of_trough (by
    have : served ≤ s.trough - s.owed := Nat.min_le_right ..
    omega)
  rw [hr]
  refine ⟨hall, ?_, rfl, hshort.trans (by omega : w - released - (s.trough - s.owed) = w - released - served)⟩
  rw [committed_of_supplied hs hall hn (fun k _ => by split <;> simp [State.freedFrom])]
  have hsum : (playfieldDevices.map fun k => if b = true ∧ 2 ≤ k ∧ k < 8 then s.freedFrom 2 w k else 0).sum = released := by
    cases b with
    | false => simp [playfieldDevices, released]
    | true => exact sum_freedFrom (s := s) 2 w 6
  rw [hsum]

end Sys2Proof.Machine
end

