-- ==== Sys2Proof/Proofs/MultiballStarts.lean ====
section
/-! What MB_START makes of a state (R131 to R134): the balls it commits, the records it queues, and the start of its mode. -/

namespace Sys2Proof.Machine

open Sys2Proof

variable {s t u v : State} {f : Nat → Nat} {n k : Nat}

/-! ### The start of a mode (R66) -/

/-- A mode that starts writes the modes and queues records. -/
theorem modeStart_eq (m : Nat) :
    (s.modeStart m).1 = { s with modes := (s.modeStart m).1.modes, events := (s.modeStart m).1.events } := by
  unfold State.modeStart
  dsimp only
  split
  · rfl
  · split
    · rfl
    · split
      · rfl
      · dsimp only
        rw [applyLaw_eq]
        rfl

/-- A mode that the stack does not hold is found, once placed, as it was placed. -/
theorem find?_placed (p : ModeInst → Bool) (i : ModeInst) (l : List ModeInst) (hi : p i = true) (hl : l.find? p = none) :
    (s.placed i l).find? p = some i := by
  induction l with
  | nil => simp [State.placed, hi]
  | cons j l ih =>
    have hj : p j = false := by simpa using List.find?_eq_none.1 hl j List.mem_cons_self
    rw [List.find?_cons_of_neg (by simp [hj])] at hl
    unfold State.placed
    split
    · simp [hi]
    · rw [List.find?_cons_of_neg (by simp [hj]), ih hl]

/-- A mode started, or refreshed, has its whole duration left (R66, R84). -/
theorem modeStart_remaining (m : Nat) (hd : (s.modeDef m).defined = true)
    (hroom : s.inst? m ≠ none ∨ s.modes.stack.length < 6) :
    ((s.modeStart m).1.inst? m).map ModeInst.remaining = some (s.modeDef m).timer := by
  unfold State.modeStart
  dsimp only
  rw [if_neg (by simp [hd])]
  cases hi : s.inst? m with
  | some i =>
    have hm : i.mode = m := by simpa using List.find?_some hi
    have hmap := inst?_setStack_map (s := s) (fun j => if j.mode = m then { j with remaining := (s.modeDef m).timer } else j)
      (fun j => by split <;> rfl) m
    rw [hi] at hmap
    have hemit (x : State) (e : Event) (a b c : Nat) : (x.emit e a b c).inst? m = x.inst? m := rfl
    dsimp only
    rw [hemit, hmap]
    simp [hm]
  | none =>
    have hlt : s.modes.stack.length < 6 := hroom.resolve_left (fun h => h hi)
    have hfull : ¬ Config.stackInstances ≤ s.modes.stack.length := Nat.not_le.2 hlt
    dsimp only
    rw [if_neg hfull, State.inst?, applyLaw_modes]
    dsimp only
    rw [List.find?_map]
    have hcomp (g : ModeInst → RunState) :
        (fun i : ModeInst => i.mode == m) ∘ (fun i : ModeInst => { i with state := g i }) = fun i => i.mode == m := rfl
    rw [hcomp]
    show Option.map _ (Option.map _ ((s.placed _ s.modes.stack).find? _)) = _
    rw [find?_placed _ _ _ (by simp) hi]
    rfl

/-- The start mode writes the modes and queues records. -/
theorem startModeOf_eq (k : Nat) :
    s.startModeOf k = { s with modes := (s.startModeOf k).modes, events := (s.startModeOf k).events } := by
  unfold State.startModeOf
  split
  · rfl
  · exact modeStart_eq _

/-- The balls committed are found from the devices and the census. -/
theorem committed_congr (hd : u.devices = s.devices) (hl : u.census.locked = s.census.locked)
    (hp : u.census.playfield = s.census.playfield) : u.committed = s.committed := by
  have hdevice : u.device = s.device := by funext d; rw [State.device, State.device, hd]
  have hconf : u.configured = s.configured := by funext d; rw [State.configured, State.configured, hdevice]
  have hcount : u.countOf = s.countOf := by funext d; rw [State.countOf, State.countOf, hconf, hdevice]
  have hlocked : u.locked = s.locked := by funext d; rw [State.locked, State.locked, hl]
  rw [State.committed, State.committed, State.bip, State.bip, State.owed, State.owed, State.shooter, State.shooter, hcount, hconf,
    hdevice, hlocked, hp]

/-! ### The balls of a start -/

theorem State.Supplied.emit (h : s.Supplied u f n) (e : Event) (i a b : Nat) : s.Supplied (u.emit e i a b) f n :=
  ⟨h.time, h.modes, h.game, h.census, h.tallies, emit_logged e i a b h.logged, h.locked, h.released, h.served⟩

/-- No record makes the queue shorter. -/
theorem length_le_appendEvent (q : List EventRecord) (r : EventRecord) : q.length ≤ (appendEvent q r).length := by
  by_cases hq : q.length < Config.eventRecords
  · rw [appendEvent_of_lt q r hq]
    simp
  · have hpos : q ≠ [] := by
      rintro rfl
      exact hq (by decide)
    have : 0 < q.length := List.length_pos_iff.2 hpos
    simp only [appendEvent, hq, if_false, List.getLast?_eq_some_getLast hpos]
    split <;> simp <;> omega

theorem length_le_foldl_appendEvent (q l : List EventRecord) : q.length ≤ (l.foldl appendEvent q).length := by
  induction l generalizing q with
  | nil => exact Nat.le_refl _
  | cons r l ih => exact Nat.le_trans (length_le_appendEvent q r) (ih _)

/-- A queue that a record left short of 64 has that record at its end. -/
theorem appendEvent_of_short (q : List EventRecord) (r : EventRecord) (h : (appendEvent q r).length < 64) :
    appendEvent q r = q ++ [r] :=
  appendEvent_of_lt q r (Nat.lt_of_le_of_lt (length_le_appendEvent q r) h)

/-- What stands in a queue stands in it still after more records, while these leave it short of 64. -/
theorem mem_of_logged {q : List EventRecord} {r : EventRecord} (h : s.Logged q) (hs : s.events.length < 64) (hr : r ∈ q) :
    r ∈ s.events := by
  obtain ⟨more, hmore⟩ := h
  rw [hmore] at hs ⊢
  clear hmore
  induction more generalizing q with
  | nil => exact hr
  | cons a more ih =>
    rw [List.foldl_cons] at hs ⊢
    refine ih ?_ hs
    rw [appendEvent_of_short _ _ (Nat.lt_of_le_of_lt (length_le_foldl_appendEvent _ more) hs)]
    exact List.mem_append_left _ hr

/-- The report of a shortfall of `m` balls (R133 step 2). -/
theorem State.Supplied.reportShort (h : s.Supplied u f n) (k m : Nat) :
    s.Supplied (if 1 ≤ m then u.emit .multiballShort k m 0 else u) f n ∧
      (if 1 ≤ m then u.emit .multiballShort k m 0 else u).committed = u.committed ∧
      (1 ≤ m → (if 1 ≤ m then u.emit .multiballShort k m 0 else u).events.length < 64 →
        ⟨.multiballShort, s.game.current, k, s.time, m, 0⟩ ∈ (if 1 ≤ m then u.emit .multiballShort k m 0 else u).events) := by
  split
  · refine ⟨h.emit .., rfl, fun _ hlt => ?_⟩
    rw [State.emit, State.emitFor, appendEvent_of_short _ _ hlt, h.time, h.game]
    exact List.mem_append_right _ (List.mem_singleton.2 rfl)
  · rename_i hm
    exact ⟨h, rfl, fun h => absurd h hm⟩

/-- The balls of a start of definition `k` (R133 step 2, R134 step 1). -/
theorem supplied_multiballServe (hs : s.CanSupply) (ht : s.trough ≤ 8) (k : Nat) :
    let b := (s.multiballDef k).releaseLocked
    let need := (s.multiballDef k).target - s.committed
    let released := if b = true then min need (s.heldFrom 2 8) else 0
    let served := min (need - released) (s.trough - s.owed)
    let u := (s.multiballServe k).1
    s.Supplied u (fun k => if b = true ∧ 2 ≤ k ∧ k < 8 then s.freedFrom 2 need k else 0) served ∧
      u.committed = s.committed + released + served ∧ (s.multiballServe k).2 = released ∧
      (1 ≤ need - released - served → u.events.length < 64 →
        ⟨.multiballShort, s.game.current, k, s.time, need - released - served, 0⟩ ∈ u.events) := by
  obtain ⟨hsupplied, hcommitted, hreleased, hshort⟩ :=
    supplied_servingProcedure hs ht ((s.multiballDef k).target - s.committed) (s.multiballDef k).releaseLocked
  obtain ⟨hall, hsame, hreport⟩ :=
    hsupplied.reportShort k (s.servingProcedure ((s.multiballDef k).target - s.committed)
      (s.multiballDef k).releaseLocked).2.shortfall
  rw [hcommitted] at hsame
  unfold State.multiballServe
  dsimp only
  rw [hshort] at hall hsame hreport ⊢
  exact ⟨hall, hsame, hreleased, hreport⟩

/-! ### The end of a start (R133 steps 6 to 8, R134 steps 2 to 4) -/

/-- The start mode, the record of the start, and the definition started last. -/
def State.launched (v : State) (k : Nat) (e : Event) (released : Nat) : State :=
  ((v.startModeOf k).emit e k (v.startModeOf k).committed released).onCensus fun c => { c with lastStarted := some k }

theorem launched_eq (k : Nat) (e : Event) (r : Nat) : v.launched k e r = { v with
    modes := (v.startModeOf k).modes, census := { v.census with lastStarted := some k }
    events := appendEvent (v.startModeOf k).events ⟨e, v.game.current, k, v.time, v.committed, r⟩ } := by
  have hcommitted : (v.startModeOf k).committed = v.committed := by rw [startModeOf_eq]; rfl
  rw [State.launched, hcommitted, startModeOf_eq]
  rfl

theorem multiballStack_launched (k : Nat) :
    s.multiballStack k = (s.multiballServe k).1.launched k .multiballStacked (s.multiballServe k).2 := rfl

/-- The rise to MULTI, the locks used up, and the ball save of definition `k` (R131, R133 steps 3 to 5). -/
def State.armed (u : State) (k : Nat) : State :=
  let d := u.multiballDef k
  { u with
    game := (u.onCurrent fun p => { p with locksMade := 0, locksLit := 0 }).game
    census := { u.census with
      multi := u.census.multi || decide (2 ≤ u.committed)
      save := if d.saveTime = 0 then u.census.save else some ⟨d.saveTime, .unlimited⟩ } }

theorem multiballRise_eq :
    s.multiballRise = { s with census := { s.census with multi := s.census.multi || decide (2 ≤ s.committed) } } := by
  unfold State.multiballRise
  split <;> rename_i h <;> simp [h, State.onCensus]

theorem multiballStart_launched (k : Nat) (hd : (s.multiballServe k).1.multiballDef k = s.multiballDef k) :
    s.multiballStart k = ((s.multiballServe k).1.armed k).launched k .multiballStarted (s.multiballServe k).2 := by
  have harmed (u : State) : (let w := u.multiballRise.onCurrent fun p => { p with locksMade := 0, locksLit := 0 }
      if (u.multiballDef k).saveTime = 0 then w
      else w.onCensus fun c => { c with save := some ⟨(u.multiballDef k).saveTime, .unlimited⟩ }) = u.armed k := by
    rw [multiballRise_eq, State.armed]
    unfold State.onCurrent State.onPlayer
    dsimp only
    split <;> split <;> simp_all [State.onCensus, State.onGame]
  rw [← harmed, hd]
  rfl

end Sys2Proof.Machine
end

