-- ==== Sys2Proof/Proofs/ActionFields.lean ====
section
/-! The actions on the player's own fields, the latches and the multiball (R35 to R38, R60, R61, R131 to R135). -/

namespace Sys2Proof.Machine

open Sys2Proof

variable {s t u v : State} {f : Nat → Nat} {n k : Nat}

/-! ### The player's fields and the latches -/

/-- A write to the current player's record, with the record written out. -/
theorem onCurrent_eq_set {q : Player} (hq : s.player? s.game.current = some q) (g : Player → Player) :
    s.onCurrent g = { s with game := { s.game with players := s.game.players.set (s.game.current - 1) (g q) } } := by
  have hcurrent : s.game.current ≠ 0 := by
    intro h
    simp [State.player?, h] at hq
  have hget : s.game.players[s.game.current - 1]? = some q := by simpa [State.player?, hcurrent] using hq
  have hset : s.game.players.modify (s.game.current - 1) g = s.game.players.set (s.game.current - 1) (g q) := by
    rw [List.modify_eq_set_getElem?, hget]
    rfl
  rw [State.onCurrent, State.onPlayer, if_neg hcurrent, ← hset]
  rfl

/-- The latches of the listed switches are cleared, and no other (R35). -/
theorem clearLatches_switch (l : List Nat) {i : Nat} (hi : i < 72) :
    (s.clearLatches l).switch i = if i ∈ l then { s.switch i with latch := false } else s.switch i := by
  rw [State.switch, State.clearLatches, State.onScanner_scanner, readTable_mapTable _ _ .reset _ _ hi]
  simp [State.switch]

/-! ### MB_START and ADD_BALL -/

/-- The balls held before device `k`, counted as the serving procedure visits the devices. -/
theorem heldFrom_eq_drop (k : Nat) : (((List.range k).drop 2).map s.locked).sum = s.heldFrom 2 k := by
  rw [List.range_eq_range', List.drop_range', State.heldFrom]

/-- The end of a start, on a state that differs from the one supplied in the player and the census at most: what it has made of
the state before the serving procedure. -/
theorem launched_of_supplied (hu : s.Supplied u f n) (hv : v = { u with game := v.game, census := v.census })
    (hlocked : v.census.locked = u.census.locked) (hfield : v.census.playfield = u.census.playfield)
    (hdefs : v.census.defs = s.census.defs) (hcurrent : v.game.current = s.game.current) (k : Nat) (e : Event) (r : Nat) :
    let t := v.launched k e r
    t.committed = u.committed ∧ t.devices = u.devices ∧ t.census.locked = u.census.locked ∧
      t.census.lastStarted = some k ∧ ((s.multiballDef k).startMode = none → t.modes = s.modes) ∧
      (∀ m, (s.multiballDef k).startMode = some m → (s.modeDef m).defined = true →
        s.inst? m ≠ none ∨ s.modes.stack.length < 6 →
        (t.inst? m).map ModeInst.remaining = some (s.modeDef m).timer) ∧
      (t.events.length < 64 → u.events.length < 64 ∧ (∀ x ∈ u.events, x ∈ t.events) ∧
        t.events.getLast? = some ⟨e, s.game.current, k, s.time, u.committed, r⟩) := by
  have hdevices : v.devices = u.devices := by rw [hv]
  have hmodes : v.modes = s.modes := by rw [hv]; exact hu.modes
  have htime : v.time = s.time := by rw [hv]; exact hu.time
  have hevents : v.events = u.events := by rw [hv]
  have hdef : v.multiballDef k = s.multiballDef k := by rw [State.multiballDef, State.multiballDef, hdefs]
  have hcommitted : v.committed = u.committed := committed_congr hdevices hlocked hfield
  rw [launched_eq, hcommitted, hcurrent, htime]
  refine ⟨(committed_congr hdevices hlocked hfield :), hdevices, hlocked, rfl, fun hnone => ?_, fun m hm hd hroom => ?_,
    fun hlt => ?_⟩
  · rw [State.startModeOf, hdef, hnone]
    exact hmodes
  · have hstart : v.startModeOf k = (v.modeStart m).1 := by rw [State.startModeOf, hdef, hm]
    have hmode : v.modeDef m = s.modeDef m := by rw [State.modeDef, State.modeDef, hmodes]
    have hinst : v.inst? m = s.inst? m := inst?_congr (by rw [hmodes]) m
    rw [← hmode] at hd ⊢
    rw [← hinst, ← hmodes] at hroom
    have hremaining := modeStart_remaining m hd hroom
    rw [← hstart] at hremaining
    exact hremaining
  · have happend := appendEvent_of_short _ _ hlt
    have hlogged : (v.startModeOf k).Logged u.events := startModeOf_logged k (hevents ▸ logged_self)
    dsimp only at hlt ⊢
    rw [happend] at hlt ⊢
    rw [List.length_append] at hlt
    have hbelow : u.events.length ≤ (v.startModeOf k).events.length := by
      obtain ⟨more, hmore⟩ := hlogged
      rw [hmore]
      exact length_le_foldl_appendEvent _ _
    exact ⟨by omega, fun x hx => List.mem_append_left _ (mem_of_logged hlogged (by omega) hx), List.getLast?_concat⟩

/-- ADD_BALL with a ball available and fewer than six committed (R135). -/
theorem addBall_of_available (hs : s.CanSupply) (ht : s.trough ≤ 8)
    (hb : s.owed < s.trough) (hc : s.committed < 6) :
    s.addBall.committed = s.committed + 1 ∧ (s.addBall.device 0).queue = (s.device 0).queue ++ [⟨.serve, s.time, true⟩] ∧
      s.addBall.events = s.events ∧ s.addBall.game = s.game ∧ s.addBall.modes = s.modes ∧
      s.addBall.census = { s.census with multi := s.census.multi || decide (1 ≤ s.committed) } := by
  have hconf : s.configured 0 = true := configured_of_trough (by omega)
  have howed : s.owed = (s.device 0).queue.length := by simp [State.owed, hconf]
  have hserved := (State.Supplied.refl s).serve hs ht hb
  have hcommitted : s.launchServe.committed = s.committed + 1 := by
    rw [committed_of_supplied hs hserved (fun _ => hconf) (fun _ _ => Nat.zero_le _)]
    rfl
  have hcensus : s.launchServe.census = s.census := census_of_beside (queueOrder_beside s 0 .serve true)
  have hadd : s.addBall = s.launchServe.multiballRise := by
    rw [State.addBall, if_pos ⟨decide_eq_true hb, hc⟩]
  have hrise : (s.launchServe.multiballRise).committed = s.launchServe.committed := by
    rw [multiballRise_eq]
    exact committed_congr rfl rfl rfl
  refine ⟨by rw [hadd, hrise, hcommitted], ?_⟩
  rw [hadd, multiballRise_eq, hcensus, hcommitted]
  refine ⟨hserved.served, queueOrder_events 0 .serve true hconf (hs 0 (by omega)).1 (by omega), hserved.game, hserved.modes, ?_⟩
  simp [Nat.succ_le_succ_iff]

/-- MB_START of a defined definition, on the state its serving procedure leaves (R133, R134). -/
theorem mbStart_of_supplied {q : Player} (hq : s.player? s.game.current = some q) (k : Nat)
    (hdef : (s.multiballDef k).defined = true) (hu : s.Supplied (s.multiballServe k).1 f n) :
    ∃ v : State, v = { (s.multiballServe k).1 with game := v.game, census := v.census } ∧
      v.census.locked = (s.multiballServe k).1.census.locked ∧
      v.census.playfield = (s.multiballServe k).1.census.playfield ∧ v.census.defs = s.census.defs ∧
      v.game.current = s.game.current ∧
      s.mbStart k = v.launched k (if s.census.multi = true then .multiballStacked else .multiballStarted)
        (s.multiballServe k).2 ∧
      (s.census.multi = true → v.census.multi = true ∧ v.game = s.game ∧ v.census.save = s.census.save) ∧
      (s.census.multi = false → (v.census.multi = true ↔ 2 ≤ (s.multiballServe k).1.committed) ∧
        v.game.players = s.game.players.set (s.game.current - 1) { q with locksMade := 0, locksLit := 0 } ∧
        v.census.save = if (s.multiballDef k).saveTime = 0 then s.census.save
          else some ⟨(s.multiballDef k).saveTime, .unlimited⟩) := by
  have hdefs : (s.multiballServe k).1.census.defs = s.census.defs := by rw [hu.census]
  have hmulti : (s.multiballServe k).1.census.multi = s.census.multi := by rw [hu.census]
  have hsave : (s.multiballServe k).1.census.save = s.census.save := by rw [hu.census]
  have hsame : (s.multiballServe k).1.multiballDef k = s.multiballDef k := by
    rw [State.multiballDef, State.multiballDef, hdefs]
  rw [State.mbStart, if_neg (by simp [hdef])]
  cases hm : s.census.multi with
  | true =>
    refine ⟨(s.multiballServe k).1, rfl, rfl, rfl, hdefs, by rw [hu.game], ?_, fun _ => ⟨hmulti.trans hm, hu.game, hsave⟩,
      fun h => absurd h (by simp)⟩
    rw [if_pos rfl, if_pos rfl]
    exact multiballStack_launched k
  | false =>
    have hplayer : (s.multiballServe k).1.player? (s.multiballServe k).1.game.current = some q := by
      rw [player?_congr (congrArg Game.players hu.game), hu.game, hq]
    refine ⟨(s.multiballServe k).1.armed k, rfl, rfl, rfl, hdefs, ?_, ?_, fun h => absurd h (by simp), fun _ => ⟨?_, ?_, ?_⟩⟩
    · rw [State.armed, onCurrent_eq_set hplayer]
      exact (congrArg Game.current hu.game :)
    · rw [if_neg (by simp), if_neg (by simp)]
      exact multiballStart_launched k hsame
    · simp [State.armed, hmulti, hm]
    · rw [State.armed, onCurrent_eq_set hplayer]
      simp [hu.game]
    · simp [State.armed, hsame, hsave]

/-- Settles O43: a write to the current player's record is a write in the list of players; MB_START is the serving procedure,
what it arms when it starts from SINGLE, and the end of the start. -/
theorem actionsWriteFields : Obligations.ActionsWriteFields := by
  intro s q x hq g built balls written
  have hwrite (k : ActionKind) (h : Player → Player) (q' : Player) (hact : s.act ⟨k, x⟩ = s.onCurrent h) (hq' : h q = q') :
      written k q' := by rw [← hq']; exact hact.trans (onCurrent_eq_set hq h)
  refine ⟨fun hx => ⟨hwrite _ _ _ rfl ?_, hwrite _ _ _ rfl ?_, hwrite _ _ _ rfl ?_⟩, hwrite _ _ _ rfl rfl, hwrite _ _ _ rfl rfl,
    fun hlit => hwrite _ _ _ rfl ?_, fun hcount => hwrite _ _ _ rfl ?_, fun hmult => hwrite _ _ _ rfl ?_,
    fun hmult => hwrite _ _ _ rfl ?_, hwrite _ _ _ rfl ?_, ⟨_, rfl, rfl, fun i hi => clearLatches_switch _ hi⟩, ?_⟩
  · rw [BitVec.twoPow_eq]
  · rw [BitVec.twoPow_eq]
  · rw [BitVec.twoPow_eq]
  · rw [lockLit, Nat.max_eq_right (Nat.le_min.2 ⟨Nat.le_add_right .., Nat.le_sub_of_add_le' hlit⟩)]
  · simp only [Config.bonusCountLimit]
    congr 1
    omega
  · congr 1
    omega
  · congr 1
    omega
  · simp only [balls, g]
    congr 1
    split <;> omega
  intro event d need before released served fed
  have hbefore (k : Nat) : before k = if d.releaseLocked = true then s.heldFrom 2 k else 0 := by
    rw [← heldFrom_eq_drop]
  have hreleased : released = if d.releaseLocked = true then min need (s.heldFrom 2 8) else 0 := by
    simp only [released, hbefore]
    split <;> simp
  have hserved : served = min (need - if d.releaseLocked = true then min need (s.heldFrom 2 8) else 0) (s.trough - s.owed) := by
    rw [← hreleased]
  refine ⟨fun hundefined => ?_, fun hs ht => ⟨fun hdef => ?_, fun hb hc => ?_⟩, fun hnone => ?_⟩
  · show s.mbStart x = _
    rw [State.mbStart, if_pos hundefined]
    rfl
  · obtain ⟨hu, hcommitted, hcount, hshort⟩ := supplied_multiballServe hs ht x
    rw [← hserved, ← hreleased] at hcommitted hshort
    rw [← hserved] at hu
    rw [← hreleased] at hcount
    obtain ⟨v, hv, hlocked, hfield, hdefs, hcurrent, hstart, hstack, hsingle⟩ := mbStart_of_supplied hq x hdef hu
    obtain ⟨htcommitted, htdevices, htlocked, htlast, htnone, htmode, htevents⟩ :=
      launched_of_supplied hu hv hlocked hfield hdefs hcurrent x
        (if s.census.multi = true then .multiballStacked else .multiballStarted) (s.multiballServe x).2
    rw [← hstart] at htcommitted htdevices htlocked htlast htnone htmode htevents
    have hgame : (s.act ⟨.mbStart, x⟩).game = v.game := by
      show (s.mbStart x).game = _
      rw [hstart, launched_eq]
    have hcensus : (s.act ⟨.mbStart, x⟩).census = { v.census with lastStarted := some x } := by
      show (s.mbStart x).census = _
      rw [hstart, launched_eq]
    have hdevice (k : Nat) : (s.mbStart x).device k = (s.multiballServe x).1.device k := by
      rw [State.device, State.device, htdevices]
    have hlock (k : Nat) : (s.mbStart x).locked k = (s.multiballServe x).1.locked k := by
      rw [State.locked, State.locked, htlocked]
    refine ⟨htcommitted.trans hcommitted, (congrArg Device.queue (hdevice 0)).trans hu.served, fun k h2 h8 => ?_, htlast, htnone,
      htmode, fun hlt => ?_, fun hmulti => ?_, fun hmulti => ?_⟩
    · have hfreed : min (before (k + 1) - before k) (need - before k) =
          if d.releaseLocked = true ∧ 2 ≤ k ∧ k < 8 then s.freedFrom 2 need k else 0 := by
        have hsum := heldFrom_succ (s := s) h2
        rw [hbefore, hbefore, State.freedFrom]
        by_cases hrelease : d.releaseLocked = true
        · rw [if_pos hrelease, if_pos hrelease, if_pos ⟨hrelease, h2, h8⟩, hsum]
          omega
        · rw [if_neg hrelease, if_neg hrelease, if_neg (fun h => hrelease h.1)]
          omega
      dsimp only
      rw [hfreed]
      exact ⟨(hlock k).trans (hu.locked k h8), (congrArg Device.queue (hdevice k)).trans (hu.released k h2 h8)⟩
    · obtain ⟨hall, hmem, hlast⟩ := htevents hlt
      refine ⟨fun hm => hmem _ (hshort hm hall), ?_⟩
      rw [← htcommitted, hcount] at hlast
      exact hlast
    · obtain ⟨hon, hsame, hsaved⟩ := hstack hmulti
      rw [hcensus, hgame]
      exact ⟨hon, hsame, hsaved⟩
    · obtain ⟨hrise, hplayers, hsaved⟩ := hsingle hmulti
      rw [hcensus, hgame]
      exact ⟨by rw [← htcommitted] at hrise; exact hrise, hplayers, hsaved⟩
  · exact addBall_of_available hs ht hb hc
  · show s.addBall = _
    have hball : ¬ (s.ballAvailable = true ∧ s.committed < 6) := by
      rw [State.ballAvailable, decide_eq_true_iff]
      omega
    rw [State.addBall, if_neg hball]
    rfl

end Sys2Proof.Machine
end

