-- ==== Sys2Proof/Proofs/ArrivalStartsMode.lean ====
section
/-! An arrival whose walk starts a mode: the hand-on of an arrival does not leave the modes alone (O15). -/

namespace Sys2Proof.Machine

open Sys2Proof

/-- An ENABLED entry of edge CLOSE in the chain of trigger 81, whose one action starts mode 0. -/
def startingEntry : AwardEntry :=
  { AwardEntry.empty with state := .enabled, trigger := 81, actions := [⟨.modeStart, 0⟩] }

/-- A SHOOTER with one arrival due. -/
def shooterWithArrival : Device :=
  { Device.reset with record := { DeviceRecord.reset with role := .shooter }, settled := 1, arrivals := [0] }

/-- A game in PLAY with mode 0 defined, `shooterWithArrival` as device 1, and `startingEntry` alone in the chain of that
arrival's trigger. -/
def shooterArrival : State :=
  { State.reset with
    engine := { Engine.reset with awards := writeTable Engine.reset.awards 0 startingEntry }
    modes := { Modes.reset with defs := writeTable Modes.reset.defs 0 { ModeDef.undefined with defined := true } }
    devices := { Devices.reset with units := writeTable Devices.reset.units 1 shooterWithArrival }
    game := { Game.reset with phase := .play, players := [.start .default], current := 1, ballNumber := 1 } }

/-- Handed on, the arrival leaves mode 0 running. -/
theorem shooterArrival_starts :
    ∃ t, exec (.arrival 1 false) shooterArrival = .next t ∧ t.modes.stack.map ModeInst.mode = [0] :=
  ⟨_, rfl, by decide +kernel⟩

/-- The hypotheses on a chain of one entry are met. -/
theorem shooterArrival_meets : shooterArrival.engine.root = none ∧ shooterArrival.engine.paused = none ∧
    shooterArrival.engine.triggers = [] ∧ shooterArrival.inPlay = true ∧ (shooterArrival.device 1).arrivals = [0] ∧
    shooterArrival.chain (80 + 1) = [0] ∧ shooterArrival.player? shooterArrival.game.current = some (.start .default) ∧
    (shooterArrival.device 1).record.role = .shooter := by decide +kernel

/-- Refutes O15: its first clause says of every chain of one entry, plain or not, that the arrival leaves the modes alone, and an
entry whose action is MODE_START puts that mode in the stack. -/
theorem not_arrivalAccounted : ¬ Obligations.ArrivalAccounted := by
  rintro ⟨hwalk, -⟩
  obtain ⟨hroot, hpaused, htriggers, hplay, harrivals, hchain, hplayer, hrole⟩ := shooterArrival_meets
  obtain ⟨t, hexec, -, -, hmodes, -⟩ := hwalk 1 0 false shooterArrival 0 [] _ (by decide) hroot hpaused htriggers hplay harrivals
    hchain hplayer (.inl hrole)
  obtain ⟨u, hexec', hstack⟩ := shooterArrival_starts
  rw [hexec] at hexec'
  cases hexec'
  rw [hmodes] at hstack
  cases hstack

end Sys2Proof.Machine
end

