-- ==== Sys2Proof/Proofs/Grants.lean ====
section
/-! GRANT (O44): the total multiplier in its three factors, and the award of the base held with its reply (R50 to R58, R186). -/

namespace Sys2Proof.Machine

open Sys2Proof

variable {s : State}

/-! ### The total multiplier (R50 to R53) -/

/-- The instances that lend are the RUNNING ones whose definitions do (R51). -/
theorem sum_loan (l : List ModeInst) : (l.map s.loan).sum =
    ((l.filter fun i => i.state == .running && (s.modeDef i.mode).lends).map
      fun i => (s.modeDef i.mode).multiplier - 1).sum := by
  induction l with
  | nil => rfl
  | cons i l ih =>
    rw [List.map_cons, List.sum_cons, ih, State.loan, List.filter_cons]
    by_cases h : i.state = .running ∧ (s.modeDef i.mode).lends = true
    · simp [h]
    · have hno : (i.state == .running && (s.modeDef i.mode).lends) = false := by
        simpa [← Bool.not_eq_true] using h
      simp [h, hno]

/-- The three factors written out, and their product held at 64. -/
theorem multiplier_eq {q : Player} (hq : s.player? s.game.current = some q) (c : Classes) : s.multiplier c =
    let lent := s.modes.stack.filter fun i => i.state == .running && (s.modeDef i.mode).lends
    let bip := s.shooter + s.census.playfield + ([2, 3, 4, 5, 6, 7].map fun k => s.countOf k - s.locked k).sum
    let factorP := if c.playfield = true then q.playfieldMult else 1
    let factorM := if c.mode = true then min (1 + (lent.map fun i => (s.modeDef i.mode).multiplier - 1).sum) 8 else 1
    let factorF := if c.multiball = true ∧ 2 ≤ bip then min bip s.game.params.factorCap else 1
    min (factorP * factorM * factorF) 64 := by
  rw [State.multiplier, State.factorP, State.factorM, current_of_player? hq, sum_loan]
  rfl

/-! ### The request (R58, R186) -/

/-- A score request is taken in SERVE and PLAY (R179). -/
theorem scored_of_inPlay (hp : s.inPlay = true) (taken : State × Answer) : s.scored taken = taken := by
  have hplay : s.game.phase = .serve ∨ s.game.phase = .play := by simpa [State.inPlay] using hp
  rcases hplay with h | h <;> simp [State.scored, h]

/-- The base and the class set read back from the payload of a GRANT. -/
theorem grantPayload_fields (n : Nat) (c : Classes) (hn : n < 281474976710656) :
    fieldAt (u48 n ++ u8 c.code) 0 6 = n ∧ byteAt (u48 n ++ u8 c.code) 6 = c.code ∧ c.code < 8 := by
  have hcode : c.code < 8 := by
    obtain ⟨_ | _, _ | _, _ | _⟩ := c <;> decide
  have hlength : (u48 n).length + 0 = 6 := by simp [u48]
  refine ⟨(fieldAt_leBytes_append 6 n _).trans (Nat.mod_eq_of_lt hn), ?_, hcode⟩
  rw [byteAt, ← hlength, fieldAt_append, ← List.append_nil (u8 c.code)]
  exact (fieldAt_leBytes_append 1 c.code []).trans (Nat.mod_eq_of_lt (by omega))

/-- A GRANT in play is carried out. -/
theorem grant_of_inPlay (hp : s.inPlay = true) (n : Nat) (c : Classes) (hn : n < 281474976710656) :
    grant (u48 n ++ u8 c.code) s = s.grantPoints n c := by
  obtain ⟨hbase, hcode, hlt⟩ := grantPayload_fields n c hn
  rw [grant, scored_of_inPlay hp, hbase, hcode, classesOf_code]
  simp [State.checked, firstBad, hlt, u48, u8]

/-- The award of a GRANT and its answer. -/
theorem grantPoints_eq {q : Player} (hq : s.player? s.game.current = some q) (n : Nat) (c : Classes) :
    let base := heldPoints Config.pointLimit n
    let points := base * s.multiplier c
    s.grantPoints n c = (s.awardReported .awardGranted 255 base c,
      .applied (base != n) (u8 (s.multiplier c) ++ u48 points ++ u48 (min (q.score + points) 99999999990))) := by
  intro base points
  have hscore : (s.awardReported .awardGranted 255 base c).current.score = min (q.score + points) 99999999990 := by
    rw [awardReported_eq hq, queued_current hq]
    rfl
  rw [State.grantPoints, hscore]

/-- The payload of an applied request: whether a quantity was held, and its data (R176). -/
theorem applied_data (a b : Nat) (data : List Byte) :
    (Answer.applied (a != b) data).bytes = [if a = b then 0 else 1] ++ data := by
  by_cases h : a = b <;> simp [h, Answer.applied, Answer.bytes, u8, leBytes]

/-- An award and its report change the current player's record and the Event Queue alone (R54, R56). -/
theorem awardReported_changes {q : Player} (hq : s.player? s.game.current = some q) (e : Event) (i b : Nat) (c : Classes) :
    let points := b * s.multiplier c
    s.awardReported e i b c = { s with
      game := (s.onCurrent fun p => p.plus s.game.params points).game
      events := List.foldl appendEvent s.events
        (s.scoreRecords q s.time points ++ [⟨e, s.game.current, i, s.time, s.multiplier c, points⟩]) } := by
  intro points
  rw [awardReported_eq hq, onCurrent_eq]
  rfl

/-- An offered GRANT in play: its award is made at the time of the latest scan, and its answer stands in its place. -/
theorem exec_grant {q : Player} (tag : Byte) (n : Nat) (c : Classes) (hp : s.inPlay = true) (hn : n < 281474976710656)
    (hq : s.player? s.game.current = some q) (ho : s.Offers ⟨14, tag, u48 n ++ u8 c.code⟩) :
    let base := heldPoints Config.pointLimit n
    let points := base * s.multiplier c
    exec (.grantRequest tag (u48 n ++ u8 c.code)) s = .next { s with
      game := (s.onCurrent fun p => p.plus s.game.params points).game
      events := List.foldl appendEvent s.events (s.scoreRecords q s.scanner.now points ++
        [⟨.awardGranted, s.game.current, 255, s.scanner.now, s.multiplier c, points⟩])
      link := s.answeredLink ⟨14, tag, u48 n ++ u8 c.code⟩ ([if base = n then 0 else 1] ++
        (u8 (s.multiplier c) ++ u48 points ++ u48 (min (q.score + points) 99999999990)))
      time := s.scanner.now } := by
  intro base points
  obtain ⟨l, h⟩ := request_of_framed 14 tag _ grant (fun u => u.awardReported .awardGranted 255 base c)
    (.applied (base != n) (u8 (s.multiplier c) ++ u48 points ++ u48 (min (q.score + points) 99999999990))) ho
    (fun u => u.awardReported_frame ..)
    fun l => (grant_of_inPlay (s := { s with link := l, time := s.scanner.now }) hp n c hn).trans
      (grantPoints_eq (s := { s with link := l, time := s.scanner.now }) hq n c)
  have hgame := onCurrent_game_congr (t := { s with link := l, time := s.scanner.now }) (s := s) rfl
    fun p => p.plus s.game.params points
  dsimp only at h
  rw [applied_data, awardReported_changes (s := { s with link := l, time := s.scanner.now }) hq] at h
  refine congrArg Host.Outcome.next (h.trans ?_)
  rw [← hgame]
  rfl

/-- Settles O44: the request's work is one award, whose factors and records are found from the state before it. -/
theorem grantAwards : Obligations.GrantAwards := by
  intro tag s n c q hp hn hq p base lent bip factorP factorM factorF total points score ho
  have htotal : s.multiplier c = total := multiplier_eq hq c
  have hexec := exec_grant tag n c hp hn hq ho
  rw [htotal] at hexec
  have hplayer := onCurrent_player? (s := s) fun p => p.plus s.game.params points
  refine ⟨_, hexec, ?_, fun k hk => ?_, ?_, rfl, rfl, rfl, rfl, rfl, rfl⟩
  · refine (hplayer s.game.current).trans ?_
    rw [if_pos rfl, hq]
    rfl
  · exact (hplayer k).trans (if_neg hk)
  · simp only [List.append_assoc]
    rfl

end Sys2Proof.Machine
end

