-- ==== Sys2Proof/Proofs/Arrivals.lean ====
section
/-! The hand-on of one arrival (R94): what it takes of the device, and what its walk and the tests after it leave alone. -/

namespace Sys2Proof.Machine

open Sys2Proof

variable {s t u : State} {d : Nat} {at_ : Stamp} {rest : List Stamp}

/-! ### An arrival taken (R94) -/

/-- The state in which an arrival at device `d` has been counted and reported, before the census deals with it. -/
def State.arrived (s : State) (d : Nat) (at_ : Stamp) (rest : List Stamp) : State :=
  let u := (s.onDevice d fun v => { v with arrivals := rest, accounted := min (v.accounted + 1) v.settled }).at at_
  if (u.device d).record.reportArrivals then u.emit .deviceArrival d (u.device d).accounted 0 else u

/-- With no root in progress and nothing paused, the next arrival due is counted, dealt with and walked. -/
theorem exec_arrival (b : Bool) (hr : s.engine.root = none) (hp : s.engine.paused = none)
    (ha : (s.device d).arrivals = at_ :: rest) : exec (.arrival d b) s = .next
      ((((s.arrived d at_ rest).censusArrival d).directWalk (80 + d) .close b).settleDevices) := by
  have hfinish : s.finishWork = s := by rw [State.finishWork, finishRoot_of_none hr, resume_of_none s false hp]
  have htake : s.takeArrival d b = ((s.arrived d at_ rest).censusArrival d).directWalk (80 + d) .close b := by
    unfold State.takeArrival
    rw [ha]
    rfl
  refine congrArg Host.Outcome.next ?_
  rw [if_neg (by simp [ha]), hfinish, htake]

@[simp] theorem arrived_engine : (s.arrived d at_ rest).engine = s.engine := by unfold State.arrived; dsimp only; split <;> rfl
@[simp] theorem arrived_modes : (s.arrived d at_ rest).modes = s.modes := by unfold State.arrived; dsimp only; split <;> rfl
@[simp] theorem arrived_census : (s.arrived d at_ rest).census = s.census := by unfold State.arrived; dsimp only; split <;> rfl
@[simp] theorem arrived_game : (s.arrived d at_ rest).game = s.game := by unfold State.arrived; dsimp only; split <;> rfl
@[simp] theorem arrived_time : (s.arrived d at_ rest).time = at_ := by unfold State.arrived; dsimp only; split <;> rfl

/-- Beside the devices and the Event Queue the next stamp is all an arrival writes. -/
theorem arrived_beside : (s.arrived d at_ rest).beside = ({ s with time := at_ } : State).beside := by
  unfold State.arrived
  dsimp only
  split
  · exact emit_beside ..
  · rfl
theorem arrived_logged : (s.arrived d at_ rest).Logged s.events := by
  have hcounted : State.Logged s.events
      ((s.onDevice d fun v => { v with arrivals := rest, accounted := min (v.accounted + 1) v.settled }).at at_) := ⟨[], rfl⟩
  unfold State.arrived
  dsimp only
  split
  · exact emit_logged _ _ _ _ hcounted
  · exact hcounted

/-- Of the devices an arrival changes the accounted count and the arrivals due alone. -/
theorem arrived_device (e : Nat) : ∃ n l, (s.arrived d at_ rest).device e = { s.device e with accounted := n, arrivals := l } := by
  have hread : (s.arrived d at_ rest).device e = (s.onDevice d fun v =>
      { v with arrivals := rest, accounted := min (v.accounted + 1) v.settled }).device e := by
    unfold State.arrived; dsimp only; split <;> rfl
  rw [hread, State.onDevice_device]
  split
  · rename_i h
    rw [← h.1]
    exact ⟨_, _, rfl⟩
  · exact ⟨_, _, rfl⟩
theorem arrived_record (e : Nat) : ((s.arrived d at_ rest).device e).record = (s.device e).record := by
  obtain ⟨n, l, h⟩ := arrived_device (s := s) (d := d) (at_ := at_) (rest := rest) e
  rw [h]
theorem arrived_queue (e : Nat) : ((s.arrived d at_ rest).device e).queue = (s.device e).queue := by
  obtain ⟨n, l, h⟩ := arrived_device (s := s) (d := d) (at_ := at_) (rest := rest) e
  rw [h]
theorem arrived_settled (e : Nat) : ((s.arrived d at_ rest).device e).settled = (s.device e).settled := by
  obtain ⟨n, l, h⟩ := arrived_device (s := s) (d := d) (at_ := at_) (rest := rest) e
  rw [h]
theorem arrived_configured (e : Nat) : (s.arrived d at_ rest).configured e = s.configured e :=
  configured_congr s e (arrived_record e)
theorem arrived_inPlay : (s.arrived d at_ rest).inPlay = s.inPlay := by rw [State.inPlay, arrived_game, State.inPlay]

/-- An arrival commits no ball to play, and takes none from it. -/
theorem arrived_committed : (s.arrived d at_ rest).committed = s.committed := by
  have hcount : (s.arrived d at_ rest).countOf = s.countOf := by
    funext e
    rw [State.countOf, State.countOf, arrived_configured, arrived_settled]
  have hlocked : (s.arrived d at_ rest).locked = s.locked := by
    funext e
    rw [State.locked, State.locked, arrived_census]
  rw [State.committed, State.committed, State.bip, State.bip, State.owed, State.owed, State.shooter, State.shooter, hcount,
    hlocked, arrived_census, arrived_configured, arrived_queue]

/-! ### The trough and the game through the tests of the devices -/

/-- The search takes a device above the trough. -/
theorem searchNext_device_zero : s.searchNext.device 0 = s.device 0 := by
  unfold State.searchNext
  split
  · rfl
  · rename_i d hd
    have hfound := List.find?_some hd
    have hpos : d ≠ 0 := by
      rintro rfl
      simp at hfound
    simp [enterEjectWait_device, State.onDevice_other _ _ _ _ hpos, hpos]

/-- An order of another device leaves the trough alone, whatever search order gives way to it. -/
theorem queueOrder_device_zero (r : Reason) (l : Bool) (hd : d ≠ 0) : (s.queueOrder d r l).device 0 = s.device 0 := by
  have hdrop : (s.dropSearch d).device 0 = s.device 0 := by
    unfold State.dropSearch
    split
    · rw [leaveLine_device, State.onDevice_other _ _ _ _ hd]
    · rfl
  have hnext (u : State) (c : Prop) [Decidable c] (h : u.device 0 = s.device 0) :
      (if c then u.searchNext else u).device 0 = s.device 0 := by
    split
    · rw [searchNext_device_zero, h]
    · exact h
  have hjoin (u : State) (f : Device → Device) (h : u.device 0 = s.device 0) :
      (if ((u.onDevice d f).device d).state = .idle then (u.onDevice d f).enterEjectWait d else u.onDevice d f).device 0 =
        s.device 0 := by
    split
    · rw [enterEjectWait_device, if_neg (fun h => hd h.1), State.onDevice_other _ _ _ _ hd, h]
    · rw [State.onDevice_other _ _ _ _ hd, h]
  unfold State.queueOrder
  dsimp only
  split
  · split
    · exact hdrop
    · exact hnext _ _ (hjoin _ _ hdrop)
  · rfl

theorem recoverDevice_device_zero (hd : d ≠ 0) : (s.recoverDevice d).device 0 = s.device 0 := by
  unfold State.recoverDevice
  split
  · exact repeated_keeps (p := fun x => x.device 0 = s.device 0) _
      (fun x h => (queueOrder_device_zero _ _ hd).trans h) _ s rfl
  · rfl
theorem recover_device_zero : s.recover.device 0 = s.device 0 := by
  have hall : ∀ l : List Nat, (∀ d ∈ l, d ≠ 0) → ∀ x : State, (l.foldl State.recoverDevice x).device 0 = x.device 0 := by
    intro l
    induction l with
    | nil => exact fun _ _ => rfl
    | cons d l ih =>
      intro hl x
      rw [List.foldl_cons, ih fun e he => hl e (List.mem_cons_of_mem _ he)]
      exact recoverDevice_device_zero (hl d List.mem_cons_self)
  unfold State.recover
  split
  · exact hall _ (by decide) s
  · rfl

/-- The tests of the devices leave the trough alone in every phase: what they queue are LAUNCH and RECOVER orders. -/
theorem settleDevices_device_zero : s.settleDevices.device 0 = s.device 0 := by
  rw [State.settleDevices, recover_device_zero, followInterlock_device, launchTest_device 0 (by simp)]

/-- With no SEARCH order in flight, orders leave the whole of the game alone. -/
theorem queueOrder_game_of_none (r : Reason) (l : Bool) (h : s.game.search.inFlight = none) :
    (s.queueOrder d r l).game = s.game := by
  have hdrop : (s.dropSearch d).game = s.game := by unfold State.dropSearch; split <;> rfl
  have hjoin (u : State) : (if (u.device d).state = .idle then u.enterEjectWait d else u).game = u.game := by
    split
    · exact enterEjectWait_game u d
    · rfl
  unfold State.queueOrder
  dsimp only
  split
  · split
    · exact hdrop
    · rw [if_neg (by rw [hjoin, State.onDevice_game, hdrop, h]; simp), hjoin, State.onDevice_game, hdrop]
  · rfl
theorem recover_game_of_none (h : s.game.search.inFlight = none) : s.recover.game = s.game := by
  have hone (x : State) (d : Nat) (hx : x.game = s.game) : (x.recoverDevice d).game = s.game := by
    unfold State.recoverDevice
    split
    · exact repeated_keeps (p := fun y => y.game = s.game) _
        (fun y hy => (queueOrder_game_of_none _ _ (by rw [hy, h])).trans hy) _ x hx
    · exact hx
  unfold State.recover
  split
  · exact foldl_keeps (p := fun x => x.game = s.game) _ hone _ s rfl
  · rfl
theorem settleDevices_game_of_none (h : s.game.search.inFlight = none) : s.settleDevices.game = s.game := by
  have hgame : s.launchTest.followInterlock.game = s.game := by rw [followInterlock_game, launchTest_game]
  rw [State.settleDevices, recover_game_of_none (by rw [hgame, h]), hgame]

/-! ### The walk that follows -/

/-- The walk of an empty chain changes the engine alone, also where none is made. -/
theorem directWalk_emptyChain (x : Nat) (e : Edge) (b : Bool) (ht : s.engine.triggers = []) (hc : s.chain x = []) :
    ∃ c, s.directWalk x e b = { s with engine := c } := by
  by_cases hp : s.inPlay = true
  · exact ⟨_, directWalk_of_nil x e b hp ht hc⟩
  · exact ⟨s.engine, if_neg hp⟩

/-- What the walk of an empty chain and the tests of the devices leave of the state before them. -/
structure State.Ended (s t : State) : Prop where
  census : t.census = s.census
  modes : t.modes = s.modes
  phase : t.game.phase = s.game.phase
  players : t.game.players = s.game.players
  trough : t.device 0 = s.device 0
  game : s.ballOn = true → t.game = s.game

theorem ended_of_emptyChain (x : Nat) (e : Edge) (b : Bool) (ht : s.engine.triggers = []) (hc : s.chain x = []) :
    s.Ended (s.directWalk x e b).settleDevices := by
  obtain ⟨c, hwalk⟩ := directWalk_emptyChain x e b ht hc
  rw [hwalk]
  have hb := settleDevices_beside { s with engine := c }
  refine ⟨(census_of_beside hb).trans rfl, (modes_of_beside hb).trans rfl, (phase_of_beside hb).trans rfl,
    (players_of_beside hb).trans rfl, settleDevices_device_zero, fun hball => settleDevices_game (s := { s with engine := c }) ?_⟩
  have hphase : (s.game.phase = .serve ∨ s.game.phase = .play) ∨ s.game.phase = .tilt := by
    simpa [State.ballOn, State.inPlay] using hball
  rcases hphase with (h | h) | h <;> simp [h]

end Sys2Proof.Machine
end

