-- ==== Sys2Proof/Proofs/BallEnds.lean ====
section
/-! The end of a multiball (R136) and of a ball (R153): what each makes of the census, the modes, the players and the phase. -/

namespace Sys2Proof.Machine

open Sys2Proof

variable {s t : State} {q : Player}

/-! ### The multiball end (R78, R79, R136) -/

/-- The census at the end of a multiball: an unlimited ball save ends with it (R136). -/
def Census.multiballOver (c : Census) : Census :=
  { c with
    multi := false
    save := if c.save.map BallSave.saves = some .unlimited then none else c.save }

/-- The jackpots are reset at the end of a multiball when the definition started last says so (R136). -/
def State.resetsJackpots (s : State) : Bool := s.census.lastStarted.any fun k => (s.multiballDef k).jackpotReset

theorem resetsJackpots_iff : s.resetsJackpots = true ↔
    ∃ k, s.census.lastStarted = some k ∧ (s.multiballDef k).jackpotReset = true := by
  simp [State.resetsJackpots, Option.any_eq_true]

/-- The game with every player's jackpot at its base (R48, R61). -/
def Game.jackpotsReset (g : Game) : Game :=
  { g with players := g.players.map fun p => { p with jackpot := jackpotStart g.params } }

theorem saveEnd_census (c : Nat) : (s.saveEnd c).census = { s.census with save := none } := by
  unfold State.saveEnd
  split
  · rfl
  · rename_i h
    have hnone : s.census.save = none := by simpa using h
    generalize s.census = x at hnone
    cases x
    cases hnone
    rfl

/-- An active ball save that ends queues its record, and changes nothing beside the census. -/
theorem saveEnd_eq (c : Nat) :
    s.saveEnd c = { s with census := { s.census with save := none }, events := (s.saveEnd c).events } := by
  rw [← saveEnd_census c]
  unfold State.saveEnd
  split <;> rfl

/-- The unlimited ball save of a multiball ends with it (R136). -/
theorem unlimitedSave_ends : ∃ l, (if s.census.save.any fun r => r.saves == .unlimited then s.saveEnd 3 else s) = { s with
    census := { s.census with save := if s.census.save.map BallSave.saves = some .unlimited then none else s.census.save }
    events := l } := by
  have hiff : (s.census.save.any fun r => r.saves == .unlimited) = true ↔ s.census.save.map BallSave.saves = some .unlimited := by
    cases s.census.save <;> simp
  by_cases h : s.census.save.map BallSave.saves = some .unlimited
  · rw [if_pos (hiff.2 h), if_pos h]
    exact ⟨_, saveEnd_eq 3⟩
  · rw [if_neg (mt hiff.1 h), if_neg h]
    exact ⟨_, rfl⟩

/-- The endings of the modes write the modes and queue records (R78, R79). -/
theorem modesMultiballEnd_eq :
    s.modesMultiballEnd = { s with modes := s.modesMultiballEnd.modes, events := s.modesMultiballEnd.events } := by
  unfold State.modesMultiballEnd
  split
  · rfl
  · split
    · rw [applyLaw_eq, endInstances_eq]
    · rfl

/-- A multiball over but for the endings of the modes, with the records `l` queued. -/
def State.multiballOver (s : State) (l : List EventRecord) : State :=
  { s with
    census := s.census.multiballOver
    game := if s.resetsJackpots then s.game.jackpotsReset else s.game
    events := l }

/-- A multiball end, with the endings of the modes last (R136). -/
theorem multiballEnd_eq : ∃ l, s.multiballEnd = (s.multiballOver l).modesMultiballEnd := by
  obtain ⟨l, hsave⟩ := unlimitedSave_ends (s := (s.onCensus fun c => { c with multi := false }).emit .multiballEnded
    (s.census.lastStarted.getD 255) (s.onCensus fun c => { c with multi := false }).committed 0)
  refine ⟨l, ?_⟩
  unfold State.multiballEnd
  dsimp only
  refine congrArg State.modesMultiballEnd ?_
  refine (congrArg (fun v : State => if (v.census.lastStarted.any fun k => (v.multiballDef k).jackpotReset) = true then
    v.onGame Game.jackpotsReset else v) hsave).trans ?_
  cases h : s.resetsJackpots
  · refine (if_neg (Bool.eq_false_iff.1 h)).trans ?_
    rw [State.multiballOver, h]
    rfl
  · refine (if_pos h).trans ?_
    rw [State.multiballOver, h]
    rfl

theorem multiballEnd_census : s.multiballEnd.census = s.census.multiballOver := by
  obtain ⟨l, h⟩ := multiballEnd_eq (s := s)
  rw [h, modesMultiballEnd_eq]
  rfl
theorem multiballEnd_game : s.multiballEnd.game = if s.resetsJackpots then s.game.jackpotsReset else s.game := by
  obtain ⟨l, h⟩ := multiballEnd_eq (s := s)
  rw [h, modesMultiballEnd_eq]
  rfl
theorem multiballEnd_devices : s.multiballEnd.devices = s.devices := by
  obtain ⟨l, h⟩ := multiballEnd_eq (s := s)
  rw [h, modesMultiballEnd_eq]
  rfl
theorem multiballEnd_engine : s.multiballEnd.engine = s.engine := by
  obtain ⟨l, h⟩ := multiballEnd_eq (s := s)
  rw [h, modesMultiballEnd_eq]
  rfl
theorem multiballEnd_phase : s.multiballEnd.game.phase = s.game.phase := by
  rw [multiballEnd_game]
  split <;> rfl

/-- The end of a multiball frees no ball and takes none. -/
theorem multiballEnd_committed : s.multiballEnd.committed = s.committed :=
  committed_congr multiballEnd_devices (by rw [multiballEnd_census]; rfl) (by rw [multiballEnd_census]; rfl)

/-- In TILT the endings of the modes are put off to the ball end (R79). -/
theorem multiballEnd_modes_of_tilt (hp : s.game.phase = .tilt) : s.multiballEnd.modes = { s.modes with deferred := true } := by
  obtain ⟨l, h⟩ := multiballEnd_eq (s := s)
  have hphase : (s.multiballOver l).game.phase = .tilt := by
    rw [State.multiballOver, ← hp]
    dsimp only
    split <;> rfl
  rw [h, State.modesMultiballEnd, if_pos hphase]
  rfl

/-- In play the modes that end with a multiball do (R78). -/
theorem multiballEnd_modes_of_inPlay (hp : s.inPlay = true) : s.multiballEnd.modes.deferred = s.modes.deferred ∧
    s.multiballEnd.modes.stack.map ModeInst.mode =
      (s.modes.stack.map ModeInst.mode).filter fun m => !(s.modeDef m).endsAtMultiballEnd := by
  obtain ⟨l, h⟩ := multiballEnd_eq (s := s)
  have hphase : (s.multiballOver l).game.phase = s.game.phase := by
    rw [State.multiballOver]
    dsimp only
    split <;> rfl
  have hplay : (s.multiballOver l).inPlay = true := by rw [State.inPlay, hphase]; exact hp
  have htilt : (s.multiballOver l).game.phase ≠ .tilt := by
    rw [hphase]
    rintro ht
    simp [State.inPlay, ht] at hp
  rw [h, State.modesMultiballEnd, if_neg htilt, if_pos hplay, applyLaw_modes, endInstances_modes]
  refine ⟨rfl, ?_⟩
  rw [List.filter_map, List.map_map]
  rfl

/-! ### The ball end (R80, R153) -/

theorem onCurrent_game_eq (f : Player → Player) :
    (s.onCurrent f).game = { s.game with players := (s.onCurrent f).game.players } := by
  unfold State.onCurrent State.onPlayer
  split <;> rfl

/-- State `x` has the census of `s` and its game but for the players, the current one of whom has other saved modes at most. -/
structure State.Stowed (s x : State) : Prop where
  census : x.census = s.census
  game : x.game = { s.game with players := x.game.players }
  player : ∀ q, s.player? s.game.current = some q → ∃ k, x.player? s.game.current = some { q with saved := k }

variable {x y : State}

theorem State.Stowed.refl (s : State) : s.Stowed s := ⟨rfl, rfl, fun q hq => ⟨q.saved, hq⟩⟩

/-- Census and game are all that is read. -/
theorem State.Stowed.congr (h : s.Stowed x) (hc : y.census = x.census) (hg : y.game = x.game) : s.Stowed y := by
  obtain ⟨h1, h2, h3⟩ := h
  refine ⟨hc.trans h1, by rw [hg]; exact h2, fun q hq => ?_⟩
  rw [player?_congr (congrArg Game.players hg)]
  exact h3 q hq
theorem State.Stowed.emit (h : s.Stowed x) (e : Event) (i a v : Nat) : s.Stowed (x.emit e i a v) := h.congr rfl rfl
theorem State.Stowed.onModes (h : s.Stowed x) (g : Modes → Modes) : s.Stowed (x.onModes g) := h.congr rfl rfl
theorem State.Stowed.endInstances (h : s.Stowed x) (p : ModeInst → Bool) (r : Nat) : s.Stowed (x.endInstances p r) :=
  h.congr (by rw [endInstances_eq]) (endInstances_game p r)
theorem State.Stowed.save (h : s.Stowed x) (k : List SavedMode) : s.Stowed (x.onCurrent fun p => { p with saved := k }) := by
  have hcurrent : x.game.current = s.game.current := by rw [h.game]
  refine ⟨(State.onCurrent_census ..).trans h.census, ?_, fun q hq => ?_⟩
  · rw [onCurrent_game_eq, h.game]
  · obtain ⟨l, hl⟩ := h.player q hq
    rw [onCurrent_player?, if_pos hcurrent.symm, hl]
    exact ⟨k, rfl⟩
theorem State.Stowed.saveInstances (h : s.Stowed x) (k : List ModeInst) : s.Stowed (x.saveInstances k) := by
  induction k generalizing x with
  | nil => exact h
  | cons i k ih =>
    unfold State.saveInstances
    dsimp only
    split
    · exact ih ((h.save _).emit ..)
    · exact ih (h.emit ..)

/-- The ball-end handling of the modes (R80) empties the stack, and stows its instances as far as the saved modes hold them. -/
theorem modesBallEnd_stowed : s.Stowed s.modesBallEnd := by
  have hended (x : State) (h : s.Stowed x) : s.Stowed
      (((x.endInstances (fun i => (x.modeDef i.mode).atBallEnd == .ends) 4).saveInstances
        (x.endInstances (fun i => (x.modeDef i.mode).atBallEnd == .ends) 4).modes.stack).setStack []) :=
    ((h.endInstances ..).saveInstances _).onModes _
  unfold State.modesBallEnd
  dsimp only
  split
  · exact hended _ ((State.Stowed.endInstances (.refl s) ..).onModes _)
  · exact hended _ (.refl s)
theorem modesBallEnd_stack : s.modesBallEnd.modes.stack = [] := rfl

/-- The bonus of the ball, 0 when it is tilted (R63). -/
def Player.bonus (q : Player) (g : Game) : Nat :=
  if g.phase = .tilt then 0 else q.bonusCount * g.params.bonusUnit * q.bonusMult

/-- In `t` the ball of player `q` in game `g` is over, with no multiball and no ball save, and its bonus is added (R153). -/
structure State.BallOver (t : State) (g : Game) (q : Player) : Prop where
  phase : t.game.phase = .ballOver
  searchOff : t.game.search.phase = .off
  inFlight : t.game.search.inFlight = none
  current : t.game.current = g.current
  ballNumber : t.game.ballNumber = g.ballNumber
  stack : t.modes.stack = []
  multi : t.census.multi = false
  save : t.census.save = none
  player : ∃ q', t.player? g.current = some q' ∧ q'.score = min (q.score + q.bonus g) 99999999990

/-- The end of a ball whose bonus is already added: the phase is BALL_OVER, the search off, and the waiting ejects recover. -/
def State.bonusAdded (y : State) (i a v : Nat) : State := ((y.toPhase .ballOver).emit .ballEnded i a v).recover

theorem searchOff_search : y.searchOff.game.search.phase = .off ∧ y.searchOff.game.search.inFlight = none := by
  unfold State.searchOff State.dropSearches
  generalize deviceNumbers.foldl State.dropSearch y = x
  exact ⟨rfl, rfl⟩
theorem toPhase_ballOver_search : (y.toPhase .ballOver).game.search.phase = .off ∧
    (y.toPhase .ballOver).game.search.inFlight = none := by
  unfold State.toPhase
  dsimp only
  exact searchOff_search
theorem bonusAdded_beside (i a v : Nat) : (y.bonusAdded i a v).beside = (y.onGame fun g => { g with phase := .ballOver }).beside :=
  (recover_beside _).trans ((emit_beside ..).trans (toPhase_beside y .ballOver))
theorem bonusAdded_game (i a v : Nat) : (y.bonusAdded i a v).game = (y.toPhase .ballOver).game := by
  have hflight := (toPhase_ballOver_search (y := y)).2
  unfold State.bonusAdded
  generalize y.toPhase .ballOver = z at hflight ⊢
  exact recover_game_of_none (s := z.emit .ballEnded i a v) hflight

theorem addPoints_player? (hq : s.player? s.game.current = some q) (n : Nat) :
    (s.addPoints n).player? s.game.current = some (q.plus s.game.params n) := by
  rw [addPoints_eq hq n]
  refine (onCurrent_player? (s := s) _ _).trans ?_
  rw [if_pos rfl, hq]
  rfl
theorem addPoints_census (hq : s.player? s.game.current = some q) (n : Nat) : (s.addPoints n).census = s.census := by
  rw [addPoints_eq hq n]
  exact State.onCurrent_census ..
theorem addPoints_ballNumber (hq : s.player? s.game.current = some q) (n : Nat) :
    (s.addPoints n).game.ballNumber = s.game.ballNumber := by
  rw [addPoints_eq hq n]
  exact State.onCurrent_ballNumber ..

/-- With the modes ended or saved, what is left of a ball end makes it over (R153). -/
theorem ballOver_of_bonusAdded (hm : s.census.multi = false) (hs : s.census.save = none) (hk : s.modes.stack = [])
    (hq : s.player? s.game.current = some q) (i a : Nat) :
    ((s.addPoints (q.bonus s.game)).bonusAdded i a (q.bonus s.game)).BallOver s.game q := by
  have hplayer := addPoints_player? hq (q.bonus s.game)
  have hcensus := addPoints_census hq (q.bonus s.game)
  have hnumber := addPoints_ballNumber hq (q.bonus s.game)
  have hcurrent := current_of_turn (addPoints_turn s (q.bonus s.game))
  have hmodes := addPoints_modes (s := s) (q.bonus s.game)
  generalize s.addPoints (q.bonus s.game) = y at hplayer hcensus hnumber hcurrent hmodes ⊢
  have hb := bonusAdded_beside (y := y) i a (q.bonus s.game)
  have hsearch := toPhase_ballOver_search (y := y)
  rw [← bonusAdded_game i a (q.bonus s.game)] at hsearch
  have hkept : (y.bonusAdded i a (q.bonus s.game)).census = s.census := (census_of_beside hb).trans hcensus
  exact {
    phase := (phase_of_beside hb).trans rfl
    searchOff := hsearch.1
    inFlight := hsearch.2
    current := (current_of_beside hb).trans hcurrent
    ballNumber := (ballNumber_of_beside hb).trans hnumber
    stack := by rw [modes_of_beside hb]; exact (congrArg Modes.stack hmodes).trans hk
    multi := by rw [hkept, hm]
    save := by rw [hkept, hs]
    player := ⟨_, by rw [player?_congr (players_of_beside hb)]; exact hplayer, rfl⟩ }

theorem ballEnd_eq : ∃ i a, s.ballEnd = ((s.saveEnd 4).modesBallEnd.addPoints
    ((s.saveEnd 4).modesBallEnd.bonus (s.game.phase == .tilt))).bonusAdded i a
      ((s.saveEnd 4).modesBallEnd.bonus (s.game.phase == .tilt)) := ⟨_, _, rfl⟩

/-- A ball end: the save ends, the modes end or are saved, the bonus is added, and the phase is BALL_OVER (R153). -/
theorem ballOver_ballEnd (hm : s.census.multi = false) (hq : s.player? s.game.current = some q) :
    s.ballEnd.BallOver s.game q := by
  obtain ⟨i, a, hend⟩ := ballEnd_eq (s := s)
  have hsaved : (s.saveEnd 4).game = s.game := by rw [saveEnd_eq]
  have hstowed := modesBallEnd_stowed (s := s.saveEnd 4)
  have hstack := modesBallEnd_stack (s := s.saveEnd 4)
  obtain ⟨k, hplayer⟩ := hstowed.player q (by rw [hsaved, player?_congr (congrArg Game.players hsaved), hq])
  have hgame := hstowed.game
  have hcensus := hstowed.census.trans (saveEnd_census 4)
  rw [hsaved] at hplayer hgame
  rw [hend]
  generalize (s.saveEnd 4).modesBallEnd = x at hstack hplayer hgame hcensus
  have hcurrent : x.game.current = s.game.current := by rw [hgame]
  have hsame : ({ q with saved := k } : Player).bonus x.game = q.bonus s.game := by rw [hgame]; rfl
  rw [← hcurrent] at hplayer
  have hbonus : x.bonus (s.game.phase == .tilt) = ({ q with saved := k } : Player).bonus x.game := by
    rw [State.bonus, Player.bonus, current_of_player? hplayer, hgame]
    simp
  rw [hbonus]
  obtain ⟨hphase, hoff, hflight, hturn, hnumber, hempty, hmulti, hsave, q', hq', hscore⟩ :=
    ballOver_of_bonusAdded (by rw [hcensus]; exact hm) (by rw [hcensus]) hstack hplayer i a
  rw [hcurrent] at hq'
  rw [hsame] at hscore
  exact ⟨hphase, hoff, hflight, hturn.trans hcurrent, hnumber.trans (by rw [hgame]), hempty, hmulti, hsave, q', hq', hscore⟩

end Sys2Proof.Machine
end

