-- ==== Sys2Proof/Proofs/Drains.lean ====
section
/-! The drain (R123 to R125): a missing return, fed again, saved or lost, and what its hand-on makes of the state. -/

namespace Sys2Proof.Machine

open Sys2Proof

variable {s u v : State} {q : Player} {r : BallSave}

/-! ### The outcomes of a drain (R123, R124) -/

/-- A drain is none of a missing return, a refeed and a saved one (R124 test 4). -/
def State.LosesDrain (s : State) : Prop :=
  s.census.missingReturns = 0 ∧ (s.game.phase = .tilt ∨ s.inPlay = true ∧ s.census.validated = true ∧ s.census.save = none)

theorem drain_of_missing (h : 1 ≤ s.census.missingReturns) :
    s.drain = s.onCensus fun c => { c with missingReturns := c.missingReturns - 1 } := if_pos h
theorem drain_of_unvalidated (hm : s.census.missingReturns = 0) (hp : s.inPlay = true) (hv : s.census.validated = false) :
    s.drain = (s.queueOrder 0 .serve false).emit .ballRefed 0 (s.queueOrder 0 .serve false).owed 0 := by
  rw [State.drain, if_neg (by omega), if_pos hp, if_pos hv]
theorem drain_of_save (hm : s.census.missingReturns = 0) (hp : s.inPlay = true) (hv : s.census.validated = true)
    (hs : s.census.save = some r) : s.drain = s.saveDrain r := by
  rw [State.drain, if_neg (by omega), if_pos hp, if_neg (by simp [hv]), hs]
theorem drain_of_lost (h : s.LosesDrain) : s.drain = s.lostDrain := by
  obtain ⟨hm, ht | ⟨hp, hv, hs⟩⟩ := h
  · rw [State.drain, if_neg (by omega), if_neg (by simp [State.inPlay, ht]), if_pos ht]
  · rw [State.drain, if_neg (by omega), if_pos hp, if_neg (by simp [hv]), hs]

/-- A lost drain is one of a ball that is on. -/
theorem State.LosesDrain.ballOn (h : s.LosesDrain) : s.ballOn = true := by
  obtain ⟨-, ht | ⟨hp, -, -⟩⟩ := h
  · simp [State.ballOn, ht]
  · simp [State.ballOn, hp]

theorem saveEnd_beside (c : Nat) :
    (s.saveEnd c).beside = ({ s with census := { s.census with save := none } } : State).beside := by
  rw [saveEnd_eq]
  rfl

/-- A drain saved by record `r` is served again, and ends a record of one ball (R136). -/
theorem saveDrain_beside (hs : s.census.save = some r) : (s.saveDrain r).beside =
    ({ s with census := { s.census with save := if r.saves = .one then none else some r } } : State).beside := by
  have hserve : s.launchServe.beside = s.beside := queueOrder_beside ..
  unfold State.saveDrain
  dsimp only
  generalize s.launchServe = x at hserve
  cases h : r.saves with
  | unlimited =>
    have hself : ({ s.census with save := some r } : Census) = s.census := by rw [← hs]
    simpa [hself] using hserve
  | one =>
    have hfed : (x.emit .ballSaved 0 0 r.remaining).beside = s.beside := (emit_beside ..).trans hserve
    rw [if_pos rfl]
    exact (saveEnd_beside 1).trans (congrArg (fun y : State => { y with census := { y.census with save := none } }) hfed)
theorem saveDrain_device : (s.saveDrain r).device 0 = s.launchServe.device 0 := by
  unfold State.saveDrain
  dsimp only
  generalize s.launchServe = x
  split
  · rfl
  · rw [saveEnd_eq]
    rfl

/-! ### A lost drain (R125) -/

/-- The record of a lost drain is queued; the multiball and the ball are not yet tested. -/
def State.lost (s : State) : State := s.emit .ballDrained 0 s.committed 0

/-- With a ball committed beyond the last of a multiball, a lost drain ends nothing. -/
theorem lostDrain_of_more (hc : 1 ≤ s.committed) (hm : s.census.multi = false ∨ 2 ≤ s.committed) : s.lostDrain = s.lost := by
  have hcommitted : s.lost.committed = s.committed := committed_congr rfl rfl rfl
  have hfall : s.lost.multiballFall = s.lost := by
    refine if_neg fun h => ?_
    have hmulti : s.census.multi = true := h.1
    rcases hm with hm | hm
    · simp [hm] at hmulti
    · omega
  change s.lost.ballLost = s.lost
  rw [State.ballLost, hfall]
  exact if_neg fun h => by omega

/-- With one ball committed in MULTI a lost drain ends the multiball. -/
theorem lostDrain_of_one (hc : s.committed = 1) (hm : s.census.multi = true) : s.lostDrain = s.lost.multiballEnd := by
  have hcommitted : s.lost.committed = s.committed := committed_congr rfl rfl rfl
  have hfall : s.lost.multiballFall = s.lost.multiballEnd := if_pos ⟨hm, by omega⟩
  change s.lost.ballLost = _
  rw [State.ballLost, hfall]
  exact if_neg fun h => by
    have := multiballEnd_committed (s := s.lost)
    omega

/-- With no ball committed a lost drain ends the ball, after the multiball. -/
theorem lostDrain_of_none (hb : s.ballOn = true) (hc : s.committed = 0) : s.lostDrain = s.lost.multiballFall.ballEnd := by
  have hcommitted : s.lost.multiballFall.committed = 0 := by
    unfold State.multiballFall
    split
    · rw [multiballEnd_committed]
      exact hc
    · exact hc
  have hball : s.lost.multiballFall.ballOn = true := by
    have hphase : s.lost.multiballFall.game.phase = s.game.phase := by
      unfold State.multiballFall
      split
      · exact multiballEnd_phase
      · rfl
    rw [State.ballOn, State.inPlay, hphase]
    exact hb
  exact if_pos ⟨hball, hcommitted⟩

/-! ### The fall of a multiball before a ball end -/

theorem player?_of_jackpotsReset (h : u.game = s.game.jackpotsReset) (k : Nat) :
    u.player? k = (s.player? k).map fun p => { p with jackpot := jackpotStart s.game.params } := by
  unfold State.player?
  rw [h]
  by_cases hk : k = 0 <;> simp [hk, Game.jackpotsReset]

/-- The game when a multiball has fallen: its players' jackpots at most are written. -/
theorem multiballFall_game : s.multiballFall.game = s.game ∨ s.multiballFall.game = s.game.jackpotsReset := by
  unfold State.multiballFall
  split
  · rw [multiballEnd_game]
    split
    · exact .inr rfl
    · exact .inl rfl
  · exact .inl rfl
theorem multiballFall_multi (h : s.committed ≤ 1) : s.multiballFall.census.multi = false := by
  unfold State.multiballFall
  split
  · rw [multiballEnd_census]
    rfl
  · rename_i hn
    simpa [h] using hn

/-- The player whose ball ends has the score and the bonus from before the multiball's end. -/
theorem multiballFall_player (hq : s.player? s.game.current = some q) : ∃ j,
    s.multiballFall.player? s.game.current = some { q with jackpot := j } := by
  rcases multiballFall_game (s := s) with h | h
  · exact ⟨q.jackpot, by rw [player?_congr (congrArg Game.players h), hq]⟩
  · exact ⟨_, by rw [player?_of_jackpotsReset h, hq]; rfl⟩

/-- A lost drain with no ball committed ends the ball, and a multiball before it (R125, R153). -/
theorem ballOver_drain (hl : s.LosesDrain) (hc : s.committed = 0) (hq : s.player? s.game.current = some q) :
    s.drain.BallOver s.game q := by
  obtain ⟨j, hplayer⟩ := multiballFall_player (s := s.lost) hq
  have hgame := multiballFall_game (s := s.lost)
  have hmulti : s.lost.multiballFall.census.multi = false :=
    multiballFall_multi (by rw [show s.lost.committed = s.committed from committed_congr rfl rfl rfl]; omega)
  rw [drain_of_lost hl, lostDrain_of_none hl.ballOn hc]
  generalize s.lost.multiballFall = x at hplayer hgame hmulti
  have hcurrent : x.game.current = s.game.current := by rcases hgame with h | h <;> rw [h] <;> rfl
  have hnumber : x.game.ballNumber = s.game.ballNumber := by rcases hgame with h | h <;> rw [h] <;> rfl
  have hbonus : ({ q with jackpot := j } : Player).bonus x.game = q.bonus s.game := by
    rcases hgame with h | h <;> rw [h] <;> rfl
  obtain ⟨hphase, hoff, hflight, hturn, hball, hstack, hsingle, hsave, q', hq', hscore⟩ :=
    ballOver_ballEnd hmulti (by rw [hcurrent]; exact hplayer)
  rw [hcurrent] at hq'
  rw [hbonus] at hscore
  exact ⟨hphase, hoff, hflight, hturn.trans hcurrent, hball.trans hnumber, hstack, hsingle, hsave, q', hq', hscore⟩

/-- A ball that is over is walked by no trigger, and stays over through the tests of the devices. -/
theorem State.BallOver.walk {g : Game} (h : s.BallOver g q) (x : Nat) (e : Edge) (b : Bool) :
    (s.directWalk x e b).settleDevices.BallOver g q := by
  have hwalk : s.directWalk x e b = s := if_neg (by simp [State.inPlay, h.phase])
  have hgame := settleDevices_game_of_none h.inFlight
  have hb := settleDevices_beside s
  rw [hwalk]
  generalize s.settleDevices = t at hgame hb
  obtain ⟨hphase, hoff, hflight, hturn, hball, hstack, hmulti, hsave, q', hq', hscore⟩ := h
  exact ⟨by rw [hgame, hphase], by rw [hgame, hoff], by rw [hgame, hflight], by rw [hgame, hturn], by rw [hgame, hball],
    by rw [modes_of_beside hb, hstack], by rw [census_of_beside hb, hmulti], by rw [census_of_beside hb, hsave],
    q', by rw [player?_congr (congrArg Game.players hgame), hq'], hscore⟩

/-! ### What a drain that ends nothing leaves -/

/-- The hand-on of an arrival at the trough: the drain, then the walk of trigger 80 and the tests of the devices. -/
theorem exec_drain (b : Bool) {at_ : Stamp} {rest : List Stamp} (hrole : (s.device 0).record.role = .trough)
    (hr : s.engine.root = none) (hp : s.engine.paused = none) (ha : (s.device 0).arrivals = at_ :: rest) :
    exec (.arrival 0 b) s = .next (((s.arrived 0 at_ rest).drain.directWalk 80 .close b).settleDevices) := by
  have hdrain : (s.arrived 0 at_ rest).censusArrival 0 = (s.arrived 0 at_ rest).drain := by
    rw [State.censusArrival, arrived_record, hrole]
  rw [exec_arrival b hr hp ha, hdrain]

/-- A drain that is lost with a ball committed, of which it ends no multiball. -/
theorem drain_of_more (hl : s.LosesDrain) (hc : 1 ≤ s.committed) (hm : s.census.multi = false ∨ 2 ≤ s.committed) :
    s.drain = s.lost := by rw [drain_of_lost hl, lostDrain_of_more hc hm]

/-- A drain that is lost with the last ball committed of a multiball. -/
theorem drain_of_last (hl : s.LosesDrain) (hc : s.committed = 1) (hm : s.census.multi = true) :
    s.drain = s.lost.multiballEnd := by rw [drain_of_lost hl, lostDrain_of_one hc hm]

/-- In play a drain that ends neither the ball nor a multiball writes, beside the devices and the Event Queue, the census alone. -/
theorem drain_beside_of_inPlay (hp : s.inPlay = true) (h : 1 ≤ s.census.missingReturns ∨ s.census.validated = false ∨
    s.census.save ≠ none ∨ 1 ≤ s.committed ∧ (s.census.multi = false ∨ 2 ≤ s.committed)) :
    ∃ c, s.drain.beside = ({ s with census := c } : State).beside := by
  by_cases hm : 1 ≤ s.census.missingReturns
  · exact ⟨_, congrArg State.beside (drain_of_missing hm)⟩
  have hzero : s.census.missingReturns = 0 := by omega
  cases hv : s.census.validated with
  | false =>
    rw [drain_of_unvalidated hzero hp hv]
    exact ⟨s.census, (emit_beside ..).trans (queueOrder_beside ..)⟩
  | true =>
    cases hs : s.census.save with
    | some r =>
      rw [drain_of_save hzero hp hv hs]
      exact ⟨_, saveDrain_beside hs⟩
    | none =>
      obtain ⟨hc, hm⟩ : 1 ≤ s.committed ∧ (s.census.multi = false ∨ 2 ≤ s.committed) := by
        simpa [hm, hv, hs] using h
      rw [drain_of_more ⟨hzero, .inr ⟨hp, hv, hs⟩⟩ hc hm]
      exact ⟨s.census, emit_beside ..⟩

/-- The walk of one plain entry with no condition awards its base to the current player. -/
theorem directWalk_awards (x k : Nat) (e : Edge) (b : Bool) (hp : s.inPlay = true) (ht : s.engine.triggers = [])
    (hc : s.chain x = [k]) (hk : (s.award k).Plain e) (hcond : (s.award k).condition = none)
    (hq : s.player? s.game.current = some q) : (s.directWalk x e b).settleDevices = s.awarded k q := by
  rw [directWalk_of_plain x k e b hp ht hc hk (by rw [hcond]; rfl) hq, State.awarded]

/-- The award of that entry, where beside the devices and the records queued only the census and the time differ from `s`. -/
theorem directWalk_awards_of_beside (x k : Nat) (e : Edge) (b : Bool) {c : Census} {at_ : Stamp} {l : List EventRecord}
    (hb : v.beside = ({ s with census := c, time := at_ } : State).beside) (hl : v.events = l) (hp : s.inPlay = true)
    (ht : s.engine.triggers = []) (hc : s.chain x = [k]) (hk : (s.award k).Plain e) (hcond : (s.award k).condition = none)
    (hq : s.player? s.game.current = some q) :
    ∃ t, (v.directWalk x e b).settleDevices = t ∧ t.engine.root = none ∧ t.game.phase = s.game.phase ∧
      s.EntryAwarded t k q at_ l := by
  have hengine : v.engine = s.engine := (engine_of_beside hb).trans rfl
  have hphase : v.game.phase = s.game.phase := (phase_of_beside hb).trans rfl
  have hplayers : v.game.players = s.game.players := (players_of_beside hb).trans rfl
  have hcurrent : v.game.current = s.game.current := (current_of_beside hb).trans rfl
  have hparams : v.game.params = s.game.params := (params_of_beside hb).trans rfl
  have htime : v.time = at_ := time_of_beside hb
  have haward : v.award k = s.award k := by rw [State.award, hengine, State.award]
  have hplay : v.inPlay = true := by rw [State.inPlay, hphase]; exact hp
  have hplayer : v.player? v.game.current = some q := by rw [player?_congr hplayers, hcurrent, hq]
  have hawarded := entryAwarded_awarded hplay k hplayer
  rw [htime, hl] at hawarded
  have heq := awarded_eq hplay k q
  refine ⟨v.awarded k q, ?_, by rw [heq], ?_, entryAwarded_congr hengine hplayers hcurrent hparams hawarded⟩
  · exact directWalk_awards x k e b hplay (by rw [hengine, ht]) (by rw [chain_congr hengine, hc]) (by rw [haward]; exact hk)
      (by rw [haward]; exact hcond) hplayer
  · rw [heq]
    exact (State.onCurrent_phase ..).trans hphase

/-- A drain that ends neither the ball nor a multiball is walked, behind every other record of it (the first clause of O16). -/
theorem drain_awards (b : Bool) {at_ : Stamp} {rest : List Stamp} {k : Nat} (hrole : (s.device 0).record.role = .trough)
    (hr : s.engine.root = none) (hpaused : s.engine.paused = none) (ht : s.engine.triggers = []) (hp : s.inPlay = true)
    (ha : (s.device 0).arrivals = at_ :: rest) (hc : s.chain 80 = [k]) (hq : s.player? s.game.current = some q)
    (h : 1 ≤ s.census.missingReturns ∨ s.census.validated = false ∨ s.census.save ≠ none ∨
      1 ≤ s.committed ∧ (s.census.multi = false ∨ 2 ≤ s.committed))
    (hk : (s.award k).Plain .close) (hcond : (s.award k).condition = none) :
    ∃ t more, exec (.arrival 0 b) s = .next t ∧ t.engine.root = none ∧ t.game.phase = s.game.phase ∧
      s.EntryAwarded t k q at_ (List.foldl appendEvent s.events more) := by
  obtain ⟨c, hb⟩ := drain_beside_of_inPlay (s := s.arrived 0 at_ rest) (by rw [arrived_inPlay, hp])
    (by rw [arrived_census, arrived_committed]; exact h)
  obtain ⟨more, hmore⟩ : State.Logged s.events (s.arrived 0 at_ rest).drain := drain_logged arrived_logged
  have harrived := congrArg (fun y : State => { y with census := c }) (arrived_beside (s := s) (d := 0) (at_ := at_) (rest := rest))
  obtain ⟨t, heq, hroot, hphase, hawarded⟩ :=
    directWalk_awards_of_beside 80 k .close b (hb.trans harrived) hmore hp ht hc hk hcond hq
  exact ⟨t, more, by rw [exec_drain b hrole hr hpaused ha, heq], hroot, hphase, hawarded⟩

/-- A drain that leaves the engine alone is walked by an empty chain: what the drain made of the state stays. -/
theorem drain_ended (b : Bool) {at_ : Stamp} {rest : List Stamp} (hrole : (s.device 0).record.role = .trough)
    (hr : s.engine.root = none) (hp : s.engine.paused = none) (ha : (s.device 0).arrivals = at_ :: rest)
    (ht : s.engine.triggers = []) (hc : s.chain 80 = []) (hv : (s.arrived 0 at_ rest).drain = v) (he : v.engine = s.engine) :
    ∃ t, exec (.arrival 0 b) s = .next t ∧ v.Ended t :=
  ⟨_, by rw [exec_drain b hrole hr hp ha, hv],
    ended_of_emptyChain 80 .close b (by rw [he, ht]) (by rw [chain_congr he, hc])⟩

/-- A serve of the trough has been queued, and beside the devices the census `c` alone is new. -/
structure State.FedAgain (s v : State) (c : Census) (l : Bool) : Prop where
  beside : v.beside = ({ s with census := c } : State).beside
  trough : v.device 0 = (s.queueOrder 0 .serve l).device 0

/-- Before the playfield is validated a drain is fed again (R123, R124). -/
theorem drain_refed (hm : s.census.missingReturns = 0) (hp : s.inPlay = true) (hv : s.census.validated = false) :
    s.FedAgain s.drain s.census false := by
  rw [drain_of_unvalidated hm hp hv]
  exact ⟨(emit_beside ..).trans (queueOrder_beside ..), rfl⟩

/-- Under an active ball save a drain is saved by a launch serve (R136). -/
theorem drain_saved (hm : s.census.missingReturns = 0) (hp : s.inPlay = true) (hv : s.census.validated = true)
    (hs : s.census.save = some r) :
    s.FedAgain s.drain { s.census with save := if r.saves = .one then none else some r } true := by
  rw [drain_of_save hm hp hv hs]
  exact ⟨saveDrain_beside hs, saveDrain_device⟩

/-- The order of a drain fed again stands behind the trough's others, and the phase, the players and the modes are as before it. -/
theorem fedAgain_ended (b : Bool) {at_ : Stamp} {rest : List Stamp} {c : Census} {l : Bool} (hconf : s.configured 0 = true)
    (hrole : (s.device 0).record.role = .trough) (hr : s.engine.root = none) (hp : s.engine.paused = none)
    (ha : (s.device 0).arrivals = at_ :: rest) (ht : s.engine.triggers = []) (hc : s.chain 80 = [])
    (hwait : (s.device 0).searchWaits = false) (hroom : (s.device 0).queue.length < 8)
    (hfed : (s.arrived 0 at_ rest).FedAgain (s.arrived 0 at_ rest).drain c l) :
    ∃ t, exec (.arrival 0 b) s = .next t ∧ t.game.phase = s.game.phase ∧ t.game.players = s.game.players ∧
      t.modes = s.modes ∧ (t.device 0).queue = (s.device 0).queue ++ [⟨.serve, at_, l⟩] ∧ t.census = c := by
  obtain ⟨hb, htrough⟩ := hfed
  have hqueue := queueOrder_queue (s := s.arrived 0 at_ rest) 0 .serve l (by rw [arrived_configured, hconf]) (by decide)
    (by rw [Device.searchWaits, arrived_queue]; exact hwait)
  rw [arrived_queue, if_neg (by omega), arrived_time] at hqueue
  obtain ⟨t, ht, hended⟩ := drain_ended b hrole hr hp ha ht hc rfl ((engine_of_beside hb).trans arrived_engine)
  refine ⟨t, ht, ?_, ?_, ?_, ?_, ?_⟩
  · exact hended.phase.trans ((phase_of_beside hb).trans (congrArg Game.phase arrived_game))
  · exact hended.players.trans ((players_of_beside hb).trans (congrArg Game.players arrived_game))
  · exact hended.modes.trans ((modes_of_beside hb).trans arrived_modes)
  · rw [hended.trough, htrough, hqueue]
  · exact hended.census.trans (census_of_beside hb)

/-- What is kept of a multiball end in a state `w` with the game, the census and the modes of `s` (R78, R79, R136). -/
theorem fallen_of_multiballEnd {w t : State} (hb : s.ballOn = true) (hg : w.game = s.game) (hc : w.census = s.census)
    (hm : w.modes = s.modes) (h : w.multiballEnd.Ended t) :
    let jackpotReset := ∃ k, s.census.lastStarted = some k ∧ (s.multiballDef k).jackpotReset = true
    t.game.phase = s.game.phase ∧ t.census = s.census.multiballOver ∧
      (jackpotReset → t.game.players = s.game.jackpotsReset.players) ∧ (¬jackpotReset → t.game.players = s.game.players) ∧
      (s.game.phase = .tilt → t.modes = { s.modes with deferred := true }) ∧
      (s.game.phase ≠ .tilt → t.modes.deferred = s.modes.deferred ∧ t.modes.stack.map ModeInst.mode =
        (s.modes.stack.map ModeInst.mode).filter fun m => !(s.modeDef m).endsAtMultiballEnd) := by
  have hresets : w.resetsJackpots = s.resetsJackpots := by
    unfold State.resetsJackpots State.multiballDef
    rw [hc]
  have hdef : w.modeDef = s.modeDef := by
    unfold State.modeDef
    rw [hm]
  have hplayers : t.game.players = (if s.resetsJackpots then s.game.jackpotsReset else s.game).players := by
    rw [h.players, multiballEnd_game, hresets, hg]
  refine ⟨by rw [h.phase, multiballEnd_phase, hg], by rw [h.census, multiballEnd_census, hc], fun hj => ?_, fun hj => ?_,
    fun ht => ?_, fun ht => ?_⟩
  · rw [hplayers, if_pos (resetsJackpots_iff.2 hj)]
  · rw [hplayers, if_neg (mt resetsJackpots_iff.1 hj)]
  · rw [h.modes, multiballEnd_modes_of_tilt (by rw [hg, ht]), hm]
  · have hplay : w.inPlay = true := by simpa [State.ballOn, State.inPlay, hg, ht] using hb
    rw [h.modes, ← hdef, ← hm]
    exact multiballEnd_modes_of_inPlay hplay

/-! ### The obligation -/

/-- Whether a drain is lost can be read off the state before its arrival is counted. -/
theorem losesDrain_arrived {at_ : Stamp} {rest : List Stamp} : (s.arrived 0 at_ rest).LosesDrain ↔ s.LosesDrain := by
  simp only [State.LosesDrain, arrived_census, arrived_game, arrived_inPlay]

/-- Settles O16: each outcome of R123 and R124 leaves the census, the players and the modes as its lemma says; the walk of trigger
80 and the tests of the devices then keep that, but for the award of a plain entry. -/
theorem drainLostOrSaved : Obligations.DrainLostOrSaved := by
  unfold Obligations.DrainLostOrSaved
  refine ⟨fun k b s t0 rest q hrole hr hp ht hplay ha hc hq h hk hcond =>
    drain_awards b hrole hr hp ht hplay ha hc hq h hk hcond, ?_⟩
  intro b s t0 rest hconf hrole hr hp ha lost fed
  refine ⟨fun q hl hq hc => ?ballEnds, fun ht hchain => ⟨fun hl hc hm => ?keptOn, fun hl hc hm => ?multiballEnds,
    fun hm => ?missing, fun hplay hm hwait hroom => ⟨fun hv => ?refed, fun r hv hs => ?saved⟩⟩⟩
  case ballEnds =>
    have hover := ballOver_drain (s := s.arrived 0 t0 rest) (q := q) (losesDrain_arrived.2 hl) (by rw [arrived_committed, hc])
      (by rw [player?_congr (congrArg Game.players arrived_game), arrived_game, hq])
    rw [arrived_game] at hover
    obtain ⟨hphase, hoff, -, hturn, hball, hstack, hmulti, hsave, q', hq', hscore⟩ := hover.walk 80 .close b
    exact ⟨_, q', exec_drain b hrole hr hp ha, hphase, by simp [State.flipen, State.inPlay, hphase], hstack, hmulti, hsave, hoff,
      hturn, hball, hq', hscore⟩
  case keptOn =>
    obtain ⟨t, hexec, hended⟩ := drain_ended b hrole hr hp ha ht hchain
      (drain_of_more (losesDrain_arrived.2 hl) (by rw [arrived_committed]; exact hc)
        (by rw [arrived_census, arrived_committed]; exact hm)) arrived_engine
    have hball : (s.arrived 0 t0 rest).lost.ballOn = true := (losesDrain_arrived.2 hl).ballOn
    refine ⟨t, hexec, (hended.game hball).trans arrived_game, hended.census.trans arrived_census,
      hended.modes.trans arrived_modes, ?_⟩
    rw [hended.trough]
    exact arrived_queue 0
  case multiballEnds =>
    obtain ⟨t, hexec, hended⟩ := drain_ended b hrole hr hp ha ht hchain
      (drain_of_last (losesDrain_arrived.2 hl) (by rw [arrived_committed]; exact hc) (by rw [arrived_census]; exact hm))
      (multiballEnd_engine.trans arrived_engine)
    have hball : s.ballOn = true := State.LosesDrain.ballOn hl
    exact ⟨t, hexec, fallen_of_multiballEnd (w := (s.arrived 0 t0 rest).lost) hball arrived_game arrived_census arrived_modes
      hended⟩
  case missing =>
    obtain ⟨t, hexec, hended⟩ := drain_ended b hrole hr hp ha ht hchain
      (drain_of_missing (s := s.arrived 0 t0 rest) (by rw [arrived_census]; exact hm)) arrived_engine
    refine ⟨t, hexec, hended.phase.trans (congrArg Game.phase arrived_game),
      hended.players.trans (congrArg Game.players arrived_game), hended.modes.trans arrived_modes, ?_, ?_⟩
    · rw [hended.trough]
      exact arrived_queue 0
    · rw [hended.census, State.onCensus, arrived_census]
  case refed =>
    have hfed := drain_refed (s := s.arrived 0 t0 rest) (by rw [arrived_census, hm]) (by rw [arrived_inPlay, hplay])
      (by rw [arrived_census, hv])
    rw [arrived_census] at hfed
    exact fedAgain_ended b hconf hrole hr hp ha ht hchain hwait hroom hfed
  case saved =>
    have hfed := drain_saved (s := s.arrived 0 t0 rest) (by rw [arrived_census, hm]) (by rw [arrived_inPlay, hplay])
      (by rw [arrived_census, hv]) (by rw [arrived_census, hs])
    rw [arrived_census] at hfed
    exact fedAgain_ended b hconf hrole hr hp ha ht hchain hwait hroom hfed

end Sys2Proof.Machine
end

