-- ==== Sys2Proof/Proofs/StackBounds.lean ====
section
/-! The mode stack and the saved lists (R66, R80, R83): what each operation makes of their sizes, and that no step passes a bound or
leaves a mode on the stack between balls (O56). An operation is followed within the phases that it is made in: an action of a
walk in SERVE and PLAY, and work that is caught up with before a ball start between balls. -/

namespace Sys2Proof.Machine

open Sys2Proof

/-- The bounds of `State.StackHeld`, in a phase that satisfies `P`. -/
structure State.Stacked (P : Phase → Prop) (s : State) : Prop where
  phase : P s.game.phase
  size : s.modes.stack.length ≤ Config.stackInstances
  between : s.game.phase = .idle ∨ s.game.phase = .ballOver → s.modes.stack = []
  saved : ∀ q ∈ s.game.players, q.saved.length ≤ Config.savedInstances

/-- The phases in which walks are made (R32). -/
def InPlay (p : Phase) : Prop := p = .serve ∨ p = .play

/-- Every phase, or, where `off` holds, those between balls alone. -/
def Resting (off : Prop) (p : Phase) : Prop := off → p = .idle ∨ p = .ballOver

variable {P Q : Phase → Prop} {off : Prop} {s t : State}

theorem stacked_iff : s.Stacked (Resting False) ↔ s.StackHeld :=
  ⟨fun ⟨_, h1, h2, h3⟩ => ⟨h1, h2, h3⟩, fun ⟨h1, h2, h3⟩ => ⟨False.elim, h1, h2, h3⟩⟩

/-! ### Changes of phase -/

theorem inPlay_iff : s.inPlay = true ↔ InPlay s.game.phase := by simp [State.inPlay, InPlay]

/-- In play the phases are no longer those between balls. -/
theorem not_off_of_inPlay (hp : s.inPlay = true) (h : s.Stacked (Resting off)) : ¬off := fun ho => by
  rcases h.phase ho with e | e <;> simp [State.inPlay, e] at hp
theorem State.Stacked.inPlay (h : s.Stacked P) (hp : s.inPlay = true) : s.Stacked InPlay :=
  ⟨inPlay_iff.1 hp, h.size, h.between, h.saved⟩

/-- Between balls the stack is empty. -/
theorem State.Stacked.rest (h : s.Stacked P) (hp : s.game.phase = .idle ∨ s.game.phase = .ballOver) :
    s.Stacked (Resting True) := ⟨fun _ => hp, h.size, h.between, h.saved⟩
theorem State.Stacked.empty (h : s.Stacked (Resting True)) : s.modes.stack = [] := h.between (h.phase trivial)

/-- Work that leaves the phase as it is stays in the phases that it began in. -/
theorem stacked_of_turn (e : t.turn = s.turn) (hs : s.Stacked P) (h : t.Stacked Q) : t.Stacked P :=
  ⟨by rw [phase_of_turn e]; exact hs.phase, h.size, h.between, h.saved⟩

/-! ### Updates of one block -/

/-- Phase, stack and saved lists are all that is read. -/
theorem stacked_congr (hm : t.modes.stack = s.modes.stack) (hp : t.game.phase = s.game.phase)
    (hq : t.game.players.map Player.saved = s.game.players.map Player.saved) : t.Stacked P ↔ s.Stacked P := by
  have iff : ∀ u : State, u.Stacked P ↔ P u.game.phase ∧ u.modes.stack.length ≤ Config.stackInstances ∧
      (u.game.phase = .idle ∨ u.game.phase = .ballOver → u.modes.stack = []) ∧
      ∀ l ∈ u.game.players.map Player.saved, l.length ≤ Config.savedInstances := fun u =>
    ⟨fun ⟨h1, h2, h3, h4⟩ => ⟨h1, h2, h3, by simpa using h4⟩, fun ⟨h1, h2, h3, h4⟩ => ⟨h1, h2, h3, by simpa using h4⟩⟩
  simp only [iff, hm, hp, hq]

/-- A stack that has not grown, with nothing else of the game changed. -/
theorem stacked_of_shorter (hm : t.modes.stack.length ≤ s.modes.stack.length) (hg : t.game = s.game) (h : s.Stacked P) :
    t.Stacked P := by
  refine ⟨hg ▸ h.phase, hm.trans h.size, fun hp => ?_, hg ▸ h.saved⟩
  have hnil := h.between (hg ▸ hp)
  exact List.length_eq_zero_iff.1 (Nat.le_zero.1 (by simpa [hnil] using hm))

theorem stacked_of_beside (e : t.beside = s.beside) : t.Stacked P ↔ s.Stacked P :=
  stacked_congr (congrArg Modes.stack (modes_of_beside e)) (phase_of_beside e) (congrArg _ (players_of_beside e))

/-- The phase changes, to one between balls with an empty stack alone. -/
theorem onPhase_stacked {p : Phase} (hp : Q p) (hm : p = .idle ∨ p = .ballOver → s.modes.stack = []) (h : s.Stacked P) :
    (s.onGame fun g => { g with phase := p }).Stacked Q := ⟨hp, h.size, hm, h.saved⟩
theorem toPhase_stacked (p : Phase) (hp : Q p) (hm : p = .idle ∨ p = .ballOver → s.modes.stack = []) (h : s.Stacked P) :
    (s.toPhase p).Stacked Q := (stacked_of_beside (toPhase_beside s p)).2 (onPhase_stacked hp hm h)

/-- The end of SERVE leaves a game out of the phases between balls. -/
theorem stacked_of_served (e : s.Served t) (h : s.Stacked (Resting off)) : t.Stacked (Resting off) := by
  rcases e with e | ⟨hp, e⟩
  · exact (stacked_of_beside e).2 h
  · have hoff := not_off_of_inPlay (by simp [State.inPlay, hp]) h
    exact (stacked_of_beside e).2 (onPhase_stacked (fun ho => absurd ho hoff) (by simp) h)

@[simp] theorem onScanner_stacked (f : Scanner → Scanner) :
    (s.onScanner f).Stacked P ↔ s.Stacked P := stacked_congr (s := s) rfl rfl rfl
@[simp] theorem onEngine_stacked (f : Engine → Engine) :
    (s.onEngine f).Stacked P ↔ s.Stacked P := stacked_congr (s := s) rfl rfl rfl
@[simp] theorem onCensus_stacked (f : Census → Census) :
    (s.onCensus f).Stacked P ↔ s.Stacked P := stacked_congr (s := s) rfl rfl rfl
@[simp] theorem onDevices_stacked (f : Devices → Devices) :
    (s.onDevices f).Stacked P ↔ s.Stacked P := stacked_congr (s := s) rfl rfl rfl
@[simp] theorem onDevice_stacked (d : Nat) (f : Device → Device) :
    (s.onDevice d f).Stacked P ↔ s.Stacked P := stacked_congr (s := s) rfl rfl rfl
@[simp] theorem onSwitch_stacked (i : Nat) (f : Switch → Switch) :
    (s.onSwitch i f).Stacked P ↔ s.Stacked P := stacked_congr (s := s) rfl rfl rfl
@[simp] theorem onSearch_stacked (f : Search → Search) :
    (s.onSearch f).Stacked P ↔ s.Stacked P := stacked_congr (s := s) rfl rfl rfl
@[simp] theorem onLink_stacked (f : Link → Link) : (s.onLink f).Stacked P ↔ s.Stacked P := stacked_congr (s := s) rfl rfl rfl
@[simp] theorem at_stacked (x : Stamp) : (s.at x).Stacked P ↔ s.Stacked P := stacked_congr (s := s) rfl rfl rfl
@[simp] theorem atNow_stacked : s.atNow.Stacked P ↔ s.Stacked P := at_stacked _
@[simp] theorem cancelDevices_stacked : s.cancelDevices.Stacked P ↔ s.Stacked P := stacked_congr (s := s) rfl rfl rfl
@[simp] theorem setLocked_stacked (d n : Nat) : (s.setLocked d n).Stacked P ↔ s.Stacked P := stacked_congr (s := s) rfl rfl rfl
@[simp] theorem emitFor_stacked (p : Nat) (e : Event) (u a v : Nat) :
    (s.emitFor p e u a v).Stacked P ↔ s.Stacked P := stacked_congr (s := s) rfl rfl rfl
@[simp] theorem emit_stacked (e : Event) (u a v : Nat) : (s.emit e u a v).Stacked P ↔ s.Stacked P := emitFor_stacked _ e u a v
@[simp] theorem onModes_stacked (f : Modes → Modes) (hf : ∀ c, (f c).stack = c.stack) :
    (s.onModes f).Stacked P ↔ s.Stacked P := stacked_congr (hf _) rfl rfl
@[simp] theorem onGame_stacked (f : Game → Game) (hp : ∀ g, (f g).phase = g.phase)
    (hq : ∀ g, (f g).players.map Player.saved = g.players.map Player.saved) :
    (s.onGame f).Stacked P ↔ s.Stacked P := stacked_congr rfl (hp _) (hq _)

/-- A write to a player's record that leaves the saved list as it is, or within its size. -/
theorem onPlayer_stacked (p : Nat) (f : Player → Player) (hf : ∀ q, (f q).saved = q.saved) :
    (s.onPlayer p f).Stacked P ↔ s.Stacked P := by
  unfold State.onPlayer
  split
  · rfl
  · exact stacked_congr rfl rfl (map_modify _ _ _ _ fun q _ => hf q)
theorem onPlayer_stacked_of_le (p : Nat) (f : Player → Player)
    (hf : ∀ q, q.saved.length ≤ Config.savedInstances → (f q).saved.length ≤ Config.savedInstances) (h : s.Stacked P) :
    (s.onPlayer p f).Stacked P := by
  unfold State.onPlayer
  split
  · exact h
  · refine ⟨h.phase, h.size, h.between, fun q hq => ?_⟩
    obtain ⟨i, hi, rfl⟩ := List.mem_iff_getElem.1 hq
    have hi' : i < s.game.players.length := by simpa using hi
    have hle := h.saved _ (List.getElem_mem hi')
    simp only [State.onGame_game, List.getElem_modify]
    split
    · exact hf _ hle
    · exact hle
theorem onCurrent_stacked_of_le (f : Player → Player)
    (hf : ∀ q, q.saved.length ≤ Config.savedInstances → (f q).saved.length ≤ Config.savedInstances) (h : s.Stacked P) :
    (s.onCurrent f).Stacked P := onPlayer_stacked_of_le _ f hf h
@[simp] theorem onCurrent_stacked (f : Player → Player) (hf : ∀ q, (f q).saved = q.saved) :
    (s.onCurrent f).Stacked P ↔ s.Stacked P := onPlayer_stacked _ f hf

theorem repeated_stacked (f : State → State) (hf : ∀ x : State, x.Stacked P → (f x).Stacked P) (k : Nat) (h : s.Stacked P) :
    (repeated f k s).Stacked P := repeated_keeps f hf k s h
theorem foldl_stacked {α : Type} (f : State → α → State) (hf : ∀ (x : State) a, x.Stacked P → (f x a).Stacked P) (l : List α)
    (h : s.Stacked P) : (l.foldl f s).Stacked P := foldl_keeps f hf l s h

/-- A choice between two states within the bounds. -/
theorem ite_stacked {c : Prop} [Decidable c] (hs : s.Stacked P) (ht : t.Stacked P) : (if c then s else t).Stacked P := by
  split
  · exact hs
  · exact ht

/-! ### Orders and the search -/

@[simp] theorem enterEjectWait_stacked (d : Nat) :
    (s.enterEjectWait d).Stacked P ↔ s.Stacked P := stacked_of_beside (enterEjectWait_beside s d)
@[simp] theorem joinLine_stacked (d : Nat) : (s.joinLine d).Stacked P ↔ s.Stacked P := stacked_of_beside (joinLine_beside s d)
@[simp] theorem searchNext_stacked : s.searchNext.Stacked P ↔ s.Stacked P := stacked_of_beside (searchNext_beside s)
@[simp] theorem queueOrder_stacked (d : Nat) (r : Reason) (l : Bool) :
    (s.queueOrder d r l).Stacked P ↔ s.Stacked P := stacked_of_beside (queueOrder_beside s d r l)
@[simp] theorem recover_stacked : s.recover.Stacked P ↔ s.Stacked P := stacked_of_beside (recover_beside s)
@[simp] theorem settleDevices_stacked : s.settleDevices.Stacked P ↔ s.Stacked P := stacked_of_beside (settleDevices_beside s)
@[simp] theorem searchOff_stacked : s.searchOff.Stacked P ↔ s.Stacked P := stacked_of_beside (searchOff_beside s)
@[simp] theorem searchWait_stacked : s.searchWait.Stacked P ↔ s.Stacked P := stacked_of_beside (searchWait_beside s)
@[simp] theorem searchEnd_stacked (c : Nat) : (s.searchEnd c).Stacked P ↔ s.Stacked P := stacked_of_beside (searchEnd_beside s c)
@[simp] theorem countActivity_stacked : s.countActivity.Stacked P ↔ s.Stacked P := stacked_of_beside (countActivity_beside s)
@[simp] theorem playfieldActivity_stacked (h : s.Stacked P) : s.playfieldActivity.Stacked P := by
  unfold State.playfieldActivity; dsimp only; split <;> simp [h]
@[simp] theorem serveToPlay_stacked (h : s.Stacked (Resting off)) : s.serveToPlay.Stacked (Resting off) :=
  stacked_of_served serveToPlay_served h

/-! ### Score and modes -/

@[simp] theorem replays_stacked (b a : Nat) (l : List Nat) (i : Nat) (h : s.Stacked P) : (s.replays b a l i).Stacked P := by
  induction l generalizing s i with
  | nil => simp [State.replays, h]
  | cons t l ih => simp only [State.replays]; (repeat' split) <;> simp [ih, h]
@[simp] theorem addPoints_stacked (n : Nat) (h : s.Stacked P) : (s.addPoints n).Stacked P := by
  unfold State.addPoints; dsimp only; split <;> simp [h]
@[simp] theorem award1_stacked (b : Nat) (c : Classes) (h : s.Stacked P) : (s.award1 b c).Stacked P := addPoints_stacked _ h
@[simp] theorem awardReported_stacked (e : Event) (u b : Nat) (c : Classes) (h : s.Stacked P) :
    (s.awardReported e u b c).Stacked P := (emit_stacked _ _ _ _).2 (award1_stacked b c h)

/-- The law changes no place in the stack, and modes that end leave the stack (R67, R68). -/
@[simp] theorem applyLaw_stacked (h : s.Stacked P) : s.applyLaw.Stacked P :=
  stacked_of_shorter (by rw [applyLaw_modes]; simp) applyLaw_game h
@[simp] theorem endInstances_stacked (p : ModeInst → Bool) (r : Nat) (h : s.Stacked P) : (s.endInstances p r).Stacked P :=
  stacked_of_shorter (by rw [endInstances_modes]; exact List.length_filter_le _ _) (endInstances_game p r) h
theorem mapStack_stacked (f : ModeInst → ModeInst) (h : s.Stacked P) : (s.setStack (s.modes.stack.map f)).Stacked P :=
  stacked_of_shorter (s := s) (by simp) rfl h

/-- A new mode joins a stack of fewer than 6, and in SERVE and PLAY alone (R66). -/
@[simp] theorem modeStart_stacked (m : Nat) (h : s.Stacked InPlay) : (s.modeStart m).1.Stacked InPlay := by
  unfold State.modeStart
  dsimp only
  (repeat' split)
  · exact (emit_stacked _ _ _ _).2 h
  · exact (emit_stacked _ _ _ _).2 (mapStack_stacked _ h)
  · exact (emit_stacked _ _ _ _).2 h
  · rename_i hroom
    refine applyLaw_stacked ((emit_stacked _ _ _ _).2 ⟨h.phase, ?_, fun hp => ?_, h.saved⟩)
    · have hlength := (placed_perm (s := s) ⟨m, s.lawState (s.placed ⟨m, .running, (s.modeDef m).timer, 0,
        (s.modeDef m).startValue, s.modes.nextOrder⟩ s.modes.stack) m, (s.modeDef m).timer, 0, (s.modeDef m).startValue,
        s.modes.nextOrder⟩ s.modes.stack).length_eq
      simp only [State.onModes_modes, hlength, List.length_cons]
      omega
    · have hplay : InPlay s.game.phase := h.phase
      rcases hplay with e | e <;> simp [e] at hp
@[simp] theorem modeStop_stacked (m : Nat) (h : s.Stacked P) : (s.modeStop m).1.Stacked P := by
  unfold State.modeStop; split <;> simp [h]
@[simp] theorem appendTrigger_stacked (t : Nat) (h : s.Stacked P) : (s.appendTrigger t).Stacked P := by
  unfold State.appendTrigger; (repeat' split) <;> simp [h]
@[simp] theorem modeComplete_stacked (m : Nat) (h : s.Stacked P) : (s.modeComplete m).Stacked P :=
  applyLaw_stacked (endInstances_stacked _ _ (appendTrigger_stacked _ (awardReported_stacked _ _ _ _ h)))
@[simp] theorem modeProgress_stacked (m : Nat) (h : s.Stacked P) : (s.modeProgress m).1.Stacked P := by
  unfold State.modeProgress; dsimp only; (repeat' split) <;> simp [h, mapStack_stacked]
@[simp] theorem modeTimeouts_stacked (h : s.Stacked P) : s.modeTimeouts.Stacked P := by
  unfold State.modeTimeouts; split <;> simp [h]
@[simp] theorem modesMultiballEnd_stacked (h : s.Stacked P) : s.modesMultiballEnd.Stacked P := by
  unfold State.modesMultiballEnd; (repeat' split) <;> simp [h]

/-- The current player has no more saved instances than fit, and none where there is no current player. -/
theorem current_saved_le (h : s.Stacked P) : s.current.saved.length ≤ Config.savedInstances := by
  unfold State.current
  cases hq : s.player? s.game.current with
  | none => exact Nat.zero_le _
  | some q => exact h.saved q (mem_of_player? hq)

/-- A mode is saved while the list holds fewer than 4 (R80). -/
@[simp] theorem saveInstances_stacked (l : List ModeInst) (h : s.Stacked P) : (s.saveInstances l).Stacked P := by
  induction l generalizing s with
  | nil => exact h
  | cons i l ih =>
    simp only [State.saveInstances]
    split
    · rename_i hroom
      exact ih ((emit_stacked _ _ _ _).2 (onCurrent_stacked_of_le _ (fun _ _ => by simpa using hroom) h))
    · exact ih ((emit_stacked _ _ _ _).2 h)
@[simp] theorem modesBallEnd_stacked (h : s.Stacked P) : s.modesBallEnd.Stacked P := by
  have hends : ∀ u : State, u.Stacked P →
      (((u.endInstances (fun i => (u.modeDef i.mode).atBallEnd == .ends) 4).saveInstances
        (u.endInstances (fun i => (u.modeDef i.mode).atBallEnd == .ends) 4).modes.stack).setStack []).Stacked P := fun u hu =>
    stacked_of_shorter (s := State.saveInstances _ _) (Nat.zero_le _) rfl (saveInstances_stacked _ (endInstances_stacked _ _ hu))
  unfold State.modesBallEnd
  dsimp only
  split
  · exact hends _ (by simp [h])
  · exact hends _ h
@[simp] theorem modesGameEnd_stacked (h : s.Stacked P) : s.modesGameEnd.Stacked P := by
  refine ⟨h.phase, Nat.zero_le _, fun _ => rfl, fun q hq => ?_⟩
  obtain ⟨q', -, rfl⟩ := List.mem_map.1 hq
  exact Nat.zero_le _

/-! ### Census -/

@[simp] theorem findByCount_stacked (u : Option Nat) (k : Nat) (h : s.Stacked P) : (s.findByCount u k).Stacked P := by
  induction k generalizing s with
  | zero => exact h
  | succ k ih => simp [State.findByCount, ih, h]
@[simp] theorem recompute_stacked (u : Option Nat) (h : s.Stacked P) : (s.recompute u).Stacked P := by
  unfold State.recompute; dsimp only; (repeat' split) <;> simp [h]
@[simp] theorem lockedLost_stacked (d : Nat) (h : s.Stacked P) : (s.lockedLost d).Stacked P := by
  unfold State.lockedLost; dsimp only; split <;> simp [h]
@[simp] theorem settleAt_stacked (d n : Nat) (h : s.Stacked P) : (s.settleAt d n).Stacked P := by
  unfold State.settleAt
  dsimp only
  refine ite_stacked h (recompute_stacked _ ?_)
  (repeat' split) <;> simp [h]
@[simp] theorem saveEnd_stacked (c : Nat) (h : s.Stacked P) : (s.saveEnd c).Stacked P := by
  unfold State.saveEnd; split <;> simp [h]
@[simp] theorem saveExpiry_stacked (h : s.Stacked P) : s.saveExpiry.Stacked P := by
  unfold State.saveExpiry; split <;> simp [h]
@[simp] theorem offerClosure_stacked (i : Nat) (h : s.Stacked (Resting off)) : (s.offerClosure i).Stacked (Resting off) := by
  have hfound : (s.foundByClosure i).Stacked (Resting off) := by
    unfold State.foundByClosure; dsimp only; split <;> simp [h]
  unfold State.offerClosure State.validate; dsimp only; split <;> simp [hfound]
@[simp] theorem launchServe_stacked : s.launchServe.Stacked P ↔ s.Stacked P := queueOrder_stacked _ _ _
@[simp] theorem releaseLocked_stacked (w : Nat) (l : List Nat) (h : s.Stacked P) : (s.releaseLocked w l).1.Stacked P := by
  induction l generalizing s w with
  | nil => exact h
  | cons k l ih => exact ih _ (repeated_stacked _ (fun x hx => by simp [hx]) _ h)
@[simp] theorem serveFromTrough_stacked (w : Nat) (h : s.Stacked P) : (s.serveFromTrough w).1.Stacked P := by
  induction w generalizing s with
  | zero => exact h
  | succ w ih => simp only [State.serveFromTrough]; split <;> simp [ih, h]
@[simp] theorem multiballServe_stacked (k : Nat) (h : s.Stacked P) : (s.multiballServe k).1.Stacked P := by
  have hserved : ∀ w b, (s.servingProcedure w b).1.Stacked P := fun w b => by cases b <;> simp [State.servingProcedure, h]
  unfold State.multiballServe; dsimp only; split <;> simp [hserved]
@[simp] theorem multiballRise_stacked (h : s.Stacked P) : s.multiballRise.Stacked P := by
  unfold State.multiballRise; split <;> simp [h]
@[simp] theorem startModeOf_stacked (k : Nat) (h : s.Stacked InPlay) : (s.startModeOf k).Stacked InPlay := by
  unfold State.startModeOf; split <;> simp [h]
@[simp] theorem mbStart_stacked (k : Nat) (h : s.Stacked InPlay) : (s.mbStart k).Stacked InPlay := by
  unfold State.mbStart State.multiballStack State.multiballStart; dsimp only; (repeat' split) <;> simp (disch := simp [h]) [h]
@[simp] theorem addBall_stacked (h : s.Stacked P) : s.addBall.Stacked P := by
  unfold State.addBall; split <;> simp [h]
@[simp] theorem multiballEnd_stacked (h : s.Stacked P) : s.multiballEnd.Stacked P := by
  have hjackpot : ∀ u : State, u.Stacked P →
      (u.onGame fun g => { g with players := g.players.map fun p => { p with jackpot := jackpotStart g.params } }).Stacked P :=
    fun u hu => (stacked_congr (t := u.onGame _) (s := u) rfl rfl (by simp [Function.comp_def])).2 hu
  unfold State.multiballEnd
  dsimp only
  refine modesMultiballEnd_stacked (ite_stacked (hjackpot _ ?_) ?_) <;> split <;> simp [h]
@[simp] theorem multiballFall_stacked (h : s.Stacked P) : s.multiballFall.Stacked P := by
  unfold State.multiballFall; split <;> simp [h]

/-- The modes have left the stack before the phase becomes BALL_OVER (R80, R153). -/
@[simp] theorem ballEnd_stacked (h : s.Stacked (Resting off)) : s.ballEnd.Stacked (Resting off) := by
  have hmodes := modesBallEnd_stacked (saveEnd_stacked 4 h)
  have hempty : ∀ n, ((s.saveEnd 4).modesBallEnd.addPoints n).modes.stack = [] := fun n =>
    congrArg Modes.stack (addPoints_modes n)
  refine recover_stacked.2 ((emit_stacked _ _ _ _).2
    (toPhase_stacked .ballOver (fun _ => .inr rfl) (fun _ => hempty _) (addPoints_stacked _ hmodes)))
@[simp] theorem ballLost_stacked (h : s.Stacked (Resting off)) : s.ballLost.Stacked (Resting off) := by
  unfold State.ballLost State.ballEndTest; split <;> simp [h]
@[simp] theorem declareMissing_stacked (h : s.Stacked (Resting off)) : s.declareMissing.Stacked (Resting off) := by
  unfold State.declareMissing State.replaceMissing; dsimp only; (repeat' split) <;> simp [h]
@[simp] theorem drain_stacked (h : s.Stacked (Resting off)) : s.drain.Stacked (Resting off) := by
  have hsave : ∀ r, (s.saveDrain r).Stacked (Resting off) := fun r => by
    unfold State.saveDrain; dsimp only; split <;> simp [h]
  unfold State.drain State.lostDrain; dsimp only; (repeat' split) <;> simp [h, hsave]

/-- A lock that starts a multiball, and with it a mode, is made in play (R127). -/
theorem makeLock_turn (d : Nat) : (s.makeLock d).turn = s.turn := by
  unfold State.makeLock State.returnBall
  dsimp only
  (repeat' split) <;> simp
theorem makeLock_stacked (d : Nat) (hp : s.inPlay = true) (h : s.Stacked P) : (s.makeLock d).Stacked P := by
  refine stacked_of_turn (makeLock_turn d) h (Q := InPlay) ?_
  unfold State.makeLock State.returnBall
  dsimp only
  (repeat' split) <;> simp [h.inPlay hp]
@[simp] theorem censusArrival_stacked (d : Nat) (h : s.Stacked (Resting off)) : (s.censusArrival d).Stacked (Resting off) := by
  unfold State.censusArrival State.lockDecision State.returnBall
  split
  case h_1 => exact drain_stacked h
  case h_2 => exact ite_stacked ((queueOrder_stacked _ _ _).2 h) h
  case h_3 =>
    split
    · rename_i hp
      exact ite_stacked ((queueOrder_stacked _ _ _).2 h) (ite_stacked (makeLock_stacked d hp h) ((queueOrder_stacked _ _ _).2 h))
    · exact ite_stacked ((queueOrder_stacked _ _ _).2 h) h
  all_goals exact h

/-! ### Eject cycles and evidence -/

@[simp] theorem restartSettle_stacked (d : Nat) :
    (s.restartSettle d).Stacked P ↔ s.Stacked P := stacked_of_beside (restartSettle_beside s d)
@[simp] theorem dueArrivals_stacked (d k : Nat) :
    (s.dueArrivals d k).Stacked P ↔ s.Stacked P := stacked_of_beside (dueArrivals_beside s d k)
@[simp] theorem attemptFailed_stacked (d : Nat) :
    (s.attemptFailed d).Stacked P ↔ s.Stacked P := stacked_of_beside (attemptFailed_beside s d)
@[simp] theorem countEntry_stacked (d : Nat) :
    (s.countEntry d).Stacked P ↔ s.Stacked P := stacked_of_beside (countEntry_beside s d)
@[simp] theorem complete_stacked (d : Nat) (p : Bool) (k : Nat) (h : s.Stacked (Resting off)) :
    (s.complete d p k).Stacked (Resting off) := stacked_of_served (complete_served d p k) h
@[simp] theorem confirm_stacked (d : Nat) (h : s.Stacked (Resting off)) : (s.confirm d).Stacked (Resting off) :=
  complete_stacked d true _ h
@[simp] theorem faultSelf_stacked (d : Nat) (h : s.Stacked (Resting off)) : (s.faultSelf d).Stacked (Resting off) :=
  complete_stacked d true _ ((emit_stacked _ _ _ _).2 h)
@[simp] theorem success_stacked (d : Nat) (h : s.Stacked (Resting off)) : (s.success d).Stacked (Resting off) :=
  stacked_of_served (success_served d) h
@[simp] theorem reactCount_stacked (d : Nat) (h : s.Stacked (Resting off)) : (s.reactCount d).Stacked (Resting off) := by
  unfold State.reactCount State.completeFallen; dsimp only; (repeat' split) <;> simp [h]
@[simp] theorem settleOut_stacked (d : Nat) (h : s.Stacked (Resting off)) : (s.settleOut d).Stacked (Resting off) := by
  unfold State.settleOut
  dsimp only
  (repeat' split) <;> refine reactCount_stacked _ (settleAt_stacked _ _ ?_) <;> simp [h]
@[simp] theorem deviceEvidence_stacked (i d : Nat) (h : s.Stacked (Resting off)) :
    (State.deviceEvidence i s d).Stacked (Resting off) := by
  have hentry : (s.entryClosure d).Stacked (Resting off) := by
    unfold State.entryClosure; dsimp only; (repeat' split) <;> simp [h]
  have hexit : ∀ u : State, u.Stacked (Resting off) → (u.exitClosure d).Stacked (Resting off) := fun u hu => by
    unfold State.exitClosure; dsimp only; (repeat' split) <;> simp [hu]
  unfold State.deviceEvidence; dsimp only; (repeat' split) <;> simp [h, hentry, hexit]
@[simp] theorem handToDevices_stacked (i : Nat) (h : s.Stacked (Resting off)) : (s.handToDevices i).Stacked (Resting off) :=
  settleDevices_stacked.2 (foldl_stacked _ (fun _ d => deviceEvidence_stacked i d) _ h)
@[simp] theorem arbiterGrant_stacked (h : s.Stacked P) : s.arbiterGrant.Stacked P := by
  have hgrant : ∀ d, (s.grant d).Stacked P := fun d => by
    unfold State.grant State.leaveLine; dsimp only; split <;> simp [h]
  unfold State.arbiterGrant; (repeat' split) <;> simp [h, hgrant]
@[simp] theorem endPulse_stacked (d : Nat) (h : s.Stacked (Resting off)) : (s.endPulse d).Stacked (Resting off) := by
  unfold State.endPulse; dsimp only; (repeat' split) <;> simp [h]
@[simp] theorem endWindow_stacked (d : Nat) (h : s.Stacked (Resting off)) : (s.endWindow d).Stacked (Resting off) := by
  unfold State.endWindow; dsimp only; split <;> simp [h]
@[simp] theorem cutPulses_stacked (h : s.Stacked (Resting off)) : s.cutPulses.Stacked (Resting off) :=
  settleDevices_stacked.2 (foldl_stacked _ (fun _ d => endPulse_stacked d) _ h)

/-! ### Walks, roots and arrivals -/

@[simp] theorem act_stacked (a : Action) (h : s.Stacked InPlay) : (s.act a).Stacked InPlay := by
  unfold State.act; dsimp only; split <;> simp [h, State.clearLatches]
@[simp] theorem carryOut_stacked (i : Nat) (e : AwardEntry) (h : s.Stacked InPlay) : (s.carryOut i e).Stacked InPlay := by
  refine foldl_stacked _ (fun _ a => act_stacked a) _ ?_
  unfold State.matchPoints; (repeat' split) <;> simp [h]
@[simp] theorem walkChain_stacked (g : Edge) (l : List Nat) (h : s.Stacked InPlay) : (s.walkChain g l).Stacked InPlay := by
  induction l generalizing s with
  | nil => exact h
  | cons i l ih => simp only [State.walkChain]; (repeat' split) <;> simp [ih, h]

/-- A walk is made in play, and leaves the phase as it is. -/
theorem walk_stacked (t : Nat) (g : Edge) (hp : s.inPlay = true) (h : s.Stacked P) : (s.walk t g).Stacked P := by
  refine stacked_of_turn (walk_turn s t g) h (Q := InPlay) ?_
  simp [State.walk, h.inPlay hp]
@[simp] theorem afterWalk_stacked (h : s.Stacked P) : s.afterWalk.Stacked P := by
  unfold State.afterWalk; (repeat' split) <;> simp [h]
@[simp] theorem pendingWalk_stacked (h : s.Stacked P) : s.pendingWalk.Stacked P := by
  unfold State.pendingWalk
  (repeat' split)
  case isTrue hp => exact afterWalk_stacked (walk_stacked _ _ hp (by simp [h]))
  all_goals simp [h]
@[simp] theorem finishRoot_stacked (h : s.Stacked P) : s.finishRoot.Stacked P := repeated_stacked _ (fun _ => pendingWalk_stacked) _ h
@[simp] theorem directWalk_stacked (t : Nat) (g : Edge) (b : Bool) (h : s.Stacked P) : (s.directWalk t g b).Stacked P := by
  unfold State.directWalk
  dsimp only
  split
  · rename_i hp
    have hwalked := afterWalk_stacked (walk_stacked (s := s.onEngine fun c => { c with root := some ⟨t, 1, s.time⟩ }) t g hp
      ((onEngine_stacked _).2 h))
    exact ite_stacked hwalked (finishRoot_stacked hwalked)
  · exact h
@[simp] theorem rootFromList_stacked (b : Bool) (h : s.Stacked P) : (s.rootFromList b).Stacked P := by
  unfold State.rootFromList; dsimp only; (repeat' split) <;> simp [h]
@[simp] theorem takeArrival_stacked (d : Nat) (b : Bool) (h : s.Stacked (Resting off)) : (s.takeArrival d b).Stacked (Resting off) := by
  unfold State.takeArrival
  split
  · exact h
  · exact directWalk_stacked _ _ _ (censusArrival_stacked _ (ite_stacked ((emit_stacked _ _ _ _).2 (by simp [h])) (by simp [h])))
@[simp] theorem takeArrivals_stacked (d : Nat) (h : s.Stacked (Resting off)) : (s.takeArrivals d).Stacked (Resting off) :=
  repeated_stacked _ (fun _ => takeArrival_stacked d false) _ h
@[simp] theorem arrivalsWithin_stacked (b : Bool) (w : PausedWork) (d : Nat) (h : s.Stacked (Resting off)) :
    (s.arrivalsWithin b w d).Stacked (Resting off) := by
  unfold State.arrivalsWithin; split <;> simp [h]
@[simp] theorem evidenceAndWalk_stacked (b : Bool) (t : Transition) (l : List Nat) (h : s.Stacked (Resting off)) :
    (s.evidenceAndWalk b t l).Stacked (Resting off) := by
  have hevidence := foldl_stacked (State.evidenceThenArrivals b t)
    (fun x d hx => by unfold State.evidenceThenArrivals; split <;> simp [hx]) l h
  unfold State.evidenceAndWalk State.ownWalk; split <;> simp [hevidence]
@[simp] theorem triggerRoot_stacked (b : Bool) (t : Nat) (h : s.Stacked P) : (s.triggerRoot b t).Stacked P := by
  unfold State.triggerRoot; dsimp only; split <;> simp [h]
@[simp] theorem faultArrivals_stacked (b : Bool) (d : Nat) (x : Stamp) (h : s.Stacked (Resting off)) :
    (s.faultArrivals b d x).Stacked (Resting off) := by
  have hcleared : ∀ u : State, u.Stacked (Resting off) → (u.faultCleared d x).Stacked (Resting off) := fun u hu => by
    unfold State.faultCleared
    dsimp only
    refine ite_stacked (settleDevices_stacked.2 ((emit_stacked _ _ _ _).2 ?_)) hu
    split <;> simp [hu]
  unfold State.faultArrivals; dsimp only; split <;> simp [h, hcleared]

/-! ### Work that has paused, and catching up -/

@[simp] theorem answerInHand_stacked (p : List Byte) (h : s.Stacked P) : (s.answerInHand p).Stacked P := by
  unfold State.answerInHand; split <;> simp [h]
@[simp] theorem resume_stacked (b : Bool) (h : s.Stacked (Resting off)) : (s.resume b).Stacked (Resting off) := by
  unfold State.resume; dsimp only; (repeat' split) <;> simp [h]
@[simp] theorem finishWork_stacked (h : s.Stacked (Resting off)) : s.finishWork.Stacked (Resting off) :=
  resume_stacked _ (finishRoot_stacked h)
@[simp] theorem catchUp_stacked (h : s.Stacked (Resting off)) : s.catchUp.Stacked (Resting off) := by
  unfold State.catchUp
  split
  · exact h
  · exact settleDevices_stacked.2 (foldl_stacked _ (fun _ d => takeArrivals_stacked d) _ (finishWork_stacked h))
theorem deviceEvent_stacked (due : State → Bool) (f : State → State)
    (hf : ∀ u : State, u.Stacked (Resting off) → (f u).Stacked (Resting off)) (h : s.Stacked (Resting off)) :
    (s.deviceEvent due f).Stacked (Resting off) := by
  unfold State.deviceEvent; dsimp only; split <;> simp [h, hf]
theorem handOn_stacked (i : Nat) (p : Transition → Bool) (f : Transition → State → State)
    (hf : ∀ t (u : State), u.Stacked (Resting off) → (f t u).Stacked (Resting off)) (h : s.Stacked (Resting off)) :
    (s.handOn i p f).Stacked (Resting off) := by
  unfold State.handOn State.handingOn; split <;> simp [h, hf]

/-! ### Hand-ons -/

@[simp] theorem reportSwitch_stacked (t : Transition) :
    (s.reportSwitch t).Stacked P ↔ s.Stacked P := stacked_of_beside (reportSwitch_beside t)
@[simp] theorem closure_stacked (b : Bool) (t : Transition) (h : s.Stacked (Resting off)) : (s.closure b t).Stacked (Resting off) := by
  unfold State.closure
  dsimp only
  refine evidenceAndWalk_stacked _ _ _ ?_
  (repeat' split) <;> simp [h]
@[simp] theorem opening_stacked (b : Bool) (t : Transition) (h : s.Stacked P) : (s.opening b t).Stacked P := by
  simp [State.opening, h]

/-- A tilt comes in play (R158). -/
@[simp] theorem tiltClosure_stacked (i : Nat) (h : s.Stacked (Resting off)) : (s.tiltClosure i).Stacked (Resting off) := by
  unfold State.tiltClosure
  dsimp only
  split
  · rename_i hp
    have hoff := not_off_of_inPlay hp.1 h
    have hcounted := (onGame_stacked (fun g => { g with lastTilt := some s.time }) (fun _ => rfl) (fun _ => rfl)).2 h
    refine ite_stacked (by simp [hcounted]) ?_
    exact saveEnd_stacked 2 ((onEngine_stacked _).2 ((emit_stacked _ _ _ _).2
      (toPhase_stacked .tilt (fun ho => absurd ho hoff) (by simp) hcounted)))
  · exact h

/-- The end of a game empties the stack and the saved lists (R83, R162). -/
@[simp] theorem endGame_stacked (i : Option Nat) (h : s.Stacked P) : (s.endGame i).Stacked (Resting off) := by
  have hended : (s.cancelDevices.modesGameEnd.onCensus fun c =>
      { c with multi := false, save := none, validated := false, missingReturns := 0 }).Stacked P :=
    by simp [h]
  unfold State.endGame
  dsimp only
  refine recover_stacked.2 ((onGame_stacked (fun g => { g with current := 0 }) (fun _ => rfl) (fun _ => rfl)).2
    (toPhase_stacked (P := P) .idle (fun _ => .inl rfl) (fun _ => ?_) ((emitFor_stacked _ _ _ _ _).2 ?_)))
  · split <;> rfl
  · split <;> simp [hended]
theorem slamClosure_stacked (t : Transition) (h : s.Stacked (Resting off)) :
    (if ((s.reportSwitch t).handToDevices t.switch).gameOn then ((s.reportSwitch t).handToDevices t.switch).endGame (some t.switch)
      else (s.reportSwitch t).handToDevices t.switch).Stacked (Resting off) := by
  have hdevices := handToDevices_stacked t.switch ((reportSwitch_stacked t).2 h)
  exact ite_stacked (endGame_stacked _ hdevices) hdevices
@[simp] theorem beginRound_stacked (r : Nat) (h : s.Stacked P) : (s.beginRound r).Stacked P := by simp [State.beginRound, h]
@[simp] theorem pauseEnd_stacked (h : s.Stacked (Resting off)) : s.pauseEnd.Stacked (Resting off) := by
  unfold State.pauseEnd State.searchFail; dsimp only; (repeat' split) <;> simp [h]

/-! ### Balls, games and resets -/

/-- Each saved mode adds one to the stack (R82). -/
theorem placedAll_length (l : List SavedMode) (st : List ModeInst) (n : Nat) :
    (s.placedAll l (st, n)).1.length = st.length + l.length := by
  induction l generalizing st n with
  | nil => rfl
  | cons v l ih =>
    rw [State.placedAll, ih, (placed_perm _ _).length_eq, List.length_cons, List.length_cons]
    omega

/-- A ball start from an empty stack finds room for all that the player has saved (R82, R150). -/
theorem ballStart_stacked (h : s.Stacked (Resting True)) : s.ballStart.Stacked (Resting False) := by
  have hcleared : s.ballCleared.Stacked (Resting True) := by
    simp [State.ballCleared, State.clearPerBall, State.clearLatches, Player.ballReset, h]
  have hready : s.ballReady.Stacked (Resting False) := by
    unfold State.ballReady State.freshBall
    exact toPhase_stacked (P := Resting True) .serve False.elim (by simp) (by simp [hcleared])
  have hempty : s.ballReady.modes.stack = [] := by rw [ballReady_modes, h.empty]
  have hbegun : s.ballBegun.Stacked (Resting False) := by
    refine ⟨False.elim, ?_, by simp [ballBegun_phase], ?_⟩
    · have hsaved := current_saved_le hready
      rw [ballBegun_stack, State.restoredStack, List.length_map, placedAll_length, hempty]
      simp only [Config.savedInstances] at hsaved
      simp only [Config.stackInstances, List.length_nil]
      omega
    · rw [ballBegun_players]
      exact (onCurrent_stacked_of_le (fun p => { p with saved := [] }) (fun _ _ => Nat.zero_le _) hready).saved
  rw [ballStart_eq]
  split
  · exact toPhase_stacked .play False.elim (by simp) hbegun
  · exact (queueOrder_stacked _ _ _).2 hbegun

/-- A new record has nothing saved (R145). -/
theorem onNewPlayers_stacked (f : Game → Game) (hp : (f s.game).phase = s.game.phase)
    (hf : ∀ q ∈ (f s.game).players, q ∈ s.game.players ∨ ∃ g, q = .start g) (h : s.Stacked P) : (s.onGame f).Stacked P := by
  refine ⟨by rw [State.onGame_game, hp]; exact h.phase, h.size, by rw [State.onGame_game, hp]; exact h.between, fun q hq => ?_⟩
  rcases hf q hq with hq | ⟨g, rfl⟩
  · exact h.saved q hq
  · exact Nat.zero_le _
theorem gameStart_stacked (h : s.Stacked (Resting True)) : s.gameStart.Stacked (Resting False) := by
  have hplayers := onNewPlayers_stacked (fun g => { g with players := [.start g.params], current := 1, ballNumber := 1 })
    rfl (fun q hq => .inr ⟨_, List.mem_singleton.1 hq⟩) h
  have hfresh : ∀ u : State, u.Stacked (Resting True) → u.freshBall.Stacked (Resting True) := fun u hu =>
    by simp [State.freshBall, hu]
  unfold State.gameStart State.censusGameStart State.clearAllLatches
  dsimp only
  refine ballStart_stacked ((emit_stacked _ _ _ _).2 ?_)
  simp [hplayers, hfresh]
theorem gameOver_stacked (h : s.Stacked (Resting True)) : s.gameOver.Stacked (Resting False) := by
  unfold State.gameOver
  dsimp only
  refine recover_stacked.2 ((onGame_stacked (fun g => { g with current := 0 }) (fun _ => rfl) (fun _ => rfl)).2
    (modesGameEnd_stacked ((emitFor_stacked _ _ _ _ _).2 ?_)))
  exact toPhase_stacked .idle False.elim (fun _ => h.empty) h
theorem nextBall_stacked (h : s.Stacked (Resting True)) : s.nextBall.Stacked (Resting False) := by
  unfold State.nextBall
  dsimp only
  (repeat' split)
  · exact ballStart_stacked ((emit_stacked _ _ _ _).2 (by simp [h]))
  · exact ballStart_stacked (by simp [h])
  · exact ballStart_stacked (by simp [h])
  · exact gameOver_stacked h

/-- A soft reset leaves no mode, no player and the phase IDLE (R86, R157). -/
theorem softReset_stacked (cause : Nat) : (s.softReset cause).Stacked (Resting off) := by
  have hcensus : ∀ u : State, u.Stacked (Resting off) → u.censusSoftReset.Stacked (Resting off) := fun u hu => by
    have := foldl_stacked State.lockedLost (fun _ d => lockedLost_stacked d) deviceNumbers hu
    simp [State.censusSoftReset, State.holdLocked, this]
  unfold State.softReset
  dsimp only
  exact recover_stacked.2 (hcensus _ ((onDevices_stacked _).2
    ⟨fun _ => .inl rfl, Nat.zero_le _, fun _ => rfl, fun q hq => absurd hq List.not_mem_nil⟩))

/-! ### Requests -/

theorem replySent_stacked (h : s.Stacked (Resting off)) : s.replySent.Stacked (Resting off) := by
  unfold State.replySent
  split
  · exact ite_stacked (softReset_stacked 0) ((onLink_stacked _).2 h)
  · exact h
theorem idle_stacked (h : s.Stacked (Resting off)) : s.idle.Stacked (Resting off) := by
  unfold State.idle; (repeat' split) <;> simp [h]

/-- The hand-on and the answer of a request keep the bounds when its work does. -/
theorem request_stacked (type tag : Byte) (p : List Byte) (f : List Byte → State → State × Answer)
    (hf : ∀ u : State, u.Stacked P → (f p u).1.Stacked P) (h : s.Stacked P) : (s.request type tag p f).Stacked P := by
  unfold State.request
  split
  · exact h
  · rename_i u hu
    have hready : u.Stacked P := by
      unfold State.toHandOn at hu
      split at hu
      · cases hu
      · obtain ⟨l, -, rfl⟩ := Option.map_eq_some_iff.1 hu
        exact atNow_stacked.2 ((stacked_congr (t := { s with link := l }) (s := s) rfl rfl rfl).2 h)
    exact ite_stacked (hf u hready) ((onLink_stacked _).2 (hf u hready))
theorem load_stacked (ok : Bool) (bad : Option Nat) (apply : State → State × Answer) (ha : (apply s).1.Stacked P)
    (h : s.Stacked P) : (s.load ok bad apply).1.Stacked P := by
  unfold State.load
  (repeat' split) <;> assumption
theorem checked_stacked (ok : Bool) (bad : Option Nat) (taken : State × Answer) (ht : taken.1.Stacked P) (h : s.Stacked P) :
    (s.checked ok bad taken).1.Stacked P := by
  unfold State.checked
  (repeat' split) <;> assumption

/-- A player or score request does its work in play alone (R179). -/
theorem scored_stacked (taken : State × Answer) (ht : s.inPlay = true → taken.1.Stacked P) (h : s.Stacked P) :
    (s.scored taken).1.Stacked P := by
  unfold State.scored
  split
  · exact h
  · exact h
  · exact h
  · exact ht (by simp [State.inPlay, *])
  · exact ht (by simp [State.inPlay, *])

/-! ### The work of the requests -/

theorem loadGame_stacked (p : List Byte) (h : s.Stacked (Resting off)) : (loadGame p s).1.Stacked (Resting off) := by
  have hset : (s.catchUp.atNow.onGame fun c => { c with params := paramsOf p }).Stacked (Resting off) :=
    by simp [h]
  unfold loadGame
  refine load_stacked _ _ _ ?_ h
  unfold State.setParams
  dsimp only
  (repeat' split) <;> simp [hset]
theorem loadDevice_stacked (d : Nat) (r : DeviceRecord) (h : s.Stacked (Resting off)) : (s.loadDevice d r).Stacked (Resting off) := by
  have hmeasure : ∀ u : State, u.Stacked (Resting off) → (u.measure d).Stacked (Resting off) := fun u hu => by
    unfold State.measure; split <;> simp [hu]
  have halign : ∀ u : State, u.Stacked (Resting off) → (u.alignLocked d).Stacked (Resting off) := fun u hu => by
    unfold State.alignLocked; split <;> simp [hu]
  unfold State.loadDevice State.quenchUnused State.leaveLine
  refine settleDevices_stacked.2 (recompute_stacked _ (halign _ (ite_stacked ((onCensus_stacked _).2 ?_) ?_))) <;>
    exact hmeasure _ (by simp [h])
theorem startGame_stacked (p : List Byte) (h : s.Stacked (Resting False)) : (startGame p s).1.Stacked (Resting False) := by
  refine checked_stacked _ _ _ ?_ h
  (repeat' split)
  · exact h
  · exact h
  · rename_i hp _ _
    have hidle : s.game.phase = .idle := by simpa using hp
    dsimp only
    exact settleDevices_stacked.2 (gameStart_stacked (atNow_stacked.2 (catchUp_stacked (h.rest (.inl hidle)))))
theorem addPlayer_stacked (p : List Byte) (h : s.Stacked P) : (addPlayer p s).1.Stacked P := by
  refine checked_stacked _ _ _ ?_ h
  split
  · dsimp only
    exact (emitFor_stacked _ _ _ _ _).2 (onNewPlayers_stacked _ rfl (fun q hq =>
      (List.mem_append.1 hq).imp_right fun hq => ⟨_, List.mem_singleton.1 hq⟩) h)
  · exact h
theorem nextBallRequest_stacked (p : List Byte) (h : s.Stacked (Resting False)) :
    (nextBallRequest p s).1.Stacked (Resting False) := by
  refine checked_stacked _ _ _ ?_ h
  split
  · rename_i hp
    dsimp only
    exact settleDevices_stacked.2 (nextBall_stacked (atNow_stacked.2 (catchUp_stacked (h.rest (.inr hp)))))
  · exact h
theorem endGameRequest_stacked (p : List Byte) (h : s.Stacked (Resting off)) : (endGameRequest p s).1.Stacked (Resting off) := by
  refine checked_stacked _ _ _ ?_ h
  split
  · dsimp only
    exact endGame_stacked none h
  · exact h
theorem trigger_stacked (b : Bool) (p : List Byte) (h : s.Stacked P) : (trigger b p s).1.Stacked P := by
  refine checked_stacked _ _ _ (scored_stacked _ (fun _ => ?_) h) h
  unfold State.hostTrigger; split <;> simp [h]

/-- A mode is started by request in play alone (R84). -/
theorem modeControl_stacked (b : Bool) (p : List Byte) (h : s.Stacked P) : (modeControl b p s).1.Stacked P := by
  refine checked_stacked _ _ _ (scored_stacked _ (fun hp => ?_) h) h
  have hwork : (s.modeOperation (byteAt p 0) (byteAt p 1)).1.Stacked P := by
    unfold State.modeOperation
    split
    · exact stacked_of_turn (modeStart_turn s _) h (modeStart_stacked _ (h.inPlay hp))
    · exact modeStop_stacked _ h
    · exact modeProgress_stacked _ h
  dsimp only
  exact settleDevices_stacked.2 (rootFromList_stacked _ hwork)
theorem setPlayer_stacked (p : List Byte) (h : s.Stacked P) : (setPlayer p s).1.Stacked P := by
  refine checked_stacked _ _ _ (scored_stacked _ (fun _ => ?_) h) h
  unfold State.writePlayer
  split
  · exact h
  · exact onPlayer_stacked_of_le _ _ (fun q hq => by cases playerFieldOfCode (byteAt p 1) <;> exact hq) h
theorem eject_stacked (p : List Byte) (h : s.Stacked (Resting off)) : (eject p s).1.Stacked (Resting off) := by
  refine checked_stacked _ _ _ ?_ h
  unfold State.hostEject; dsimp only; (repeat' split) <;> simp [h]
theorem clearFault_stacked (b : Bool) (p : List Byte) (h : s.Stacked (Resting off)) : (clearFault b p s).1.Stacked (Resting off) := by
  refine checked_stacked _ _ _ ?_ h
  unfold State.faultClear State.faultHost; dsimp only; split <;> simp [h]
theorem clearTables_stacked (p : List Byte) (h : s.Stacked P) : (clearTables p s).1.Stacked P := by
  refine load_stacked _ _ _ ?_ h
  dsimp only
  (repeat' split) <;> simp [h]

theorem loadSwitch_stacked (p : List Byte) (h : s.Stacked P) : (loadSwitch p s).1.Stacked P :=
  load_stacked _ _ _ (by simp [State.quenchUnused, h]) h
theorem loadGroup_stacked (p : List Byte) (h : s.Stacked P) : (loadGroup p s).1.Stacked P := load_stacked _ _ _ (by simp [h]) h
theorem loadMode_stacked (p : List Byte) (h : s.Stacked P) : (loadMode p s).1.Stacked P := load_stacked _ _ _ (by simp [h]) h
theorem loadMultiball_stacked (p : List Byte) (h : s.Stacked P) : (loadMultiball p s).1.Stacked P :=
  load_stacked _ _ _ (by simp [h]) h
theorem loadAward_stacked (p : List Byte) (h : s.Stacked P) : (loadAward p s).1.Stacked P := load_stacked _ _ _ (by simp [h]) h
theorem setDevice_stacked (p : List Byte) (h : s.Stacked (Resting off)) : (setDevice p s).1.Stacked (Resting off) := by
  refine load_stacked _ _ _ ?_ h
  dsimp only
  exact loadDevice_stacked _ _ h
theorem grantRequest_stacked (p : List Byte) (h : s.Stacked P) : (grant p s).1.Stacked P :=
  checked_stacked _ _ _ (scored_stacked _ (fun _ => awardReported_stacked _ _ _ _ h) h) h
theorem clearLatchesRequest_stacked (p : List Byte) (h : s.Stacked P) : (clearLatchesRequest p s).1.Stacked P :=
  checked_stacked _ _ _ (ite_stacked ((onScanner_stacked _).2 h) ((onScanner_stacked _).2 h)) h
theorem readBack_stacked (ok : Bool) (bad : Option Nat) (data : List Byte) (h : s.Stacked P) :
    (s.readBack ok bad data).1.Stacked P := checked_stacked _ _ _ h h
theorem fetch_stacked (p : List Byte) (h : s.Stacked P) : (fetch p s).1.Stacked P := by
  refine checked_stacked _ _ _ ?_ h
  exact ⟨h.phase, h.size, h.between, h.saved⟩
theorem restart_stacked (p : List Byte) (h : s.Stacked P) : (restart p s).1.Stacked P := by
  refine checked_stacked _ _ _ ?_ h
  dsimp only
  exact (onLink_stacked _).2 h

/-! ### Every command and every step -/

theorem tenth_stacked (h : s.Stacked P) : s.modesTenth.censusTenth.Stacked P := by
  have hmodes : s.modesTenth.Stacked P := by
    unfold State.modesTenth
    exact ite_stacked (modeTimeouts_stacked (mapStack_stacked _ ((at_stacked _).2 (by simp [h])))) h
  unfold State.censusTenth State.saveCountDown; dsimp only; split <;> simp [hmodes]

/-- No command passes a bound. -/
theorem exec_stacked (c : Instr) (h : s.Stacked (Resting False)) : ∃ t, exec c s = .next t ∧ t.Stacked (Resting False) := by
  cases c
  case hardReset => exact ⟨_, rfl, False.elim, Nat.zero_le _, fun _ => rfl, fun q hq => absurd hq List.not_mem_nil⟩
  case switchScan k => exact ⟨_, rfl, by unfold State.scan; dsimp only; split <;> simp [h]⟩
  case switchClosure i b => exact ⟨_, rfl, handOn_stacked _ _ _ (fun t _ => closure_stacked b t) h⟩
  case switchOpening i b => exact ⟨_, rfl, handOn_stacked _ _ _ (fun t _ => opening_stacked b t) h⟩
  case tiltClosure i =>
    exact ⟨_, rfl, handOn_stacked _ _ _ (fun t _ hu =>
      tiltClosure_stacked _ (handToDevices_stacked _ ((reportSwitch_stacked t).2 hu))) h⟩
  case slamClosure i => exact ⟨_, rfl, handOn_stacked _ _ _ (fun t _ => slamClosure_stacked t) h⟩
  case tiltSlamOpening i => exact ⟨_, rfl, handOn_stacked _ _ _ (fun t _ => (reportSwitch_stacked t).2) h⟩
  case deviceSwitchTransition i =>
    exact ⟨_, rfl, handOn_stacked _ _ _ (fun t _ hu =>
      stacked_of_served (positionTransition_served _ _) ((reportSwitch_stacked t).2 hu)) h⟩
  case tenth => exact ⟨_, rfl, tenth_stacked h⟩
  case modeTimeout => exact ⟨_, rfl, ite_stacked (modeTimeouts_stacked ((at_stacked _).2 h)) h⟩
  case ballSaveExpired => exact ⟨_, rfl, ite_stacked (saveExpiry_stacked ((at_stacked _).2 h)) h⟩
  case arrival d b => exact ⟨_, rfl, ite_stacked h (settleDevices_stacked.2 (takeArrival_stacked d b (finishWork_stacked h)))⟩
  case settleExpired d => exact ⟨_, rfl, deviceEvent_stacked _ _ (fun _ => settleOut_stacked d) h⟩
  case holdOffExpired d => exact ⟨_, rfl, deviceEvent_stacked _ _ (fun _ => (joinLine_stacked d).2) h⟩
  case coilGrant => exact ⟨_, rfl, deviceEvent_stacked _ _ (fun _ => arbiterGrant_stacked) h⟩
  case pulseEnd d => exact ⟨_, rfl, deviceEvent_stacked _ _ (fun _ => endPulse_stacked d) h⟩
  case confirmWindowEnd d => exact ⟨_, rfl, deviceEvent_stacked _ _ (fun _ => endWindow_stacked d) h⟩
  case retryIntervalEnd d =>
    exact ⟨_, rfl, deviceEvent_stacked _ _ (fun _ hu => (joinLine_stacked d).2 ((onDevice_stacked _ _).2 hu)) h⟩
  case searchWindowEnd d => exact ⟨_, rfl, deviceEvent_stacked _ _ (fun _ => complete_stacked _ _ _) h⟩
  case searchArm => exact ⟨_, rfl, deviceEvent_stacked _ _ (fun _ => beginRound_stacked 1) h⟩
  case searchStep => exact ⟨_, rfl, deviceEvent_stacked _ _ (fun _ => searchNext_stacked.2) h⟩
  case searchPauseEnd => exact ⟨_, rfl, deviceEvent_stacked _ _ (fun _ => pauseEnd_stacked) h⟩
  case requestFrame | interByteGap | framingError | lineBreak | lineBreakEnd | byteReceived =>
    exact ⟨_, rfl, (onLink_stacked _).2 h⟩
  case longBreak => exact ⟨_, rfl, ite_stacked (softReset_stacked 1) h⟩
  case replySent => exact ⟨_, rfl, replySent_stacked h⟩
  case unknownType type tag p => exact ⟨_, rfl, ite_stacked (request_stacked _ _ _ _ (fun _ hu => hu) h) h⟩
  case setGame tag p => exact ⟨_, rfl, request_stacked _ _ _ _ (fun _ => loadGame_stacked p) h⟩
  case setSwitch tag p => exact ⟨_, rfl, request_stacked _ _ _ _ (fun _ => loadSwitch_stacked p) h⟩
  case setGroup tag p => exact ⟨_, rfl, request_stacked _ _ _ _ (fun _ => loadGroup_stacked p) h⟩
  case setDevice tag p => exact ⟨_, rfl, request_stacked _ _ _ _ (fun _ => setDevice_stacked p) h⟩
  case setMode tag p => exact ⟨_, rfl, request_stacked _ _ _ _ (fun _ => loadMode_stacked p) h⟩
  case setMultiball tag p => exact ⟨_, rfl, request_stacked _ _ _ _ (fun _ => loadMultiball_stacked p) h⟩
  case setAward tag p => exact ⟨_, rfl, request_stacked _ _ _ _ (fun _ => loadAward_stacked p) h⟩
  case clearTables tag p => exact ⟨_, rfl, request_stacked _ _ _ _ (fun _ => clearTables_stacked p) h⟩
  case startGame tag p => exact ⟨_, rfl, request_stacked _ _ _ _ (fun _ => startGame_stacked p) h⟩
  case addPlayer tag p => exact ⟨_, rfl, request_stacked _ _ _ _ (fun _ => addPlayer_stacked p) h⟩
  case nextBall tag p => exact ⟨_, rfl, request_stacked _ _ _ _ (fun _ => nextBallRequest_stacked p) h⟩
  case endGame tag p => exact ⟨_, rfl, request_stacked _ _ _ _ (fun _ => endGameRequest_stacked p) h⟩
  case triggerRequest tag p => exact ⟨_, rfl, request_stacked _ _ _ _ (fun _ => trigger_stacked _ _) h⟩
  case grantRequest tag p => exact ⟨_, rfl, request_stacked _ _ _ _ (fun _ => grantRequest_stacked p) h⟩
  case modeControl tag p => exact ⟨_, rfl, request_stacked _ _ _ _ (fun _ => modeControl_stacked _ _) h⟩
  case setPlayer tag p => exact ⟨_, rfl, request_stacked _ _ _ _ (fun _ => setPlayer_stacked p) h⟩
  case ejectRequest tag p => exact ⟨_, rfl, request_stacked _ _ _ _ (fun _ => eject_stacked p) h⟩
  case clearFault tag p => exact ⟨_, rfl, request_stacked _ _ _ _ (fun _ => clearFault_stacked _ _) h⟩
  case clearLatches tag p => exact ⟨_, rfl, request_stacked _ _ _ _ (fun _ => clearLatchesRequest_stacked p) h⟩
  case readStatus | readPlayer | readModes | readDevice | readAward | readSwitches =>
    exact ⟨_, rfl, request_stacked _ _ _ _ (fun _ => readBack_stacked _ _ _) h⟩
  case fetchEvents tag p => exact ⟨_, rfl, request_stacked _ _ _ _ (fun _ => fetch_stacked p) h⟩
  case restartRequest tag p => exact ⟨_, rfl, request_stacked _ _ _ _ (fun _ => restart_stacked p) h⟩

/-- Settles O56: a step is a command taken from the queue, or the part's own work on an empty one. -/
theorem stepKeepsStack : Obligations.StepKeepsStack := by
  intro s t hs ht
  have h := stacked_iff.2 hs
  unfold step at ht
  split at ht
  · cases ht
    exact stacked_iff.1 (idle_stacked h)
  · rename_i c rest _
    obtain ⟨u, e, hu⟩ := exec_stacked (s := { s with pending := rest }) c ⟨h.phase, h.size, h.between, h.saved⟩
    rw [e] at ht
    cases ht
    exact stacked_iff.1 hu

end Sys2Proof.Machine
end

