-- ==== Sys2Proof/Proofs/Tenths.lean ====
section
/-! The tenths (R71 to R73, R122): what a tenth of the Mode Controller makes of the stack, what one of the Ball Census makes of the
ball save, and the time stamps that their records carry (O13). -/

namespace Sys2Proof.Machine

open Sys2Proof

variable {s : State}

/-! ### The records of a tenth -/

/-- A record that stands in the queue after an append stood there before, is the one appended, or is an OVERFLOW record (R189). -/
theorem mem_appendEvent {q : List EventRecord} {x r : EventRecord} (h : r ∈ appendEvent q x) :
    r ∈ q ∨ r = x ∨ r.event = .overflow := by
  unfold appendEvent at h
  split at h
  · rcases List.mem_append.1 h with h | h
    · exact .inl h
    · exact .inr (.inl (List.mem_singleton.1 h))
  · split at h
    · exact .inr (.inl (List.mem_singleton.1 h))
    · split at h <;> rcases List.mem_append.1 h with h | h
      · exact .inl (List.dropLast_subset _ h)
      · rw [List.mem_singleton.1 h]
        exact .inr (.inr ‹_›)
      · exact .inl (List.dropLast_subset _ h)
      · rw [List.mem_singleton.1 h]
        exact .inr (.inr rfl)

/-- The work in hand has time stamp `x`, and beside the records of `q` and OVERFLOW it has queued records of the modes alone, with
that stamp. -/
structure State.ModesStamped (q : List EventRecord) (x : Stamp) (s : State) : Prop where
  time : s.time = x
  records : ∀ r ∈ s.events, r ∈ q ∨ r.event = .overflow ∨ r.event ≠ .ballSaveEnded ∧ r.time = x

variable {q : List EventRecord} {x : Stamp}

theorem modesStamped_self (h : s.time = x) : s.ModesStamped s.events x := ⟨h, fun _ => .inl⟩
theorem setStack_modesStamped (l : List ModeInst) (h : s.ModesStamped q x) : (s.setStack l).ModesStamped q x := ⟨h.1, h.2⟩
theorem emit_modesStamped {e : Event} (he : e ≠ .ballSaveEnded) (u a v : Nat) (h : s.ModesStamped q x) :
    (s.emit e u a v).ModesStamped q x := by
  refine ⟨h.time, fun r hr => ?_⟩
  rcases mem_appendEvent hr with hr | rfl | hr
  · exact h.records r hr
  · exact .inr (.inr ⟨he, h.time⟩)
  · exact .inr (.inl hr)
theorem endInstances_modesStamped (p : ModeInst → Bool) (n : Nat) (h : s.ModesStamped q x) :
    (s.endInstances p n).ModesStamped q x :=
  setStack_modesStamped _ (foldl_keeps _ (fun _ i => emit_modesStamped (by decide) i.mode n i.value) _ _ h)
theorem applyLaw_modesStamped (h : s.ModesStamped q x) : s.applyLaw.ModesStamped q x := by
  refine setStack_modesStamped _ (foldl_keeps _ (fun u i hu => ?_) _ _ h)
  split
  · exact hu
  · exact emit_modesStamped (by split <;> decide) _ _ _ hu
theorem modeTimeouts_modesStamped (h : s.ModesStamped q x) : s.modeTimeouts.ModesStamped q x := by
  unfold State.modeTimeouts
  split
  · exact applyLaw_modesStamped (endInstances_modesStamped _ _ h)
  · exact h

/-! ### Timeouts -/

/-- What an entry of the stack carries beside the state that the law gives it. -/
def ModeInst.figures (i : ModeInst) : Nat × Option Nat × Nat × Nat × Nat := (i.mode, i.remaining, i.progress, i.value, i.order)

/-- Timeouts change the stack and the Event Queue alone (R73). -/
theorem modeTimeouts_eq : s.modeTimeouts = { s with
    modes := { s.modes with stack := s.modeTimeouts.modes.stack }, events := s.modeTimeouts.events } := by
  unfold State.modeTimeouts
  split
  · rw [applyLaw_eq, endInstances_eq]
  · rfl

/-- The instances whose remaining time is 0 leave, the others stay in their order (R73). -/
theorem modeTimeouts_figures : s.modeTimeouts.modes.stack.map ModeInst.figures =
    (s.modes.stack.filter fun i => i.remaining != some 0).map ModeInst.figures := by
  unfold State.modeTimeouts
  split
  · rw [applyLaw_modes, endInstances_modes, List.map_map]
    rfl
  · rename_i hnone
    rw [List.filter_eq_self.2 fun i hi => ?_]
    simpa [ModeInst.expired] using fun he => hnone (List.any_eq_true.2 ⟨i, hi, beq_iff_eq.2 he⟩)

/-! ### The tenth of the Mode Controller -/

theorem tenthDue_iff {last : Stamp} : s.tenthDue last = true ↔ 100 ≤ elapsed s.scanner.now last := by
  simp [State.tenthDue, Config.tenthMs]

/-- The state in which the timeouts of a tenth are looked for: its time stamp, with the counting timers down by 1 (R71). -/
def State.modesTicked (s : State) : State := { s with
  time := s.modes.lastTenth + 100
  modes := { s.modes with
    lastTenth := s.modes.lastTenth + 100
    stack := s.modes.stack.map fun i => if s.counts i then { i with remaining := i.remaining.map (· - 1) } else i } }

theorem modesTenth_of_due (h : s.tenthDue s.modes.lastTenth = true) : s.modesTenth = s.modesTicked.modeTimeouts := by
  rw [State.modesTenth, if_pos h]
  rfl

/-- A tenth of the Mode Controller changes the modes, the Event Queue and the time of the work in hand alone. -/
theorem modesTenth_eq :
    s.modesTenth = { s with time := s.modesTenth.time, modes := s.modesTenth.modes, events := s.modesTenth.events } := by
  cases h : s.tenthDue s.modes.lastTenth
  · rw [modesTenth_of_not_due _ h]
  · rw [modesTenth_of_due h, modeTimeouts_eq]
    rfl
theorem mem_modesTenth_events {r : EventRecord} (h : r ∈ s.modesTenth.events) :
    r ∈ s.events ∨ r.event = .overflow ∨ r.event ≠ .ballSaveEnded ∧ r.time = s.modes.lastTenth + 100 := by
  cases hd : s.tenthDue s.modes.lastTenth
  · rw [modesTenth_of_not_due _ hd] at h
    exact .inl h
  · rw [modesTenth_of_due hd] at h
    exact (modeTimeouts_modesStamped (modesStamped_self (s := s.modesTicked) rfl)).records r h

/-- A mode counts while it is RUNNING outside TILT, and under TIMER_HOLD with a ball on the playfield alone (R72). -/
theorem counts_iff (i : ModeInst) : s.counts i = true ↔ i.state = .running ∧ s.game.phase ≠ .tilt ∧
    ((s.modeDef i.mode).timerHold = false ∨ 1 ≤ s.census.playfield) := by simp [State.counts, and_assoc]

/-- A tenth that is due takes 1 from each timer that counts, and what comes to 0 leaves (R71, R73). -/
theorem modesTenth_figures (h : s.tenthDue s.modes.lastTenth = true) : s.modesTenth.modes.stack.map ModeInst.figures =
    ((s.modes.stack.map fun i =>
      if i.state = .running ∧ s.game.phase ≠ .tilt ∧ ((s.modeDef i.mode).timerHold = false ∨ 1 ≤ s.census.playfield) then
        { i with remaining := i.remaining.map (· - 1) } else i).filter fun i => i.remaining != some 0).map ModeInst.figures := by
  rw [modesTenth_of_due h, modeTimeouts_figures]
  simp only [State.modesTicked, counts_iff]
theorem modesTenth_lastTenth (h : s.tenthDue s.modes.lastTenth = true) :
    s.modesTenth.modes.lastTenth = s.modes.lastTenth + 100 := by
  rw [modesTenth_of_due h, modeTimeouts_eq]
  rfl

/-! ### The tenth of the Ball Census -/

/-- The state in which a tenth of the census is taken: its time stamp, with the ball save down by 1 (R122). -/
def State.saveTicked (s : State) : State := { s with
  time := s.census.lastTenth + 100
  census := { s.census with
    lastTenth := s.census.lastTenth + 100
    save := s.census.save.map fun r => { r with remaining := r.remaining - 1 } } }

theorem censusTenth_of_due (h : s.tenthDue s.census.lastTenth = true) (ha : s.inArrival = false) :
    s.censusTenth = s.saveTicked.saveExpiry := by
  rw [State.censusTenth, h, ha]
  rfl

/-- A ball save whose time is up leaves, with its record (R122). -/
theorem saveExpiry_of_expired {r : BallSave} (h : s.census.save = some r) (hr : r.remaining = 0) : s.saveExpiry = { s with
    census := { s.census with save := none }
    events := appendEvent s.events ⟨.ballSaveEnded, s.game.current, 0, s.time, 0, 0⟩ } := by
  simp [State.saveExpiry, State.saveEnd, h, hr, State.emit, State.emitFor, State.onCensus]
theorem saveExpiry_of_live (h : ∀ r, s.census.save = some r → r.remaining ≠ 0) : s.saveExpiry = s := by
  have hlive : (s.census.save.any fun r => r.remaining == 0) = false := by
    cases hs : s.census.save with
    | none => rfl
    | some r => simpa using h r hs
  rw [State.saveExpiry, hlive]
  rfl

/-- The ball save after an expiry test: one whose time is up is gone. -/
theorem saveExpiry_census : s.saveExpiry.census = { s.census with save := s.census.save.filter fun r => r.remaining != 0 } := by
  cases hs : s.census.save with
  | none =>
    rw [saveExpiry_of_live (by simp [hs]), Option.filter_none, ← hs]
  | some r =>
    by_cases hr : r.remaining = 0
    · rw [saveExpiry_of_expired hs hr]
      simp [Option.filter, hr]
    · rw [saveExpiry_of_live (by simp [hs, hr])]
      simp [Option.filter, hr, ← hs]

theorem saveExpiry_eq : s.saveExpiry = { s with census := s.saveExpiry.census, events := s.saveExpiry.events } := by
  unfold State.saveExpiry
  split
  · rw [saveEnd_eq]
  · rfl

/-- A tenth of the census is taken, or nothing is done. -/
theorem censusTenth_cases : s.censusTenth = s.saveTicked.saveExpiry ∨ s.censusTenth = s := by
  cases h : s.tenthDue s.census.lastTenth
  · exact .inr (censusTenth_of_not_due _ (.inl h))
  · cases ha : s.inArrival
    · exact .inl (censusTenth_of_due h ha)
    · exact .inr (censusTenth_of_not_due _ (.inr ha))

/-- A tenth of the census changes the census, the Event Queue and the time of the work in hand alone. -/
theorem censusTenth_eq :
    s.censusTenth = { s with time := s.censusTenth.time, census := s.censusTenth.census, events := s.censusTenth.events } := by
  rcases censusTenth_cases (s := s) with h | h
  · rw [h, saveExpiry_eq]
    rfl
  · rw [h]
theorem censusTenth_census (h : s.tenthDue s.census.lastTenth = true) (ha : s.inArrival = false) :
    s.censusTenth.census = { s.census with
      lastTenth := s.census.lastTenth + 100
      save := s.census.save.bind fun r =>
        if r.remaining ≤ 1 then none else some { r with remaining := r.remaining - 1 } } := by
  have hsave : (s.saveTicked.census.save.filter fun r => r.remaining != 0) = s.census.save.bind fun r =>
      if r.remaining ≤ 1 then none else some { r with remaining := r.remaining - 1 } := by
    cases hs : s.census.save with
    | none => simp [State.saveTicked, hs]
    | some r => by_cases hr : r.remaining ≤ 1 <;> simp [State.saveTicked, hs, Option.filter, Nat.sub_eq_zero_iff_le, hr]
  rw [censusTenth_of_due h ha, saveExpiry_census, hsave]
  rfl
theorem mem_saveExpiry_events {r : EventRecord} (h : r ∈ s.saveExpiry.events) :
    r ∈ s.events ∨ r.event = .overflow ∨ r.event = .ballSaveEnded ∧ r.time = s.time := by
  by_cases hlive : ∀ v, s.census.save = some v → v.remaining ≠ 0
  · rw [saveExpiry_of_live hlive] at h
    exact .inl h
  · push Not at hlive
    obtain ⟨v, hv, hr⟩ := hlive
    rw [saveExpiry_of_expired hv hr] at h
    rcases mem_appendEvent h with h | rfl | h
    · exact .inl h
    · exact .inr (.inr ⟨rfl, rfl⟩)
    · exact .inr (.inl h)
theorem mem_censusTenth_events {r : EventRecord} (h : r ∈ s.censusTenth.events) :
    r ∈ s.events ∨ r.event = .overflow ∨ r.event = .ballSaveEnded ∧ r.time = s.census.lastTenth + 100 := by
  rcases censusTenth_cases (s := s) with e | e
  · rw [e] at h
    exact mem_saveExpiry_events h
  · rw [e] at h
    exact .inl h

/-! ### TENTH, MODE_TIMEOUT and BALL_SAVE_EXPIRED -/

theorem exec_tenth : exec .tenth s = .next s.modesTenth.censusTenth := rfl

/-- The records of a TENTH carry the time stamp at which their tenth was due. -/
theorem mem_tenth_events {r : EventRecord} (h : r ∈ s.modesTenth.censusTenth.events) : r ∈ s.events ∨ r.event = .overflow ∨
    r.time = (if r.event = .ballSaveEnded then s.census.lastTenth else s.modes.lastTenth) + 100 := by
  have hcensus : s.modesTenth.census = s.census := by rw [modesTenth_eq]
  rcases mem_censusTenth_events h with h | h | ⟨he, ht⟩
  · rcases mem_modesTenth_events h with h | h | ⟨he, ht⟩
    · exact .inl h
    · exact .inr (.inl h)
    · exact .inr (.inr (by rw [if_neg he, ht]))
  · exact .inr (.inl h)
  · exact .inr (.inr (by rw [if_pos he, ht, hcensus]))

/-- Timers that stand at 0 for another cause time out at the time stamp of the tenth last due (R73). -/
theorem exec_modeTimeout (h : ∃ i ∈ s.modes.stack, i.remaining = some 0) :
    exec .modeTimeout s = .next (s.at s.modes.lastTenth).modeTimeouts := by
  obtain ⟨i, hi, hr⟩ := h
  have hany : s.modes.stack.any ModeInst.expired = true := List.any_eq_true.2 ⟨i, hi, beq_iff_eq.2 hr⟩
  show Host.Outcome.next (if s.modes.stack.any ModeInst.expired then _ else _) = _
  rw [if_pos hany]

/-- The census's tenth waits while an arrival is handled (R94). -/
theorem exec_ballSaveExpired {r : BallSave} (h : s.census.save = some r) (hr : r.remaining = 0) :
    exec .ballSaveExpired s = .next (if s.inArrival then s else (s.at s.census.lastTenth).saveExpiry) := by
  show Host.Outcome.next (if (s.census.save.any fun r => r.remaining == 0) && !s.inArrival then _ else _) = _
  cases ha : s.inArrival <;> simp [h, hr]

/-- Settles O13: the tenth of the Mode Controller and then that of the census, each by what it makes of its block. -/
theorem tenthsCountDown : Obligations.TenthsCountDown := by
  refine ⟨fun s => ⟨_, exec_tenth, ?_⟩, fun s h => ⟨_, exec_modeTimeout h, ?_⟩, fun s r h hr => ⟨fun ha => ?_, fun ha => ?_⟩⟩
  · have hmodes : s.modesTenth.censusTenth.modes = s.modesTenth.modes := by rw [censusTenth_eq]
    have hcensus : s.modesTenth.census = s.census := by rw [modesTenth_eq]
    have harrival : s.modesTenth.inArrival = s.inArrival := by rw [modesTenth_eq]; rfl
    have hdue : ∀ last, s.modesTenth.tenthDue last = s.tenthDue last := fun last => by rw [modesTenth_eq]; rfl
    rw [hmodes]
    refine ⟨?_, ?_, ?_, ?_, ?_, fun r => mem_tenth_events, fun h => ?_,
      fun h => ⟨modesTenth_lastTenth (tenthDue_iff.2 h), modesTenth_figures (tenthDue_iff.2 h)⟩, fun h => ?_, fun h ha => ?_⟩
    iterate 5 rw [censusTenth_eq, modesTenth_eq]
    · rw [modesTenth_of_not_due]
      simpa [← Bool.not_eq_true, tenthDue_iff] using h
    · rw [censusTenth_of_not_due, hcensus]
      rw [hcensus, hdue, harrival, inArrival_iff]
      exact h.imp_left fun h => by simpa [← Bool.not_eq_true, tenthDue_iff] using h
    · rw [censusTenth_census, hcensus]
      · rw [hcensus, hdue]
        exact tenthDue_iff.2 h
      · rwa [harrival, ← Bool.not_eq_true, inArrival_iff]
  · have hstamped := modeTimeouts_modesStamped (modesStamped_self (s := s.at s.modes.lastTenth) rfl)
    refine ⟨fun r hr => (hstamped.records r hr).imp_right (Or.imp_right And.right), ?_, ?_, ?_, ?_, ?_, ?_, modeTimeouts_figures⟩ <;>
      rw [modeTimeouts_eq] <;> rfl
  · rw [exec_ballSaveExpired h hr, if_pos ((inArrival_iff s).2 ha)]
  · rw [exec_ballSaveExpired h hr, if_neg (mt (inArrival_iff s).1 ha), saveExpiry_of_expired (s := s.at s.census.lastTenth) h hr]
    rfl

end Sys2Proof.Machine
end

