-- ==== Sys2Proof/Proofs/ModeLoads.lean ====
section
/-! SET_MODE and READ_MODES: the definition that a payload carries is stored as it stands, and its bytes are read back (O33). -/

namespace Sys2Proof.Machine

open Sys2Proof

variable (d : ModeDef) (m : Nat)

/-- The fields of a SET_MODE payload that are numbers, each within its bytes (R64). -/
theorem modePayload_numbers (hm : m < 256) (hp : d.priority < 256) (hd : d.duration < 256 ^ 2) (hg : d.goal < 256)
    (hs : d.startValue < 256 ^ 6) (hv : d.valueStep < 256 ^ 6) (hx : d.multiplier < 256) (hc : d.completionValue < 256 ^ 6) :
    byteAt (d.payload m) 0 = m ∧ byteAt (d.payload m) 2 = d.priority ∧ fieldAt (d.payload m) 4 2 = d.duration ∧
      byteAt (d.payload m) 6 = d.goal ∧ fieldAt (d.payload m) 7 6 = d.startValue ∧
      fieldAt (d.payload m) 13 6 = d.valueStep ∧ byteAt (d.payload m) 19 = d.multiplier ∧
      fieldAt (d.payload m) 23 6 = d.completionValue := by
  refine ⟨?_, ?_, ?_, ?_, ?_, ?_, ?_, ?_⟩ <;>
    simp [ModeDef.payload, ModeDef.bytes, byteAt, fieldAt, mark, u8, u16, u48, leBytes, leNat] <;>
    omega

/-- The fields of a SET_MODE payload that are marks or codes, and its length (R64). -/
theorem modePayload_marks : (d.payload m).length = 31 ∧ byteAt (d.payload m) 1 = (if d.defined then 1 else 0) ∧
    byteAt (d.payload m) 3 = (if d.exclusive then 1 else 0) ∧ byteAt (d.payload m) 20 = (if d.lends then 1 else 0) ∧
    byteAt (d.payload m) 21 = (if d.atBallEnd == .saves then 1 else 0) ∧
    byteAt (d.payload m) 22 = (if d.endsAtMultiballEnd then 1 else 0) ∧
    byteAt (d.payload m) 29 = d.completionClasses.code ∧ byteAt (d.payload m) 30 = (if d.timerHold then 1 else 0) := by
  have hcode : d.completionClasses.code < 8 := by obtain ⟨_ | _, _ | _, _ | _⟩ := d.completionClasses <;> decide
  refine ⟨by simp [ModeDef.payload, ModeDef.bytes, mark, u8, u16, u48], ?_, ?_, ?_, ?_, ?_, ?_, ?_⟩ <;>
    simp [ModeDef.payload, ModeDef.bytes, byteAt, fieldAt, mark, u8, u16, u48, leBytes, leNat]
  case refine_6 => omega
  all_goals split <;> decide

/-- A definition in its ranges, its quantities by name (R64). -/
structure ModeDef.Loadable (d : ModeDef) : Prop where
  defined : d.defined = true
  priority : d.priority ≤ 15
  duration : d.duration ≤ 6000
  goal : d.goal ≤ 255
  startValue : pointsOk Config.pointLimit d.startValue = true
  valueStep : pointsOk Config.pointLimit d.valueStep = true
  multiplier : 1 ≤ d.multiplier ∧ d.multiplier ≤ 4
  completionValue : pointsOk Config.pointLimit d.completionValue = true

theorem modeLoadable_of_inRange (h : d.inRange = true) : d.Loadable := by
  simp only [ModeDef.inRange, Bool.and_eq_true, decide_eq_true_eq] at h
  obtain ⟨⟨⟨⟨⟨⟨⟨⟨hdef, hp⟩, hd⟩, hg⟩, hs⟩, hv⟩, hlow⟩, hhigh⟩, hc⟩ := h
  exact ⟨hdef, hp, hd, hg, hs, hv, ⟨hlow, hhigh⟩, hc⟩

/-- A point value in its range fits its six bytes. -/
theorem lt_of_pointsOk {n : Nat} (h : pointsOk Config.pointLimit n = true) : n < 256 ^ 6 := by
  simp only [pointsOk, Config.pointLimit, Bool.and_eq_true, decide_eq_true_eq] at h
  omega

section loadable

variable (h : d.Loadable) (hm : m < 16)
include h hm

/-- The number fields of the payload of a definition in its ranges. -/
theorem modePayload_loadable : byteAt (d.payload m) 0 = m ∧ byteAt (d.payload m) 2 = d.priority ∧
    fieldAt (d.payload m) 4 2 = d.duration ∧ byteAt (d.payload m) 6 = d.goal ∧
    fieldAt (d.payload m) 7 6 = d.startValue ∧ fieldAt (d.payload m) 13 6 = d.valueStep ∧
    byteAt (d.payload m) 19 = d.multiplier ∧ fieldAt (d.payload m) 23 6 = d.completionValue :=
  modePayload_numbers d m (by omega) (by have := h.priority; omega) (by have := h.duration; omega)
    (by have := h.goal; omega) (lt_of_pointsOk h.startValue) (lt_of_pointsOk h.valueStep)
    (by have := h.multiplier; omega) (lt_of_pointsOk h.completionValue)

/-- The definition reads back: in its ranges nothing of it is held (R65 step 4). -/
theorem modeDefOf_loadable : modeDefOf (d.payload m) = d := by
  obtain ⟨-, h2, h4, h6, h7, h13, h19, h23⟩ := modePayload_loadable d m h hm
  obtain ⟨-, h1, h3, h20, h21, h22, h29, h30⟩ := modePayload_marks d m
  have hpriority : min d.priority 15 = d.priority := Nat.min_eq_left h.priority
  have hduration : min d.duration 6000 = d.duration := Nat.min_eq_left h.duration
  have hmultiplier : held 1 4 d.multiplier = d.multiplier := by
    have := h.multiplier
    unfold held
    omega
  have hend : (if (if d.atBallEnd == .saves then 1 else 0) = 1 then AtBallEnd.saves else .ends) = d.atBallEnd := by
    cases d.atBallEnd <;> rfl
  simp only [modeDefOf, h1, h2, h3, h4, h6, h7, h13, h19, h20, h21, h22, h23, h29, h30, hpriority, hduration, hmultiplier, hend,
    heldPoints_of_ok _ _ h.startValue, heldPoints_of_ok _ _ h.valueStep, heldPoints_of_ok _ _ h.completionValue, classesOf_code,
    (markByte_readBack _).2]

theorem modeDefHeld_loadable : modeDefHeld (d.payload m) = false := by
  obtain ⟨-, h2, h4, -, h7, h13, h19, h23⟩ := modePayload_loadable d m h hm
  simp [modeDefHeld, modeDefOf_loadable d m h hm, h2, h4, h7, h13, h19, h23]

end loadable

/-- SET_MODE in IDLE stores the definition. -/
theorem loadMode_payload (s : State) (hp : s.game.phase = .idle) (hm : m < 16) (hd : d.inRange = true) :
    loadMode (d.payload m) s = (s.onModes fun c => { c with defs := writeTable c.defs m d }, .ok []) := by
  have h := modeLoadable_of_inRange d hd
  have h0 := (modePayload_loadable d m h hm).1
  obtain ⟨hlen, h1, h3, h20, h21, h22, h29, h30⟩ := modePayload_marks d m
  have hcode : d.completionClasses.code < 8 := by obtain ⟨_ | _, _ | _, _ | _⟩ := d.completionClasses <;> decide
  have hend : (if d.atBallEnd = .saves then 1 else 0) ≤ 1 := by split <;> decide
  unfold loadMode
  rw [load_of_idle _ _ _ _ hp (by simp [hlen])
    (by simp [firstBad, h0, h1, h3, h20, h21, h22, h29, h30, hm, hcode, hend, (markByte_readBack _).1, Config.modeCount])]
  simp [h0, modeDefOf_loadable d m h hm, modeDefHeld_loadable d m h hm, h.defined, Answer.applied]

/-- READ_MODES of a definition sends the bytes of what is stored (R85). -/
theorem exec_readModes_of_stored {s : State} {tag : Byte} (t : Vector ModeDef Config.modeCount)
    (hs : s.modes.defs = writeTable t m d) (hm : m < 16) (h : s.Offers ⟨22, tag, [2, BitVec.ofNat 8 m]⟩) :
    exec (.readModes tag [2, BitVec.ofNat 8 m]) s =
      .next (s.onlyAnswered ⟨22, tag, [2, BitVec.ofNat 8 m]⟩ (0 :: d.bytes)) := by
  have hnumber : (BitVec.ofNat 8 m).toNat = m := Nat.mod_eq_of_lt (by omega)
  have hdef : s.modeDef m = d := by rw [State.modeDef, hs, readTable_writeTable_self _ _ _ _ hm]
  have hdata : s.modesData (2 : Byte).toNat m = d.bytes := by
    rw [← hdef]
    rfl
  rw [exec_readModes (by decide) (fun hk => absurd hk (by decide)) (fun _ => by rwa [hnumber]) h, hnumber, hdata]

/-- Settles O33: the payload of a definition in its ranges reads back as the definition, and so do the bytes read from it. -/
theorem setModeRoundTrip : Obligations.SetModeRoundTrip := by
  intro tag tag' s m d hp hm hd h
  refine ⟨_, ?_, rfl, exec_readModes_of_stored d m s.modes.defs rfl hm⟩
  exact congrArg Host.Outcome.next (request_of_work s
    { s with modes := { s.modes with defs := writeTable s.modes.defs m d } } 5 tag _ loadMode _ h rfl
    fun l => loadMode_payload d m { s with link := l, time := s.scanner.now } hp hm hd)

end Sys2Proof.Machine
end

