-- ==== Sys2Proof/Proofs/ModeStarts.lean ====
section
/-! MODE_CONTROL START (O45): the four results of a start, and what each leaves in the stack. -/

namespace Sys2Proof.Machine

open Sys2Proof

variable {s : State} {k : Nat}

/-! ### The results of a start (R69) -/

/-- The new entry of mode `k` in the stack, before the law gives it a state (R66). -/
def State.fresh (s : State) (k : Nat) : ModeInst :=
  ⟨k, .running, (s.modeDef k).timer, 0, (s.modeDef k).startValue, s.modes.nextOrder⟩

theorem modeStart_of_undefined (hd : (s.modeDef k).defined = false) :
    s.modeStart k = (s.emit .modeRefused k 0 0, .refusedUndefined) := by simp [State.modeStart, hd]
theorem modeStart_of_present {i : ModeInst} (hd : (s.modeDef k).defined = true) (hi : s.inst? k = some i) : s.modeStart k =
    ((s.setStack (s.modes.stack.map fun j => if j.mode = k then { j with remaining := (s.modeDef k).timer } else j)).emit
      .modeRefreshed k (s.modeDef k).duration i.value, .refreshed) := by simp [State.modeStart, hd, hi]
theorem modeStart_of_full (hd : (s.modeDef k).defined = true) (hi : s.inst? k = none) (hfull : 6 ≤ s.modes.stack.length) :
    s.modeStart k = (s.emit .modeRefused k 1 0, .refusedFull) := by
  simp [State.modeStart, hd, hi, Config.stackInstances, hfull]

/-- The state in which the law is applied to a stack that a new entry of mode `k` has joined, in state `r`. -/
def State.joined (s : State) (k : Nat) (r : RunState) : State :=
  (s.onModes fun c => { c with
    stack := s.placed { s.fresh k with state := r } c.stack, nextOrder := (c.nextOrder + 1) % 65536 }).emit
      .modeStarted k r.code (s.modeDef k).startValue

theorem modeStart_of_room (hd : (s.modeDef k).defined = true) (hi : s.inst? k = none) (hroom : s.modes.stack.length < 6) :
    s.modeStart k = ((s.joined k (s.lawState (s.placed (s.fresh k) s.modes.stack) k)).applyLaw, .started) := by
  have hfull : ¬Config.stackInstances ≤ s.modes.stack.length := Nat.not_le.2 hroom
  simp only [State.modeStart, hd, hi, if_neg hfull]
  rfl

/-! ### What a start leaves in the stack -/

/-- An entry of its own mode does not suspend a new one, so that the law looks at the others alone (R67). -/
theorem lawState_placed (i : ModeInst) (stack : List ModeInst) : s.lawState (s.placed i stack) i.mode =
    if ∃ j ∈ stack, (s.modeDef j.mode).exclusive = true ∧ (s.modeDef i.mode).priority < (s.modeDef j.mode).priority
    then .suspended else .running := by
  have hany : ((s.placed i stack).any fun j =>
      (s.modeDef j.mode).exclusive && decide ((s.modeDef i.mode).priority < (s.modeDef j.mode).priority)) = true ↔
      ∃ j ∈ stack, (s.modeDef j.mode).exclusive = true ∧ (s.modeDef i.mode).priority < (s.modeDef j.mode).priority := by
    simp [(placed_perm i stack).mem_iff]
  simp only [State.lawState, hany]

theorem refreshed_inst? {i : ModeInst} (hi : s.inst? k = some i) (r : Option Nat) :
    (s.setStack (s.modes.stack.map fun j => if j.mode = k then { j with remaining := r } else j)).inst? k =
      some { i with remaining := r } := by
  have hmode : i.mode = k := by simpa using List.find?_some hi
  rw [inst?_setStack_map _ (fun j => by split <;> rfl), hi]
  simp [hmode]

/-- The law sets the state of each entry in its place (R67). -/
theorem applyLaw_inst? : s.applyLaw.inst? k = (s.inst? k).map fun i => { i with state := s.lawState s.modes.stack i.mode } := by
  have hmap := inst?_setStack_map (s := s) (fun i => { i with state := s.lawState s.modes.stack i.mode }) (fun _ => rfl) k
  rw [← hmap]
  exact inst?_congr (congrArg Modes.stack applyLaw_modes) k

/-- The entry that a start has placed, in the state that the law gives it. -/
theorem started_inst? (hi : s.inst? k = none) (r : RunState) : (s.joined k r).applyLaw.inst? k = some { s.fresh k with
    state := if ∃ j ∈ s.modes.stack, (s.modeDef j.mode).exclusive = true ∧
      (s.modeDef k).priority < (s.modeDef j.mode).priority then .suspended else .running } := by
  have hplaced : (s.joined k r).inst? k = some { s.fresh k with state := r } := find?_placed _ _ _ (by simp [State.fresh]) hi
  have hlaw : (s.joined k r).lawState (s.joined k r).modes.stack k = if ∃ j ∈ s.modes.stack,
      (s.modeDef j.mode).exclusive = true ∧ (s.modeDef k).priority < (s.modeDef j.mode).priority
      then .suspended else .running := lawState_placed { s.fresh k with state := r } s.modes.stack
  rw [applyLaw_inst?, hplaced, Option.map_some, ← hlaw]
  rfl
theorem started_length (r : RunState) : (s.joined k r).applyLaw.modes.stack.length = s.modes.stack.length + 1 := by
  rw [applyLaw_modes, List.length_map]
  exact (placed_perm _ _).length_eq

/-! ### The request -/

/-- The state in which the work of a request is done: at the time of the latest scan, with `l` for the Link Port. -/
def State.atWork (s : State) (l : Link) : State := { s with link := l, time := s.scanner.now }

variable {tag m : Byte} {b : Bool}

/-- MODE_CONTROL START does the work of a start, which raises no trigger, and answers with its code (R84). -/
theorem exec_start (hp : s.inPlay = true) (hm : m.toNat < 16) (ht : s.engine.triggers = [])
    (ho : s.Offers ⟨15, tag, [m, 0]⟩) (code : Nat) (hcode : ∀ l, ((s.atWork l).modeStart m.toNat).2.code = code) :
    ∃ t l, exec (.modeControl tag ⟨[m, 0], b⟩) s = .next t ∧ t.game.players = s.game.players ∧ t.census = s.census ∧
      t.scanner = s.scanner ∧ t.link = s.answeredLink ⟨15, tag, [m, 0]⟩ (0 :: u8 code) ∧
      t.modes = ((s.atWork l).modeStart m.toNat).1.modes := by
  obtain ⟨l, h⟩ := exec_modeControl (b := b) (op := 0) hp hm (by decide) code hcode ho
  have hwork : (State.modeOperation { s with link := l, time := s.scanner.now } m.toNat (0 : Byte).toNat).1 =
      ((s.atWork l).modeStart m.toNat).1 := rfl
  have heq := modeStart_eq (s := s.atWork l) m.toNat
  have hengine := congrArg State.engine heq
  have hplayers := congrArg (·.game.players) heq
  have hcensus := congrArg State.census heq
  have hscanner := congrArg State.scanner heq
  rw [hwork] at h
  generalize hu : ((s.atWork l).modeStart m.toNat).1 = u at h hengine hplayers hcensus hscanner
  have hbeside := settleDevices_beside u
  have hmodes' := modes_of_beside hbeside
  have hplayers' := (players_of_beside hbeside).trans hplayers
  have hcensus' := (census_of_beside hbeside).trans hcensus
  have hscanner' := (scanner_of_beside hbeside).trans hscanner
  rw [rootFromList_of_nil (hengine ▸ ht)] at h
  generalize u.settleDevices = y at h hmodes' hplayers' hcensus' hscanner'
  exact ⟨_, l, h, hplayers', hcensus', hscanner', rfl, hu ▸ hmodes'⟩

/-- Settles O45: each of the four results of a start, with its code. -/
theorem modeControlStarts : Obligations.ModeControlStarts := by
  intro tag m b s hp ht hm ho d time
  have hexec := exec_start (b := b) hp hm ht ho
  cases hd : d.defined with
  | false =>
    have hwork : ∀ l, (s.atWork l).modeStart m.toNat = _ := fun l => modeStart_of_undefined hd
    obtain ⟨t, l, h, hplayers, hcensus, hscanner, hlink, hmodes⟩ := hexec 2 fun l => by rw [hwork]; rfl
    rw [hwork] at hmodes
    exact ⟨t, h, hplayers, hcensus, hscanner, fun _ => ⟨hlink, hmodes⟩, by simp, by simp, by simp⟩
  | true =>
    cases hi : s.inst? m.toNat with
    | some i =>
      have hwork : ∀ l, (s.atWork l).modeStart m.toNat = _ := fun l => modeStart_of_present hd hi
      obtain ⟨t, l, h, hplayers, hcensus, hscanner, hlink, hmodes⟩ := hexec 1 fun l => by rw [hwork]; rfl
      rw [hwork] at hmodes
      refine ⟨t, h, hplayers, hcensus, hscanner, by simp, fun j _ hj => ?_, by simp, by simp⟩
      cases hj
      exact ⟨hlink, (inst?_congr (congrArg Modes.stack hmodes) _).trans (refreshed_inst? (s := s.atWork l) hi _),
        (congrArg Modes.nextOrder hmodes :)⟩
    | none =>
      rcases Nat.lt_or_ge s.modes.stack.length 6 with hroom | hfull
      · have hwork : ∀ l, (s.atWork l).modeStart m.toNat = _ := fun l => modeStart_of_room hd hi hroom
        obtain ⟨t, l, h, hplayers, hcensus, hscanner, hlink, hmodes⟩ := hexec 0 fun l => by rw [hwork]; rfl
        rw [hwork] at hmodes
        refine ⟨t, h, hplayers, hcensus, hscanner, by simp, by simp, fun _ _ hfull => absurd hroom (by omega),
          fun _ _ _ => ⟨hlink, ?_, ?_, ?_⟩⟩
        · rw [hmodes]
          exact started_length _
        · rw [hmodes, applyLaw_modes]
          rfl
        · exact (inst?_congr (congrArg Modes.stack hmodes) _).trans (started_inst? (s := s.atWork l) hi _)
      · have hwork : ∀ l, (s.atWork l).modeStart m.toNat = _ := fun l => modeStart_of_full hd hi hfull
        obtain ⟨t, l, h, hplayers, hcensus, hscanner, hlink, hmodes⟩ := hexec 3 fun l => by rw [hwork]; rfl
        rw [hwork] at hmodes
        exact ⟨t, h, hplayers, hcensus, hscanner, by simp, by simp, fun _ _ _ => ⟨hlink, hmodes⟩,
          fun _ _ hroom => absurd hroom (by omega)⟩

end Sys2Proof.Machine
end

