-- ==== Sys2Proof/Proofs/DeviceFrames.lean ====
section
/-! What leaves the Ball Device Controller alone: the points, the modes, the recomputation of the census, the ball save and the
reports. One lemma for each such operation, in the order of the definitions. -/

namespace Sys2Proof.Machine

open Sys2Proof

variable (s : State)

/-- A fold of steps that leave the devices alone does so. -/
theorem foldl_devices {α : Type} (f : State → α → State) (hf : ∀ x a, (f x a).devices = x.devices) (l : List α) :
    (l.foldl f s).devices = s.devices :=
  foldl_keeps (p := fun x => x.devices = s.devices) f (fun x a h => (hf x a).trans h) l s rfl

/-! ### Score and modes -/

@[simp] theorem replays_devices (b a : Nat) (l : List Nat) (i : Nat) : (s.replays b a l i).devices = s.devices := by
  induction l generalizing s i with
  | nil => simp [State.replays]
  | cons t l ih => simp only [State.replays]; (repeat' split) <;> simp [ih]
@[simp] theorem addPoints_devices (p : Nat) : (s.addPoints p).devices = s.devices := by
  unfold State.addPoints; dsimp only; split <;> simp
@[simp] theorem award1_devices (b : Nat) (c : Classes) : (s.award1 b c).devices = s.devices := addPoints_devices s _
@[simp] theorem awardReported_devices (e : Event) (u b : Nat) (c : Classes) :
    (s.awardReported e u b c).devices = s.devices := award1_devices s b c
@[simp] theorem applyLaw_devices : s.applyLaw.devices = s.devices :=
  foldl_devices s _ (fun x i => by split <;> simp) _
@[simp] theorem endInstances_devices (p : ModeInst → Bool) (r : Nat) : (s.endInstances p r).devices = s.devices :=
  foldl_devices s _ (fun x _ => State.emit_devices x ..) _
@[simp] theorem modeStart_devices (m : Nat) : (s.modeStart m).1.devices = s.devices := by
  unfold State.modeStart; dsimp only; (repeat' split) <;> simp
@[simp] theorem modeStop_devices (m : Nat) : (s.modeStop m).1.devices = s.devices := by
  unfold State.modeStop; split <;> simp
@[simp] theorem appendTrigger_devices (t : Nat) : (s.appendTrigger t).devices = s.devices := by
  unfold State.appendTrigger; (repeat' split) <;> simp
@[simp] theorem modeComplete_devices (m : Nat) : (s.modeComplete m).devices = s.devices := by simp [State.modeComplete]
@[simp] theorem modeProgress_devices (m : Nat) : (s.modeProgress m).1.devices = s.devices := by
  unfold State.modeProgress; dsimp only; (repeat' split) <;> simp
@[simp] theorem modeTimeouts_devices : s.modeTimeouts.devices = s.devices := by
  unfold State.modeTimeouts; split <;> simp
@[simp] theorem modesMultiballEnd_devices : s.modesMultiballEnd.devices = s.devices := by
  unfold State.modesMultiballEnd; (repeat' split) <;> simp
@[simp] theorem saveInstances_devices (l : List ModeInst) : (s.saveInstances l).devices = s.devices := by
  induction l generalizing s with
  | nil => rfl
  | cons i l ih => simp only [State.saveInstances]; split <;> simp [ih]
@[simp] theorem modesBallEnd_devices : s.modesBallEnd.devices = s.devices := by
  unfold State.modesBallEnd; dsimp only; split <;> simp
@[simp] theorem modesRestore_devices : s.modesRestore.devices = s.devices := by
  have hrestored := foldl_devices s State.restoreOne (fun x _ => State.onModes_devices x _) s.current.saved
  exact (foldl_devices _ _ (fun x _ => State.emit_devices x ..) _).trans (by simpa using hrestored)
@[simp] theorem modesGameEnd_devices : s.modesGameEnd.devices = s.devices := by simp [State.modesGameEnd]
@[simp] theorem modesTenth_devices : s.modesTenth.devices = s.devices := by
  unfold State.modesTenth State.countDown; dsimp only; split <;> simp

/-! ### Census -/

@[simp] theorem findByCount_devices (u : Option Nat) (k : Nat) : (s.findByCount u k).devices = s.devices := by
  induction k generalizing s with
  | zero => rfl
  | succ k ih => simp [State.findByCount, ih]
@[simp] theorem recompute_devices (u : Option Nat) : (s.recompute u).devices = s.devices := by
  unfold State.recompute; dsimp only; (repeat' split) <;> simp
@[simp] theorem lockedLost_devices (d : Nat) : (s.lockedLost d).devices = s.devices := by
  unfold State.lockedLost; dsimp only; split <;> simp
@[simp] theorem saveEnd_devices (c : Nat) : (s.saveEnd c).devices = s.devices := by
  unfold State.saveEnd; split <;> simp
@[simp] theorem saveExpiry_devices : s.saveExpiry.devices = s.devices := by
  unfold State.saveExpiry; split <;> simp
@[simp] theorem censusTenth_devices : s.censusTenth.devices = s.devices := by
  unfold State.censusTenth State.saveCountDown; dsimp only; split <;> simp
@[simp] theorem foundByClosure_devices (i : Nat) : (s.foundByClosure i).devices = s.devices := by
  unfold State.foundByClosure; dsimp only; split <;> simp
@[simp] theorem multiballRise_devices : s.multiballRise.devices = s.devices := by
  unfold State.multiballRise; split <;> simp
@[simp] theorem startModeOf_devices (k : Nat) : (s.startModeOf k).devices = s.devices := by
  unfold State.startModeOf; split <;> simp
@[simp] theorem holdLocked_devices : s.holdLocked.devices = s.devices := foldl_devices s _ lockedLost_devices _

/-! ### Switches and walks -/

@[simp] theorem quenchUnused_devices : s.quenchUnused.devices = s.devices := by simp [State.quenchUnused]
@[simp] theorem clearLatches_devices (l : List Nat) : (s.clearLatches l).devices = s.devices := by
  simp [State.clearLatches]
@[simp] theorem clearAllLatches_devices : s.clearAllLatches.devices = s.devices := by simp [State.clearAllLatches]
@[simp] theorem clearPerBall_devices : s.clearPerBall.devices = s.devices := by simp [State.clearPerBall, State.clearLatches]
@[simp] theorem matchPoints_devices (i : Nat) (e : AwardEntry) : (s.matchPoints i e).devices = s.devices := by
  unfold State.matchPoints; (repeat' split) <;> simp
@[simp] theorem afterWalk_devices : s.afterWalk.devices = s.devices := by
  unfold State.afterWalk; (repeat' split) <;> simp
@[simp] theorem reportSwitch_devices (t : Transition) : (s.reportSwitch t).devices = s.devices := by
  unfold State.reportSwitch; split <;> simp

/-- Where the devices are the same, each one is. -/
theorem device_congr {s t : State} (h : t.devices = s.devices) (d : Nat) : t.device d = s.device d := by
  rw [State.device, h]; rfl

end Sys2Proof.Machine
end

