-- ==== Sys2Proof/Proofs/CoilBounds.lean ====
section
/-! The coil budget (R99): what each operation does with the grants, the ready line and the devices' states, and that no step
drives more coils than the budget allows (O58). -/

namespace Sys2Proof.Machine

open Sys2Proof

/-- The clauses of `State.CoilLaw` as one fact that lemmas can be about, with `n` grants beyond the budget allowed: a lowered
budget is exceeded until the pulses beyond it are cut (R99, R144). -/
structure State.Coiled (n : Nat) (s : State) : Prop where
  once : s.devices.granted.Nodup
  budget : s.devices.granted.length ≤ s.game.params.coilBudget + n
  real : ∀ d ∈ s.devices.granted, d < Config.deviceCount
  pulsing : ∀ d < Config.deviceCount, (s.device d).state = .pulsing ↔ d ∈ s.devices.granted
  line : (s.devices.ready.map Ready.device).Nodup
  waits : ∀ r ∈ s.devices.ready, r.device < Config.deviceCount ∧ (s.device r.device).state.mayWait = true
  search : ∀ d < Config.deviceCount, (s.device d).searchWaits = true → (s.device d).state = .ejectWait

variable {n : Nat} {s t : State}

theorem coiled_iff : s.Coiled 0 ↔ s.CoilLaw :=
  ⟨fun ⟨ho, hb, hr, hp, hl, hw, hs⟩ => ⟨ho, hb, hr, hp, hl, hw, hs⟩,
    fun ⟨ho, hb, hr, hp, hl, hw, hs⟩ => ⟨ho, hb, hr, hp, hl, hw, hs⟩⟩

/-! ### What the law reads -/

theorem coiled_congr (hg : t.devices.granted = s.devices.granted) (hr : t.devices.ready = s.devices.ready)
    (hp : t.game.params = s.game.params)
    (hd : ∀ d, (t.device d).state = (s.device d).state ∧ (t.device d).queue = (s.device d).queue) :
    t.Coiled n ↔ s.Coiled n := by
  have hstate := fun d => (hd d).1
  have hwaits : ∀ d, (t.device d).searchWaits = (s.device d).searchWaits := fun d => by simp [Device.searchWaits, hd d]
  constructor <;> rintro ⟨ho, hb, hx, hpulse, hl, hw, hs⟩ <;> constructor <;> simp_all

theorem coiled_of_devices (hd : t.devices = s.devices) (hp : t.game.params = s.game.params) : t.Coiled n ↔ s.Coiled n :=
  coiled_congr (by rw [hd]) (by rw [hd]) hp fun d => by rw [device_congr hd]; exact ⟨rfl, rfl⟩

/-- An equal frame has equal parameters, so that only the devices matter. -/
theorem coiled_of_frame (hd : t.devices = s.devices) (hf : t.frame = s.frame) : t.Coiled n ↔ s.Coiled n :=
  coiled_of_devices hd (congrArg Frame.params hf)

@[simp] theorem onScanner_coiled (f : Scanner → Scanner) : (s.onScanner f).Coiled n ↔ s.Coiled n := coiled_of_devices rfl rfl
@[simp] theorem onEngine_coiled (f : Engine → Engine) : (s.onEngine f).Coiled n ↔ s.Coiled n := coiled_of_devices rfl rfl
@[simp] theorem onModes_coiled (f : Modes → Modes) : (s.onModes f).Coiled n ↔ s.Coiled n := coiled_of_devices rfl rfl
@[simp] theorem onCensus_coiled (f : Census → Census) : (s.onCensus f).Coiled n ↔ s.Coiled n := coiled_of_devices rfl rfl
@[simp] theorem onSearch_coiled (f : Search → Search) : (s.onSearch f).Coiled n ↔ s.Coiled n := coiled_of_devices rfl rfl
@[simp] theorem onLink_coiled (f : Link → Link) : (s.onLink f).Coiled n ↔ s.Coiled n := coiled_of_devices rfl rfl
@[simp] theorem at_coiled (x : Stamp) : (s.at x).Coiled n ↔ s.Coiled n := coiled_of_devices rfl rfl
@[simp] theorem atNow_coiled : s.atNow.Coiled n ↔ s.Coiled n := coiled_of_devices rfl rfl
@[simp] theorem onSwitch_coiled (i : Nat) (f : Switch → Switch) : (s.onSwitch i f).Coiled n ↔ s.Coiled n :=
  coiled_of_devices rfl rfl
@[simp] theorem setLocked_coiled (d k : Nat) : (s.setLocked d k).Coiled n ↔ s.Coiled n := coiled_of_devices rfl rfl
@[simp] theorem setStack_coiled (l : List ModeInst) : (s.setStack l).Coiled n ↔ s.Coiled n := coiled_of_devices rfl rfl
@[simp] theorem emitFor_coiled (p : Nat) (e : Event) (u a v : Nat) : (s.emitFor p e u a v).Coiled n ↔ s.Coiled n :=
  coiled_of_devices rfl rfl
@[simp] theorem emit_coiled (e : Event) (u a v : Nat) : (s.emit e u a v).Coiled n ↔ s.Coiled n := coiled_of_devices rfl rfl
@[simp] theorem onCurrent_coiled (f : Player → Player) : (s.onCurrent f).Coiled n ↔ s.Coiled n :=
  coiled_of_devices (by simp) (by simp)
@[simp] theorem onGame_coiled (f : Game → Game) (hf : ∀ g, (f g).params = g.params) : (s.onGame f).Coiled n ↔ s.Coiled n :=
  coiled_of_devices rfl (hf _)
@[simp] theorem onDevices_coiled (f : Devices → Devices) (hu : ∀ c, (f c).units = c.units)
    (hg : ∀ c, (f c).granted = c.granted) (hr : ∀ c, (f c).ready = c.ready) : (s.onDevices f).Coiled n ↔ s.Coiled n :=
  coiled_congr (hg _) (hr _) rfl fun d => by rw [onDevices_device s f hu]; exact ⟨rfl, rfl⟩
@[simp] theorem onDevice_coiled (d : Nat) (f : Device → Device) (hs : ∀ v, (f v).state = v.state)
    (hq : ∀ v, (f v).queue = v.queue) : (s.onDevice d f).Coiled n ↔ s.Coiled n :=
  coiled_congr rfl rfl rfl fun e => by rw [State.onDevice_device]; split <;> simp_all

theorem repeated_coiled (f : State → State) (hf : ∀ x : State, x.Coiled n → (f x).Coiled n) (k : Nat) (h : s.Coiled n) :
    (repeated f k s).Coiled n := repeated_keeps f hf k s h
theorem foldl_coiled {α : Type} (f : State → α → State) (hf : ∀ (x : State) a, x.Coiled n → (f x a).Coiled n) (l : List α)
    (h : s.Coiled n) : (l.foldl f s).Coiled n := foldl_keeps f hf l s h
theorem ite_coiled {c : Prop} [Decidable c] (hs : s.Coiled n) (ht : t.Coiled n) : (if c then s else t).Coiled n := by
  split
  · exact hs
  · exact ht

/-! ### The states that the law ties together -/

/-- Only a device that exists is in another state than DISABLED. -/
theorem lt_of_state {d : Nat} (h : (s.device d).state ≠ .disabled) : d < Config.deviceCount := by
  by_contra hd
  exact h (by rw [State.device, readTable_of_le _ _ _ (Nat.not_lt.1 hd)]; rfl)

theorem mayWait_iff (x : DeviceState) : x.mayWait = true ↔ x = .ejectWait ∨ x = .retryWait := by cases x <;> decide

theorem inLine_iff {d : Nat} : s.inLine d = true ↔ d ∈ s.devices.ready.map Ready.device := by
  simp [State.inLine]

theorem mayWait_of_inLine {d : Nat} (h : s.Coiled n) (hd : s.inLine d = true) : (s.device d).state.mayWait = true := by
  obtain ⟨r, hr, rfl⟩ := List.mem_map.1 (inLine_iff.1 hd)
  exact (h.waits r hr).2

/-- The devices PULSING are as many as the grants. -/
theorem pulsingCount_eq (h : s.Coiled n) : s.pulsingCount = s.devices.granted.length := by
  refine List.Perm.length_eq ((List.perm_ext_iff_of_nodup ?_ h.once).2 fun d => ?_)
  · exact List.nodup_range.filter _
  · constructor
    · intro hd
      obtain ⟨hlt, hp⟩ := List.mem_filter.1 hd
      exact (h.pulsing d (List.mem_range.1 hlt)).1 (by simpa using hp)
    · intro hd
      have hlt := h.real d hd
      exact List.mem_filter.2 ⟨List.mem_range.2 hlt, by simpa using (h.pulsing d hlt).2 hd⟩

/-! ### A device in a new state -/

/-- A device that neither begins nor ends a pulse, and may still wait where it stands in the line. -/
theorem onDevice_coiled_of (d : Nat) (f : Device → Device)
    (hp : (f (s.device d)).state = .pulsing ↔ (s.device d).state = .pulsing)
    (hw : s.inLine d = true → (f (s.device d)).state.mayWait = true)
    (hs : (f (s.device d)).searchWaits = true → (f (s.device d)).state = .ejectWait) (h : s.Coiled n) :
    (s.onDevice d f).Coiled n := by
  refine ⟨h.once, h.budget, h.real, fun e he => ?_, h.line, fun r hr => ?_, fun e he => ?_⟩
  · rw [State.onDevice_device]
    split
    · rename_i hde
      exact hde.1 ▸ hp.trans (h.pulsing d hde.2)
    · exact h.pulsing e he
  · refine ⟨(h.waits r hr).1, ?_⟩
    rw [State.onDevice_device]
    split
    · rename_i hde
      exact hw (inLine_iff.2 (hde.1 ▸ List.mem_map_of_mem hr))
    · exact (h.waits r hr).2
  · rw [State.onDevice_device]
    split
    · exact hs
    · exact h.search e he

/-- Device `d` is no longer among the devices granted. -/
def State.released (s : State) (d : Nat) : State := s.onDevices fun c => { c with granted := c.granted.filter (· != d) }

/-- A device that is no longer granted is not PULSING. -/
theorem released_coiled (d : Nat) (f : Device → Device) (hp : (f (s.device d)).state ≠ .pulsing)
    (hw : s.inLine d = true → (f (s.device d)).state.mayWait = true)
    (hs : (f (s.device d)).searchWaits = true → (f (s.device d)).state = .ejectWait) (h : s.Coiled n) :
    ((s.released d).onDevice d f).Coiled n := by
  have hsub : (s.devices.granted.filter (· != d)).Sublist s.devices.granted := List.filter_sublist
  have hdevice : ∀ e, ((s.released d).onDevice d f).device e =
      if d = e ∧ d < Config.deviceCount then f (s.device d) else s.device e := fun e =>
    State.onDevice_device _ d e f
  refine ⟨h.once.sublist hsub, hsub.length_le.trans h.budget, fun e he => h.real e (hsub.subset he), fun e he => ?_,
    h.line, fun r hr => ?_, fun e he => ?_⟩
  · rw [hdevice]
    show _ ↔ e ∈ s.devices.granted.filter (· != d)
    split
    · rename_i hde
      obtain ⟨rfl, -⟩ := hde
      simp [hp]
    · rename_i hde
      have hne : d ≠ e := fun hd => hde ⟨hd, hd ▸ he⟩
      simp [h.pulsing e he, hne.symm]
  · refine ⟨(h.waits r hr).1, ?_⟩
    rw [hdevice]
    split
    · rename_i hde
      exact hw (inLine_iff.2 (hde.1 ▸ List.mem_map_of_mem hr))
    · exact (h.waits r hr).2
  · rw [hdevice]
    split
    · exact hs
    · exact h.search e he

theorem onDevice_onDevice (d : Nat) (f g : Device → Device) :
    (s.onDevice d f).onDevice d g = s.onDevice d fun v => g (f v) := by
  by_cases hd : d < Config.deviceCount
  · have hself := State.onDevice_self s d f hd
    unfold State.onDevice at hself ⊢
    rw [hself]
    simp [State.onDevices, writeTable]
  · have hid : ∀ (u : State) (k : Device → Device), u.onDevice d k = u := fun u k => by
      simp [State.onDevice, State.onDevices, writeTable, Vector.setIfInBounds_eq_of_size_le (Nat.not_lt.1 hd)]
    rw [hid, hid, hid]

/-! ### The ready line -/

/-- A device that leaves the line. -/
@[simp] theorem leaveLine_coiled (d : Nat) (h : s.Coiled n) : (s.leaveLine d).Coiled n := by
  have hsub : (s.devices.ready.filter fun r => r.device != d).Sublist s.devices.ready := List.filter_sublist
  exact ⟨h.once, h.budget, h.real, h.pulsing, h.line.sublist (hsub.map _), fun r hr => h.waits r (hsub.subset hr), h.search⟩

theorem leaveLine_inLine (d : Nat) : (s.leaveLine d).inLine d = false := by
  simp [State.inLine, State.leaveLine]

/-- A device that may wait joins the line, once. -/
theorem joinLine_coiled (d : Nat) (hd : (s.device d).state.mayWait = true) (h : s.Coiled n) : (s.joinLine d).Coiled n := by
  unfold State.joinLine
  split
  · exact h
  · rename_i hline
    have hperm := joinReady_perm ⟨d, s.scanner.now⟩ s.devices.ready
    have hlt : d < Config.deviceCount := lt_of_state fun hs => by rw [hs] at hd; exact absurd hd (by decide)
    refine ⟨h.once, h.budget, h.real, h.pulsing, ?_, fun r hr => ?_, h.search⟩
    · refine (hperm.map Ready.device).nodup_iff.2 (List.nodup_cons.2 ⟨fun hm => hline (inLine_iff.2 hm), h.line⟩)
    · rcases List.mem_cons.1 (hperm.subset hr) with rfl | hr
      · exact ⟨hlt, hd⟩
      · exact h.waits r hr

/-- A device in EJECT_WAIT joins the line when its head order is ready (R98). -/
theorem enterEjectWait_coiled (d : Nat) (h : (s.onDevice d fun v => { v with state := .ejectWait }).Coiled n) :
    (s.enterEjectWait d).Coiled n := by
  unfold State.enterEjectWait
  dsimp only
  split
  · rename_i hready
    refine joinLine_coiled d ?_ h
    simp only [State.headReady, Bool.and_eq_true, beq_iff_eq] at hready
    rw [hready.1]
    rfl
  · exact h

/-- An IDLE device enters EJECT_WAIT with a new queue. -/
theorem enterEjectWait_coiled_of_idle (d : Nat) (f : Device → Device) (hd : (s.device d).state = .idle) (h : s.Coiled n) :
    ((s.onDevice d f).enterEjectWait d).Coiled n := by
  refine enterEjectWait_coiled d ?_
  rw [onDevice_onDevice]
  refine onDevice_coiled_of d _ (by simp [hd]) (fun _ => rfl) (fun _ => rfl) h

@[simp] theorem followInterlock_coiled (h : s.Coiled n) : s.followInterlock.Coiled n := by
  unfold State.followInterlock
  split
  · rename_i hs
    split
    · exact joinLine_coiled 0 (by rw [hs]; rfl) h
    · exact leaveLine_coiled 0 h
  · exact h

/-! ### Orders and the search -/

/-- A device that drops a SEARCH order was in EJECT_WAIT, and is IDLE out of the line. -/
@[simp] theorem dropSearch_coiled (d : Nat) (h : s.Coiled n) : (s.dropSearch d).Coiled n := by
  unfold State.dropSearch
  split
  · rename_i hs
    have hwait : (s.device d).state = .ejectWait := by
      by_cases hd : d < Config.deviceCount
      · exact h.search d hd hs
      · rw [State.device, readTable_of_le _ _ _ (Nat.not_lt.1 hd)] at hs
        exact absurd hs (by decide)
    refine onDevice_coiled_of (s := s.leaveLine d) d
      (fun v => { v with queue := v.queue.filter fun o => o.reason != .search, state := .idle })
      (by simp [hwait]) (fun hl => ?_) ?_ (leaveLine_coiled d h)
    · rw [leaveLine_inLine] at hl
      cases hl
    · simp [Device.searchWaits]
  · exact h
@[simp] theorem dropSearches_coiled (h : s.Coiled n) : s.dropSearches.Coiled n :=
  (onSearch_coiled _).2 (foldl_coiled _ (fun _ d => dropSearch_coiled d) _ h)
@[simp] theorem searchNext_coiled (h : s.Coiled n) : s.searchNext.Coiled n := by
  unfold State.searchNext
  split
  · exact (onSearch_coiled _).2 h
  · rename_i d hd
    have hidle : (s.device d).state = .idle := by
      have hfound := List.find?_some hd
      simp only [State.searchable, Bool.and_eq_true, beq_iff_eq] at hfound
      exact hfound.2.1.1.1.2
    exact (onSearch_coiled _).2 (enterEjectWait_coiled_of_idle d _ hidle h)

theorem searchWaits_append {l : Bool} {r : Reason} {x : Stamp} (hr : r ≠ .search) (v : Device) :
    ({ v with queue := v.queue ++ [⟨r, x, l⟩] } : Device).searchWaits = v.searchWaits := by
  simp [Device.searchWaits, hr]

/-- An order for any reason but SEARCH joins a queue (R96). -/
theorem queueOrder_coiled (d : Nat) (r : Reason) (l : Bool) (hr : r ≠ .search) (h : s.Coiled n) :
    (s.queueOrder d r l).Coiled n := by
  have hdrop := dropSearch_coiled d h
  have hlt : s.configured d = true → d < Config.deviceCount := fun hc => by
    by_contra hd
    rw [State.configured, State.device, readTable_of_le _ _ _ (Nat.not_lt.1 hd)] at hc
    exact absurd hc (by decide)
  unfold State.queueOrder
  dsimp only
  split
  · rename_i hc
    split
    · exact (emit_coiled _ _ _ _).2 hdrop
    · rw [State.onDevice_self _ _ _ (hlt hc)]
      dsimp only
      have hjoined : (if ((s.dropSearch d).device d).state = .idle then
          ((s.dropSearch d).onDevice d fun v => { v with queue := v.queue ++ [⟨r, s.time, l⟩] }).enterEjectWait d
          else (s.dropSearch d).onDevice d fun v => { v with queue := v.queue ++ [⟨r, s.time, l⟩] }).Coiled n := by
        split
        · rename_i hidle
          exact enterEjectWait_coiled_of_idle d _ hidle hdrop
        · refine onDevice_coiled_of d _ Iff.rfl (mayWait_of_inLine hdrop) (fun hs => ?_) hdrop
          rw [searchWaits_append hr] at hs
          exact hdrop.search d (hlt hc) hs
      exact ite_coiled (searchNext_coiled hjoined) hjoined
  · exact h
@[simp] theorem launchTest_coiled (h : s.Coiled n) : s.launchTest.Coiled n := by
  unfold State.launchTest
  split
  · have hlaunch := queueOrder_coiled 1 .launch false (by decide) h
    simp [hlaunch]
  · exact h
@[simp] theorem recoverDevice_coiled (d : Nat) (h : s.Coiled n) : (s.recoverDevice d).Coiled n := by
  unfold State.recoverDevice
  split
  · exact repeated_coiled _ (fun _ => queueOrder_coiled d .recover false (by decide)) _ h
  · exact h
@[simp] theorem recover_coiled (h : s.Coiled n) : s.recover.Coiled n := by
  unfold State.recover
  split
  · exact foldl_coiled _ (fun _ d => recoverDevice_coiled d) _ h
  · exact h
@[simp] theorem settleDevices_coiled (h : s.Coiled n) : s.settleDevices.Coiled n :=
  recover_coiled (followInterlock_coiled (launchTest_coiled h))
@[simp] theorem searchOff_coiled (h : s.Coiled n) : s.searchOff.Coiled n := (onSearch_coiled _).2 (dropSearches_coiled h)
@[simp] theorem searchWait_coiled : s.searchWait.Coiled n ↔ s.Coiled n := onSearch_coiled _
@[simp] theorem toPhase_coiled (p : Phase) (h : s.Coiled n) : (s.toPhase p).Coiled n := by
  unfold State.toPhase; dsimp only; (repeat' split) <;> simp [h]
@[simp] theorem searchEnd_coiled (c : Nat) (h : s.Coiled n) : (s.searchEnd c).Coiled n := by
  simp (disch := simp [h]) [State.searchEnd]
@[simp] theorem playfieldActivity_coiled (h : s.Coiled n) : s.playfieldActivity.Coiled n := by
  unfold State.playfieldActivity; dsimp only; split <;> simp [h]
@[simp] theorem countActivity_coiled (h : s.Coiled n) : s.countActivity.Coiled n := by
  unfold State.countActivity; (repeat' split) <;> simp [h]


/-! ### What leaves the devices alone -/

@[simp] theorem addPoints_coiled (k : Nat) : (s.addPoints k).Coiled n ↔ s.Coiled n := coiled_of_frame (by simp) (by simp)
@[simp] theorem awardReported_coiled (e : Event) (u b : Nat) (c : Classes) :
    (s.awardReported e u b c).Coiled n ↔ s.Coiled n := coiled_of_frame (by simp) (by simp)
@[simp] theorem endInstances_coiled (p : ModeInst → Bool) (r : Nat) : (s.endInstances p r).Coiled n ↔ s.Coiled n :=
  coiled_of_frame (by simp) (by simp)
@[simp] theorem modeStart_coiled (m : Nat) : (s.modeStart m).1.Coiled n ↔ s.Coiled n := coiled_of_frame (by simp) (by simp)
@[simp] theorem modeStop_coiled (m : Nat) : (s.modeStop m).1.Coiled n ↔ s.Coiled n := coiled_of_frame (by simp) (by simp)
@[simp] theorem appendTrigger_coiled (t : Nat) : (s.appendTrigger t).Coiled n ↔ s.Coiled n :=
  coiled_of_frame (by simp) (by simp)
@[simp] theorem modeProgress_coiled (m : Nat) : (s.modeProgress m).1.Coiled n ↔ s.Coiled n :=
  coiled_of_frame (by simp) (by simp)
@[simp] theorem modeTimeouts_coiled : s.modeTimeouts.Coiled n ↔ s.Coiled n := coiled_of_frame (by simp) (by simp)
@[simp] theorem modesMultiballEnd_coiled : s.modesMultiballEnd.Coiled n ↔ s.Coiled n := coiled_of_frame (by simp) (by simp)
@[simp] theorem modesBallEnd_coiled : s.modesBallEnd.Coiled n ↔ s.Coiled n := coiled_of_frame (by simp) (by simp)
@[simp] theorem modesRestore_coiled : s.modesRestore.Coiled n ↔ s.Coiled n := coiled_of_frame (by simp) (by simp)
@[simp] theorem modesGameEnd_coiled : s.modesGameEnd.Coiled n ↔ s.Coiled n := coiled_of_frame (by simp) (by simp)
@[simp] theorem recompute_coiled (u : Option Nat) : (s.recompute u).Coiled n ↔ s.Coiled n :=
  coiled_of_frame (by simp) (by simp)
@[simp] theorem lockedLost_coiled (d : Nat) : (s.lockedLost d).Coiled n ↔ s.Coiled n := coiled_of_frame (by simp) (by simp)
@[simp] theorem saveEnd_coiled (c : Nat) : (s.saveEnd c).Coiled n ↔ s.Coiled n := coiled_of_frame (by simp) (by simp)
@[simp] theorem saveExpiry_coiled : s.saveExpiry.Coiled n ↔ s.Coiled n := coiled_of_frame (by simp) (by simp)
@[simp] theorem foundByClosure_coiled (i : Nat) : (s.foundByClosure i).Coiled n ↔ s.Coiled n :=
  coiled_of_frame (by simp) (by simp)
@[simp] theorem multiballRise_coiled : s.multiballRise.Coiled n ↔ s.Coiled n := coiled_of_frame (by simp) (by simp)
@[simp] theorem startModeOf_coiled (k : Nat) : (s.startModeOf k).Coiled n ↔ s.Coiled n := coiled_of_frame (by simp) (by simp)
@[simp] theorem multiballEnd_coiled : s.multiballEnd.Coiled n ↔ s.Coiled n :=
  coiled_of_frame multiballEnd_devices (by simp)
@[simp] theorem clearLatches_coiled (l : List Nat) : (s.clearLatches l).Coiled n ↔ s.Coiled n := onScanner_coiled _
@[simp] theorem clearAllLatches_coiled : s.clearAllLatches.Coiled n ↔ s.Coiled n := onScanner_coiled _
@[simp] theorem matchPoints_coiled (i : Nat) (e : AwardEntry) : (s.matchPoints i e).Coiled n ↔ s.Coiled n :=
  coiled_of_frame (by simp) (by simp)
@[simp] theorem afterWalk_coiled : s.afterWalk.Coiled n ↔ s.Coiled n := coiled_of_frame (by simp) (by simp)
@[simp] theorem reportSwitch_coiled (t : Transition) : (s.reportSwitch t).Coiled n ↔ s.Coiled n :=
  coiled_of_frame (by simp) (by simp)
@[simp] theorem answerInHand_coiled (p : List Byte) : (s.answerInHand p).Coiled n ↔ s.Coiled n := by
  unfold State.answerInHand; split <;> simp

/-! ### Census -/

@[simp] theorem settleAt_coiled (d k : Nat) (h : s.Coiled n) : (s.settleAt d k).Coiled n := by
  unfold State.settleAt
  dsimp only
  refine ite_coiled h ((recompute_coiled _).2 ?_)
  (repeat' split) <;> simp [h]
@[simp] theorem serveToPlay_coiled (h : s.Coiled n) : s.serveToPlay.Coiled n := by
  unfold State.serveToPlay; split <;> simp [h]
@[simp] theorem offerClosure_coiled (i : Nat) (h : s.Coiled n) : (s.offerClosure i).Coiled n := by
  unfold State.offerClosure State.validate; dsimp only; split <;> simp [h]
@[simp] theorem launchServe_coiled (h : s.Coiled n) : s.launchServe.Coiled n := queueOrder_coiled 0 .serve true (by decide) h
@[simp] theorem returnBall_coiled (d : Nat) (h : s.Coiled n) : (s.returnBall d).Coiled n :=
  queueOrder_coiled d .return false (by decide) h
@[simp] theorem releaseFrom_coiled (k w : Nat) (h : s.Coiled n) : (s.releaseFrom k w).1.Coiled n :=
  repeated_coiled _ (fun _ hx => queueOrder_coiled k .release false (by decide) ((setLocked_coiled _ _).2 hx)) _ h
@[simp] theorem releaseLocked_coiled (w : Nat) (l : List Nat) (h : s.Coiled n) : (s.releaseLocked w l).1.Coiled n := by
  induction l generalizing s w with
  | nil => exact h
  | cons k l ih => simp [State.releaseLocked, ih, h]
@[simp] theorem serveFromTrough_coiled (w : Nat) (h : s.Coiled n) : (s.serveFromTrough w).1.Coiled n := by
  induction w generalizing s with
  | zero => exact h
  | succ w ih => simp only [State.serveFromTrough]; split <;> simp [ih, h]
@[simp] theorem multiballServe_coiled (k : Nat) (h : s.Coiled n) : (s.multiballServe k).1.Coiled n := by
  unfold State.multiballServe State.servingProcedure; dsimp only; (repeat' split) <;> simp [h]
@[simp] theorem mbStart_coiled (k : Nat) (h : s.Coiled n) : (s.mbStart k).Coiled n := by
  unfold State.mbStart State.multiballStack State.multiballStart; dsimp only; (repeat' split) <;> simp [h]
@[simp] theorem addBall_coiled (h : s.Coiled n) : s.addBall.Coiled n := by
  unfold State.addBall; split <;> simp [h]
@[simp] theorem ballEnd_coiled (h : s.Coiled n) : s.ballEnd.Coiled n := by
  have hmodes : (s.saveEnd 4).modesBallEnd.Coiled n := by simpa using h
  exact recover_coiled ((emit_coiled _ _ _ _).2 (toPhase_coiled _ ((addPoints_coiled _).2 hmodes)))
@[simp] theorem ballLost_coiled (h : s.Coiled n) : s.ballLost.Coiled n := by
  unfold State.ballLost State.ballEndTest State.multiballFall; (repeat' split) <;> simp [h]
@[simp] theorem declareMissing_coiled (h : s.Coiled n) : s.declareMissing.Coiled n := by
  unfold State.declareMissing State.replaceMissing; dsimp only; (repeat' split) <;> simp [h]
@[simp] theorem drain_coiled (h : s.Coiled n) : s.drain.Coiled n := by
  have hserve := queueOrder_coiled 0 .serve false (by decide) h
  unfold State.drain State.saveDrain State.lostDrain; dsimp only; (repeat' split) <;> simp [h, hserve]
@[simp] theorem censusArrival_coiled (d : Nat) (h : s.Coiled n) : (s.censusArrival d).Coiled n := by
  have hlock : (s.makeLock d).Coiled n := by
    unfold State.makeLock; dsimp only; (repeat' split) <;> simp [h]
  unfold State.censusArrival State.lockDecision; (repeat' split) <;> simp [h, hlock]

/-! ### Eject cycles and evidence -/

@[simp] theorem restartSettle_coiled (d : Nat) : (s.restartSettle d).Coiled n ↔ s.Coiled n :=
  onDevice_coiled d _ (fun _ => rfl) fun _ => rfl
@[simp] theorem dueArrivals_coiled (d k : Nat) : (s.dueArrivals d k).Coiled n ↔ s.Coiled n :=
  onDevice_coiled d _ (fun _ => rfl) fun _ => rfl
@[simp] theorem countEntry_coiled (d : Nat) : (s.countEntry d).Coiled n ↔ s.Coiled n :=
  (restartSettle_coiled d).trans (onDevice_coiled d _ (fun _ => rfl) fun _ => rfl)

/-- A device out of the line and out of the grants is IDLE, or in EJECT_WAIT for its next order, where it joins the line when that
order is ready (R98, R102). -/
theorem released_coiled_of_idle (d : Nat) (f : Device → Device) (hf : ∀ v, (f v).state = .idle)
    (hq : (f .reset).queue = []) (hl : s.inLine d = false) (h : s.Coiled n) :
    (if (((s.released d).onDevice d f).device d).queue.isEmpty then (s.released d).onDevice d f
      else ((s.released d).onDevice d f).enterEjectWait d).Coiled n := by
  have hline : ∀ P : Prop, s.inLine d = true → P := fun P h => by rw [hl] at h; cases h
  split
  · rename_i hempty
    have hqueue : (f (s.device d)).queue = [] := by
      by_cases hd : d < Config.deviceCount
      · rw [State.onDevice_self _ _ _ hd] at hempty
        exact List.isEmpty_iff.1 hempty
      · rwa [State.device, readTable_of_le _ _ _ (Nat.not_lt.1 hd)]
    refine released_coiled d f (by simp [hf]) (hline _) (fun hs => ?_) h
    simp [Device.searchWaits, hqueue] at hs
  · refine enterEjectWait_coiled d ?_
    rw [onDevice_onDevice]
    exact released_coiled d _ (by simp) (hline _) (fun _ => rfl) h

/-- A completed order (R102). -/
@[simp] theorem complete_coiled (d : Nat) (p : Bool) (k : Nat) (h : s.Coiled n) : (s.complete d p k).Coiled n := by
  have hover : (s.cycleOver d p).Coiled n :=
    released_coiled_of_idle (s := s.leaveLine d) d _ (fun _ => rfl) (by cases p <;> rfl) (leaveLine_inLine d)
      (leaveLine_coiled d h)
  have horder : ∀ o, ((s.cycleOver d p).orderLeft d o).Coiled n := fun o => by
    unfold State.orderLeft; (repeat' split) <;> simp [hover]
  rw [complete_eq]
  split <;> simp [hover, horder]
@[simp] theorem confirm_coiled (d : Nat) (h : s.Coiled n) : (s.confirm d).Coiled n := complete_coiled _ _ _ h
@[simp] theorem faultSelf_coiled (d : Nat) (h : s.Coiled n) : (s.faultSelf d).Coiled n :=
  complete_coiled _ _ _ ((emit_coiled _ _ _ _).2 h)

/-- A device that is PULSING or CONFIRMING stands in no line, and no SEARCH order waits in its queue. -/
theorem busy_of_coiled {d : Nat} (hd : (s.device d).state = .pulsing ∨ (s.device d).state = .confirming) (h : s.Coiled n) :
    s.inLine d = false ∧ (s.device d).searchWaits = false := by
  refine ⟨Bool.eq_false_iff.2 fun hl => ?_, Bool.eq_false_iff.2 fun hs => ?_⟩
  · have hmay := (mayWait_iff _).1 (mayWait_of_inLine h hl)
    rcases hd with hd | hd <;> rw [hd] at hmay <;> exact absurd hmay (by decide)
  · have hlt : d < Config.deviceCount := lt_of_state (s := s) (by rcases hd with hd | hd <;> simp [hd])
    have hwait := h.search d hlt hs
    rcases hd with hd | hd <;> rw [hd] at hwait <;> cases hwait

/-- The end of a pulse or of a window, with what remains of the queue the same. -/
theorem released_coiled_of_busy (d : Nat) (f : Device → Device)
    (hd : (s.device d).state = .pulsing ∨ (s.device d).state = .confirming) (hp : (f (s.device d)).state ≠ .pulsing)
    (hq : (f (s.device d)).queue = (s.device d).queue) (h : s.Coiled n) : ((s.released d).onDevice d f).Coiled n := by
  obtain ⟨hline, hsearch⟩ := busy_of_coiled hd h
  refine released_coiled d f hp (fun hl => ?_) (fun hs => ?_) h
  · rw [hline] at hl
    cases hl
  · rw [Device.searchWaits, hq] at hs
    rw [Device.searchWaits, hs] at hsearch
    cases hsearch

/-- A failed attempt leaves the device in RETRY_WAIT or in FAULT (R103). -/
theorem attemptFailed_coiled (d : Nat) (hd : (s.device d).state = .pulsing ∨ (s.device d).state = .confirming)
    (h : s.Coiled n) : (s.attemptFailed d).Coiled n := by
  unfold State.attemptFailed
  dsimp only
  split
  · exact (emit_coiled _ _ _ _).2 (released_coiled_of_busy d _ hd (by simp) rfl h)
  · exact (dueArrivals_coiled _ _).2 ((emit_coiled _ _ _ _).2 (released_coiled_of_busy d _ hd (by simp) rfl h))
@[simp] theorem success_coiled (d : Nat) (h : s.Coiled n) : (s.success d).Coiled n := by
  unfold State.success; dsimp only; (repeat' split) <;> simp [h]
@[simp] theorem reactCount_coiled (d : Nat) (h : s.Coiled n) : (s.reactCount d).Coiled n := by
  unfold State.reactCount State.completeFallen; dsimp only; (repeat' split) <;> simp [h]
@[simp] theorem settleOut_coiled (d : Nat) (h : s.Coiled n) : (s.settleOut d).Coiled n := by
  unfold State.settleOut; dsimp only; (repeat' split) <;> refine reactCount_coiled _ (settleAt_coiled _ _ ?_) <;> simp [h]
theorem entryClosure_coiled (d : Nat) (h : s.Coiled n) : (s.entryClosure d).Coiled n := by
  have hfailed : (s.device d).state = .confirming → (s.attemptFailed d).Coiled n := fun hd =>
    attemptFailed_coiled d (.inr hd) h
  unfold State.entryClosure; dsimp only; (repeat' split) <;> simp_all
theorem exitClosure_coiled (d : Nat) (h : s.Coiled n) : (s.exitClosure d).Coiled n := by
  unfold State.exitClosure; dsimp only; (repeat' split) <;> simp [h]
@[simp] theorem deviceEvidence_coiled (i d : Nat) (h : s.Coiled n) : (State.deviceEvidence i s d).Coiled n := by
  have hentry := entryClosure_coiled d h
  unfold State.deviceEvidence; dsimp only; (repeat' split) <;> simp [h, hentry, exitClosure_coiled]
@[simp] theorem handToDevices_coiled (i : Nat) (h : s.Coiled n) : (s.handToDevices i).Coiled n :=
  settleDevices_coiled (foldl_coiled _ (fun _ d => deviceEvidence_coiled i d) _ h)
@[simp] theorem positionTransition_coiled (i : Nat) (c : Bool) (h : s.Coiled n) : (s.positionTransition i c).Coiled n := by
  have hsettle : ∀ l : List Nat, (l.foldl State.restartSettle s).Coiled n := fun l =>
    foldl_coiled _ (fun _ d => (restartSettle_coiled d).2) l h
  unfold State.positionTransition; dsimp only; split <;> simp [hsettle]

/-! ### Grants and the ends of pulses -/

/-- The device at the front of the line is granted only while fewer devices are PULSING than the budget allows (R99). -/
theorem grant_coiled (d : Nat) (hd : (s.device d).state.mayWait = true) (hb : s.pulsingCount < s.game.params.coilBudget)
    (h : s.Coiled n) : (s.grant d).Coiled n := by
  have hlt : d < Config.deviceCount := lt_of_state fun hs => by rw [hs] at hd; exact absurd hd (by decide)
  have hidle : d ∉ s.devices.granted := fun hm => by
    rw [(h.pulsing d hlt).2 hm] at hd
    exact absurd hd (by decide)
  have hsub : (s.devices.ready.filter fun r => r.device != d).Sublist s.devices.ready := List.filter_sublist
  have hgrant : ∀ f : Device → Device, (f (s.device d)).state = .pulsing → (f (s.device d)).searchWaits = false →
      (((s.leaveLine d).onDevices fun c => { c with granted := c.granted ++ [d] }).onDevice d f).Coiled n := by
    intro f hp hs
    have hdevice : ∀ e, (((s.leaveLine d).onDevices fun c => { c with granted := c.granted ++ [d] }).onDevice d f).device e =
        if d = e ∧ d < Config.deviceCount then f (s.device d) else s.device e := fun e => State.onDevice_device _ d e f
    refine ⟨?_, ?_, fun e he => ?_, fun e he => ?_, h.line.sublist (hsub.map _), fun r hr => ?_, fun e he => ?_⟩
    · exact List.nodup_append.2 ⟨h.once, List.nodup_singleton d, fun a ha b hb => by
        rw [List.mem_singleton.1 hb]; rintro rfl; exact hidle ha⟩
    · have hroom := pulsingCount_eq h
      simp only [State.onDevice_devices, State.onDevices_devices, State.leaveLine, State.onDevice_game,
        State.onDevices_game, List.length_append, List.length_singleton]
      omega
    · rcases List.mem_append.1 he with he | he
      · exact h.real e he
      · exact List.mem_singleton.1 he ▸ hlt
    · rw [hdevice]
      show _ ↔ e ∈ s.devices.granted ++ [d]
      split
      · rename_i hde
        obtain ⟨rfl, -⟩ := hde
        simp [hp]
      · rename_i hde
        have hne : e ≠ d := fun hd => hde ⟨hd.symm, hlt⟩
        simp [h.pulsing e he, hne]
    · obtain ⟨hr, hne⟩ := List.mem_filter.1 hr
      refine ⟨(h.waits r hr).1, ?_⟩
      rw [hdevice, if_neg fun hde => by simp [hde.1] at hne]
      exact (h.waits r hr).2
    · rw [hdevice]
      split
      · intro hwait
        rw [hs] at hwait
        cases hwait
      · exact h.search e he
  unfold State.grant
  dsimp only
  split
  · exact (onSearch_coiled _).2 (hgrant _ rfl (by simp [Device.searchWaits]))
  · exact hgrant _ rfl (by simp [Device.searchWaits])
@[simp] theorem arbiterGrant_coiled (h : s.Coiled n) : s.arbiterGrant.Coiled n := by
  unfold State.arbiterGrant
  split
  · exact h
  · rename_i r rest hr
    split
    · rename_i hb
      exact settleDevices_coiled (grant_coiled _ (h.waits r (hr ▸ List.mem_cons_self)).2 hb h)
    · exact h

/-- To release a device that its completed order or its failed attempt releases makes no difference. -/
theorem released_released (d : Nat) : (s.released d).released d = s.released d := by
  simp [State.released, State.onDevices]
theorem complete_released (d : Nat) (p : Bool) (k : Nat) : (s.released d).complete d p k = s.complete d p k := by
  have hline : ((s.released d).leaveLine d).onDevices (fun c => { c with granted := c.granted.filter (· != d) }) =
      (s.leaveLine d).onDevices fun c => { c with granted := c.granted.filter (· != d) } :=
    released_released (s := s.leaveLine d) d
  have hover : (s.released d).cycleOver d p = s.cycleOver d p := by simp only [State.cycleOver, hline]
  rw [complete_eq, complete_eq, hover]
  rfl
theorem attemptFailed_released (d : Nat) : (s.released d).attemptFailed d = s.attemptFailed d := by
  have htwice : (s.released d).onDevices (fun c => { c with granted := c.granted.filter (· != d) }) = s.released d :=
    released_released d
  unfold State.attemptFailed
  rw [htwice]
  rfl

/-- The end of a pulse by the evidence kept (R100, R107). -/
theorem endPulse_eq (d : Nat) : s.endPulse d =
    if (s.device d).searching then
      (s.released d).onDevice d fun v => { v with state := .confirming, timer := some (s.timer Config.searchWindowMs) }
    else match (s.device d).evidence with
      | some .success => s.confirm d
      | some .fallback => s.attemptFailed d
      | none => (s.released d).onDevice d fun v =>
          { v with state := .confirming, timer := some (s.timer v.record.figures.confirm) } := by
  have hconfirm : (s.released d).confirm d = s.confirm d := complete_released d true _
  rw [← hconfirm, ← attemptFailed_released d]
  rfl

/-- A device whose pulse ends is PULSING no longer. -/
theorem endPulse_coiled (d : Nat) (hd : (s.device d).state = .pulsing) (h : s.Coiled n) : (s.endPulse d).Coiled n := by
  rw [endPulse_eq]
  split
  · exact released_coiled_of_busy d _ (.inl hd) (by simp) rfl h
  · split
    · exact confirm_coiled d h
    · exact attemptFailed_coiled d (.inl hd) h
    · exact released_coiled_of_busy d _ (.inl hd) (by simp) rfl h
theorem endWindow_coiled (d : Nat) (hd : (s.device d).state = .confirming) (h : s.Coiled n) : (s.endWindow d).Coiled n := by
  unfold State.endWindow
  dsimp only
  exact ite_coiled (confirm_coiled _ (settleAt_coiled _ _ h)) (attemptFailed_coiled d (.inr hd) h)


/-! ### Pulses beyond a lowered budget (R99, R144) -/

@[simp] theorem enterEjectWait_granted (d : Nat) : (s.enterEjectWait d).devices.granted = s.devices.granted := by
  unfold State.enterEjectWait State.joinLine; dsimp only; (repeat' split) <;> rfl
theorem serveToPlay_devices : s.serveToPlay.devices = s.devices := by
  unfold State.serveToPlay State.toPhase State.searchWait; dsimp only; split <;> rfl
theorem orderLeft_granted (d : Nat) (o : Option Order) : (s.orderLeft d o).devices.granted = s.devices.granted := by
  unfold State.orderLeft; dsimp only; (repeat' split) <;> simp [serveToPlay_devices]
theorem complete_granted (d : Nat) (p : Bool) (k : Nat) :
    (s.complete d p k).devices.granted = s.devices.granted.filter (· != d) := by
  have hover : (s.cycleOver d p).devices.granted = s.devices.granted.filter (· != d) := by
    unfold State.cycleOver
    dsimp only
    rw [apply_ite State.devices, apply_ite Devices.granted]
    simp [State.leaveLine]
  rw [complete_eq]
  split <;> simp [State.dueArrivals, orderLeft_granted, hover]
theorem attemptFailed_granted (d : Nat) : (s.attemptFailed d).devices.granted = s.devices.granted.filter (· != d) := by
  unfold State.attemptFailed; dsimp only; split <;> simp [State.dueArrivals]
theorem endPulse_granted (d : Nat) : (s.endPulse d).devices.granted = s.devices.granted.filter (· != d) := by
  rw [endPulse_eq]
  (repeat' split) <;> simp [State.confirm, complete_granted, attemptFailed_granted, State.released]

/-- The pulses of several devices granted end one after another. -/
theorem foldl_endPulse (l : List Nat) (hl : l.Nodup) (hsub : ∀ d ∈ l, d ∈ s.devices.granted) (h : s.Coiled n) :
    (l.foldl State.endPulse s).Coiled n ∧
      (l.foldl State.endPulse s).devices.granted = s.devices.granted.filter (· ∉ l) := by
  induction l generalizing s with
  | nil => simp [h]
  | cons d l ih =>
    obtain ⟨hd, hl⟩ := List.nodup_cons.1 hl
    have hgranted := hsub d List.mem_cons_self
    have hpulse := (h.pulsing d (h.real d hgranted)).2 hgranted
    have hrest : ∀ e ∈ l, e ∈ (s.endPulse d).devices.granted := fun e he => by
      rw [endPulse_granted]
      have hne : e ≠ d := fun hed => hd (hed ▸ he)
      simp [hsub e (List.mem_cons_of_mem d he), hne]
    obtain ⟨hcoil, hleft⟩ := ih hl hrest (endPulse_coiled d hpulse h)
    refine ⟨hcoil, ?_⟩
    rw [List.foldl_cons, hleft, endPulse_granted, List.filter_filter]
    refine List.filter_congr fun e _ => ?_
    by_cases hed : e = d <;> simp [hed]

/-- With the pulses beyond the budget cut, no more are granted than it allows. -/
theorem cutPulses_coiled (h : s.Coiled n) : s.cutPulses.Coiled 0 := by
  have hdrop : (s.devices.granted.drop s.game.params.coilBudget).reverse.Nodup :=
    List.nodup_reverse.2 (h.once.sublist (List.drop_sublist _ _))
  obtain ⟨hcoil, hleft⟩ := foldl_endPulse _ hdrop (fun d hd => List.mem_of_mem_drop (List.mem_reverse.1 hd)) h
  refine settleDevices_coiled { hcoil with budget := ?_ }
  have hparams : ∀ l : List Nat, (l.foldl State.endPulse s).game.params = s.game.params := fun l =>
    congrArg Frame.params (foldl_frame s State.endPulse State.endPulse_frame l)
  have hcut : (s.devices.granted.filter (· ∉ (s.devices.granted.drop s.game.params.coilBudget).reverse)).length ≤
      s.game.params.coilBudget := by
    have hnone : (s.devices.granted.drop s.game.params.coilBudget).filter
        (· ∉ (s.devices.granted.drop s.game.params.coilBudget).reverse) = [] := by
      simp
    have hsplit := List.take_append_drop s.game.params.coilBudget s.devices.granted
    calc _ = ((s.devices.granted.take s.game.params.coilBudget ++ s.devices.granted.drop s.game.params.coilBudget).filter
            (· ∉ (s.devices.granted.drop s.game.params.coilBudget).reverse)).length := by rw [hsplit]
      _ = ((s.devices.granted.take s.game.params.coilBudget).filter
            (· ∉ (s.devices.granted.drop s.game.params.coilBudget).reverse)).length := by
          rw [List.filter_append, hnone, List.append_nil]
      _ ≤ (s.devices.granted.take s.game.params.coilBudget).length := List.length_filter_le _ _
      _ ≤ s.game.params.coilBudget := List.length_take_le _ _
  rw [hleft, hparams]
  exact hcut

/-! ### Devices emptied (R110, R113) -/

/-- Devices that are left IDLE or DISABLED with empty queues. -/
theorem clearDevices_coiled (f : Nat → Device → Device) (hf : ∀ i v, (f i v).queue = [])
    (hs : ∀ i v, (f i v).state ≠ .pulsing) : (s.clearDevices f).Coiled n := by
  have hdevice : ∀ d < Config.deviceCount, (s.clearDevices f).device d = f d (s.device d) := fun d hd =>
    readTable_mapTable _ _ Device.reset _ d hd
  refine ⟨List.nodup_nil, Nat.zero_le _, fun d hd => absurd hd List.not_mem_nil, fun d hd => ?_, List.nodup_nil,
    fun r hr => absurd hr List.not_mem_nil, fun d hd => ?_⟩
  · rw [hdevice d hd]
    exact iff_of_false (hs _ _) List.not_mem_nil
  · rw [hdevice d hd]
    simp [Device.searchWaits, hf]
theorem cleared_state (v : Device) : v.cleared.state = if v.record.configured then .idle else .disabled := rfl
@[simp] theorem cancelDevices_coiled : s.cancelDevices.Coiled n :=
  clearDevices_coiled _ (fun _ _ => rfl) fun _ v => by
    show v.cleared.state ≠ _
    rw [cleared_state]; split <;> decide

/-! ### Walks, roots and arrivals -/

@[simp] theorem act_coiled (a : Action) (h : s.Coiled n) : (s.act a).Coiled n := by
  unfold State.act; dsimp only; split <;> simp [h]
@[simp] theorem carryOut_coiled (i : Nat) (e : AwardEntry) (h : s.Coiled n) : (s.carryOut i e).Coiled n :=
  foldl_coiled _ (fun _ a => act_coiled a) _ ((matchPoints_coiled i e).2 h)
@[simp] theorem walkChain_coiled (g : Edge) (l : List Nat) (h : s.Coiled n) : (s.walkChain g l).Coiled n := by
  induction l generalizing s with
  | nil => exact h
  | cons i l ih => simp only [State.walkChain]; (repeat' split) <;> simp [ih, h]
@[simp] theorem walk_coiled (t : Nat) (g : Edge) (h : s.Coiled n) : (s.walk t g).Coiled n := by simp [State.walk, h]
@[simp] theorem pendingWalk_coiled (h : s.Coiled n) : s.pendingWalk.Coiled n := by
  unfold State.pendingWalk; (repeat' split) <;> simp [h]
@[simp] theorem finishRoot_coiled (h : s.Coiled n) : s.finishRoot.Coiled n :=
  repeated_coiled _ (fun _ => pendingWalk_coiled) _ h
@[simp] theorem directWalk_coiled (t : Nat) (g : Edge) (b : Bool) (h : s.Coiled n) : (s.directWalk t g b).Coiled n := by
  unfold State.directWalk; dsimp only; (repeat' split) <;> simp [h]
@[simp] theorem rootFromList_coiled (b : Bool) (h : s.Coiled n) : (s.rootFromList b).Coiled n := by
  unfold State.rootFromList; dsimp only; (repeat' split) <;> simp [h]
@[simp] theorem takeArrival_coiled (d : Nat) (b : Bool) (h : s.Coiled n) : (s.takeArrival d b).Coiled n := by
  unfold State.takeArrival
  split
  · exact h
  · exact directWalk_coiled _ _ _ (censusArrival_coiled _ (ite_coiled ((emit_coiled _ _ _ _).2 (by simp [h])) (by simp [h])))
@[simp] theorem takeArrivals_coiled (d : Nat) (h : s.Coiled n) : (s.takeArrivals d).Coiled n :=
  repeated_coiled _ (fun _ => takeArrival_coiled d false) _ h
@[simp] theorem arrivalsWithin_coiled (b : Bool) (w : PausedWork) (d : Nat) (h : s.Coiled n) :
    (s.arrivalsWithin b w d).Coiled n := by
  unfold State.arrivalsWithin; split <;> simp [h]
@[simp] theorem evidenceAndWalk_coiled (b : Bool) (t : Transition) (l : List Nat) (h : s.Coiled n) :
    (s.evidenceAndWalk b t l).Coiled n := by
  have hevidence := foldl_coiled (State.evidenceThenArrivals b t)
    (fun x d hx => by unfold State.evidenceThenArrivals; split <;> simp (disch := simp [hx]) [hx]) l h
  unfold State.evidenceAndWalk State.ownWalk; split <;> simp (disch := simp [hevidence]) [hevidence]
@[simp] theorem triggerRoot_coiled (b : Bool) (t : Nat) (h : s.Coiled n) : (s.triggerRoot b t).Coiled n := by
  unfold State.triggerRoot; dsimp only; split <;> simp [h]

/-- A device in FAULT that goes on stands in no line, and no SEARCH order waits in its queue (R105). -/
@[simp] theorem faultCleared_coiled (d : Nat) (x : Stamp) (h : s.Coiled n) : (s.faultCleared d x).Coiled n := by
  unfold State.faultCleared
  dsimp only
  split
  · rename_i hfault
    have hlt : d < Config.deviceCount := lt_of_state (s := s) (by simp [hfault])
    have hidle : ((s.at x).onDevice d fun v => { v with retries := 0, state := .idle }).Coiled n := by
      refine onDevice_coiled_of (s := s.at x) d _ (by simp [hfault]) (fun hl => ?_) (fun hs => ?_) ((at_coiled x).2 h)
      · have hmay := mayWait_of_inLine h hl
        rw [hfault] at hmay
        cases hmay
      · have hwait := h.search d hlt hs
        rw [hfault] at hwait
        cases hwait
    refine settleDevices_coiled ((emit_coiled _ _ _ _).2 (ite_coiled hidle (enterEjectWait_coiled d ?_)))
    refine onDevice_coiled_of d _ ?_ (fun _ => rfl) (fun _ => rfl) hidle
    rw [State.onDevice_self _ _ _ hlt]
    simp
  · exact h
@[simp] theorem faultArrivals_coiled (b : Bool) (d : Nat) (x : Stamp) (h : s.Coiled n) : (s.faultArrivals b d x).Coiled n := by
  unfold State.faultArrivals; dsimp only; split <;> simp [h]

/-! ### Work that has paused, and catching up -/

@[simp] theorem resume_coiled (b : Bool) (h : s.Coiled n) : (s.resume b).Coiled n := by
  unfold State.resume; dsimp only; (repeat' split) <;> simp [h]
@[simp] theorem finishWork_coiled (h : s.Coiled n) : s.finishWork.Coiled n := resume_coiled _ (finishRoot_coiled h)
@[simp] theorem catchUp_coiled (h : s.Coiled n) : s.catchUp.Coiled n := by
  unfold State.catchUp
  split
  · exact h
  · exact settleDevices_coiled (foldl_coiled _ (fun _ d => takeArrivals_coiled d) _ (finishWork_coiled h))
theorem deviceEvent_coiled (due : State → Bool) (f : State → State)
    (hf : ∀ u : State, due u = true → u.Coiled n → (f u).Coiled n) (h : s.Coiled n) : (s.deviceEvent due f).Coiled n := by
  unfold State.deviceEvent
  dsimp only
  split
  · rename_i hdue
    exact settleDevices_coiled (hf _ hdue (atNow_coiled.2 (catchUp_coiled h)))
  · exact h
theorem handOn_coiled (i : Nat) (p : Transition → Bool) (f : Transition → State → State)
    (hf : ∀ t (u : State), u.Coiled n → (f t u).Coiled n) (h : s.Coiled n) : (s.handOn i p f).Coiled n := by
  unfold State.handOn State.handingOn; split <;> simp [h, hf]

/-! ### Hand-ons, games and resets -/

@[simp] theorem closure_coiled (b : Bool) (t : Transition) (h : s.Coiled n) : (s.closure b t).Coiled n := by
  unfold State.closure
  dsimp only
  refine evidenceAndWalk_coiled _ _ _ ?_
  (repeat' split) <;> simp [h]
@[simp] theorem opening_coiled (b : Bool) (t : Transition) (h : s.Coiled n) : (s.opening b t).Coiled n := by
  simp [State.opening, h]
@[simp] theorem tiltClosure_coiled (i : Nat) (h : s.Coiled n) : (s.tiltClosure i).Coiled n := by
  unfold State.tiltClosure State.tilt; dsimp only; (repeat' split) <;> simp [h]

/-- At the end of a game the devices are emptied, whatever they did. -/
@[simp] theorem endGame_coiled (i : Option Nat) : (s.endGame i).Coiled n := by
  unfold State.endGame
  dsimp only
  refine recover_coiled ((onGame_coiled (fun g => { g with current := 0 }) fun _ => rfl).2
    (toPhase_coiled _ ((emitFor_coiled _ _ _ _ _).2 ?_)))
  split <;> simp
@[simp] theorem beginRound_coiled (r : Nat) (h : s.Coiled n) : (s.beginRound r).Coiled n := by simp [State.beginRound, h]
@[simp] theorem pauseEnd_coiled (h : s.Coiled n) : s.pauseEnd.Coiled n := by
  unfold State.pauseEnd State.searchFail; dsimp only; (repeat' split) <;> simp [h]
theorem retryReady_coiled (d : Nat) (hd : (s.device d).state = .retryWait) (h : s.Coiled n) : (s.retryReady d).Coiled n := by
  have hlt : d < Config.deviceCount := lt_of_state (s := s) (by simp [hd])
  exact joinLine_coiled d (by rw [State.onDevice_self _ _ _ hlt, hd]; rfl) (by simp [h])
@[simp] theorem freshBall_coiled (h : s.Coiled n) : s.freshBall.Coiled n := by simp [State.freshBall, h]
@[simp] theorem ballStart_coiled (h : s.Coiled n) : s.ballStart.Coiled n := by
  have hbegun : s.ballBegun.Coiled n := by simp [State.ballBegun, State.ballReady, State.ballCleared, State.clearPerBall, h]
  rw [ballStart_eq]
  split
  · exact toPhase_coiled _ hbegun
  · exact queueOrder_coiled 0 .serve false (by decide) hbegun
@[simp] theorem gameStart_coiled (h : s.Coiled n) : s.gameStart.Coiled n := by
  have hplayers := (onGame_coiled (fun g => { g with players := [.start g.params], current := 1, ballNumber := 1 })
    fun _ => rfl).2 h
  unfold State.gameStart State.censusGameStart
  dsimp only
  refine ballStart_coiled ((emit_coiled _ _ _ _).2 ?_)
  simp [hplayers]
@[simp] theorem gameOver_coiled (h : s.Coiled n) : s.gameOver.Coiled n := by simp [State.gameOver, h]
@[simp] theorem nextBall_coiled (h : s.Coiled n) : s.nextBall.Coiled n := by
  unfold State.nextBall; dsimp only; (repeat' split) <;> simp [h]

/-- A soft reset empties the devices, whatever they did (R113). -/
theorem softReset_coiled (cause : Nat) : (s.softReset cause).Coiled n := by
  have hcensus : ∀ u : State, u.Coiled n → u.censusSoftReset.Coiled n := fun u hu => by
    have := foldl_coiled State.lockedLost (fun _ d => (lockedLost_coiled d).2) deviceNumbers hu
    simp [State.censusSoftReset, State.holdLocked, this]
  unfold State.softReset
  dsimp only
  refine recover_coiled (hcensus _ (clearDevices_coiled _ (fun _ _ => rfl) fun _ v => ?_))
  show v.cleared.state ≠ _
  rw [cleared_state]; split <;> decide
theorem replySent_coiled (h : s.Coiled n) : s.replySent.Coiled n := by
  unfold State.replySent
  split
  · exact ite_coiled (softReset_coiled 0) ((onLink_coiled _).2 h)
  · exact h
theorem idle_coiled (h : s.Coiled n) : s.idle.Coiled n := by
  unfold State.idle; (repeat' split) <;> simp [h]

/-! ### Requests -/

/-- The hand-on and the answer of a request touch the link alone. -/
theorem request_coiled (type tag : Byte) (p : List Byte) (f : List Byte → State → State × Answer)
    (hf : ∀ u : State, u.Coiled n → (f p u).1.Coiled n) (h : s.Coiled n) : (s.request type tag p f).Coiled n := by
  unfold State.request
  split
  · exact h
  · rename_i u hu
    have hready : u.Coiled n := by
      unfold State.toHandOn at hu
      split at hu
      · cases hu
      · obtain ⟨l, -, rfl⟩ := Option.map_eq_some_iff.1 hu
        exact atNow_coiled.2 ((onLink_coiled fun _ => l).2 h)
    split
    · exact hf u hready
    · exact (onLink_coiled _).2 (hf u hready)
theorem load_coiled (ok : Bool) (bad : Option Nat) (apply : State → State × Answer) (ha : (apply s).1.Coiled n)
    (h : s.Coiled n) : (s.load ok bad apply).1.Coiled n := by
  unfold State.load
  (repeat' split) <;> assumption
theorem checked_coiled (ok : Bool) (bad : Option Nat) (taken : State × Answer) (ht : taken.1.Coiled n) (h : s.Coiled n) :
    (s.checked ok bad taken).1.Coiled n := by
  unfold State.checked
  (repeat' split) <;> assumption
theorem scored_coiled (taken : State × Answer) (ht : taken.1.Coiled n) (h : s.Coiled n) : (s.scored taken).1.Coiled n := by
  unfold State.scored
  split <;> assumption

/-! ### The work of the requests -/

/-- A lowered budget cuts the pulses beyond it (R144); until then the grants of the old budget stand. -/
theorem setParams_coiled (g : Params) (h : s.Coiled 0) : (s.setParams g).Coiled 0 := by
  have hcaught : s.catchUp.atNow.Coiled 0 := by simp [h]
  have hparams : s.catchUp.game.params = s.game.params :=
    congrArg Frame.params (show s.catchUp.frame = _ from s.catchUp_frame)
  have hnew : ∀ k, s.game.params.coilBudget ≤ g.coilBudget + k →
      (s.catchUp.atNow.onGame fun c => { c with params := g }).Coiled k := fun k hk =>
    ⟨hcaught.once, hcaught.budget.trans (by simpa [hparams] using hk), hcaught.real, hcaught.pulsing, hcaught.line,
      hcaught.waits, hcaught.search⟩
  unfold State.setParams
  dsimp only
  split
  · rename_i hsame
    exact ite_coiled (hnew 0 hsame.ge) ((recompute_coiled _).2 (hnew 0 hsame.ge))
  · have hlate := hnew s.game.params.coilBudget (Nat.le_add_left _ _)
    exact cutPulses_coiled (ite_coiled hlate ((recompute_coiled _).2 hlate))

/-- A load ends the cycle of its device and empties its queue (R90). -/
theorem loadDevice_coiled (d : Nat) (r : DeviceRecord) (h : s.Coiled n) : (s.loadDevice d r).Coiled n := by
  have hload : ∀ u : State, u.Coiled n → u.inLine d = false →
      ((u.onDevices fun c =>
        { c with granted := c.granted.filter (· != d), launchOwed := if d = 1 then 0 else c.launchOwed }).onDevice d
        fun v => v.load r).Coiled n := fun u hu hl => by
    refine (onDevices_coiled (s := (u.released d).onDevice d fun v => v.load r)
      (fun c => { c with launchOwed := if d = 1 then 0 else c.launchOwed }) (fun _ => rfl) (fun _ => rfl) fun _ => rfl).2
      (released_coiled d _ ?_ (fun hline => ?_) (fun hs => ?_) hu)
    · show (Device.cleared _).state ≠ _
      rw [cleared_state]; split <;> decide
    · rw [hl] at hline
      cases hline
    · simp [Device.searchWaits, Device.load, Device.cleared] at hs
  have hmeasure : ∀ u : State, u.Coiled n → (u.measure d).Coiled n := fun u hu => by
    unfold State.measure; split <;> simp [hu]
  have halign : ∀ u : State, u.Coiled n → (u.alignLocked d).Coiled n := fun u hu => by
    unfold State.alignLocked; split <;> simp [hu]
  unfold State.loadDevice
  refine settleDevices_coiled ((recompute_coiled _).2 (halign _ (ite_coiled ((onCensus_coiled _).2 ?_) ?_))) <;>
    exact hmeasure _ ((onScanner_coiled _).2 (hload _ (leaveLine_coiled d (by simp [h])) (leaveLine_inLine d)))
theorem hostTrigger_coiled (b : Bool) (t : Nat) (h : s.Coiled n) : (s.hostTrigger b t).1.Coiled n := by
  unfold State.hostTrigger; split <;> simp [h]
theorem modeOperation_coiled (m op : Nat) (h : s.Coiled n) : (s.modeOperation m op).1.Coiled n := by
  unfold State.modeOperation; split <;> simp [h]
theorem hostEject_coiled (d : Nat) (h : s.Coiled n) : (s.hostEject d).1.Coiled n := by
  have hqueue := queueOrder_coiled d .host false (by decide) (atNow_coiled.2 (catchUp_coiled h))
  unfold State.hostEject; dsimp only; (repeat' split) <;> simp [h, hqueue]
theorem faultClear_coiled (b : Bool) (d : Nat) (h : s.Coiled n) : (s.faultClear b d).Coiled n := by
  unfold State.faultClear State.faultHost; split <;> simp [h]

/-! ### The requests by their payloads -/

theorem setDevice_coiled (p : List Byte) (h : s.Coiled n) : (setDevice p s).1.Coiled n := by
  refine load_coiled _ _ _ ?_ h
  dsimp only
  exact loadDevice_coiled _ _ h
theorem loadGame_coiled (p : List Byte) (h : s.Coiled 0) : (loadGame p s).1.Coiled 0 := by
  unfold loadGame
  exact load_coiled _ _ _ (setParams_coiled _ h) h
theorem clearTables_coiled (p : List Byte) (h : s.Coiled n) : (clearTables p s).1.Coiled n := by
  refine load_coiled _ _ _ ?_ h
  dsimp only
  (repeat' split) <;> simp [h]
theorem startGame_coiled (p : List Byte) (h : s.Coiled n) : (startGame p s).1.Coiled n := by
  refine checked_coiled _ _ _ ?_ h
  (repeat' split)
  · exact h
  · exact h
  · dsimp only
    exact settleDevices_coiled (gameStart_coiled (atNow_coiled.2 (catchUp_coiled h)))
theorem addedPlayers_coiled {l : Game → List Player} (h : s.Coiled n) :
    (s.onGame fun g => { g with players := l g }).Coiled n := (onGame_coiled (fun g => { g with players := l g }) fun _ => rfl).2 h
theorem addPlayer_coiled (p : List Byte) (h : s.Coiled n) : (addPlayer p s).1.Coiled n := by
  refine checked_coiled _ _ _ ?_ h
  split
  · exact (emitFor_coiled _ _ _ _ _).2 (addedPlayers_coiled h)
  · exact h
theorem nextBallRequest_coiled (p : List Byte) (h : s.Coiled n) : (nextBallRequest p s).1.Coiled n := by
  refine checked_coiled _ _ _ ?_ h
  split
  · dsimp only
    exact settleDevices_coiled (nextBall_coiled (atNow_coiled.2 (catchUp_coiled h)))
  · exact h
theorem endGameRequest_coiled (p : List Byte) (h : s.Coiled n) : (endGameRequest p s).1.Coiled n := by
  refine checked_coiled _ _ _ ?_ h
  split
  · dsimp only
    exact endGame_coiled none
  · exact h
theorem trigger_coiled (b : Bool) (p : List Byte) (h : s.Coiled n) : (trigger b p s).1.Coiled n :=
  checked_coiled _ _ _ (scored_coiled _ (hostTrigger_coiled _ _ h) h) h
theorem grantRequest_coiled (p : List Byte) (h : s.Coiled n) : (grant p s).1.Coiled n :=
  checked_coiled _ _ _ (scored_coiled _ ((awardReported_coiled _ _ _ _).2 h) h) h
theorem modeControl_coiled (b : Bool) (p : List Byte) (h : s.Coiled n) : (modeControl b p s).1.Coiled n := by
  refine checked_coiled _ _ _ (scored_coiled _ ?_ h) h
  dsimp only
  exact settleDevices_coiled (rootFromList_coiled _ (modeOperation_coiled _ _ h))
theorem setPlayer_coiled (p : List Byte) (h : s.Coiled n) : (setPlayer p s).1.Coiled n := by
  refine checked_coiled _ _ _ (scored_coiled _ ?_ h) h
  unfold State.writePlayer
  split
  · exact h
  · exact (coiled_of_devices (by simp) (by simp)).2 h
theorem eject_coiled (p : List Byte) (h : s.Coiled n) : (eject p s).1.Coiled n := checked_coiled _ _ _ (hostEject_coiled _ h) h
theorem clearFault_coiled (b : Bool) (p : List Byte) (h : s.Coiled n) : (clearFault b p s).1.Coiled n :=
  checked_coiled _ _ _ (faultClear_coiled _ _ h) h
theorem clearLatchesRequest_coiled (p : List Byte) (h : s.Coiled n) : (clearLatchesRequest p s).1.Coiled n :=
  checked_coiled _ _ _ (ite_coiled (clearAllLatches_coiled.2 h) ((clearLatches_coiled _).2 h)) h
theorem restart_coiled (p : List Byte) (h : s.Coiled n) : (restart p s).1.Coiled n :=
  checked_coiled _ _ _ ((onLink_coiled fun l => { l with restarting := true }).2 h) h
theorem readBack_coiled (ok : Bool) (bad : Option Nat) (data : List Byte) (h : s.Coiled n) :
    (s.readBack ok bad data).1.Coiled n := checked_coiled _ _ _ h h
theorem fetch_coiled (p : List Byte) (h : s.Coiled n) : (fetch p s).1.Coiled n := by
  refine checked_coiled _ _ _ ?_ h
  have hleft : ({ s with events := s.events.drop Config.fetchRecords } : State).Coiled n ↔ s.Coiled n :=
    coiled_of_devices rfl rfl
  exact hleft.2 h

/-! ### Every command and every step -/

/-- No command breaks the law. -/
theorem exec_coiled (c : Instr) (h : s.Coiled 0) : ∃ t, exec c s = .next t ∧ t.Coiled 0 := by
  cases c
  case hardReset => exact ⟨_, rfl, (coiled_of_devices rfl rfl).2 (coiled_iff.2 reset_coilLaw)⟩
  case switchScan k => exact ⟨_, rfl, by unfold State.scan; dsimp only; split <;> simp [h]⟩
  case switchClosure i b => exact ⟨_, rfl, handOn_coiled _ _ _ (fun t _ => closure_coiled b t) h⟩
  case switchOpening i b => exact ⟨_, rfl, handOn_coiled _ _ _ (fun t _ => opening_coiled b t) h⟩
  case tiltClosure i =>
    exact ⟨_, rfl, handOn_coiled _ _ _ (fun t _ hu =>
      tiltClosure_coiled _ (handToDevices_coiled _ ((reportSwitch_coiled t).2 hu))) h⟩
  case slamClosure i =>
    exact ⟨_, rfl, handOn_coiled _ _ _ (fun t _ hu =>
      ite_coiled (endGame_coiled _) (handToDevices_coiled _ ((reportSwitch_coiled t).2 hu))) h⟩
  case tiltSlamOpening i => exact ⟨_, rfl, handOn_coiled _ _ _ (fun t _ => (reportSwitch_coiled t).2) h⟩
  case deviceSwitchTransition i =>
    exact ⟨_, rfl, handOn_coiled _ _ _ (fun t _ hu => positionTransition_coiled _ _ ((reportSwitch_coiled t).2 hu)) h⟩
  case tenth =>
    exact ⟨_, rfl, (coiled_of_devices (by simp) (by rw [censusTenth_eq, modesTenth_eq])).2 h⟩
  case modeTimeout => exact ⟨_, rfl, ite_coiled (modeTimeouts_coiled.2 ((at_coiled _).2 h)) h⟩
  case ballSaveExpired => exact ⟨_, rfl, ite_coiled (saveExpiry_coiled.2 ((at_coiled _).2 h)) h⟩
  case arrival d b => exact ⟨_, rfl, ite_coiled h (settleDevices_coiled (takeArrival_coiled d b (finishWork_coiled h)))⟩
  case settleExpired d => exact ⟨_, rfl, deviceEvent_coiled _ _ (fun _ _ => settleOut_coiled d) h⟩
  case holdOffExpired d =>
    refine ⟨_, rfl, deviceEvent_coiled _ _ (fun u hu => joinLine_coiled d ?_) h⟩
    simp only [State.holdOffDue, State.headReady, Bool.and_eq_true, beq_iff_eq] at hu
    rw [hu.1.1]
    rfl
  case coilGrant => exact ⟨_, rfl, deviceEvent_coiled _ _ (fun _ _ => arbiterGrant_coiled) h⟩
  case pulseEnd d =>
    refine ⟨_, rfl, deviceEvent_coiled _ _ (fun u hu => endPulse_coiled d ?_) h⟩
    simp only [State.cycleDue, Bool.or_eq_true, Bool.and_eq_true, beq_iff_eq] at hu
    exact hu.elim (·.1.1) (·.1.1)
  case confirmWindowEnd d =>
    refine ⟨_, rfl, deviceEvent_coiled _ _ (fun u hu => endWindow_coiled d ?_) h⟩
    simp only [State.cycleDue, Bool.and_eq_true, beq_iff_eq] at hu
    exact hu.1.1
  case retryIntervalEnd d =>
    refine ⟨_, rfl, deviceEvent_coiled _ _ (fun u hu => retryReady_coiled d ?_) h⟩
    simp only [State.cycleDue, Bool.and_eq_true, beq_iff_eq] at hu
    exact hu.1.1
  case searchWindowEnd d => exact ⟨_, rfl, deviceEvent_coiled _ _ (fun _ _ => complete_coiled _ _ _) h⟩
  case searchArm => exact ⟨_, rfl, deviceEvent_coiled _ _ (fun _ _ => beginRound_coiled 1) h⟩
  case searchStep => exact ⟨_, rfl, deviceEvent_coiled _ _ (fun _ _ => searchNext_coiled) h⟩
  case searchPauseEnd => exact ⟨_, rfl, deviceEvent_coiled _ _ (fun _ _ => pauseEnd_coiled) h⟩
  case requestFrame | interByteGap | framingError | lineBreak | lineBreakEnd | byteReceived b =>
    exact ⟨_, rfl, (onLink_coiled _).2 h⟩
  case longBreak => exact ⟨_, rfl, ite_coiled (softReset_coiled 1) h⟩
  case replySent => exact ⟨_, rfl, replySent_coiled h⟩
  case unknownType type tag p => exact ⟨_, rfl, ite_coiled (request_coiled _ _ _ _ (fun _ hu => hu) h) h⟩
  case setGame tag p => exact ⟨_, rfl, request_coiled _ _ _ _ (fun _ => loadGame_coiled p) h⟩
  case setSwitch tag p =>
    exact ⟨_, rfl, request_coiled _ _ _ _ (fun _ hu => load_coiled _ _ _ (by simp [State.quenchUnused, hu]) hu) h⟩
  case setGroup | setMode | setMultiball | setAward =>
    exact ⟨_, rfl, request_coiled _ _ _ _ (fun _ hu => load_coiled _ _ _ (by simp [hu]) hu) h⟩
  case setDevice tag p => exact ⟨_, rfl, request_coiled _ _ _ _ (fun _ => setDevice_coiled p) h⟩
  case clearTables tag p => exact ⟨_, rfl, request_coiled _ _ _ _ (fun _ => clearTables_coiled p) h⟩
  case startGame tag p => exact ⟨_, rfl, request_coiled _ _ _ _ (fun _ => startGame_coiled p) h⟩
  case addPlayer tag p => exact ⟨_, rfl, request_coiled _ _ _ _ (fun _ => addPlayer_coiled p) h⟩
  case nextBall tag p => exact ⟨_, rfl, request_coiled _ _ _ _ (fun _ => nextBallRequest_coiled p) h⟩
  case endGame tag p => exact ⟨_, rfl, request_coiled _ _ _ _ (fun _ => endGameRequest_coiled p) h⟩
  case triggerRequest tag p => exact ⟨_, rfl, request_coiled _ _ _ _ (fun _ => trigger_coiled _ _) h⟩
  case grantRequest tag p => exact ⟨_, rfl, request_coiled _ _ _ _ (fun _ => grantRequest_coiled p) h⟩
  case modeControl tag p => exact ⟨_, rfl, request_coiled _ _ _ _ (fun _ => modeControl_coiled _ _) h⟩
  case setPlayer tag p => exact ⟨_, rfl, request_coiled _ _ _ _ (fun _ => setPlayer_coiled p) h⟩
  case ejectRequest tag p => exact ⟨_, rfl, request_coiled _ _ _ _ (fun _ => eject_coiled p) h⟩
  case clearFault tag p => exact ⟨_, rfl, request_coiled _ _ _ _ (fun _ => clearFault_coiled _ _) h⟩
  case clearLatches tag p => exact ⟨_, rfl, request_coiled _ _ _ _ (fun _ => clearLatchesRequest_coiled p) h⟩
  case readStatus | readPlayer | readModes | readDevice | readAward | readSwitches =>
    exact ⟨_, rfl, request_coiled _ _ _ _ (fun _ => readBack_coiled _ _ _) h⟩
  case fetchEvents tag p => exact ⟨_, rfl, request_coiled _ _ _ _ (fun _ => fetch_coiled p) h⟩
  case restartRequest tag p => exact ⟨_, rfl, request_coiled _ _ _ _ (fun _ => restart_coiled p) h⟩

/-- Settles O58: a step is a command taken from the queue, or the part's own work on an empty one. -/
theorem stepKeepsCoilLaw : Obligations.StepKeepsCoilLaw := by
  intro s t hs ht
  have h := coiled_iff.2 hs
  unfold step at ht
  split at ht
  · cases ht
    exact coiled_iff.1 (idle_coiled h)
  · rename_i c rest _
    have hrest : ({ s with pending := rest } : State).Coiled 0 ↔ s.Coiled 0 := coiled_of_devices rfl rfl
    obtain ⟨u, e, hu⟩ := exec_coiled c (hrest.2 h)
    rw [e] at ht
    cases ht
    exact coiled_iff.1 hu

end Sys2Proof.Machine
end

