-- ==== Sys2Proof/Proofs/BusyDevices.lean ====
section
/-! What becomes of one device while others are worked on: a device out of IDLE in whose queue no SEARCH order waits keeps its
state and its place in the ready line, and orders only join its queue; a device without a cycle passes between IDLE and EJECT_WAIT. -/

namespace Sys2Proof.Machine

open Sys2Proof

/-- Device `d` of `s` is `v`, out of IDLE and with no SEARCH order waiting, but for orders that satisfy `P` behind those of its
queue; it stands in the ready line exactly when `b`, if it is given, says so. -/
structure State.Stands (P : Order → Prop) (d : Nat) (v : Device) (b : Option Bool) (s : State) : Prop where
  busy : v.state ≠ .idle
  calm : v.searchWaits = false
  reasons : ∀ o, P o → o.reason ≠ .search
  device : ∃ more, s.device d = { v with queue := v.queue ++ more } ∧ ∀ o ∈ more, P o
  line : ∀ x ∈ b, s.inLine d = x

variable {P : Order → Prop} {d e : Nat} {v : Device} {b : Option Bool} {s t : State}

theorem stands_refl (hb : (s.device d).state ≠ .idle) (hc : (s.device d).searchWaits = false)
    (hl : ∀ x ∈ b, s.inLine d = x) (hP : ∀ o, P o → o.reason ≠ .search) : s.Stands P d (s.device d) b :=
  ⟨hb, hc, hP, ⟨[], by simp⟩, hl⟩

theorem stands_congr (hd : t.device d = s.device d) (hl : t.inLine d = s.inLine d) :
    t.Stands P d v b ↔ s.Stands P d v b :=
  ⟨fun ⟨hb, hc, hP, hv, hline⟩ => ⟨hb, hc, hP, hd ▸ hv, hl ▸ hline⟩,
    fun ⟨hb, hc, hP, hv, hline⟩ => ⟨hb, hc, hP, hd.symm ▸ hv, hl.symm ▸ hline⟩⟩
theorem stands_of_devices (hd : t.devices = s.devices) : t.Stands P d v b ↔ s.Stands P d v b :=
  stands_congr (device_congr hd d) (by rw [State.inLine, State.inLine, hd])
@[simp] theorem onSearch_stands (f : Search → Search) : (s.onSearch f).Stands P d v b ↔ s.Stands P d v b :=
  stands_of_devices rfl
@[simp] theorem emit_stands (k : Event) (u a n : Nat) : (s.emit k u a n).Stands P d v b ↔ s.Stands P d v b :=
  stands_of_devices rfl
@[simp] theorem at_stands (x : Stamp) : (s.at x).Stands P d v b ↔ s.Stands P d v b := stands_of_devices rfl
theorem State.Stands.state (h : s.Stands P d v b) : (s.device d).state = v.state := by
  obtain ⟨more, hv, -⟩ := h.device
  rw [hv]
theorem State.Stands.tally (h : s.Stands P d v b) : (s.device d).tally = v.tally := by
  obtain ⟨more, hv, -⟩ := h.device
  rw [hv]
  rfl
theorem State.Stands.searchWaits (h : s.Stands P d v b) : (s.device d).searchWaits = false := by
  obtain ⟨more, hv, hmore⟩ := h.device
  have hcalm := h.calm
  simp only [Device.searchWaits, List.any_eq_false, beq_iff_eq] at hcalm
  simp only [hv, Device.searchWaits, List.any_append, Bool.or_eq_false_iff, List.any_eq_false, beq_iff_eq]
  exact ⟨hcalm, fun o ho => h.reasons o (hmore o ho)⟩
theorem onDevices_stands (f : Devices → Devices) (hu : ∀ c, (f c).units = c.units) (hr : ∀ c, (f c).ready = c.ready) :
    (s.onDevices f).Stands P d v b ↔ s.Stands P d v b :=
  stands_congr (onDevices_device s f hu d) (by rw [State.inLine, State.inLine, State.onDevices, hr])
theorem ite_stands {c : Prop} [Decidable c] (hs : s.Stands P d v b) (ht : t.Stands P d v b) :
    (if c then s else t).Stands P d v b := by
  split
  · exact hs
  · exact ht
theorem repeated_stands (f : State → State) (hf : ∀ x : State, x.Stands P d v b → (f x).Stands P d v b) (k : Nat)
    (h : s.Stands P d v b) : (repeated f k s).Stands P d v b := repeated_keeps f hf k s h
theorem foldl_stands {α : Type} (f : State → α → State)
    (hf : ∀ (x : State) a, x.Stands P d v b → (f x a).Stands P d v b) (l : List α) (h : s.Stands P d v b) :
    (l.foldl f s).Stands P d v b := foldl_keeps f hf l s h

/-! ### The ready line and the queues -/

theorem inLine_leaveLine (h : e ≠ d) : (s.leaveLine e).inLine d = s.inLine d := by
  rw [Bool.eq_iff_iff, inLine_iff, inLine_iff]
  simp only [State.leaveLine, State.onDevices, List.mem_map, List.mem_filter]
  refine ⟨fun ⟨r, ⟨hr, _⟩, hd⟩ => ⟨r, hr, hd⟩, fun ⟨r, hr, hd⟩ => ⟨r, ⟨hr, ?_⟩, hd⟩⟩
  simp [hd, h.symm]
theorem inLine_joinLine : (s.joinLine e).inLine d = (s.inLine d || e == d) := by
  unfold State.joinLine
  split
  · by_cases hed : e = d <;> simp_all
  · rw [Bool.eq_iff_iff, inLine_iff]
    have hperm := (joinReady_perm ⟨e, s.scanner.now⟩ s.devices.ready).map Ready.device
    rw [State.onDevices, hperm.mem_iff, Bool.or_eq_true, inLine_iff, List.map_cons, List.mem_cons, beq_iff_eq, or_comm,
      eq_comm]
theorem inLine_onDevice (f : Device → Device) : (s.onDevice e f).inLine d = s.inLine d := rfl

/-- Another device's step to EJECT_WAIT. -/
theorem enterEjectWait_stands (hne : e ≠ d) (h : s.Stands P d v b) : (s.enterEjectWait e).Stands P d v b := by
  refine (stands_congr (by rw [enterEjectWait_device, if_neg fun h => hne h.1]) ?_).2 h
  unfold State.enterEjectWait
  dsimp only
  split
  · rw [inLine_joinLine, inLine_onDevice]
    simp [hne]
  · exact inLine_onDevice _
theorem onDevice_stands (f : Device → Device) (hne : e ≠ d) (h : s.Stands P d v b) : (s.onDevice e f).Stands P d v b :=
  (stands_congr (State.onDevice_other s e d f hne) (inLine_onDevice f)).2 h
theorem dropSearch_stands (h : s.Stands P d v b) : (s.dropSearch e).Stands P d v b := by
  refine (stands_congr (dropSearch_device e h.searchWaits) ?_).2 h
  unfold State.dropSearch
  split
  · rename_i he
    have hne : e ≠ d := fun hed => by
      subst hed
      rw [h.searchWaits] at he
      cases he
    rw [inLine_leaveLine hne, inLine_onDevice]
  · rfl
theorem dropSearches_stands (h : s.Stands P d v b) : s.dropSearches.Stands P d v b :=
  (onSearch_stands _).2 (foldl_stands _ (fun _ _ => dropSearch_stands) _ h)

/-- The search takes devices in IDLE alone. -/
theorem searchNext_stands (h : s.Stands P d v b) : s.searchNext.Stands P d v b := by
  unfold State.searchNext
  split
  · exact (onSearch_stands _).2 h
  · rename_i e he
    have hfound := List.find?_some he
    simp only [State.searchable, Bool.and_eq_true, beq_iff_eq] at hfound
    have hne : e ≠ d := fun hed => h.busy (h.state ▸ hed ▸ hfound.2.1.1.1.2)
    exact (onSearch_stands _).2 (enterEjectWait_stands hne (onDevice_stands _ hne h))

/-- An order joins the queue of the device that stands. -/
theorem onDevice_stands_append (o : Order) (ho : P o) (hlt : d < Config.deviceCount) (h : s.Stands P d v b) :
    (s.onDevice d fun w => { w with queue := w.queue ++ [o] }).Stands P d v b := by
  obtain ⟨hb, hc, hP, ⟨more, hv, hmore⟩, hl⟩ := h
  refine ⟨hb, hc, hP, ⟨more ++ [o], ?_, ?_⟩, hl⟩
  · rw [State.onDevice_self _ _ _ hlt, hv]
    simp
  · intro x hx
    rcases List.mem_append.1 hx with hx | hx
    · exact hmore x hx
    · rw [List.mem_singleton.1 hx]
      exact ho

theorem lt_of_configured (h : s.configured d = true) : d < Config.deviceCount := by
  by_contra hd
  rw [State.configured, State.device, readTable_of_le _ _ _ (Nat.not_lt.1 hd)] at h
  exact absurd h (by decide)

theorem queueOrder_stands (r : Reason) (l : Bool) (hr : e = d → ∀ x, P ⟨r, x, l⟩) (h : s.Stands P d v b) :
    (s.queueOrder e r l).Stands P d v b := by
  have hdrop := dropSearch_stands (e := e) h
  unfold State.queueOrder
  dsimp only
  split
  · rename_i hc
    split
    · exact (emit_stands _ _ _ _).2 hdrop
    · have hjoined : ((s.dropSearch e).onDevice e fun w => { w with queue := w.queue ++ [⟨r, s.time, l⟩] }).Stands P d v b := by
        by_cases hed : e = d
        · subst hed
          exact onDevice_stands_append _ (hr rfl _) (lt_of_configured hc) hdrop
        · exact onDevice_stands _ hed hdrop
      have hwaits : (if (((s.dropSearch e).onDevice e fun w =>
            { w with queue := w.queue ++ [⟨r, s.time, l⟩] }).device e).state = .idle then
          ((s.dropSearch e).onDevice e fun w => { w with queue := w.queue ++ [⟨r, s.time, l⟩] }).enterEjectWait e
          else (s.dropSearch e).onDevice e fun w => { w with queue := w.queue ++ [⟨r, s.time, l⟩] }).Stands P d v b := by
        split
        · rename_i hidle
          exact enterEjectWait_stands (fun hed => hjoined.busy (hjoined.state ▸ hed ▸ hidle)) hjoined
        · exact hjoined
      exact ite_stands (searchNext_stands hwaits) hwaits
  · exact h

/-! ### The tests after each change of a device -/

/-- A LAUNCH order joins the queue of device 1 in IDLE alone (R108). -/
theorem launchTest_stands (h : s.Stands P d v b) : s.launchTest.Stands P d v b := by
  unfold State.launchTest
  split
  · rename_i hlaunch
    have hne : 1 ≠ d := fun hd => h.busy (h.state ▸ hd ▸ hlaunch.2.1)
    exact (onDevices_stands (fun c => { c with launchOwed := c.launchOwed - 1 }) (fun _ => rfl) fun _ => rfl).2
      (queueOrder_stands .launch false (fun hd => absurd hd hne) h)
  · exact h

/-- The interlock moves the trough alone in the ready line, and that in EJECT_WAIT (R98). -/
theorem followInterlock_stands (hd : ∀ x ∈ b, d = 0 → v.state = .ejectWait → s.headReady 0 = x) (h : s.Stands P d v b) :
    s.followInterlock.Stands P d v b := by
  have hline : ∀ x ∈ b, s.followInterlock.inLine d = x := fun x hx => by
    have hkept := h.line x hx
    unfold State.followInterlock
    split
    · rename_i hwait
      by_cases hzero : d = 0
      · subst hzero
        have hready := hd x hx rfl (h.state ▸ hwait)
        split
        · rename_i htrue
          rw [inLine_joinLine, ← hready, htrue]
          simp
        · rename_i hfalse
          rw [leaveLine_inLine, ← hready]
          simpa using hfalse
      · split
        · rw [inLine_joinLine, hkept]
          simp [Ne.symm hzero]
        · rw [inLine_leaveLine (Ne.symm hzero), hkept]
    · exact hkept
  obtain ⟨hb, hc, hP, hv, -⟩ := h
  exact ⟨hb, hc, hP, (followInterlock_device s d).symm ▸ hv, hline⟩
theorem recover_stands (hr : ∀ x, P ⟨.recover, x, false⟩) (h : s.Stands P d v b) : s.recover.Stands P d v b := by
  unfold State.recover State.recoverDevice
  refine ite_stands (foldl_stands _ (fun x e hx => ?_) _ h) h
  exact ite_stands (repeated_stands _ (fun _ => queueOrder_stands .recover false fun _ => hr) _ hx) hx
theorem settleDevices_stands (hr : ∀ x, P ⟨.recover, x, false⟩)
    (hd : ∀ x ∈ b, d = 0 → v.state = .ejectWait → s.launchTest.headReady 0 = x) (h : s.Stands P d v b) :
    s.settleDevices.Stands P d v b :=
  recover_stands hr (followInterlock_stands hd (launchTest_stands h))

/-! ### A device without a cycle -/

/-- Device `d` is without a cycle: in IDLE or EJECT_WAIT. -/
structure State.Rests (d : Nat) (s : State) : Prop where
  state : (s.device d).state = .idle ∨ (s.device d).state = .ejectWait

theorem State.Rests.congr (h : s.Rests d) (he : (t.device d).state = (s.device d).state) : t.Rests d := ⟨he ▸ h.state⟩
theorem onDevice_rests (f : Device → Device) (hf : ∀ w, (f w).state = w.state ∨ (f w).state = .idle) (h : s.Rests d) :
    (s.onDevice e f).Rests d := by
  constructor
  rw [State.onDevice_device]
  split
  · rename_i hde
    rcases hf (s.device e) with hkept | hidle
    · rw [hkept, hde.1]
      exact h.state
    · exact .inl hidle
  · exact h.state
theorem enterEjectWait_rests (h : s.Rests d) : (s.enterEjectWait e).Rests d := by
  constructor
  rw [enterEjectWait_device]
  split
  · exact .inr rfl
  · exact h.state
theorem ite_rests {c : Prop} [Decidable c] (hs : s.Rests d) (ht : t.Rests d) : (if c then s else t).Rests d := by
  split
  · exact hs
  · exact ht
theorem dropSearch_rests (h : s.Rests d) : (s.dropSearch e).Rests d := by
  unfold State.dropSearch
  split
  · exact (onDevice_rests (e := e)
      (fun w => { w with queue := w.queue.filter fun o => o.reason != .search, state := .idle }) (fun _ => .inr rfl) h).congr rfl
  · exact h
theorem searchNext_rests (h : s.Rests d) : s.searchNext.Rests d := by
  unfold State.searchNext
  split
  · exact h.congr rfl
  · rename_i k _
    exact (enterEjectWait_rests (e := k)
      (onDevice_rests (e := k) (fun w => { w with queue := [⟨.search, s.time, false⟩] }) (fun _ => .inl rfl) h)).congr rfl
theorem queueOrder_rests (r : Reason) (l : Bool) (h : s.Rests d) : (s.queueOrder e r l).Rests d := by
  have hdrop := dropSearch_rests (e := e) h
  unfold State.queueOrder
  dsimp only
  split
  · split
    · exact hdrop.congr rfl
    · have hjoined := onDevice_rests (e := e) (fun w => { w with queue := w.queue ++ [⟨r, s.time, l⟩] }) (fun _ => .inl rfl)
        hdrop
      have hwaits := ite_rests
        (c := (((s.dropSearch e).onDevice e fun w => { w with queue := w.queue ++ [⟨r, s.time, l⟩] }).device e).state = .idle)
        (enterEjectWait_rests (e := e) hjoined) hjoined
      exact ite_rests (searchNext_rests hwaits) hwaits
  · exact h
theorem launchTest_rests (h : s.Rests d) : s.launchTest.Rests d := by
  unfold State.launchTest
  split
  · exact (queueOrder_rests (e := 1) .launch false h).congr rfl
  · exact h
theorem recover_rests (h : s.Rests d) : s.recover.Rests d := by
  have hone : ∀ (x : State) (k : Nat), x.Rests d → (x.recoverDevice k).Rests d := fun x k hx => by
    unfold State.recoverDevice
    exact ite_rests (repeated_keeps (p := State.Rests d) _ (fun _ => queueOrder_rests .recover false) _ _ hx) hx
  unfold State.recover
  split
  · exact foldl_keeps (p := State.Rests d) _ hone _ _ h
  · exact h
theorem settleDevices_rests (h : s.Rests d) : s.settleDevices.Rests d :=
  recover_rests ((launchTest_rests h).congr (by rw [followInterlock_device]))

end Sys2Proof.Machine
end

