-- ==== Sys2Proof/Proofs/EjectCycles.lean ====
section
/-! The eject cycle of one device: the ready line, the grant, the pulse, the windows and the retry interval, each taken by the
event that is due (O18 to O22). -/

namespace Sys2Proof.Machine

open Sys2Proof

variable {d e : Nat} {s t : State} {v : Device}

/-! ### An event that is due, and the tests after it -/

theorem deviceEvent_of_quiet (due : State → Bool) (f : State → State) (hq : s.quietEngine = true) (h : due s.atNow = true) :
    s.deviceEvent due f = (f s.atNow).settleDevices := by
  have hready : s.catchUp.atNow = s.atNow := by rw [catchUp_of_quiet s hq]
  rw [deviceEvent_of_due s due f (by rw [hready]; exact h), hready]

theorem cycleDue_of_timer {x : DeviceState} {c : Bool} {tm : Timer} (hx : (s.device d).state = x)
    (hc : (s.device d).searching = c) (ht : (s.device d).timer = some tm) (hl : tm.length ≤ elapsed s.scanner.now tm.start) :
    s.atNow.cycleDue d x c = true := by
  have hd : s.atNow.device d = s.device d := rfl
  have hup : s.atNow.timeUp (some tm) = true := decide_eq_true hl
  simp [State.cycleDue, hd, hx, hc, ht, hup]

theorem tally_eq_iff {v w : Device} : w.tally = v.tally ↔ w.record = v.record ∧ w.settled = v.settled ∧
    w.accounted = v.accounted ∧ w.entries = v.entries ∧ w.settle = v.settle ∧ w.retries = v.retries ∧ w.base = v.base ∧
    w.timer = v.timer ∧ w.evidence = v.evidence ∧ w.searching = v.searching ∧ w.arrivals = v.arrivals := by
  simp [Device.tally]

/-- The tests of the devices keep of each device all but its state and its queue. -/
theorem settleDevices_tally (d : Nat) : (s.settleDevices.device d).tally = (s.device d).tally :=
  tally_of_tallies (settleDevices_tallies s) d
theorem settleDevices_settled (d : Nat) : (s.settleDevices.device d).settled = (s.device d).settled :=
  (tally_eq_iff.1 (settleDevices_tally d)).2.1

/-- Outside PLAY and TILT no SEARCH order is in flight (R165, R166), so that the tests of the devices leave the game alone. -/
theorem settleDevices_game_of_law (h : s.SearchLaw) : s.settleDevices.game = s.game := by
  obtain ⟨hoff, hround⟩ := h
  by_cases hball : s.game.phase ≠ .idle ∧ s.game.phase ≠ .ballOver
  · exact settleDevices_game hball
  · refine settleDevices_game_of_none (by_contra fun hflight => ?_)
    have hphase := hround hflight
    have hidle := hoff.2 ⟨fun hp => hball (by simp [hp]), fun hp => hball (by simp [hp])⟩
    rw [hphase] at hidle
    cases hidle

/-- The orders that the tests of the devices give a device out of IDLE. -/
def Order.recovers (o : Order) : Prop := o.reason = .recover

theorem settleDevices_stands_refl (hb : (s.device d).state ≠ .idle) (hc : (s.device d).searchWaits = false)
    (hd : d = 0 → (s.device 0).state = .ejectWait → s.launchTest.headReady 0 = s.inLine 0) :
    s.settleDevices.Stands Order.recovers d (s.device d) (some (s.inLine d)) := by
  refine settleDevices_stands (fun _ => rfl) (fun x hx hzero hwait => ?_)
    (stands_refl hb hc (fun x hx => Option.some.inj hx) fun o ho => by rw [Order.recovers] at ho; rw [ho]; decide)
  subst hzero
  rw [hd rfl hwait, ← Option.some.inj hx]

/-! ### The ready line (R98) -/

theorem joinLine_headReady (d e : Nat) : (s.joinLine e).headReady d = s.headReady d := by
  unfold State.joinLine; split <;> rfl
theorem joinLine_interlock (e : Nat) : (s.joinLine e).interlock = s.interlock := by
  unfold State.joinLine; split <;> rfl

/-- While the interlock holds no ball stands in the shooter lane for the LAUNCH test to find. -/
theorem launchTest_of_interlock (h : s.interlock = true) : s.launchTest = s := by
  refine if_neg fun ⟨hc, _, _, hball, _⟩ => ?_
  simp only [State.interlock, hc, Bool.not_true, Bool.false_or, Bool.and_eq_true, beq_iff_eq] at h
  omega

theorem headReady_of_head {o : Order} (hs : (s.device d).state = .ejectWait) (ho : (s.device d).queue.head? = some o)
    (hr : o.reason = .return → (s.device d).record.figures.holdOff ≤ elapsed s.scanner.now o.queued)
    (hi : d = 0 → s.interlock = true) : s.headReady d = true := by
  have hpassed : s.holdOffPassed d o = true := by
    by_cases hreason : o.reason = .return <;> simp [State.holdOffPassed, hreason, hr]
  have hlock : (d != 0 || s.interlock) = true := by
    by_cases hzero : d = 0
    · simp [hi hzero]
    · simp [hzero]
  simp [State.headReady, hs, ho, hpassed, hlock]

/-- Settles O18: the device joins the line, and the tests that follow leave it there. -/
theorem holdOffJoinsReadyLine : Obligations.HoldOffJoinsReadyLine := by
  intro d s o _ hq hs ho hw hr hi hl hlaw
  have hready : s.atNow.headReady d = true := headReady_of_head hs ho hr hi
  have hline : (s.atNow.joinLine d).inLine d = true := by simp [inLine_joinLine]
  have hdevice : (s.atNow.joinLine d).device d = s.device d := joinLine_device _ d d
  have hgame : (s.atNow.joinLine d).game = s.game := by unfold State.joinLine; split <;> rfl
  have hstands := settleDevices_stands_refl (s := s.atNow.joinLine d) (d := d) (by rw [hdevice, hs]; decide)
    (by rw [hdevice, hw]) fun hzero _ => by
      subst hzero
      rw [launchTest_of_interlock (by rw [joinLine_interlock]; exact hi rfl), joinLine_headReady, hready, hline]
  refine ⟨(s.atNow.joinLine d).settleDevices, ?_, (hstands.line _ rfl).trans hline, ?_, ?_, ?_, fun e _ => ?_⟩
  · refine congrArg Host.Outcome.next (deviceEvent_of_quiet (State.holdOffDue d) (fun s => s.joinLine d) hq ?_)
    have hout : s.atNow.inLine d = false := hl
    simp [State.holdOffDue, hready, hout]
  · rw [hstands.state, hdevice, hs]
  · exact census_of_beside (s := s.atNow) (by rw [settleDevices_beside, joinLine_beside])
  · rw [settleDevices_game_of_law (by rw [State.SearchLaw, hgame]; exact hlaw), hgame]
  · rw [settleDevices_settled, joinLine_device]
    rfl

/-! ### The grant (R99, R100, R107) -/

/-- A device at its grant by work stamped `x`: its pulse begins, and a SEARCH order leaves its queue. -/
def Device.granted (v : Device) (x : Stamp) : Device :=
  { v with state := .pulsing, timer := some ⟨x, v.record.figures.pulse⟩, evidence := none
           base := if v.state = .retryWait then v.base else if v.searchWaits then 0 else v.settled
           searching := v.searchWaits
           queue := v.queue.filter fun o => o.reason != .search }

theorem granted_searchWaits (v : Device) (x : Stamp) : (v.granted x).searchWaits = false := by
  simp [Device.granted, Device.searchWaits]
theorem grant_device (hd : d < 8) : (s.grant d).device d = (s.device d).granted s.time := by
  unfold State.grant
  dsimp only
  split
  · rw [onSearch_device, State.onDevice_self _ _ _ hd]
    rfl
  · rw [State.onDevice_self _ _ _ hd]
    rfl
theorem grant_inLine : (s.grant d).inLine d = false := by
  have hleft := leaveLine_inLine (s := s) d
  unfold State.grant
  dsimp only
  split <;> exact hleft
theorem grant_beside : (s.grant d).beside = s.beside := by
  unfold State.grant
  dsimp only
  split
  · rw [onSearch_beside, onDevice_beside, onDevices_beside, leaveLine_beside]
  · rw [onDevice_beside, onDevices_beside, leaveLine_beside]

/-- A device PULSING drives its coil. -/
theorem coilEnable_of_pulsing (hd : d < 8) (h : (s.device d).state = .pulsing) :
    s.coilEnable (s.device d).record.coil = true :=
  List.any_eq_true.2 ⟨d, List.mem_range.2 hd, by simp [h]⟩

/-- Settles O19: the tests after the grant, made twice, leave a device PULSING as it is. -/
theorem grantPulsesCoil : Obligations.GrantPulsesCoil := by
  intro s r rest hq hline hd hbudget
  have hdevice : (s.atNow.grant r.device).device r.device = (s.device r.device).granted s.scanner.now := grant_device hd
  have hgrant : s.atNow.arbiterGrant = (s.atNow.grant r.device).settleDevices := by
    have hready : s.atNow.devices.ready = r :: rest := hline
    unfold State.arbiterGrant
    rw [hready]
    exact if_pos hbudget
  have hfirst := settleDevices_stands_refl (s := s.atNow.grant r.device) (d := r.device)
    (by rw [hdevice]; exact DeviceState.noConfusion) (by rw [hdevice, granted_searchWaits]) fun hzero hwait => by
      rw [← hzero, hdevice] at hwait
      cases hwait
  have hsecond := settleDevices_stands (fun _ => rfl) (fun _ _ _ hwait => by rw [hdevice] at hwait; cases hwait) hfirst
  have hstate := hsecond.state
  obtain ⟨hrecord, hsettled, -, -, -, -, hbase, htimer, hevidence, hsearching, -⟩ := tally_eq_iff.1 hsecond.tally
  rw [hdevice] at hstate hrecord hsettled hbase htimer hevidence hsearching
  refine ⟨s.atNow.arbiterGrant.settleDevices, 
    congrArg Host.Outcome.next (deviceEvent_of_quiet State.grantDue State.arbiterGrant hq ?_), ?_⟩
  · have hready : s.atNow.devices.ready = r :: rest := hline
    rw [State.grantDue, hready]
    exact decide_eq_true hbudget
  · rw [hgrant]
    refine ⟨hstate, ?_, (hsecond.line _ rfl).trans grant_inLine, htimer, hevidence, hsearching, hbase, hsecond.searchWaits,
      hsettled, ?_⟩
    · rw [show (s.device r.device).record = _ from hrecord.symm]
      exact coilEnable_of_pulsing hd hstate
    · exact census_of_beside (s := s.atNow) (by rw [settleDevices_beside, settleDevices_beside, grant_beside])

/-! ### What ends an attempt (R100 to R104) -/

/-- The attempt that the retry limit lets follow a failed one, or FAULT, for work stamped `x` (R103). -/
def Device.attemptFailed (v : Device) (x : Stamp) : Device :=
  if v.record.autoRetry = true ∧ v.retries < v.record.figures.retryLimit then
    { v with retries := v.retries + 1, state := .retryWait, evidence := none
             timer := some ⟨x, v.record.figures.retryInterval⟩ }
  else
    { v with state := .fault, evidence := none, timer := none, base := 0, accounted := v.settled - (v.settled - v.base)
             arrivals := List.replicate (v.settled - v.base) x }

theorem attemptFailed_device (hd : d < 8) : (s.attemptFailed d).device d = (s.device d).attemptFailed s.time := by
  unfold State.attemptFailed Device.attemptFailed
  dsimp only
  split
  · rw [emit_device, State.onDevice_self _ _ _ hd]
    rfl
  · rw [dueArrivals_device _ hd, emit_device, State.onDevice_self _ _ _ hd]
    rfl
theorem attemptFailed_device_other (h : d ≠ e) : (s.attemptFailed d).device e = s.device e := by
  unfold State.attemptFailed
  dsimp only
  split
  · rw [emit_device, State.onDevice_other _ _ _ _ h]
    rfl
  · rw [State.dueArrivals, State.onDevice_other _ _ _ _ h, emit_device, State.onDevice_other _ _ _ _ h]
    rfl
theorem attemptFailed_of_retry {x : Stamp} (h : v.record.autoRetry = true ∧ v.retries < v.record.figures.retryLimit) :
    v.attemptFailed x = { v with retries := v.retries + 1, state := .retryWait, evidence := none
                                 timer := some ⟨x, v.record.figures.retryInterval⟩ } := if_pos h
theorem attemptFailed_of_limit {x : Stamp} (h : ¬(v.record.autoRetry = true ∧ v.retries < v.record.figures.retryLimit)) :
    v.attemptFailed x = { v with
      state := .fault, evidence := none, timer := none, base := 0, accounted := v.settled - (v.settled - v.base)
      arrivals := List.replicate (v.settled - v.base) x } := if_neg h
theorem attemptFailed_state (v : Device) (x : Stamp) :
    (v.attemptFailed x).state = .retryWait ∨ (v.attemptFailed x).state = .fault := by
  unfold Device.attemptFailed; split
  · exact .inl rfl
  · exact .inr rfl
theorem attemptFailed_settled (v : Device) (x : Stamp) : (v.attemptFailed x).settled = v.settled := by
  unfold Device.attemptFailed; split <;> rfl
theorem attemptFailed_searchWaits (v : Device) (x : Stamp) : (v.attemptFailed x).searchWaits = v.searchWaits := by
  unfold Device.attemptFailed; split <;> rfl

/-- A completed order leaves its device without a cycle (R102). -/
theorem complete_rests (p : Bool) (k : Nat) (hd : d < 8) : (s.complete d p k).Rests d := by
  constructor
  rw [complete_device_self d p k hd]
  exact ite_eq_or_eq _ _ _
theorem complete_settled (p : Bool) (k : Nat) (hd : d < 8) (e : Nat) :
    ((s.complete d p k).device e).settled = (s.device e).settled := by
  by_cases h : d = e
  · subst h
    rw [complete_device_self d p k hd]
    rfl
  · rw [complete_device_other d e p k h]

/-- A device out of IDLE, through the tests that follow an event which leaves it as `w`. -/
theorem settleDevices_of_busy {w : Device} (hw : s.device d = w) (hb : w.state ≠ .idle) (he : w.state ≠ .ejectWait)
    (hc : w.searchWaits = false) : s.settleDevices.Stands Order.recovers d w (some (s.inLine d)) := by
  subst hw
  exact settleDevices_stands_refl hb hc fun hzero hwait => absurd (hzero ▸ hwait) he

/-! ### The end of a pulse (R100, R107) -/

/-- A device in a window of `k` ms begun by work stamped `x`. -/
def Device.inWindow (v : Device) (x : Stamp) (k : Nat) : Device := { v with state := .confirming, timer := some ⟨x, k⟩ }

theorem endPulse_settled (hd : d < 8) (e : Nat) : ((s.endPulse d).device e).settled = (s.device e).settled := by
  have hwindow : ∀ f : Device → Device, (∀ v, (f v).settled = v.settled) →
      (((s.released d).onDevice d f).device e).settled = (s.device e).settled := fun f hf => by
    rw [State.onDevice_device]
    split
    · rename_i hde
      rw [hf, ← hde.1]
      rfl
    · rfl
  rw [endPulse_eq]
  split
  · exact hwindow _ fun _ => rfl
  · split
    · exact complete_settled true _ hd e
    · by_cases h : d = e
      · subst h
        rw [attemptFailed_device hd, attemptFailed_settled]
      · rw [attemptFailed_device_other h]
    · exact hwindow _ fun _ => rfl

theorem endPulse_device_of_searching (hd : d < 8) (h : (s.device d).searching = true) :
    (s.endPulse d).device d = (s.device d).inWindow s.time 100 := by
  rw [endPulse_eq, if_pos h, State.onDevice_self _ _ _ hd]
  rfl
theorem endPulse_device_of_none (hd : d < 8) (h : (s.device d).searching = false) (he : (s.device d).evidence = none) :
    (s.endPulse d).device d = (s.device d).inWindow s.time (s.device d).record.figures.confirm := by
  rw [endPulse_eq, if_neg (by simp [h]), he]
  exact State.onDevice_self (s.released d) d _ hd
theorem endPulse_of_success (h : (s.device d).searching = false) (he : (s.device d).evidence = some .success) :
    s.endPulse d = s.confirm d := by
  rw [endPulse_eq, if_neg (by simp [h]), he]
theorem endPulse_of_fallback (h : (s.device d).searching = false) (he : (s.device d).evidence = some .fallback) :
    s.endPulse d = s.attemptFailed d := by
  rw [endPulse_eq, if_neg (by simp [h]), he]

/-- A confirmed order leaves its device without a cycle, with no attempt counted, and so it stays through the tests. -/
theorem confirm_settleDevices (hd : d < 8) : ((s.confirm d).settleDevices).Rests d ∧
    (((s.confirm d).settleDevices).device d).retries = 0 ∧ (((s.confirm d).settleDevices).device d).base = 0 ∧
      (((s.confirm d).settleDevices).device d).settled = (s.device d).settled := by
  obtain ⟨-, hsettled, -, -, -, hretries, hbase, -⟩ := tally_eq_iff.1 (settleDevices_tally (s := s.confirm d) d)
  rw [State.confirm, complete_device_self d true _ hd] at hsettled hretries hbase
  exact ⟨settleDevices_rests (complete_rests true _ hd), hretries, hbase, hsettled⟩

/-- A failed attempt leaves its device in RETRY_WAIT or FAULT, and so it stays through the tests. -/
theorem attemptFailed_settleDevices (hd : d < 8) (hw : (s.device d).searchWaits = false) :
    (s.attemptFailed d).settleDevices.Stands Order.recovers d ((s.device d).attemptFailed s.time)
      (some ((s.attemptFailed d).inLine d)) := by
  have hstate := attemptFailed_state (s.device d) s.time
  exact settleDevices_of_busy (attemptFailed_device hd) (fun h => by rw [h] at hstate; simp at hstate)
    (fun h => by rw [h] at hstate; simp at hstate) (by rw [attemptFailed_searchWaits, hw])

/-- Settles O20: the device as its pulse leaves it, by the evidence kept, goes through the tests that follow. -/
theorem pulseEndReleasesCoil : Obligations.PulseEndReleasesCoil := by
  intro d s tm hd hq hs hw htm hout
  refine ⟨(s.atNow.endPulse d).settleDevices, ?_, fun hsearch => ?_, fun hsearch => ⟨fun he => ?_, fun he => ?_, fun he => ?_⟩,
    fun e _ => ?_⟩
  · refine congrArg Host.Outcome.next (deviceEvent_of_quiet
      (fun s => s.cycleDue d .pulsing false || s.cycleDue d .pulsing true) (fun s => s.endPulse d) hq ?_)
    cases hc : (s.device d).searching <;> simp [cycleDue_of_timer hs hc htm hout]
  · have hstands := settleDevices_of_busy (endPulse_device_of_searching (s := s.atNow) hd hsearch) nofun nofun hw
    obtain ⟨-, -, -, -, -, -, -, htimer, -⟩ := tally_eq_iff.1 hstands.tally
    exact ⟨hstands.state, htimer⟩
  · have hstands := settleDevices_of_busy (endPulse_device_of_none (s := s.atNow) hd hsearch he) nofun nofun hw
    obtain ⟨-, -, -, -, -, -, hbase, htimer, -⟩ := tally_eq_iff.1 hstands.tally
    exact ⟨hstands.state, htimer, hbase⟩
  · rw [endPulse_of_success (s := s.atNow) hsearch he]
    obtain ⟨hrests, hretries, hbase, -⟩ := confirm_settleDevices (s := s.atNow) hd
    exact ⟨hrests.state, hretries, hbase⟩
  · rw [endPulse_of_fallback (s := s.atNow) hsearch he, (attemptFailed_settleDevices (s := s.atNow) hd hw).state]
    exact attemptFailed_state _ _
  · rw [settleDevices_settled, endPulse_settled hd]
    rfl

/-! ### The end of a window (R101, R103, R107) -/

/-- A new settled count is that of one device. -/
theorem settleAt_settled_other (n : Nat) (h : d ≠ e) : ((s.settleAt d n).device e).settled = (s.device e).settled := by
  have hcount : ∀ u : State, (u.countActivity.device e).settled = (u.device e).settled := fun u => by
    unfold State.countActivity
    split
    · split
      · exact (tally_eq_iff.1 (tally_of_tallies (searchEnd_tallies u 1) e)).2.1
      · rfl
    · rfl
  have hset : (((s.onDevice d fun v => { v with settled := n }).countActivity).device e).settled = (s.device e).settled := by
    rw [hcount, State.onDevice_other _ _ _ _ h]
  have hlost : ∀ u : State, (u.lockedLost d).device e = u.device e := fun u => device_congr (by simp) e
  unfold State.settleAt
  dsimp only
  split
  · rfl
  · rw [recompute_device]
    (repeat' split) <;> simp [hlost, hset]

theorem endWindow_of_blind (h : (s.device d).record.figures.counting = .entryBlind) :
    s.endWindow d = (s.settleAt d ((s.device d).settled - 1)).confirm d := if_pos h
theorem endWindow_of_evident (h : (s.device d).record.figures.counting ≠ .entryBlind) :
    s.endWindow d = s.attemptFailed d := if_neg h

/-- Settles O21: the attempt fails, or the blind device's order is complete, and the tests follow. -/
theorem confirmWindowEndDecides : Obligations.ConfirmWindowEndDecides := by
  intro d s tm hd hq hs hsearch hw htm hout
  refine ⟨(s.atNow.endWindow d).settleDevices, ?_, fun hcount => ?_, fun hcount => ?_, fun e _ hne => ?_⟩
  · exact congrArg Host.Outcome.next (deviceEvent_of_quiet (State.cycleDue d .confirming false) (fun s => s.endWindow d) hq
      (cycleDue_of_timer hs hsearch htm hout))
  · have hstands := attemptFailed_settleDevices (s := s.atNow) hd hw
    obtain ⟨-, hsettled, -, -, -, hretries, -, htimer, -, -, harrivals⟩ := tally_eq_iff.1 hstands.tally
    rw [endWindow_of_evident (s := s.atNow) hcount, hstands.state, hsettled, hretries, htimer, harrivals,
      attemptFailed_settled]
    refine ⟨rfl, fun hlimit => ?_, fun hlimit => ?_⟩
    · rw [attemptFailed_of_retry (v := s.atNow.device d) hlimit]
      exact ⟨rfl, rfl, rfl⟩
    · rw [attemptFailed_of_limit (v := s.atNow.device d) hlimit]
      exact ⟨rfl, rfl, rfl, rfl⟩
  · rw [endWindow_of_blind (s := s.atNow) hcount]
    obtain ⟨hrests, hretries, -, hsettled⟩ :=
      confirm_settleDevices (s := s.atNow.settleAt d ((s.atNow.device d).settled - 1)) hd
    rw [settleAt_device (s := s.atNow) _ hd hw] at hsettled
    exact ⟨hsettled, hretries, hrests.state⟩
  · rw [settleDevices_settled]
    by_cases hcount : (s.device d).record.figures.counting = .entryBlind
    · rw [endWindow_of_blind (s := s.atNow) hcount, State.confirm, complete_settled true _ hd,
        settleAt_settled_other _ (Ne.symm hne)]
      rfl
    · rw [endWindow_of_evident (s := s.atNow) hcount, attemptFailed_device_other (Ne.symm hne)]
      rfl

/-- Settles O22: the device stands in the line, or is without a cycle, and the tests follow. -/
theorem retryAndSearchWindowsEnd : Obligations.RetryAndSearchWindowsEnd := by
  intro d s tm hd hq htm hout
  refine ⟨fun hs hsearch hw => ?_, fun hs hsearch => ?_⟩
  · have hdevice : (s.atNow.retryReady d).device d = { s.device d with timer := none } := by
      rw [State.retryReady, joinLine_device]
      exact State.onDevice_self s.atNow d _ hd
    have hstands := settleDevices_of_busy hdevice (fun h => by rw [show (s.device d).state = _ from h] at hs; cases hs)
      (fun h => by rw [show (s.device d).state = _ from h] at hs; cases hs) hw
    obtain ⟨-, hsettled, -, -, -, -, -, htimer, -⟩ := tally_eq_iff.1 hstands.tally
    refine ⟨(s.atNow.retryReady d).settleDevices, congrArg Host.Outcome.next (deviceEvent_of_quiet
      (State.cycleDue d .retryWait false) (fun s => s.retryReady d) hq (cycleDue_of_timer hs hsearch htm hout)),
      hstands.state.trans hs,
      (hstands.line _ rfl).trans ?_, htimer, hsettled⟩
    rw [State.retryReady, inLine_joinLine]
    simp
  · have hend : s.atNow.endSearchWindow d = s.atNow.complete d false (s.device d).settled := rfl
    obtain ⟨-, hsettled, haccounted, -, -, -, -, -, -, hsearching, harrivals⟩ := tally_eq_iff.1
      (settleDevices_tally (s := s.atNow.complete d false (s.device d).settled) d)
    rw [complete_device_self d false _ hd] at hsettled haccounted hsearching harrivals
    refine ⟨(s.atNow.endSearchWindow d).settleDevices, congrArg Host.Outcome.next (deviceEvent_of_quiet
      (State.cycleDue d .confirming true) (fun s => s.endSearchWindow d) hq (cycleDue_of_timer hs hsearch htm hout)), ?_⟩
    rw [hend]
    exact ⟨(settleDevices_rests (complete_rests false _ hd)).state, hsearching, haccounted.trans (Nat.sub_self _), harrivals,
      hsettled⟩

/-! ### EJECT (R96, R111) -/

/-- An order that finds room in a queue without a SEARCH order, seen from its own device. -/
theorem queueOrder_device_self (r : Reason) (l : Bool) (hc : s.configured d = true) (hs : (s.device d).searchWaits = false)
    (hl : (s.device d).queue.length < 8) : (s.queueOrder d r l).device d =
      { s.device d with
        queue := (s.device d).queue ++ [⟨r, s.time, l⟩]
        state := if (s.device d).state = .idle then .ejectWait else (s.device d).state } := by
  have hd := lt_of_configured hc
  have hself := State.onDevice_self s d (fun v => { v with queue := v.queue ++ [⟨r, s.time, l⟩] }) hd
  rw [queueOrder_of_room d r l hc hs hl]
  dsimp only
  split
  · rename_i hidle
    rw [enterEjectWait_device, if_pos ⟨rfl, hd⟩, hself, if_pos (by rw [hself] at hidle; exact hidle)]
  · rename_i hbusy
    rw [hself, if_neg (by rw [hself] at hbusy; exact hbusy)]

/-- The order stands behind those of its device, in EJECT_WAIT where that was IDLE, and the tests that follow add RECOVER orders
alone. -/
theorem queueOrder_settled (r : Reason) (l : Bool) (hr : r ≠ .search) (hc : s.configured d = true)
    (hs : (s.device d).searchWaits = false) (hl : (s.device d).queue.length < 8) :
    ∃ more, ((s.queueOrder d r l).settleDevices.device d).queue = (s.device d).queue ++ [⟨r, s.time, l⟩] ++ more ∧
      (∀ o ∈ more, o.reason = .recover) ∧ ((s.queueOrder d r l).settleDevices.device d).state =
        if (s.device d).state = .idle then .ejectWait else (s.device d).state := by
  have hself := queueOrder_device_self r l hc hs hl
  have hbusy : ((s.queueOrder d r l).device d).state ≠ .idle := by
    rw [hself]
    dsimp only
    split <;> simp_all
  have hcalm : ((s.queueOrder d r l).device d).searchWaits = false := by
    rw [hself]
    simpa [Device.searchWaits, hr] using hs
  have hstands : (s.queueOrder d r l).settleDevices.Stands Order.recovers d ((s.queueOrder d r l).device d) none :=
    settleDevices_stands (fun _ => rfl) nofun
      (stands_refl hbusy hcalm nofun fun o ho => by rw [Order.recovers] at ho; rw [ho]; decide)
  obtain ⟨more, hdevice, hmore⟩ := hstands.device
  refine ⟨more, ?_, hmore, ?_⟩
  · rw [hdevice, hself]
  · rw [hstands.state, hself]

/-- EJECT that finds its device configured, and the queue as `h` says. -/
theorem hostEject_of_full (hc : s.configured d = true) (hq : s.quietEngine = true) (h : 8 ≤ (s.device d).queue.length) :
    s.hostEject d = (s.atNow, .full) := by
  have hfull : Config.queueOrders ≤ (s.catchUp.atNow.device d).queue.length := by rw [catchUp_of_quiet s hq]; exact h
  rw [State.hostEject, if_neg (by rw [hc]; decide)]
  exact (if_pos hfull).trans (by rw [catchUp_of_quiet s hq])
theorem hostEject_of_room (hc : s.configured d = true) (hq : s.quietEngine = true) (h : (s.device d).queue.length < 8) :
    s.hostEject d = ((s.atNow.queueOrder d .host false).settleDevices, .ok []) := by
  have hroom : ¬Config.queueOrders ≤ (s.catchUp.atNow.device d).queue.length := by
    rw [catchUp_of_quiet s hq]
    exact Nat.not_le.2 h
  rw [State.hostEject, if_neg (by rw [hc]; decide)]
  exact (if_neg hroom).trans (by rw [catchUp_of_quiet s hq])
theorem hostEject_of_unconfigured (hc : s.configured d = false) : s.hostEject d = (s, .config 0 d 0) := if_pos hc

theorem eject_of_device {x : Byte} (hx : x.toNat < 8) : eject [x] s = s.hostEject x.toNat := by
  have hrange : deviceField [x] = none := by
    simp [deviceField, firstBad, byteAt, fieldAt, leNat, Config.deviceCount, hx]
  unfold eject State.checked
  rw [hrange]
  rfl

/-- Settles O48: the order stands behind those of its device, which the tests that follow leave as it is. -/
theorem ejectQueuesHostOrder : Obligations.EjectQueuesHostOrder := by
  intro tag x s hx hoffers
  have hrequest : exec (.ejectRequest tag [x]) s = .next (s.request 17 tag [x] eject) := rfl
  refine ⟨fun hc => ?_, fun hc hq hfull => ?_, fun hc hq hroom hs => ?_⟩
  · rw [hrequest, request_only_answered s 17 tag [x] eject (.config 0 x.toNat 0) hoffers fun l => by
      rw [eject_of_device hx]
      exact hostEject_of_unconfigured hc]
    simp [Answer.bytes, u8, u16, leBytes]
  · rw [hrequest, request_only_answered s 17 tag [x] eject .full hoffers fun l => by
      rw [eject_of_device hx]
      exact hostEject_of_full (s := { s with link := l, time := s.scanner.now }) hc hq hfull]
    rfl
  · obtain ⟨l, hl⟩ := request_of_framed 17 tag [x] eject (fun u => (u.queueOrder x.toNat .host false).settleDevices) (.ok [])
      hoffers (fun u => by simp) fun l => by
        rw [eject_of_device hx]
        exact hostEject_of_room (s := { s with link := l, time := s.scanner.now }) hc hq hroom
    obtain ⟨more, hqueue, hmore, hstate⟩ :=
      queueOrder_settled (s := { s with link := l, time := s.scanner.now }) .host false (by decide) hc hs hroom
    have hbeside := (settleDevices_beside (State.queueOrder { s with link := l, time := s.scanner.now } x.toNat .host false)).trans
      (queueOrder_beside _ _ _ _)
    have hcensus := census_of_beside hbeside
    have hplayers := players_of_beside hbeside
    rw [hrequest, hl]
    generalize (State.queueOrder { s with link := l, time := s.scanner.now } x.toNat .host false).settleDevices = u at *
    refine ⟨_, more, rfl, rfl, hqueue, hmore, hcensus, hplayers, fun hidle => hstate.trans (if_pos hidle),
      fun hbusy => hstate.trans (if_neg hbusy)⟩

end Sys2Proof.Machine
end

