-- ==== Sys2Proof/Proofs/StraySearch.lean ====
section
/-! A SEARCH order in flight while no game is on: R165 to R169 keep it from the reachable states, and the statement about settles
does not (O14). -/

namespace Sys2Proof.Machine

open Sys2Proof

/-- A SAUCER device with POSITIONS counting and one ball, in EJECT_WAIT for an order of reason `r`. -/
def strayDevice (r : Reason) : Device :=
  { Device.reset with
    record := { DeviceRecord.reset with role := .saucer, profile := 6 }
    state := .ejectWait
    settled := 1
    accounted := 1
    queue := [⟨r, 0, false⟩] }

/-- In IDLE device 3 holds a ball and waits with the SEARCH order in flight, and the settle of device 4 runs out with its ball
gone. -/
def strayState : State :=
  { State.reset with
    devices := { Devices.reset with
      units := writeTable (writeTable Devices.reset.units 3 (strayDevice .search)) 4
        { strayDevice .host with settle := some ⟨0, 0⟩ } }
    game := { Game.reset with search := { Search.reset with inFlight := some 3 } } }

/-- The RECOVER order of device 3 takes the place of the SEARCH order, and the search takes device 4 at once. -/
theorem strayState_settle : ∃ t, exec (.settleExpired 4) strayState = .next t ∧ (t.device 4).queue = [⟨.search, 0, false⟩] :=
  ⟨_, rfl, by decide +kernel⟩

theorem strayState_meets : strayState.quietEngine = true ∧ strayState.configured 4 = true ∧
    (strayState.device 4).settle = some ⟨0, 0⟩ ∧ (strayState.device 4).searchWaits = false ∧
    (strayState.device 4).state = .ejectWait ∧ (strayState.device 4).record.figures.counting = .positions ∧
    strayState.rawCount 4 < (strayState.device 4).accounted ∧ (strayState.device 4).queue.tail = [] := by decide +kernel

/-- Refutes O14: without R165 as a premise, the tests after the settle may give the device that has completed its head order a
SEARCH order, where the statement has RECOVER and LAUNCH orders alone. -/
theorem not_settleTakesCount : ¬ Obligations.SettleTakesCount := by
  intro h
  obtain ⟨hquiet, hconfigured, htimer, hcalm, hwait, hcounting, hfall, htail⟩ := strayState_meets
  obtain ⟨u, hu, hqueue⟩ := strayState_settle
  obtain ⟨t, ht, -, -, -, -, -, -, -, -, -, -, hcycle⟩ := h 4 strayState ⟨0, 0⟩ (by decide) hquiet hconfigured htimer
    (Nat.zero_le _)
  obtain rfl : u = t := Host.Outcome.next.inj (hu.symm.trans ht)
  rw [if_pos hcounting] at hcycle
  obtain ⟨-, -, -, -, -, -, -, -, more, hmore, hreasons, -⟩ := (hcycle hcalm).1 hwait hfall
  rw [hqueue, htail, List.nil_append] at hmore
  simpa using hreasons ⟨.search, 0, false⟩ (hmore ▸ List.mem_singleton_self _)

end Sys2Proof.Machine
end

