-- ==== Sys2Proof/Proofs/ClearedDevices.lean ====
section
/-! A device whose cycle and orders have been set aside, with no SEARCH order in flight: the tests of the devices give it RECOVER
orders, or none (R90, R109, R110). -/

namespace Sys2Proof.Machine

open Sys2Proof

variable {d e : Nat} {s t : State}

/-- Device `d` holds RECOVER orders alone, is in the state that they and its record call for, and no SEARCH order is in flight. -/
structure State.Recovering (d : Nat) (s : State) : Prop where
  flight : s.game.search.inFlight = none
  orders : ∀ o ∈ (s.device d).queue, o.reason = .recover
  state : (s.device d).state =
    if (s.device d).record.configured = false then .disabled else if (s.device d).queue = [] then .idle else .ejectWait

theorem State.Recovering.congr (h : s.Recovering d) (hg : t.game.search.inFlight = s.game.search.inFlight)
    (hd : t.device d = s.device d) : t.Recovering d := by
  obtain ⟨hf, ho, hs⟩ := h
  exact ⟨hg.trans hf, hd ▸ ho, hd ▸ hs⟩
theorem State.Recovering.not_pulsing (h : s.Recovering d) : (s.device d).state ≠ .pulsing := by
  rw [h.state]
  split
  · exact nofun
  · split <;> exact nofun
theorem State.Recovering.searchWaits (h : s.Recovering d) : (s.device d).searchWaits = false := by
  simp only [Device.searchWaits, List.any_eq_false, beq_iff_eq]
  exact fun o ho hsearch => by simp [h.orders o ho] at hsearch

/-- With no SEARCH order in flight, an order of another device leaves a device alone. -/
theorem queueOrder_device_of_none (r : Reason) (l : Bool) (h : s.game.search.inFlight = none) (hne : e ≠ d) :
    (s.queueOrder e r l).device d = s.device d := by
  have hdrop : (s.dropSearch e).device d = s.device d ∧ (s.dropSearch e).game = s.game := by
    unfold State.dropSearch
    split
    · exact ⟨by rw [leaveLine_device, State.onDevice_other _ _ _ _ hne], rfl⟩
    · exact ⟨rfl, rfl⟩
  have hwaits : ∀ u : State, (if (u.device e).state = .idle then u.enterEjectWait e else u).device d = u.device d ∧
      (if (u.device e).state = .idle then u.enterEjectWait e else u).game = u.game := fun u => by
    split
    · exact ⟨by rw [enterEjectWait_device, if_neg fun hd => hne hd.1], enterEjectWait_game u e⟩
    · exact ⟨rfl, rfl⟩
  unfold State.queueOrder
  dsimp only
  split
  · split
    · rw [emit_device, hdrop.1]
    · rw [if_neg (by rw [(hwaits _).2, State.onDevice_game, hdrop.2, h]; simp), (hwaits _).1,
        State.onDevice_other _ _ _ _ hne, hdrop.1]
  · rfl
theorem queueOrder_full (r : Reason) (l : Bool) (hs : (s.device d).searchWaits = false)
    (hl : 8 ≤ (s.device d).queue.length) : (s.queueOrder d r l).device d = s.device d := by
  have hdrop : s.dropSearch d = s := by simp [State.dropSearch, hs]
  unfold State.queueOrder
  rw [hdrop]
  dsimp only
  rw [if_pos (show Config.queueOrders ≤ _ from hl)]
  split
  · exact emit_device _ _ _ _ _ _
  · rfl

/-- An order of another device, or a RECOVER order of its own. -/
theorem queueOrder_recovering (r : Reason) (l : Bool) (hr : e = d → r = .recover) (h : s.Recovering d) :
    (s.queueOrder e r l).Recovering d := by
  have hgame := queueOrder_game_of_none (d := e) r l h.flight
  by_cases hne : e = d
  · subst hne
    by_cases hc : s.configured e = true
    · by_cases hl : (s.device e).queue.length < 8
      · have hself := queueOrder_device_self r l hc h.searchWaits hl
        refine ⟨by rw [hgame, h.flight], fun o ho => ?_, ?_⟩
        · rw [hself] at ho
          rcases List.mem_append.1 ho with ho | ho
          · exact h.orders o ho
          · rw [List.mem_singleton.1 ho, hr rfl]
        · have hrecord : (s.device e).record.configured = true := hc
          have hstate := h.state
          rw [hself]
          by_cases hempty : (s.device e).queue = [] <;> simp_all
      · exact h.congr (by rw [hgame]) (queueOrder_full r l h.searchWaits (Nat.le_of_not_lt hl))
    · have hnone : s.queueOrder e r l = s := if_neg hc
      rwa [hnone]
  · exact h.congr (by rw [hgame]) (queueOrder_device_of_none r l h.flight hne)
theorem recoverDevice_recovering (h : s.Recovering d) : (s.recoverDevice e).Recovering d := by
  unfold State.recoverDevice
  split
  · exact repeated_keeps (p := State.Recovering d) _ (fun _ => queueOrder_recovering .recover false fun _ => rfl) _ _ h
  · exact h
theorem recover_recovering (h : s.Recovering d) : s.recover.Recovering d := by
  unfold State.recover
  split
  · exact foldl_keeps (p := State.Recovering d) _ (fun _ _ => recoverDevice_recovering) _ _ h
  · exact h

/-! ### The trough, the shooter and the launches owed -/

theorem launchTest_of_none_owed (h : s.devices.launchOwed = 0) : s.launchTest = s :=
  if_neg fun ⟨_, _, _, _, _, howed⟩ => by omega
theorem queueOrder_owed (r : Reason) (l : Bool) : (s.queueOrder e r l).devices.launchOwed = s.devices.launchOwed := by
  have henter : ∀ (u : State) (k : Nat), (u.enterEjectWait k).devices.launchOwed = u.devices.launchOwed := fun u k => by
    unfold State.enterEjectWait State.joinLine; dsimp only; (repeat' split) <;> rfl
  have hnext : ∀ u : State, u.searchNext.devices.launchOwed = u.devices.launchOwed := fun u => by
    unfold State.searchNext
    split
    · rfl
    · exact henter _ _
  have hwaits : ∀ u : State, (if (u.device e).state = .idle then u.enterEjectWait e else u).devices.launchOwed =
      u.devices.launchOwed := fun u => by
    split
    · exact henter u e
    · rfl
  have hsearch : ∀ (c : Prop) [Decidable c] (u : State), (if c then u.searchNext else u).devices.launchOwed =
      u.devices.launchOwed := fun c _ u => by
    split
    · exact hnext u
    · rfl
  unfold State.queueOrder
  dsimp only
  split
  · split
    · exact dropSearch_owed e
    · rw [hsearch, hwaits]
      exact dropSearch_owed e
  · rfl
theorem recover_owed : s.recover.devices.launchOwed = s.devices.launchOwed := by
  have hone : ∀ (x : State) (k : Nat), x.devices.launchOwed = s.devices.launchOwed →
      (x.recoverDevice k).devices.launchOwed = s.devices.launchOwed := fun x k hx => by
    unfold State.recoverDevice
    split
    · exact repeated_keeps (p := fun y => y.devices.launchOwed = s.devices.launchOwed) _
        (fun y hy => (queueOrder_owed .recover false).trans hy) _ x hx
    · exact hx
  unfold State.recover
  split
  · exact foldl_keeps (p := fun x => x.devices.launchOwed = s.devices.launchOwed) _ hone _ s rfl
  · rfl

/-- The comparison of R109 is made of devices 2 to 7. -/
theorem recover_device_of_none (h : s.game.search.inFlight = none) (hd : d < 2) : s.recover.device d = s.device d := by
  have hone : ∀ l : List Nat, (∀ k ∈ l, k ≠ d) → ∀ x : State, x.game.search.inFlight = none →
      (l.foldl State.recoverDevice x).device d = x.device d := by
    intro l
    induction l with
    | nil => exact fun _ _ _ => rfl
    | cons k l ih =>
      intro hl x hx
      have hk := hl k List.mem_cons_self
      have hstep : (x.recoverDevice k).device d = x.device d ∧ (x.recoverDevice k).game = x.game := by
        unfold State.recoverDevice
        split
        · refine repeated_keeps (p := fun y => y.device d = x.device d ∧ y.game = x.game) _ (fun y hy => ?_) _ x ⟨rfl, rfl⟩
          have hnone : y.game.search.inFlight = none := by rw [hy.2, hx]
          exact ⟨(queueOrder_device_of_none _ _ hnone hk).trans hy.1, (queueOrder_game_of_none _ _ hnone).trans hy.2⟩
        · exact ⟨rfl, rfl⟩
      rw [List.foldl_cons, ih (fun m hm => hl m (List.mem_cons_of_mem _ hm)) _ (by rw [hstep.2, hx]), hstep.1]
  unfold State.recover
  split
  · refine hone _ (fun k hk => ?_) s h
    rintro rfl
    simp only [List.mem_cons, List.not_mem_nil, or_false] at hk
    omega
  · rfl

end Sys2Proof.Machine
end

