-- ==== Sys2Proof/Proofs/GameEnds.lean ====
section
/-! The end of a game by slam and by END_GAME (O11): what the evidence of a SLAM closure leaves of the game, and what R162 makes of
every block. -/

namespace Sys2Proof.Machine

open Sys2Proof

variable {q s t : State} {d : Nat}

/-! ### Evidence and the game -/

/-- The game of `s` is that of `q` but for the search and the end of SERVE; in IDLE with no SEARCH order in flight it is the same,
and the modes always are. -/
structure State.GameKept (q s : State) : Prop where
  modes : s.modes = q.modes
  players : s.game.players = q.game.players
  ball : s.game.ballNumber = q.game.ballNumber
  idle : s.game.phase = .idle ↔ q.game.phase = .idle
  same : q.game.phase = .idle → q.game.search.inFlight = none → s.game = q.game

theorem State.GameKept.refl (s : State) : s.GameKept s := ⟨rfl, rfl, rfl, .rfl, fun _ _ => rfl⟩
theorem State.GameKept.of_game (h : q.GameKept s) (hg : t.game = s.game) (hm : t.modes = s.modes) : q.GameKept t := by
  obtain ⟨modes, players, ball, idle, same⟩ := h
  exact ⟨hm.trans modes, hg ▸ players, hg ▸ ball, hg ▸ idle, hg ▸ same⟩

/-- What leaves all beside the devices and the search alone, and in IDLE the search too. -/
theorem State.GameKept.of_beside (h : q.GameKept s) (hb : t.beside = s.beside)
    (hi : s.game.phase = .idle → s.game.search.inFlight = none → t.game = s.game) : q.GameKept t := by
  obtain ⟨modes, players, ball, idle, same⟩ := h
  refine ⟨(modes_of_beside hb).trans modes, (players_of_beside hb).trans players, (ballNumber_of_beside hb).trans ball,
    by rw [phase_of_beside hb, idle], fun hp hf => ?_⟩
  have hsame := same hp hf
  exact (hi (idle.2 hp) (by rw [hsame, hf])).trans hsame
theorem ite_gameKept {c : Prop} [Decidable c] (hs : q.GameKept s) (ht : q.GameKept t) : q.GameKept (if c then s else t) := by
  split
  · exact hs
  · exact ht
@[simp] theorem onDevice_gameKept (f : Device → Device) (h : q.GameKept s) : q.GameKept (s.onDevice d f) := h.of_game rfl rfl
@[simp] theorem onDevices_gameKept (f : Devices → Devices) (h : q.GameKept s) : q.GameKept (s.onDevices f) := h.of_game rfl rfl
@[simp] theorem onCensus_gameKept (f : Census → Census) (h : q.GameKept s) : q.GameKept (s.onCensus f) := h.of_game rfl rfl
@[simp] theorem emit_gameKept (k : Event) (u a v : Nat) (h : q.GameKept s) : q.GameKept (s.emit k u a v) := h.of_game rfl rfl
theorem countActivity_gameKept (h : q.GameKept s) : q.GameKept s.countActivity :=
  h.of_beside (countActivity_beside s) fun hp _ => by rw [State.countActivity, if_neg (by simp [hp])]
theorem recompute_gameKept (u : Option Nat) (h : q.GameKept s) : q.GameKept (s.recompute u) := by
  have hfind : ∀ (k : Nat) (x : State), q.GameKept x → q.GameKept (x.findByCount u k) := by
    intro k
    induction k with
    | zero => exact fun _ hx => hx
    | succ k ih => exact fun _ hx => ih _ (emit_gameKept _ _ _ _ (onCensus_gameKept _ hx))
  have hfound := fun k => hfind k s h
  unfold State.recompute
  dsimp only
  (repeat' split) <;> simp [h, hfound]
theorem lockedLost_gameKept (h : q.GameKept s) : q.GameKept (s.lockedLost d) := by
  unfold State.lockedLost
  exact ite_gameKept (h.of_game rfl rfl) h
theorem settleAt_gameKept (n : Nat) (h : q.GameKept s) : q.GameKept (s.settleAt d n) := by
  have hcount := countActivity_gameKept (onDevice_gameKept (d := d) (fun v => { v with settled := n }) h)
  have hlost := ite_gameKept (c := n < (s.device d).settled) (lockedLost_gameKept (d := d) hcount) hcount
  unfold State.settleAt
  exact ite_gameKept h (recompute_gameKept _ (ite_gameKept (onCensus_gameKept _ hlost) hlost))

/-- The end of SERVE is no end of a game. -/
theorem serveToPlay_gameKept (h : q.GameKept s) : q.GameKept s.serveToPlay := by
  unfold State.serveToPlay
  split
  · rename_i hserve
    obtain ⟨modes, players, ball, idle, -⟩ := h
    have hon : q.game.phase ≠ .idle := fun hp => by
      have hidle := idle.2 hp
      rw [hserve] at hidle
      cases hidle
    exact ⟨modes, players, ball, iff_of_false nofun hon, fun hp => absurd hp hon⟩
  · exact h
theorem complete_gameKept (p : Bool) (k : Nat) (h : q.GameKept s) : q.GameKept (s.complete d p k) := by
  have hover : q.GameKept (s.cycleOver d p) := by
    refine h.of_game ?_ (modes_of_beside (cycleOver_beside d p))
    unfold State.cycleOver
    dsimp only
    rw [apply_ite State.game, enterEjectWait_game, ite_self]
    rfl
  have hleft : ∀ o, q.GameKept ((s.cycleOver d p).orderLeft d o) := fun o => by
    cases o with
    | none => exact hover
    | some o =>
      have howed := ite_gameKept (c := d = 0 ∧ o.launch ∧ (s.cycleOver d p).configured 1)
        (onDevices_gameKept (fun c => { c with launchOwed := min (c.launchOwed + 1) 8 }) hover) hover
      exact ite_gameKept (serveToPlay_gameKept howed) howed
  rw [complete_eq]
  exact onDevice_gameKept _ (ite_gameKept (hleft _) hover)
theorem success_gameKept (h : q.GameKept s) : q.GameKept (s.success d) := by
  unfold State.success State.confirm
  dsimp only
  split
  case h_1 => exact ite_gameKept h (onDevice_gameKept _ h)
  case h_2 => exact ite_gameKept h (complete_gameKept _ _ h)
  case h_3 => exact complete_gameKept _ _ h
  all_goals exact h
theorem faultSelf_gameKept (h : q.GameKept s) : q.GameKept (s.faultSelf d) := complete_gameKept _ _ (emit_gameKept _ _ _ _ h)
theorem attemptFailed_gameKept (h : q.GameKept s) : q.GameKept (s.attemptFailed d) := by
  unfold State.attemptFailed State.dueArrivals
  dsimp only
  split <;> exact h.of_game rfl rfl
theorem reactCount_gameKept (h : q.GameKept s) : q.GameKept (s.reactCount d) := by
  have hdue : ∀ k, q.GameKept (s.dueArrivals d k) := fun _ => onDevice_gameKept _ h
  unfold State.reactCount
  dsimp only
  split
  case h_1 => exact ite_gameKept (hdue _) (hdue _)
  case h_2 => exact ite_gameKept (ite_gameKept (hdue _) (complete_gameKept _ _ h)) (hdue _)
  case h_3 => exact ite_gameKept (faultSelf_gameKept h) h
  case h_7 => exact h
  all_goals exact ite_gameKept (success_gameKept h) h
theorem countEntry_gameKept (h : q.GameKept s) : q.GameKept (s.countEntry d) := h.of_game rfl rfl
theorem entryClosure_gameKept (h : q.GameKept s) : q.GameKept (s.entryClosure d) := by
  unfold State.entryClosure
  dsimp only
  split
  · exact onDevice_gameKept _ h
  · exact countEntry_gameKept h
  · refine ite_gameKept (countEntry_gameKept h) ?_
    split
    · exact onDevice_gameKept _ h
    · exact attemptFailed_gameKept h
    all_goals exact countEntry_gameKept h
theorem exitClosure_gameKept (h : q.GameKept s) : q.GameKept (s.exitClosure d) := by
  have hcount := settleAt_gameKept (d := d) ((s.device d).settled - 1) h
  unfold State.exitClosure
  dsimp only
  split
  · exact success_gameKept h
  · exact h
  · split
    case h_1 => exact h
    case h_4 => exact faultSelf_gameKept hcount
    case h_2 => exact reactCount_gameKept hcount
    case h_3 => exact reactCount_gameKept hcount
    all_goals exact ite_gameKept h (success_gameKept hcount)
theorem deviceEvidence_gameKept (i : Nat) (h : q.GameKept s) : q.GameKept (State.deviceEvidence i s d) := by
  have hentry := ite_gameKept (c := s.configured d = true ∧ (s.device d).record.entrySwitch = some i)
    (entryClosure_gameKept (d := d) h) h
  unfold State.deviceEvidence
  exact ite_gameKept (exitClosure_gameKept hentry) hentry
theorem handToDevices_gameKept (i : Nat) (h : q.GameKept s) : q.GameKept (s.handToDevices i) :=
  (foldl_keeps (p := q.GameKept) _ (fun _ _ => deviceEvidence_gameKept i) _ _ h).of_beside (settleDevices_beside _)
    fun _ => settleDevices_game_of_none
theorem reportSwitch_gameKept (tr : Transition) (h : q.GameKept s) : q.GameKept (s.reportSwitch tr) := by
  unfold State.reportSwitch
  split <;> exact h.of_game rfl rfl

/-! ### The devices and the search at the end of a game (R110, R162) -/

theorem clearDevices_device (f : Nat → Device → Device) (hd : d < 8) : (s.clearDevices f).device d = f d (s.device d) :=
  readTable_mapTable _ _ Device.reset _ d hd

/-- The devices of `s` are those that the cancellation of R110 makes of `q`'s. -/
structure State.Cancelled (q s : State) : Prop where
  device : ∀ d < 8, s.device d = { (q.device d).cleared with accounted := (q.device d).settled }
  owed : s.devices.launchOwed = 0

theorem cancelDevices_cancelled : s.Cancelled s.cancelDevices := ⟨fun _ hd => clearDevices_device _ hd, rfl⟩
theorem State.Cancelled.of_devices (h : q.Cancelled s) (hd : t.devices = s.devices) : q.Cancelled t := by
  obtain ⟨device, owed⟩ := h
  exact ⟨fun d hlt => (device_congr hd d).trans (device d hlt), hd ▸ owed⟩
theorem State.Cancelled.searchWaits (h : q.Cancelled s) (hd : d < 8) : (s.device d).searchWaits = false := by
  rw [h.device d hd]
  rfl
theorem searchOff_cancelled (h : q.Cancelled s) : q.Cancelled s.searchOff := by
  have howed : (deviceNumbers.foldl State.dropSearch s).devices.launchOwed = 0 :=
    foldl_keeps (p := fun x => x.devices.launchOwed = 0) _ (fun x k hx => (dropSearch_owed (s := x) k).trans hx) _ _ h.owed
  have hdevice : ∀ d < 8, (deviceNumbers.foldl State.dropSearch s).device d = s.device d := fun d hd =>
    foldl_dropSearch_device deviceNumbers (h.searchWaits hd)
  unfold State.searchOff State.dropSearches
  generalize deviceNumbers.foldl State.dropSearch s = x at howed hdevice ⊢
  exact ⟨fun d hd => (hdevice d hd).trans (h.device d hd), howed⟩

/-- A cancelled device has no cycle and no orders, and the recovery comparison gives it RECOVER orders alone. -/
theorem State.Cancelled.recovering (h : q.Cancelled s) (hf : s.game.search.inFlight = none) (hd : d < 8) : s.Recovering d := by
  refine ⟨hf, ?_, ?_⟩ <;> rw [h.device d hd]
  · exact nofun
  · show (q.device d).cleared.state = _
    rw [cleared_state]
    cases hc : (q.device d).record.configured <;> simp [Device.cleared, hc]

/-- What R162 leaves of a device: no cycle, no orders of the game, and every ball counted accounted for. -/
theorem State.Cancelled.ended (h : q.Cancelled s) (hf : s.game.search.inFlight = none) :
    s.recover.pulsingCount = 0 ∧ s.recover.devices.launchOwed = 0 ∧ (s.recover.device 0).queue = [] ∧
      (s.recover.device 1).queue = [] ∧ ∀ d < Config.deviceCount, (s.recover.device d).retries = 0 ∧
        (s.recover.device d).accounted = (s.recover.device d).settled ∧
        ∀ o ∈ (s.recover.device d).queue, o.reason = .recover := by
  have hrecovering : ∀ d < 8, s.recover.Recovering d := fun d hd => recover_recovering (h.recovering hf hd)
  refine ⟨?_, recover_owed.trans h.owed, ?_, ?_, fun d hd => ⟨?_, ?_, (hrecovering d hd).orders⟩⟩
  · refine List.length_eq_zero_iff.2 (List.filter_eq_nil_iff.2 fun d hd => ?_)
    simpa using (hrecovering d (List.mem_range.1 hd)).not_pulsing
  · rw [recover_device_of_none hf (by decide), h.device 0 (by decide)]
    rfl
  · rw [recover_device_of_none hf (by decide), h.device 1 (by decide)]
    rfl
  all_goals
    obtain ⟨-, hsettled, haccounted, -, -, hretries, -⟩ := tally_eq_iff.1 (tally_of_tallies (recover_tallies s) d)
    rw [h.device d hd] at hsettled haccounted hretries
  · exact hretries
  · rw [hsettled, haccounted]
    rfl

theorem toPhase_idle_parts : (s.toPhase .idle).game.search.phase = .off ∧ (s.toPhase .idle).game.search.round = 0 ∧
    (s.toPhase .idle).game.search.inFlight = none ∧
    (s.toPhase .idle).beside = (s.onGame fun g => { g with phase := .idle }).beside := by
  refine ⟨?_, ?_, ?_, toPhase_beside s .idle⟩
  all_goals
    unfold State.toPhase State.searchOff State.dropSearches
    dsimp only
    generalize deviceNumbers.foldl State.dropSearch _ = x
    rfl

/-- The state in which a game that ends has all its blocks put back but for the phase (R162). -/
def State.gameCleared (s : State) (slam : Option Nat) : State :=
  let u := s.cancelDevices.modesGameEnd.onCensus fun c =>
    { c with multi := false, save := none, validated := false, missingReturns := 0 }
  (match slam with
    | some i => u.emit .tiltSlam i 0 0
    | none => u).emitFor 0 .gameOver 0 (if slam.isSome then 1 else 2) 0
theorem endGame_eq (i : Option Nat) :
    s.endGame i = (((s.gameCleared i).toPhase .idle).onGame fun g => { g with current := 0 }).recover := rfl
theorem gameCleared_parts (i : Option Nat) : s.Cancelled (s.gameCleared i) ∧
    (s.gameCleared i).game.ballNumber = s.game.ballNumber ∧
    (s.gameCleared i).game.players = s.game.players.map (fun q => { q with saved := [] }) ∧
    (s.gameCleared i).modes.stack = [] ∧ (s.gameCleared i).modes.deferred = false ∧ (s.gameCleared i).census.multi = false ∧
    (s.gameCleared i).census.save = none ∧ (s.gameCleared i).census.validated = false ∧
    (s.gameCleared i).census.missingReturns = 0 := by
  cases i <;> exact ⟨cancelDevices_cancelled.of_devices rfl, rfl, rfl, rfl, rfl, rfl, rfl, rfl, rfl⟩

/-- The end of a game by R162, whatever its state. -/
theorem endGame_ended (i : Option Nat) : s.GameEnded (s.endGame i) := by
  obtain ⟨hcancelled, hball, hplayers, hstack, hdeferred, hmulti, hsave, hvalidated, hreturns⟩ := gameCleared_parts (s := s) i
  obtain ⟨hoff, hround, hflight, hbeside⟩ := toPhase_idle_parts (s := s.gameCleared i)
  have hdevices : s.Cancelled ((s.gameCleared i).toPhase .idle) := searchOff_cancelled (hcancelled.of_devices rfl)
  rw [endGame_eq]
  generalize (s.gameCleared i).toPhase .idle = u at hoff hround hflight hbeside hdevices ⊢
  have hmodes : u.modes = (s.gameCleared i).modes := (modes_of_beside hbeside).trans rfl
  have hcensus : u.census = (s.gameCleared i).census := (census_of_beside hbeside).trans rfl
  have hphase : u.game.phase = .idle := phase_of_beside hbeside
  have hu : u.game.ballNumber = s.game.ballNumber ∧ u.game.players = s.game.players.map (fun q => { q with saved := [] }) :=
    ⟨(ballNumber_of_beside hbeside).trans hball, (players_of_beside hbeside).trans hplayers⟩
  have hset : s.Cancelled (u.onGame fun g => { g with current := 0 }) := hdevices.of_devices rfl
  obtain ⟨hpulsing, howed, htrough, hshooter, hended⟩ := hset.ended hflight
  have hlast := recover_beside (u.onGame fun g => { g with current := 0 })
  have hgame : (u.onGame fun g => { g with current := 0 }).recover.game = { u.game with current := 0 } :=
    recover_game_of_none hflight
  have hmodes' := (modes_of_beside hlast).trans hmodes
  have hcensus' := (census_of_beside hlast).trans hcensus
  generalize (u.onGame fun g => { g with current := 0 }).recover = t
    at hpulsing howed htrough hshooter hended hgame hmodes' hcensus' ⊢
  rw [State.GameEnded, flipen_of_idle (by rw [hgame]; exact hphase), hmodes', hcensus', hgame]
  exact ⟨hphase, rfl, rfl, hu.1, hu.2, hoff, hround, hstack, hdeferred, hmulti, hsave, hvalidated, hreturns, hpulsing, howed,
    htrough, hshooter, hended⟩

theorem gameOn_iff : s.gameOn = true ↔ s.game.phase ≠ .idle := by simp [State.gameOn]

/-- A game that evidence has left on ends as the one before it would. -/
theorem State.GameKept.ended (h : q.GameKept s) (i : Option Nat) : q.GameEnded (s.endGame i) := by
  obtain ⟨-, hplayers, hball, -⟩ := h
  have hended := endGame_ended (s := s) i
  rw [State.GameEnded, hplayers, hball] at hended
  exact hended

theorem endGameRequest_of_on (h : s.game.phase ≠ .idle) : endGameRequest [] s = (s.endGame none, .ok []) :=
  if_pos (gameOn_iff.2 h)
theorem endGameRequest_of_idle (h : s.game.phase = .idle) : endGameRequest [] s = (s, .phase) :=
  if_neg (by simp [State.gameOn, h])

/-- Settles O11: the evidence of a SLAM closure leaves the game as R162 needs it, and END_GAME comes with none. -/
theorem slamAndEndGameEndTheGame : Obligations.SlamAndEndGameEndTheGame := by
  refine ⟨fun i s tr hw hc hr hq => ?_, fun tag s hoffers => ⟨fun hon => ?_, fun hidle => ?_⟩⟩
  · have hkept : s.GameKept (((s.handingOn tr).reportSwitch tr).handToDevices tr.switch) :=
      handToDevices_gameKept _ (reportSwitch_gameKept tr
        ((State.GameKept.refl s).of_game (by rw [handingOn_of_quiet tr hq]) (by rw [handingOn_of_quiet tr hq])))
    have hexec : exec (.slamClosure i) s = .next (if (((s.handingOn tr).reportSwitch tr).handToDevices tr.switch).gameOn then
        (((s.handingOn tr).reportSwitch tr).handToDevices tr.switch).endGame (some tr.switch)
        else ((s.handingOn tr).reportSwitch tr).handToDevices tr.switch) :=
      congrArg Host.Outcome.next (handOn_of_waiting s i _ _ tr hw (by simp [hc, hr]))
    refine ⟨fun hon => ?_, fun hidle hlaw => ?_⟩
    · refine ⟨_, hexec, ?_⟩
      rw [if_pos (gameOn_iff.2 fun hp => hon (hkept.idle.1 hp))]
      exact hkept.ended _
    · have hflight : s.game.search.inFlight = none := by
        by_contra hsome
        have hround := hlaw.2 hsome
        have hoff := hlaw.1.2 ⟨by simp [hidle], by simp [hidle]⟩
        rw [hround] at hoff
        cases hoff
      refine ⟨_, hexec, ?_⟩
      rw [if_neg fun hon => gameOn_iff.1 hon (hkept.idle.2 hidle)]
      exact ⟨hkept.same hidle hflight, hkept.modes⟩
  · obtain ⟨l, hl⟩ := request_of_framed 12 tag [] endGameRequest (fun u => u.endGame none) (.ok []) hoffers
      (fun u => by simp) fun l => endGameRequest_of_on hon
    have hended := endGame_ended (s := { s with link := l, time := s.scanner.now }) none
    generalize State.endGame { s with link := l, time := s.scanner.now } none = u at hl hended
    exact ⟨_, congrArg Host.Outcome.next hl, hended, rfl⟩
  · refine congrArg Host.Outcome.next (request_only_answered s 12 tag [] endGameRequest .phase hoffers fun l => ?_)
    exact endGameRequest_of_idle hidle

end Sys2Proof.Machine
end

