-- ==== Sys2Proof/Proofs/FaultEnds.lean ====
section
/-! CLEAR_FAULT (R105): a device in FAULT stands through the arrivals that the request takes, whatever their walks do; with a pause
after each arrival the request comes to the same end (O49). -/

namespace Sys2Proof.Machine

open Sys2Proof

/-- An order that is no SEARCH order. -/
def Order.lasting (o : Order) : Prop := o.reason ≠ .search

variable {d e : Nat} {v : Device} {b : Option Bool} {s t : State}

/-! ### What leaves the devices alone -/

@[simp] theorem onScanner_stands {P : Order → Prop} (f : Scanner → Scanner) :
    (s.onScanner f).Stands P d v b ↔ s.Stands P d v b := stands_of_devices rfl
@[simp] theorem onEngine_stands {P : Order → Prop} (f : Engine → Engine) : (s.onEngine f).Stands P d v b ↔ s.Stands P d v b :=
  stands_of_devices rfl
@[simp] theorem onCensus_stands {P : Order → Prop} (f : Census → Census) : (s.onCensus f).Stands P d v b ↔ s.Stands P d v b :=
  stands_of_devices rfl
@[simp] theorem onGame_stands {P : Order → Prop} (f : Game → Game) : (s.onGame f).Stands P d v b ↔ s.Stands P d v b :=
  stands_of_devices rfl
@[simp] theorem setLocked_stands {P : Order → Prop} (k n : Nat) : (s.setLocked k n).Stands P d v b ↔ s.Stands P d v b :=
  stands_of_devices rfl
@[simp] theorem onCurrent_stands {P : Order → Prop} (f : Player → Player) :
    (s.onCurrent f).Stands P d v b ↔ s.Stands P d v b := stands_of_devices (by simp)
@[simp] theorem addPoints_stands {P : Order → Prop} (n : Nat) : (s.addPoints n).Stands P d v b ↔ s.Stands P d v b :=
  stands_of_devices (by simp)
@[simp] theorem modeStart_stands {P : Order → Prop} (m : Nat) : (s.modeStart m).1.Stands P d v b ↔ s.Stands P d v b :=
  stands_of_devices (by simp)
@[simp] theorem modeStop_stands {P : Order → Prop} (m : Nat) : (s.modeStop m).1.Stands P d v b ↔ s.Stands P d v b :=
  stands_of_devices (by simp)
@[simp] theorem modeProgress_stands {P : Order → Prop} (m : Nat) : (s.modeProgress m).1.Stands P d v b ↔ s.Stands P d v b :=
  stands_of_devices (by simp)
@[simp] theorem appendTrigger_stands {P : Order → Prop} (n : Nat) : (s.appendTrigger n).Stands P d v b ↔ s.Stands P d v b :=
  stands_of_devices (by simp)
@[simp] theorem modesBallEnd_stands {P : Order → Prop} : s.modesBallEnd.Stands P d v b ↔ s.Stands P d v b :=
  stands_of_devices (by simp)
@[simp] theorem saveEnd_stands {P : Order → Prop} (c : Nat) : (s.saveEnd c).Stands P d v b ↔ s.Stands P d v b :=
  stands_of_devices (by simp)
@[simp] theorem multiballRise_stands {P : Order → Prop} : s.multiballRise.Stands P d v b ↔ s.Stands P d v b :=
  stands_of_devices (by simp)
@[simp] theorem startModeOf_stands {P : Order → Prop} (k : Nat) : (s.startModeOf k).Stands P d v b ↔ s.Stands P d v b :=
  stands_of_devices (by simp)
@[simp] theorem multiballEnd_stands {P : Order → Prop} : s.multiballEnd.Stands P d v b ↔ s.Stands P d v b :=
  stands_of_devices multiballEnd_devices
@[simp] theorem clearLatches_stands {P : Order → Prop} (l : List Nat) : (s.clearLatches l).Stands P d v b ↔ s.Stands P d v b :=
  onScanner_stands _
@[simp] theorem matchPoints_stands {P : Order → Prop} (i : Nat) (x : AwardEntry) :
    (s.matchPoints i x).Stands P d v b ↔ s.Stands P d v b := stands_of_devices (by simp)
@[simp] theorem afterWalk_stands {P : Order → Prop} : s.afterWalk.Stands P d v b ↔ s.Stands P d v b :=
  stands_of_devices (by simp)

/-! ### Orders, the census and walks -/

theorem order_stands (r : Reason) (l : Bool) (hr : r ≠ .search) (h : s.Stands Order.lasting d v b) :
    (s.queueOrder e r l).Stands Order.lasting d v b := queueOrder_stands r l (fun _ _ => hr) h
@[simp] theorem serve_stands (l : Bool) (h : s.Stands Order.lasting d v b) :
    (s.queueOrder 0 .serve l).Stands Order.lasting d v b := order_stands .serve l (by decide) h
@[simp] theorem launchServe_stands (h : s.Stands Order.lasting d v b) : s.launchServe.Stands Order.lasting d v b :=
  serve_stands true h
@[simp] theorem returnBall_stands (h : s.Stands Order.lasting d v b) : (s.returnBall e).Stands Order.lasting d v b :=
  order_stands .return false (by decide) h
@[simp] theorem releaseFrom_stands (k w : Nat) (h : s.Stands Order.lasting d v b) :
    (s.releaseFrom k w).1.Stands Order.lasting d v b :=
  repeated_stands _ (fun _ hx => order_stands .release false (by decide) ((setLocked_stands _ _).2 hx)) _ h
@[simp] theorem releaseLocked_stands (w : Nat) (l : List Nat) (h : s.Stands Order.lasting d v b) :
    (s.releaseLocked w l).1.Stands Order.lasting d v b := by
  induction l generalizing s w with
  | nil => exact h
  | cons k l ih => simp [State.releaseLocked, ih, h]
@[simp] theorem serveFromTrough_stands (w : Nat) (h : s.Stands Order.lasting d v b) :
    (s.serveFromTrough w).1.Stands Order.lasting d v b := by
  induction w generalizing s with
  | zero => exact h
  | succ w ih => simp only [State.serveFromTrough]; split <;> simp [ih, h]
@[simp] theorem multiballServe_stands (k : Nat) (h : s.Stands Order.lasting d v b) :
    (s.multiballServe k).1.Stands Order.lasting d v b := by
  unfold State.multiballServe State.servingProcedure; dsimp only; (repeat' split) <;> simp [h]
@[simp] theorem mbStart_stands (k : Nat) (h : s.Stands Order.lasting d v b) : (s.mbStart k).Stands Order.lasting d v b := by
  unfold State.mbStart State.multiballStack State.multiballStart; dsimp only; (repeat' split) <;> simp [h]
@[simp] theorem addBall_stands (h : s.Stands Order.lasting d v b) : s.addBall.Stands Order.lasting d v b := by
  unfold State.addBall; split <;> simp [h]
@[simp] theorem recover_lasting (h : s.Stands Order.lasting d v b) : s.recover.Stands Order.lasting d v b :=
  recover_stands (fun _ => (by decide : Reason.recover ≠ .search)) h
@[simp] theorem toPhase_stands (p : Phase) (h : s.Stands Order.lasting d v b) :
    (s.toPhase p).Stands Order.lasting d v b := by
  unfold State.toPhase State.searchOff State.searchWait
  dsimp only
  (repeat' split) <;> simp [h, dropSearches_stands]
@[simp] theorem ballEnd_stands (h : s.Stands Order.lasting d v b) : s.ballEnd.Stands Order.lasting d v b := by
  simp [State.ballEnd, h]
@[simp] theorem ballLost_stands (h : s.Stands Order.lasting d v b) : s.ballLost.Stands Order.lasting d v b := by
  unfold State.ballLost State.ballEndTest State.multiballFall; (repeat' split) <;> simp [h]
@[simp] theorem drain_stands (h : s.Stands Order.lasting d v b) : s.drain.Stands Order.lasting d v b := by
  unfold State.drain State.saveDrain State.lostDrain; dsimp only; (repeat' split) <;> simp [h]
@[simp] theorem censusArrival_stands (h : s.Stands Order.lasting d v b) :
    (s.censusArrival e).Stands Order.lasting d v b := by
  have hlock : (s.makeLock e).Stands Order.lasting d v b := by
    unfold State.makeLock; dsimp only; (repeat' split) <;> simp [h]
  unfold State.censusArrival State.lockDecision; (repeat' split) <;> simp [h, hlock]
@[simp] theorem act_stands (a : Action) (h : s.Stands Order.lasting d v b) : (s.act a).Stands Order.lasting d v b := by
  unfold State.act; dsimp only; split <;> simp [h]
@[simp] theorem carryOut_stands (i : Nat) (x : AwardEntry) (h : s.Stands Order.lasting d v b) :
    (s.carryOut i x).Stands Order.lasting d v b :=
  foldl_stands _ (fun _ a => act_stands a) _ ((matchPoints_stands i x).2 h)
@[simp] theorem walkChain_stands (g : Edge) (l : List Nat) (h : s.Stands Order.lasting d v b) :
    (s.walkChain g l).Stands Order.lasting d v b := by
  induction l generalizing s with
  | nil => exact h
  | cons i l ih => simp only [State.walkChain]; (repeat' split) <;> simp [ih, h]
@[simp] theorem walk_stands (n : Nat) (g : Edge) (h : s.Stands Order.lasting d v b) :
    (s.walk n g).Stands Order.lasting d v b := by
  simp [State.walk, h]
@[simp] theorem pendingWalk_stands (h : s.Stands Order.lasting d v b) : s.pendingWalk.Stands Order.lasting d v b := by
  unfold State.pendingWalk; (repeat' split) <;> simp [h]
@[simp] theorem finishRoot_stands (h : s.Stands Order.lasting d v b) : s.finishRoot.Stands Order.lasting d v b :=
  repeated_stands _ (fun _ => pendingWalk_stands) _ h
@[simp] theorem directWalk_stands (n : Nat) (g : Edge) (c : Bool) (h : s.Stands Order.lasting d v b) :
    (s.directWalk n g c).Stands Order.lasting d v b := by
  unfold State.directWalk; dsimp only; (repeat' split) <;> simp [h]

/-! ### The current player -/

@[simp] theorem toPhase_current (p : Phase) : (s.toPhase p).game.current = s.game.current :=
  (current_of_beside (toPhase_beside s p)).trans rfl
@[simp] theorem recover_current : s.recover.game.current = s.game.current := current_of_beside (recover_beside s)
@[simp] theorem saveEnd_current (c : Nat) : (s.saveEnd c).game.current = s.game.current := by rw [saveEnd_eq]
@[simp] theorem multiballEnd_current : s.multiballEnd.game.current = s.game.current := by
  rw [multiballEnd_game]; split <;> rfl
@[simp] theorem queueOrder_current (k : Nat) (r : Reason) (l : Bool) : (s.queueOrder k r l).game.current = s.game.current :=
  current_of_turn (queueOrder_turn s k r l)
@[simp] theorem mbStart_current (k : Nat) : (s.mbStart k).game.current = s.game.current := current_of_turn (mbStart_turn s k)
@[simp] theorem addPoints_current (n : Nat) : (s.addPoints n).game.current = s.game.current :=
  current_of_turn (addPoints_turn s n)
@[simp] theorem ballEnd_current : s.ballEnd.game.current = s.game.current := by
  have hmodes : ∀ u : State, u.modesBallEnd.game.current = u.game.current := fun u => by
    rw [(modesBallEnd_stowed (s := u)).game]
  simp [State.ballEnd, hmodes]
@[simp] theorem ballLost_current : s.ballLost.game.current = s.game.current := by
  unfold State.ballLost State.ballEndTest State.multiballFall; (repeat' split) <;> simp
@[simp] theorem drain_current : s.drain.game.current = s.game.current := by
  unfold State.drain State.saveDrain State.lostDrain State.launchServe; dsimp only; (repeat' split) <;> simp
@[simp] theorem censusArrival_current : (s.censusArrival e).game.current = s.game.current := by
  unfold State.censusArrival State.lockDecision State.makeLock State.returnBall; dsimp only; (repeat' split) <;> simp
@[simp] theorem pendingWalk_current : s.pendingWalk.game.current = s.game.current := by
  unfold State.pendingWalk
  (repeat' split) <;> simp [current_of_turn (afterWalk_turn _), current_of_turn (walk_turn _ _ _)]
@[simp] theorem finishRoot_current : s.finishRoot.game.current = s.game.current :=
  repeated_keeps (p := fun x : State => x.game.current = s.game.current) _ (fun _ h => pendingWalk_current.trans h) _ s rfl
@[simp] theorem directWalk_current (n : Nat) (g : Edge) (c : Bool) : (s.directWalk n g c).game.current = s.game.current := by
  unfold State.directWalk
  dsimp only
  (repeat' split) <;> simp [current_of_turn (afterWalk_turn _), current_of_turn (walk_turn _ _ _)]

/-! ### No root begins but with a walk -/

theorem act_root (a : Action) : (s.act a).engine.root = s.engine.root := by
  have h := act_recast (s := s) (l := s.link) a fun _ => transparent_rootedAs s.engine.root
  rw [recast_rootedAs_self] at h
  rw [h]
  rfl
@[simp] theorem mbStart_root (k : Nat) : (s.mbStart k).engine.root = s.engine.root := act_root ⟨.mbStart, k⟩
@[simp] theorem queueOrder_root (k : Nat) (r : Reason) (l : Bool) : (s.queueOrder k r l).engine.root = s.engine.root := by
  rw [engine_of_beside (queueOrder_beside s k r l)]
@[simp] theorem ballEnd_root : s.ballEnd.engine.root = s.engine.root := by
  have hsaved : ∀ (l : List ModeInst) (u : State), (u.saveInstances l).engine = u.engine := fun l => by
    induction l with
    | nil => exact fun _ => rfl
    | cons i l ih => intro u; simp only [State.saveInstances]; split <;> simp [ih]
  have hmodes : ∀ u : State, u.modesBallEnd.engine = u.engine := fun u => by
    unfold State.modesBallEnd; dsimp only; split <;> simp [hsaved, endInstances_engine]
  have hpoints : ∀ (u : State) (k : Nat), (u.addPoints k).engine.root = u.engine.root := fun u k => by
    have h := addPoints_recast u (rootedAs u.engine.root) u.link k
    rw [recast_rootedAs_self] at h
    rw [h]
    rfl
  have hphase : ∀ u : State, (u.toPhase .ballOver).engine = u.engine := fun u => 
    (engine_of_beside (toPhase_beside u .ballOver)).trans rfl
  have hrecover : ∀ u : State, u.recover.engine = u.engine := fun u => engine_of_beside (recover_beside u)
  have hsave : ∀ u : State, (u.saveEnd 4).engine = u.engine := fun u => by rw [saveEnd_eq]
  simp [State.ballEnd, hrecover, hphase, hpoints, hmodes, hsave]
@[simp] theorem ballLost_root : s.ballLost.engine.root = s.engine.root := by
  unfold State.ballLost State.ballEndTest State.multiballFall; (repeat' split) <;> simp [multiballEnd_engine]
@[simp] theorem drain_root : s.drain.engine.root = s.engine.root := by
  have hsave : ∀ u : State, (u.saveEnd 1).engine = u.engine := fun u => by rw [saveEnd_eq]
  unfold State.drain State.saveDrain State.lostDrain State.launchServe; dsimp only; (repeat' split) <;> simp [hsave]
@[simp] theorem censusArrival_root : (s.censusArrival e).engine.root = s.engine.root := by
  unfold State.censusArrival State.lockDecision State.makeLock State.returnBall; dsimp only; (repeat' split) <;> simp

/-! ### One arrival (R94) -/

variable {a : Stamp} {l : List Stamp} {w : PausedWork}

theorem takeArrival_of_due (c : Bool) (ha : (s.device d).arrivals = a :: l) :
    s.takeArrival d c = ((s.arrived d a l).censusArrival d).directWalk (80 + d) .close c := by
  unfold State.takeArrival
  rw [ha]
  rfl

/-- The device `v` once one of its arrivals is taken, with the arrivals `l` left (R94). -/
def Device.taken (v : Device) (l : List Stamp) : Device :=
  { v with arrivals := l, accounted := min (v.accounted + 1) v.settled }

theorem arrived_self (hd : d < 8) : (s.arrived d a l).device d = (s.device d).taken l := by
  have hself := State.onDevice_self s d (fun v => v.taken l) hd
  unfold State.arrived
  dsimp only
  split <;> exact hself

theorem State.Stands.arrivals {P : Order → Prop} (h : s.Stands P d v b) : (s.device d).arrivals = v.arrivals := by
  obtain ⟨more, hv, -⟩ := h.device
  rw [hv]

/-- The root of an arrival ends, by pending walks, where it would end without a pause. -/
theorem takeArrival_ends (ha : (s.device d).arrivals = a :: l) (hr : s.engine.root = none) :
    ∃ m, s.takeArrival d false = repeated State.pendingWalk m (s.takeArrival d true) ∧
      (s.takeArrival d false).engine.root = none ∧
      ∀ j < m, (repeated State.pendingWalk j (s.takeArrival d true)).engine.root.isSome = true := by
  rw [takeArrival_of_due true ha, takeArrival_of_due false ha]
  have hroot : ((s.arrived d a l).censusArrival d).engine.root = none := by rw [censusArrival_root, arrived_engine, hr]
  generalize (s.arrived d a l).censusArrival d = u at hroot ⊢
  by_cases hp : u.inPlay = true
  · obtain ⟨m, -, hfinish, hend, hbefore⟩ := firstWalk_ends hp (80 + d)
    have hfalse := directWalk_false hp (80 + d)
    exact ⟨m, hfalse.trans hfinish, by rw [hfalse, hfinish]; exact hend.root, hbefore⟩
  · have hnone : ∀ c, u.directWalk (80 + d) .close c = u := fun c => if_neg hp
    rw [hnone, hnone]
    exact ⟨0, rfl, hroot, fun j hj => absurd hj (Nat.not_lt_zero j)⟩

/-- An arrival taken leaves the device one more ball accounted for, and one arrival less due. -/
theorem takeArrival_stands (c : Bool) (hd : d < 8) (ha : v.arrivals = a :: l) (h : s.Stands Order.lasting d v none) :
    (s.takeArrival d c).Stands Order.lasting d (v.taken l) none := by
  obtain ⟨hb, hc, hP, ⟨more, hv, hmore⟩, -⟩ := h
  have harrived : (s.arrived d a l).Stands Order.lasting d (v.taken l) none :=
    ⟨hb, hc, hP, ⟨more, by rw [arrived_self hd, hv]; rfl, hmore⟩, by simp⟩
  rw [takeArrival_of_due c (a := a) (l := l) (by rw [hv, ← ha])]
  exact directWalk_stands _ _ _ (censusArrival_stands harrived)
theorem takeArrival_current (c : Bool) : (s.takeArrival d c).game.current = s.game.current := by
  unfold State.takeArrival
  split
  · rfl
  · dsimp only
    rw [directWalk_current, censusArrival_current]
    split <;> rfl

/-! ### All the arrivals due at a device -/

theorem takeArrivals_cons (ha : (s.device d).arrivals = a :: l) (hl : ((s.takeArrival d false).device d).arrivals = l) :
    s.takeArrivals d = (s.takeArrival d false).takeArrivals d := by
  rw [State.takeArrivals, State.takeArrivals, ha, hl]
  rfl

/-- A device that stands comes through its arrivals with every counted ball accounted for. -/
theorem takeArrivals_stands (hd : d < 8) (hv : v.arrivals = l) (hn : v.accounted + l.length = v.settled)
    (h : s.Stands Order.lasting d v none) :
    (s.takeArrivals d).Stands Order.lasting d { v with arrivals := [], accounted := v.settled } none := by
  induction l generalizing s v with
  | nil =>
    have hsame : ({ v with arrivals := [], accounted := v.settled } : Device) = v := by
      cases v
      simp_all
    rw [takeArrivals_of_none s d (h.arrivals.trans hv), hsame]
    exact h
  | cons a l ih =>
    have htaken := takeArrival_stands false hd hv h
    rw [List.length_cons] at hn
    have hone : (v.taken l).accounted + l.length = (v.taken l).settled := by
      simp only [Device.taken]
      omega
    rw [takeArrivals_cons (h.arrivals.trans hv) htaken.arrivals]
    exact ih (v := v.taken l) rfl hone htaken
theorem takeArrivals_current : (s.takeArrivals d).game.current = s.game.current :=
  repeated_keeps (p := fun x : State => x.game.current = s.game.current) _ (fun _ h => (takeArrival_current false).trans h) _ s rfl

/-! ### The same with a pause after each arrival (R70) -/

/-- The work `w` pauses. -/
def State.pauses (s : State) (w : PausedWork) : State := s.recast (pausedAs (some w)) s.link

theorem idle_pauses (m : Nat) (h : ∀ j < m, (repeated State.pendingWalk j s).engine.root.isSome = true) :
    repeated State.idle m (s.pauses w) = (repeated State.pendingWalk m s).pauses w := by
  have hlink : (repeated State.pendingWalk m s).link = s.link :=
    State.link_of_frame (repeated_frame s _ State.pendingWalk_frame m)
  rw [State.pauses, State.pauses, hlink]
  exact repeated_idle_pausedAs _ _ m h
theorem pauses_resume {x : Stamp} (hr : s.engine.root = none) (hn : s.engine.paused = none) :
    (s.pauses (.clearFault d x)).idle = let t := s.faultArrivals true d x
      if t.inHand then t else t.answerInHand [0] := by
  have hback : (s.pauses (.clearFault d x)).onEngine (fun c => { c with paused := none }) = s := by
    simp [State.pauses, State.recast, State.onEngine, pausedAs, ← hn]
  have hroot : (s.pauses (.clearFault d x)).engine.root = none := hr
  have hpaused : (s.pauses (.clearFault d x)).engine.paused = some (.clearFault d x) := rfl
  rw [State.idle, hroot, hpaused, if_neg (by decide), if_pos (by rfl), resume_clearFault _ true d x hpaused, hback]

/-- With an arrival due the request stays in hand after it. -/
theorem faultArrivals_of_due {x : Stamp} (ha : (s.device d).arrivals ≠ []) :
    s.faultArrivals true d x = (s.takeArrival d true).pauses (.clearFault d x) := by
  unfold State.faultArrivals
  rw [arrivalsWithin_true s _ d ha]
  rfl

/-- Idle steps take the arrivals that are left, one after another. -/
theorem idle_arrivals {x : Stamp} (hd : d < 8) (hv : v.arrivals = a :: l) (hr : s.engine.root = none)
    (hn : s.engine.paused = none) (h : s.Stands Order.lasting d v none) :
    ∃ n, repeated State.idle n ((s.takeArrival d true).pauses (.clearFault d x)) = (s.takeArrivals d).pauses (.clearFault d x) ∧
      (s.takeArrivals d).engine.root = none := by
  induction l generalizing s v a with
  | nil =>
    have ha := h.arrivals.trans hv
    have hleft := (takeArrival_stands false hd hv h).arrivals
    obtain ⟨m, hfalse, hroot, hbefore⟩ := takeArrival_ends ha hr
    have hall : s.takeArrivals d = s.takeArrival d false := by
      rw [takeArrivals_cons ha hleft, takeArrivals_of_none _ d hleft]
    exact ⟨m, by rw [hall, hfalse, idle_pauses m hbefore], by rw [hall, hroot]⟩
  | cons a' l ih =>
    have ha := h.arrivals.trans hv
    have htaken := takeArrival_stands false hd hv h
    have hleft := htaken.arrivals
    obtain ⟨m, hfalse, hroot, hbefore⟩ := takeArrival_ends ha hr
    have hpaused : (s.takeArrival d false).engine.paused = none :=
      (paused_of_frame (State.takeArrival_frame s d false)).trans hn
    obtain ⟨n, hidle, hend⟩ := ih (v := v.taken (a' :: l)) rfl hroot hpaused htaken
    have hnext := pauses_resume (d := d) (x := x) hroot hpaused
    rw [faultArrivals_of_due (by rw [hleft]; exact List.cons_ne_nil _ _)] at hnext
    rw [takeArrivals_cons ha hleft]
    refine ⟨m + (1 + n), ?_, hend⟩
    rw [repeated_add, idle_pauses m hbefore, ← hfalse, repeated_add, repeated, repeated, hnext]
    exact hidle

/-! ### The end of a FAULT by the host (R105, R112) -/

/-- The record of a FAULT that the host has ended. -/
def State.clearedRecord (s : State) (d : Nat) (x : Stamp) : EventRecord := ⟨.deviceFaultCleared, s.game.current, d, x, 0, 0⟩

/-- What the end of a FAULT leaves: the device in EJECT_WAIT, with its counts, and FAULT_CLEARED ahead of other records. -/
structure State.Restarted (d : Nat) (x : Stamp) (v : Device) (s t : State) : Prop where
  state : (t.device d).state = .ejectWait
  retries : (t.device d).retries = 0
  accounted : (t.device d).accounted = v.accounted
  settled : (t.device d).settled = v.settled
  events : ∃ after, t.events = List.foldl appendEvent (appendEvent s.events (s.clearedRecord d x)) after
  alone : s.ballOn = true → t.events = appendEvent s.events (s.clearedRecord d x)

theorem ball_of_ballOn (h : s.ballOn = true) : s.game.phase ≠ .idle ∧ s.game.phase ≠ .ballOver := by
  rw [State.ballOn, State.inPlay] at h
  constructor <;> intro hp <;> rw [hp] at h <;> exact absurd h (by decide)

/-- Device `d` in EJECT_WAIT for the head order that its FAULT held up. -/
def State.waitsAgain (s : State) (d : Nat) (x : Stamp) : State :=
  ((s.at x).onDevice d fun v => { v with retries := 0, state := .idle }).enterEjectWait d

theorem waitsAgain_device (x : Stamp) (hd : d < 8) :
    (s.waitsAgain d x).device d = { s.device d with retries := 0, state := .ejectWait } := by
  have hself : ((s.at x).onDevice d fun v => { v with retries := 0, state := .idle }).device d =
      { s.device d with retries := 0, state := .idle } := State.onDevice_self _ _ _ hd
  rw [State.waitsAgain, enterEjectWait_device, if_pos ⟨rfl, hd⟩, hself]
theorem waitsAgain_emit (x : Stamp) : ((s.waitsAgain d x).emit .deviceFaultCleared d 0 0).events =
    appendEvent s.events (s.clearedRecord d x) := by
  simp [State.emit, State.emitFor, State.waitsAgain, State.clearedRecord]
theorem faultCleared_of_queue (x : Stamp) (hd : d < 8) (hf : (s.device d).state = .fault) (hq : (s.device d).queue ≠ []) :
    s.faultCleared d x = ((s.waitsAgain d x).emit .deviceFaultCleared d 0 0).settleDevices := by
  have hself : ((s.at x).onDevice d fun v => { v with retries := 0, state := .idle }).device d =
      { s.device d with retries := 0, state := .idle } := State.onDevice_self _ _ _ hd
  unfold State.faultCleared
  rw [if_pos hf]
  dsimp only
  rw [if_neg (by simpa [hself] using hq)]
  rfl

theorem faultCleared_restarted (x : Stamp) (hd : d < 8) (hf : v.state = .fault) (hq : v.queue ≠ [])
    (h : s.Stands Order.lasting d v none) : s.Restarted d x v (s.faultCleared d x) := by
  obtain ⟨more, hv, -⟩ := h.device
  have hqueue : (s.device d).queue ≠ [] := by rw [hv]; simp [hq]
  have hdevice : ((s.waitsAgain d x).emit .deviceFaultCleared d 0 0).device d =
      { s.device d with retries := 0, state := .ejectWait } := waitsAgain_device x hd
  have hevents := waitsAgain_emit (s := s) (d := d) x
  have hgame : (s.waitsAgain d x).game = s.game := enterEjectWait_game _ d
  rw [faultCleared_of_queue x hd (h.state.trans hf) hqueue]
  generalize hu : (s.waitsAgain d x).emit .deviceFaultCleared d 0 0 = u at hdevice hevents ⊢
  have hphase : u.game = s.game := by rw [← hu]; exact hgame
  have hsettled : u.settleDevices.Stands Order.lasting d (u.device d) none :=
    settleDevices_stands (fun _ => (by decide : Reason.recover ≠ .search)) (by simp)
      (stands_refl (by rw [hdevice]; exact DeviceState.noConfusion) (by rw [hdevice]; exact h.searchWaits) (by simp) fun _ => id)
  have hlogged : u.settleDevices.Logged u.events := settleDevices_logged logged_self
  obtain ⟨-, hcount, haccounted, -, -, hretries, -⟩ := tally_eq_iff.1 hsettled.tally
  obtain ⟨-, hcount', haccounted', -⟩ := tally_eq_iff.1 h.tally
  exact {
    state := hsettled.state.trans (congrArg Device.state hdevice)
    retries := hretries.trans (congrArg Device.retries hdevice)
    accounted := haccounted.trans ((congrArg Device.accounted hdevice).trans haccounted')
    settled := hcount.trans ((congrArg Device.settled hdevice).trans hcount')
    events := by
      obtain ⟨after, hafter⟩ := hlogged
      exact ⟨after, by rw [hafter, hevents]⟩
    alone := fun hball => by rw [settleDevices_events (hphase ▸ ball_of_ballOn hball), hevents] }

/-! ### The request in hand -/

/-- With no arrival due the FAULT is over at once. -/
theorem faultArrivals_of_none {x : Stamp} (c : Bool) (hn : s.engine.paused = none) (ha : (s.device d).arrivals = []) :
    s.faultArrivals c d x = s.faultCleared d x := by
  unfold State.faultArrivals
  rw [arrivalsWithin_of_none s c _ d ha]
  dsimp only
  rw [hn]
  rfl

/-- A CLEAR_FAULT in hand with no arrival left ends with an idle step. -/
theorem idle_faultEnd {x : Stamp} (hr : s.engine.root = none) (hn : s.engine.paused = none) (ha : (s.device d).arrivals = []) :
    (s.pauses (.clearFault d x)).idle = (s.faultCleared d x).answerInHand [0] := by
  have hkept : (s.faultCleared d x).inHand = false :=
    inHand_of_none _ ((paused_of_frame (State.faultCleared_frame s d x)).trans hn)
  rw [pauses_resume hr hn, faultArrivals_of_none true hn ha]
  dsimp only
  rw [hkept]
  rfl

theorem answerInHand_reply {q : Request} (hw : firstWaiting s.link.slots = some q) : s.answerInHand [0] = s.reply q (.ok []) :=
  answerInHand_of_waiting s q _ hw

theorem clearFault_of_device (c : Bool) {y : Byte} (hy : y.toNat < 8) :
    clearFault c [y] s = (s.faultClear c y.toNat, .ok []) := by
  have hrange : deviceField [y] = none := by
    simp [deviceField, firstBad, byteAt, fieldAt, leNat, Config.deviceCount, hy]
  unfold clearFault State.checked
  rw [hrange]
  rfl
theorem faultClear_of_other (c : Bool) (h : (s.device d).state ≠ .fault) : s.faultClear c d = s := if_neg h

/-- The held rises of the device become arrivals (R105). -/
def State.risesDue (s : State) (d : Nat) : State := s.dueArrivals d ((s.device d).settled - (s.device d).accounted)

theorem faultClear_of_fault (c : Bool) (hf : (s.device d).state = .fault) (hq : s.quietEngine = true)
    (hx : s.time = s.scanner.now) : s.faultClear c d = (s.risesDue d).faultArrivals c d s.time := by
  have hnow : s.atNow = s := by rw [State.atNow, State.at, ← hx]
  rw [State.faultClear, if_pos hf, catchUp_of_quiet s hq, hnow]
  rfl

theorem risesDue_device (hd : d < 8) : (s.risesDue d).device d = { s.device d with
    accounted := (s.device d).settled - ((s.device d).settled - (s.device d).accounted)
    arrivals := List.replicate ((s.device d).settled - (s.device d).accounted) s.time } := State.onDevice_self _ _ _ hd
theorem risesDue_stands (hd : d < 8) (hf : (s.device d).state = .fault) (hw : (s.device d).searchWaits = false) :
    (s.risesDue d).Stands Order.lasting d ((s.risesDue d).device d) none :=
  stands_refl (by rw [risesDue_device hd]; exact fun h => absurd (hf.symm.trans h) (by decide))
    (by rw [risesDue_device hd]; exact hw) (by simp) fun _ => id

/-- The arrivals of the held rises leave the device as it was, with every counted ball accounted for. -/
theorem risesDue_taken (hd : d < 8) (hf : (s.device d).state = .fault) (hw : (s.device d).searchWaits = false) :
    ((s.risesDue d).takeArrivals d).Stands Order.lasting d
      { s.device d with arrivals := [], accounted := (s.device d).settled } none := by
  have hdevice := risesDue_device (s := s) hd
  have htaken := takeArrivals_stands hd rfl (by rw [hdevice, List.length_replicate]; dsimp only; omega)
    (risesDue_stands hd hf hw)
  rw [hdevice] at htaken
  exact htaken

/-- A CLEAR_FAULT handed on comes to the same end with a pause after each arrival as without one. -/
theorem faultClear_both {q : Request} (hd : d < 8) (hf : (s.device d).state = .fault) (hq : s.quietEngine = true)
    (hx : s.time = s.scanner.now) (hw : (s.device d).searchWaits = false) (hs : firstWaiting s.link.slots = some q) :
    s.faultClear false d = ((s.risesDue d).takeArrivals d).faultCleared d s.time ∧ (s.faultClear false d).inHand = false ∧
      ∃ t', (if (s.faultClear true d).inHand then s.faultClear true d else (s.faultClear true d).reply q (.ok [])) = t' ∧
        t'.inHand = decide ((s.device d).accounted < (s.device d).settled) ∧
        ∃ n, repeated State.idle n t' = (s.faultClear false d).reply q (.ok []) := by
  obtain ⟨hroot, hpaused, -⟩ := quietEngine_parts hq
  have hbreath : ∀ c, s.faultClear c d = (s.risesDue d).faultArrivals c d s.time := fun c => faultClear_of_fault c hf hq hx
  have hrises : (s.risesDue d).engine.paused = none := hpaused
  have htaken : ((s.risesDue d).takeArrivals d).engine.paused = none :=
    (paused_of_frame (State.takeArrivals_frame _ d)).trans hpaused
  have hfalse : s.faultClear false d = ((s.risesDue d).takeArrivals d).faultCleared d s.time := by
    rw [hbreath]
    unfold State.faultArrivals
    rw [arrivalsWithin_false]
    dsimp only
    rw [htaken]
    rfl
  have hkept : (((s.risesDue d).takeArrivals d).faultCleared d s.time).inHand = false :=
    inHand_of_none _ ((paused_of_frame (State.faultCleared_frame _ d _)).trans htaken)
  rw [hfalse, hbreath]
  refine ⟨rfl, hkept, _, rfl, ?_⟩
  have harrivals : ((s.risesDue d).device d).arrivals =
      List.replicate ((s.device d).settled - (s.device d).accounted) s.time := congrArg Device.arrivals (risesDue_device hd)
  cases hk : (s.device d).settled - (s.device d).accounted with
  | zero =>
    rw [hk] at harrivals
    have hnone : (s.risesDue d).takeArrivals d = s.risesDue d := takeArrivals_of_none _ d harrivals
    rw [hnone] at hkept ⊢
    rw [faultArrivals_of_none true hrises harrivals, hkept]
    exact ⟨hkept.trans (decide_eq_false (by omega)).symm, 0, rfl⟩
  | succ k =>
    rw [hk] at harrivals
    have hdue : ((s.risesDue d).device d).arrivals ≠ [] := by rw [harrivals]; exact List.cons_ne_nil _ _
    have hstays : ((s.risesDue d).faultArrivals true d s.time).inHand = true := by
      rw [faultArrivals_of_due hdue]
      rfl
    obtain ⟨n, hidle, hend⟩ := idle_arrivals (s := s.risesDue d) (x := s.time) hd harrivals hroot hpaused
      (risesDue_stands hd hf hw)
    rw [if_pos hstays]
    refine ⟨hstays.trans (decide_eq_true (by omega)).symm, n + 1, ?_⟩
    have hslots : (((s.risesDue d).takeArrivals d).faultCleared d s.time).link = s.link :=
      (State.link_of_frame (State.faultCleared_frame _ d _)).trans
        ((State.link_of_frame (State.takeArrivals_frame (s.risesDue d) d)).trans rfl)
    rw [faultArrivals_of_due hdue, repeated_add, hidle, repeated, repeated,
      idle_faultEnd hend htaken (risesDue_taken hd hf hw).arrivals, answerInHand_reply (by rw [hslots]; exact hs)]

/-- Where the request comes to: FAULT_CLEARED stands behind the records of the arrivals, and alone where there are none. -/
theorem faultClear_restarted (hd : d < 8) (hf : (s.device d).state = .fault)
    (hw : (s.device d).searchWaits = false) (hqueue : (s.device d).queue ≠ []) :
    ∃ before, ((s.risesDue d).takeArrivals d).events = List.foldl appendEvent s.events before ∧
      ((s.risesDue d).takeArrivals d).clearedRecord d s.time = s.clearedRecord d s.time ∧
      ((s.device d).settled ≤ (s.device d).accounted → (s.risesDue d).takeArrivals d = s.risesDue d) ∧
      ((s.risesDue d).takeArrivals d).Restarted d s.time { s.device d with arrivals := [], accounted := (s.device d).settled }
        (((s.risesDue d).takeArrivals d).faultCleared d s.time) := by
  have hlogged : ((s.risesDue d).takeArrivals d).Logged s.events := takeArrivals_logged (s := s.risesDue d) d logged_self
  obtain ⟨before, hbefore⟩ := hlogged
  have hcurrent : ((s.risesDue d).takeArrivals d).game.current = s.game.current := takeArrivals_current
  refine ⟨before, hbefore, by rw [State.clearedRecord, hcurrent, State.clearedRecord], fun hle => ?_,
    faultCleared_restarted s.time hd hf hqueue (risesDue_taken hd hf hw)⟩
  refine takeArrivals_of_none _ d ?_
  rw [risesDue_device hd, Nat.sub_eq_zero_of_le hle]
  rfl

variable {tag x : Byte}

/-- CLEAR_FAULT in the state in which it is handed on. -/
theorem clearFault_handedOn (hx : x.toNat < 8) (ho : s.Offers ⟨18, tag, [x]⟩) : ∃ l,
    firstWaiting l.slots = some ⟨18, tag, [x]⟩ ∧
    (∀ y : State, y.link = l → y.reply ⟨18, tag, [x]⟩ (.ok []) = { y with link := s.answeredLink ⟨18, tag, [x]⟩ [0] }) ∧
    ∀ c, exec (.clearFault tag ⟨[x], c⟩) s = .next (
      let y := State.faultClear c { s with link := l, time := s.scanner.now } x.toNat
      if y.inHand then y else y.reply ⟨18, tag, [x]⟩ (.ok [])) := by
  obtain ⟨l, he, hslots, hl⟩ := toHandOn_waiting ho
  refine ⟨l, hslots, fun y hy => ?_, fun c => congrArg Host.Outcome.next ?_⟩
  · rw [State.reply, State.onLink, hy, hl]
    rfl
  · simp only [State.request, he, clearFault_of_device c hx]

theorem clearFault_of_idle (hx : x.toNat < 8) (c : Bool) (ho : s.Offers ⟨18, tag, [x]⟩)
    (hf : (s.device x.toNat).state ≠ .fault) :
    exec (.clearFault tag ⟨[x], c⟩) s = .next (s.onlyAnswered ⟨18, tag, [x]⟩ [0]) := by
  obtain ⟨l, -, hreply, hexec⟩ := clearFault_handedOn hx ho
  have hsame : State.faultClear c { s with link := l, time := s.scanner.now } x.toNat =
      { s with link := l, time := s.scanner.now } := faultClear_of_other c hf
  have hhand : State.inHand { s with link := l, time := s.scanner.now } = false := ho.2.1
  rw [hexec, hsame]
  dsimp only
  rw [hhand, if_neg (by decide), hreply _ rfl]
  rfl

/-- A request in hand with no arrival left, whatever scans have been made since, ends with an idle step (R105, R112). -/
theorem idle_clearFault {q : Request} {stamp : Stamp} (hd : d < 8) (hr : s.engine.root = none)
    (hw : s.engine.paused = some (.clearFault d stamp)) (hs : firstWaiting s.link.slots = some q)
    (hf : (s.device d).state = .fault) (ha : (s.device d).arrivals = []) (hq : (s.device d).queue ≠ [])
    (hwait : (s.device d).searchWaits = false) : ∃ u : State, s.idle = u.reply q (.ok []) ∧ u.inHand = false ∧
      u.link = s.link ∧ s.Restarted d stamp (s.device d) u := by
  have hpaused : (s.onEngine (pausedAs none)).pauses (.clearFault d stamp) = s := by
    simp [State.pauses, State.recast, State.onEngine, pausedAs, ← hw]
  have hidle := idle_faultEnd (s := s.onEngine (pausedAs none)) (x := stamp) hr rfl ha
  have hframe := State.faultCleared_frame (s.onEngine (pausedAs none)) d stamp
  have hlink : ((s.onEngine (pausedAs none)).faultCleared d stamp).link = s.link :=
    (State.link_of_frame hframe).trans rfl
  have hstands : s.Stands Order.lasting d (s.device d) none :=
    stands_refl (fun h => absurd (hf.symm.trans h) (by decide)) hwait (by simp) fun _ => id
  have hrestarted := faultCleared_restarted stamp hd hf hq ((onEngine_stands (pausedAs none)).2 hstands)
  rw [hpaused, answerInHand_reply (q := q) (by rw [hlink]; exact hs)] at hidle
  obtain ⟨hstate, hretries, haccounted, hsettled, hevents, halone⟩ := hrestarted
  exact ⟨_, hidle, inHand_of_none _ (paused_of_frame hframe), hlink,
    ⟨hstate, hretries, haccounted, hsettled, hevents, halone⟩⟩

/-- Settles O49: the device stands through its arrivals, and the FAULT is over once they are taken. -/
theorem clearFaultRestarts : Obligations.ClearFaultRestarts := by
  intro tag x b s hx
  refine ⟨fun ho => ⟨clearFault_of_idle hx b ho, fun hf hq hqueue hwait => ?_⟩, fun stamp hp hr hw hs hf ha hq hwait => ?_⟩
  · obtain ⟨l, hslots, hreply, hexec⟩ := clearFault_handedOn hx ho
    generalize hy : ({ s with link := l, time := s.scanner.now } : State) = y at hexec
    have hydevice : y.device x.toNat = s.device x.toNat := by rw [← hy]; rfl
    have hyquiet : y.quietEngine = true := by rw [← hy]; exact hq
    have hylink : y.link = l := by rw [← hy]
    have hytime : y.time = s.scanner.now := by rw [← hy]
    have hynow : y.time = y.scanner.now := by rw [← hy]
    have hyevents : y.events = s.events := by rw [← hy]
    have hyrecord : y.clearedRecord x.toNat s.scanner.now = s.clearedRecord x.toNat s.scanner.now := by rw [← hy]; rfl
    have hyball : y.ballOn = s.ballOn := by rw [← hy]; rfl
    rw [← hydevice] at hf hqueue hwait ⊢
    obtain ⟨hfalse, hhand, t', htrue, hstays, hidle⟩ := faultClear_both hx hf hyquiet hynow hwait (hylink ▸ hslots)
    obtain ⟨before, hbefore, hrecord, hnone, hrestarted⟩ := faultClear_restarted hx hf hwait hqueue
    have hlink : (y.faultClear false x.toNat).link = l := by
      rw [hfalse]
      exact (State.link_of_frame (State.faultCleared_frame _ _ _)).trans
        ((State.link_of_frame (State.takeArrivals_frame (y.risesDue x.toNat) _)).trans hylink)
    have hfinal := hexec false
    have hpausing := hexec true
    dsimp only at hfinal hpausing
    rw [hhand, if_neg (by decide)] at hfinal
    rw [htrue] at hpausing
    rw [← hfalse] at hrestarted
    rw [hytime] at hrecord hrestarted
    refine ⟨_, hfinal, ?_, hrestarted.state, hrestarted.retries, ?_, ?_, ?_, ?_, t', hpausing, hstays, hidle⟩
    · rw [hreply _ hlink]
    · exact hrestarted.accounted.trans hrestarted.settled.symm
    · exact hrestarted.settled
    · obtain ⟨after, hafter⟩ := hrestarted.events
      refine ⟨before, after, hafter.trans ?_⟩
      rw [hbefore, hrecord, hyrecord, hyevents, List.foldl_append, List.foldl_append]
      rfl
    · intro hle hball
      have halone := hrestarted.alone (by rw [hnone hle]; exact hyball.trans hball)
      rw [hnone hle] at halone
      refine halone.trans ?_
      show appendEvent y.events (y.clearedRecord x.toNat s.scanner.now) = _
      rw [hyevents, hyrecord]
      rfl
  · obtain ⟨u, hidle, hhand, hlink, hrestarted⟩ := idle_clearFault hx hr hw hs hf ha hq hwait
    have hstep : step s = .next s.idle := by
      unfold step
      rw [hp]
    have hanswered : (u.reply ⟨18, tag, [x]⟩ (.ok [])).link = s.answeredLink ⟨18, tag, [x]⟩ [0] := by
      simp only [State.reply, State.onLink, hlink, State.answeredLink, answered, hs]
      rfl
    exact ⟨u.reply ⟨18, tag, [x]⟩ (.ok []), hstep.trans (congrArg _ hidle), hhand, hanswered, hrestarted.state,
      hrestarted.retries, hrestarted.events, hrestarted.alone⟩

end Sys2Proof.Machine
end

