-- ==== Sys2Proof/Proofs/DevicePayloads.lean ====
section
/-! The payload of SET_DEVICE (section 12.2.2): that of a record in its ranges is cut into that record's fields, passes the checks
of R89, and is stored as it stands. -/

namespace Sys2Proof.Machine

open Sys2Proof

/-! ### Reading a payload from front to back -/

section reading
variable {p rest : List Byte} {k w : Nat}

theorem fieldAt_of_drop {n : Nat} (hn : n < 256 ^ w) (h : p.drop k = leBytes w n ++ rest) : fieldAt p k w = n := by
  have hfield := fieldAt_leBytes_append w n rest
  rw [← h, Nat.mod_eq_of_lt hn] at hfield
  simpa [fieldAt] using hfield
theorem drop_of_drop {l : List Byte} (h : p.drop k = l ++ rest) : p.drop (k + l.length) = rest := by
  rw [← List.drop_drop, h, List.drop_left]

/-- The mark `m` shows whether `x` is there, and `x` is its value. -/
structure Marked.Shows (m : Marked) (x : Option Nat) : Prop where
  mark : m.mark = if x.isSome then 1 else 0
  value : m.value = x

theorem Marked.Shows.isMark {m : Marked} {x : Option Nat} (h : m.Shows x) : isMark m.mark = true := by
  rw [h.mark]
  cases x <;> rfl

/-- A marked field is read where it begins, and tells where the next one does. -/
theorem markedAt_of_drop {m : Marked} {x : Option Nat} (hm : m = markedAt p k w) (hx : ∀ n ∈ x, n < 256 ^ w)
    (h : p.drop k = optional x (leBytes w) ++ rest) : m.Shows x ∧ p.drop m.next = rest := by
  rw [hm]
  cases x with
  | none =>
    have hmark : byteAt p k = 0 := fieldAt_of_drop (w := 1) (by decide) (h.trans (List.append_assoc ..))
    have hnext := drop_of_drop h
    rw [markedAt, if_pos hmark]
    exact ⟨⟨rfl, rfl⟩, hnext⟩
  | some n =>
    have hsplit : p.drop k = u8 1 ++ (leBytes w n ++ rest) := by rw [h]; simp [optional, mark]
    have hmark : byteAt p k = 1 := fieldAt_of_drop (w := 1) (by decide) hsplit
    have hbehind : p.drop (k + 1) = leBytes w n ++ rest := drop_of_drop hsplit
    have hvalue := fieldAt_of_drop (hx n rfl) hbehind
    have hnext := drop_of_drop hbehind
    rw [leBytes_length] at hnext
    rw [markedAt, if_neg (by rw [hmark]; decide), hmark, hvalue]
    exact ⟨⟨rfl, rfl⟩, hnext⟩

/-- A byte that stands where a payload goes on. -/
theorem byteAt_of_drop {b n : Nat} (hb : b = byteAt p k) (hn : n < 256) (h : p.drop k = u8 n ++ rest) :
    b = n ∧ p.drop (k + 1) = rest :=
  ⟨hb.trans (fieldAt_of_drop (w := 1) hn h), drop_of_drop h⟩

/-- Switch numbers read back from their bytes. -/
theorem toNat_flatMap {l : List Nat} (h : ∀ i ∈ l, i < 256) : (l.flatMap u8).map BitVec.toNat = l := by
  induction l with
  | nil => rfl
  | cons i l ih =>
    have hi : i % 256 = i := Nat.mod_eq_of_lt (h i List.mem_cons_self)
    simp [u8, leBytes, hi, ih fun j hj => h j (List.mem_cons_of_mem i hj)]
end reading

/-! ### A record in its ranges -/

/-- What a record that is in its ranges for device `d` satisfies (R87, R88, R89). -/
structure DeviceRecord.Loadable (r : DeviceRecord) (d : Nat) : Prop where
  role : r.role ≠ .unused
  roleOk : deviceRoleOk d r.role.code = true
  profile : r.profile ≤ 14
  coil : r.coil < 8
  count : r.positions.length ≤ mostBalls d
  positions : ∀ i ∈ r.positions, i < 72
  once : r.positions.Nodup
  entrySwitch : r.ballSwitchOk r.entrySwitch = true
  exitSwitch : r.ballSwitchOk r.exitSwitch = true
  counting : r.overrides.counting = none ∨ r.profile = 14
  overrides : r.overrides.inRange d (r.methodGiven == some .positions) = true
  switches : r.switchesOk = true
  keep : r.role = .lock ∨ r.keep = false ∧ r.keepLimit = none
  keepLimit : ∀ n ∈ r.keepLimit, n ≤ r.figures.capacity - 1

variable {r : DeviceRecord} {d : Nat}

theorem deviceLoadable_of_inRange (h : r.inRange d = true) : r.Loadable d := by
  simp only [DeviceRecord.inRange, Bool.and_eq_true, Bool.or_eq_true, bne_iff_ne, beq_iff_eq, decide_eq_true_eq,
    List.all_eq_true, Option.isNone_iff_eq_none, Bool.not_eq_true', Option.all_eq_true] at h
  obtain ⟨⟨⟨⟨⟨⟨⟨⟨⟨⟨⟨⟨⟨hrole, hok⟩, hprofile⟩, hcoil⟩, hcount⟩, hpositions⟩, honce⟩, hentry⟩, hexit⟩, hcounting⟩, hover⟩,
    hswitches⟩, hkeep⟩, hlimit⟩ := h
  exact ⟨hrole, hok, hprofile, hcoil, hcount, hpositions, honce, hentry, hexit, hcounting, hover, hswitches, hkeep, hlimit⟩

theorem within_iff {lo hi : Nat} {x : Option Nat} : within lo hi x = true ↔ ∀ n ∈ x, lo ≤ n ∧ n ≤ hi := by
  simp [within, Option.all_eq_true]

/-- The figures that a record overrides lie in the ranges of R88. -/
structure Overrides.Bounded (o : Overrides) (d : Nat) (positions : Bool) : Prop where
  capacity : if positions then ∀ n ∈ o.capacity, n ≤ 255 else ∀ n ∈ o.capacity, 1 ≤ n ∧ n ≤ mostBalls d
  pulse : ∀ n ∈ o.pulse, 5 ≤ n ∧ n ≤ 100
  settle : ∀ n ∈ o.settle, 50 ≤ n ∧ n ≤ 2000
  confirm : ∀ n ∈ o.confirm, 200 ≤ n ∧ n ≤ 5000
  retryInterval : ∀ n ∈ o.retryInterval, 200 ≤ n ∧ n ≤ 3000
  retryLimit : ∀ n ∈ o.retryLimit, n ≤ 7
  holdOff : ∀ n ∈ o.holdOff, n ≤ 5000

theorem bounded_of_inRange {o : Overrides} {b : Bool} (h : o.inRange d b = true) : o.Bounded d b := by
  simp only [Overrides.inRange, Bool.and_eq_true, within_iff, Nat.zero_le, true_and] at h
  obtain ⟨⟨⟨⟨⟨⟨hcapacity, hpulse⟩, hsettle⟩, hconfirm⟩, hinterval⟩, hlimit⟩, hoff⟩ := h
  refine ⟨?_, hpulse, hsettle, hconfirm, hinterval, hlimit, hoff⟩
  cases b <;> simpa [within_iff] using hcapacity

theorem mostBalls_le : mostBalls d ≤ 8 := by
  unfold mostBalls
  split <;> decide
theorem Overrides.Bounded.capacity_lt {o : Overrides} {b : Bool} (h : o.Bounded d b) : ∀ n ∈ o.capacity, n < 256 := by
  intro n hn
  have hmost := mostBalls_le (d := d)
  have hcapacity := h.capacity
  split at hcapacity
  · have := hcapacity n hn
    omega
  · have := hcapacity n hn
    omega

/-- A keep limit is carried by one byte. -/
theorem DeviceRecord.Loadable.keepLimit_lt (h : r.Loadable d) : ∀ n ∈ r.keepLimit, n < 256 := by
  intro n hn
  have hprofile : ∀ k, (profileFigures k).capacity ≤ 8 := fun k => by
    unfold profileFigures
    split <;> decide
  have hlimit := h.keepLimit n hn
  have hcount := h.count
  have hmost := mostBalls_le (d := d)
  have hcapacity : r.figures.capacity ≤ 255 := by
    simp only [DeviceRecord.figures]
    split
    · omega
    · cases hc : r.overrides.capacity with
      | none => exact (hprofile _).trans (by decide)
      | some c => exact Nat.le_of_lt_succ ((bounded_of_inRange h.overrides).capacity_lt c hc)
  omega
theorem DeviceRecord.Loadable.ballSwitch_lt {x : Option Nat} (h : r.ballSwitchOk x = true) : ∀ i ∈ x, i < 256 := by
  intro i hi
  simp only [DeviceRecord.ballSwitchOk, Option.all_eq_true, Bool.and_eq_true, decide_eq_true_eq] at h
  have := (h i hi).1
  rw [Config.switchCount] at this
  omega

theorem countingOfCode_code (c : Counting) : c.code < 3 ∧ countingOfCode c.code = c := by cases c <;> exact ⟨by decide, rfl⟩
theorem deviceRoleOfCode_code (x : DeviceRole) : x.code < 5 ∧ deviceRoleOfCode x.code = x := by
  cases x <;> exact ⟨by decide, rfl⟩

/-! ### The payload of a record (section 12.2.2) -/

/-- The fields `f` are those of record `r` for device `d`. -/
structure DevicePayload.Carries (f : DevicePayload) (r : DeviceRecord) (d : Nat) : Prop where
  device : f.device = d
  role : f.role = r.role.code
  profile : f.profile = r.profile
  coil : f.coil = r.coil
  autoRetry : f.autoRetry = if r.autoRetry then 1 else 0
  keep : f.keep = if r.keep then 1 else 0
  keepLimit : f.keepLimit.Shows r.keepLimit
  report : f.report = if r.reportArrivals then 1 else 0
  entrySwitch : f.entrySwitch.Shows r.entrySwitch
  exitSwitch : f.exitSwitch.Shows r.exitSwitch
  counting : f.counting.Shows (r.overrides.counting.map Counting.code)
  capacity : f.capacity.Shows r.overrides.capacity
  pulse : f.pulse.Shows r.overrides.pulse
  settle : f.settle.Shows r.overrides.settle
  confirm : f.confirm.Shows r.overrides.confirm
  retryInterval : f.retryInterval.Shows r.overrides.retryInterval
  retryLimit : f.retryLimit.Shows r.overrides.retryLimit
  holdOff : f.holdOff.Shows r.overrides.holdOff
  count : f.count = r.positions.length
  positions : f.positions = r.positions

/-- Where the fields of a payload stand: each behind the one before it. -/
theorem devicePayload_places (p : List Byte) :
    (devicePayload p).keepLimit = markedAt p 6 1 ∧
    (devicePayload p).report = byteAt p (devicePayload p).keepLimit.next ∧
    (devicePayload p).entrySwitch = markedAt p ((devicePayload p).keepLimit.next + 1) 1 ∧
    (devicePayload p).exitSwitch = markedAt p (devicePayload p).entrySwitch.next 1 ∧
    (devicePayload p).counting = markedAt p (devicePayload p).exitSwitch.next 1 ∧
    (devicePayload p).capacity = markedAt p (devicePayload p).counting.next 1 ∧
    (devicePayload p).pulse = markedAt p (devicePayload p).capacity.next 2 ∧
    (devicePayload p).settle = markedAt p (devicePayload p).pulse.next 2 ∧
    (devicePayload p).confirm = markedAt p (devicePayload p).settle.next 2 ∧
    (devicePayload p).retryInterval = markedAt p (devicePayload p).confirm.next 2 ∧
    (devicePayload p).retryLimit = markedAt p (devicePayload p).retryInterval.next 1 ∧
    (devicePayload p).holdOff = markedAt p (devicePayload p).retryLimit.next 2 ∧
    (devicePayload p).count = byteAt p (devicePayload p).holdOff.next ∧
    (devicePayload p).positions = (p.drop ((devicePayload p).holdOff.next + 1)).map BitVec.toNat := by
  simp only [devicePayload, and_self]

/-- The payload of a record in its ranges is cut into the fields of that record, and its length agrees with them. -/
theorem devicePayload_carries (hd : d < 8) (h : r.Loadable d) :
    (devicePayload (r.payload d)).Carries r d ∧ deviceLengthOk (r.payload d) = true := by
  have hbounds := bounded_of_inRange h.overrides
  have hdevice : d < 256 := by omega
  have hrole : r.role.code < 256 := by have := (deviceRoleOfCode_code r.role).1; omega
  have hprofile : r.profile < 256 := by have := h.profile; omega
  have hcoil : r.coil < 256 := by have := h.coil; omega
  have hcount : r.positions.length < 256 := by have := h.count.trans mostBalls_le; omega
  have hmark : ∀ b : Bool, (if b then 1 else 0) < 256 := fun b => by cases b <;> decide
  have hcode : ∀ n ∈ r.overrides.counting.map Counting.code, n < 256 ^ 1 := fun n hn => by
    obtain ⟨c, -, rfl⟩ := Option.mem_map.1 hn
    have := (countingOfCode_code c).1
    omega
  have hpulse : ∀ n ∈ r.overrides.pulse, n < 256 ^ 2 := fun n hn => by have := hbounds.pulse n hn; omega
  have hsettle : ∀ n ∈ r.overrides.settle, n < 256 ^ 2 := fun n hn => by have := hbounds.settle n hn; omega
  have hconfirm : ∀ n ∈ r.overrides.confirm, n < 256 ^ 2 := fun n hn => by have := hbounds.confirm n hn; omega
  have hinterval : ∀ n ∈ r.overrides.retryInterval, n < 256 ^ 2 := fun n hn => by
    have := hbounds.retryInterval n hn; omega
  have hlimit : ∀ n ∈ r.overrides.retryLimit, n < 256 ^ 1 := fun n hn => by have := hbounds.retryLimit n hn; omega
  have hoff : ∀ n ∈ r.overrides.holdOff, n < 256 ^ 2 := fun n hn => by have := hbounds.holdOff n hn; omega
  have hposition : ∀ i ∈ r.positions, i < 256 := fun i hi => by have := h.positions i hi; omega
  generalize hp : r.payload d = p
  have hstart : p.drop 0 = u8 d ++ (u8 r.role.code ++ (u8 r.profile ++ (u8 r.coil ++ (mark r.autoRetry ++ (mark r.keep ++
      (optional r.keepLimit u8 ++ (mark r.reportArrivals ++ (optional r.entrySwitch u8 ++ (optional r.exitSwitch u8 ++
      (optional (r.overrides.counting.map Counting.code) u8 ++ (optional r.overrides.capacity u8 ++
      (optional r.overrides.pulse u16 ++ (optional r.overrides.settle u16 ++ (optional r.overrides.confirm u16 ++
      (optional r.overrides.retryInterval u16 ++ (optional r.overrides.retryLimit u8 ++ (optional r.overrides.holdOff u16 ++
      (u8 r.positions.length ++ r.positions.flatMap u8)))))))))))))))))) := by
    rw [← hp]
    simp only [DeviceRecord.payload, Overrides.bytes, List.append_assoc, List.drop_zero]
  have hat : (devicePayload p).device = byteAt p 0 ∧ (devicePayload p).role = byteAt p 1 ∧
      (devicePayload p).profile = byteAt p 2 ∧ (devicePayload p).coil = byteAt p 3 ∧
      (devicePayload p).autoRetry = byteAt p 4 ∧ (devicePayload p).keep = byteAt p 5 := ⟨rfl, rfl, rfl, rfl, rfl, rfl⟩
  have hplaces := devicePayload_places p
  have hlength : deviceLengthOk p = (decide ((devicePayload p).holdOff.next < p.length) &&
      (devicePayload p).positions.length == (devicePayload p).count) := rfl
  rw [hlength]
  generalize devicePayload p = f at hat hplaces ⊢
  obtain ⟨hdeviceAt, hroleAt, hprofileAt, hcoilAt, hretryAt, hkeepAt⟩ := hat
  obtain ⟨hkeepLimitAt, hreportAt, hentryAt, hexitAt, hcountingAt, hcapacityAt, hpulseAt, hsettleAt, hconfirmAt, hintervalAt,
    hlimitAt, hoffAt, hcountAt, hpositionsAt⟩ := hplaces
  have device := byteAt_of_drop hdeviceAt hdevice hstart
  have role := byteAt_of_drop hroleAt hrole device.2
  have profile := byteAt_of_drop hprofileAt hprofile role.2
  have coil := byteAt_of_drop hcoilAt hcoil profile.2
  have autoRetry := byteAt_of_drop hretryAt (hmark r.autoRetry) coil.2
  have keep := byteAt_of_drop hkeepAt (hmark r.keep) autoRetry.2
  have keepLimit := markedAt_of_drop hkeepLimitAt h.keepLimit_lt keep.2
  have report := byteAt_of_drop hreportAt (hmark r.reportArrivals) keepLimit.2
  have entrySwitch := markedAt_of_drop hentryAt (DeviceRecord.Loadable.ballSwitch_lt h.entrySwitch) report.2
  have exitSwitch := markedAt_of_drop hexitAt (DeviceRecord.Loadable.ballSwitch_lt h.exitSwitch) entrySwitch.2
  have counting := markedAt_of_drop hcountingAt hcode exitSwitch.2
  have capacity := markedAt_of_drop hcapacityAt hbounds.capacity_lt counting.2
  have pulse := markedAt_of_drop hpulseAt hpulse capacity.2
  have settle := markedAt_of_drop hsettleAt hsettle pulse.2
  have confirm := markedAt_of_drop hconfirmAt hconfirm settle.2
  have interval := markedAt_of_drop hintervalAt hinterval confirm.2
  have limit := markedAt_of_drop hlimitAt hlimit interval.2
  have holdOff := markedAt_of_drop hoffAt hoff limit.2
  have count := byteAt_of_drop hcountAt hcount holdOff.2
  have positions : f.positions = r.positions := by rw [hpositionsAt, count.2, toNat_flatMap hposition]
  have hlong : f.holdOff.next < p.length := by
    by_contra hshort
    have hcons := (List.drop_eq_nil_of_le (Nat.not_lt.1 hshort)).symm.trans holdOff.2
    simp [u8, leBytes] at hcons
  refine ⟨⟨device.1, role.1, profile.1, coil.1, autoRetry.1, keep.1, keepLimit.1, report.1, entrySwitch.1, exitSwitch.1,
    counting.1, capacity.1, pulse.1, settle.1, confirm.1, interval.1, limit.1, holdOff.1, count.1, positions⟩, ?_⟩
  simp [hlong, positions, count.1]

/-! ### The checks of R89 -/

/-! ### Quantities in their ranges -/

theorem map_eq_self_of {x : Option Nat} {g : Nat → Nat} (hg : ∀ n ∈ x, g n = n) : x.map g = x := by
  cases x with
  | none => rfl
  | some n => exact congrArg some (hg n rfl)
theorem held_of_within {lo hi n : Nat} (hn : lo ≤ n ∧ n ≤ hi) : held lo hi n = n := by
  unfold held
  omega

section carried
variable {f : DevicePayload} (hc : f.Carries r d) (h : r.Loadable d)
include hc

theorem ballSwitchOk_of_shows {m : Marked} {x : Option Nat} (hm : m.Shows x) : f.ballSwitchOk m = r.ballSwitchOk x := by
  rw [DevicePayload.ballSwitchOk, DeviceRecord.ballSwitchOk, hm.value, hc.positions]
theorem effectiveCounting_carried : f.effectiveCounting = r.methodGiven := by
  rw [DevicePayload.effectiveCounting, DeviceRecord.methodGiven, hc.counting.value, hc.profile]
  cases r.overrides.counting with
  | none => rfl
  | some c => exact congrArg some (countingOfCode_code c).2

include h

theorem structural_carried (hd : d < 8) : ∀ c ∈ f.structural, c.2 = true := by
  have hpositions : ∀ (l seen : List Nat) (n : Nat), (∀ i ∈ l, i < 72 ∧ i ∉ seen) → l.Nodup →
      ∀ c ∈ positionChecks seen l n, c.2 = true := by
    intro l
    induction l with
    | nil => exact fun _ _ _ _ c hc => absurd hc List.not_mem_nil
    | cons i l ih =>
      intro seen n hl hn
      obtain ⟨hi, hn⟩ := List.nodup_cons.1 hn
      obtain ⟨hlt, hseen⟩ := hl i List.mem_cons_self
      refine List.forall_mem_cons.2 ⟨by simp [Config.switchCount, hlt, hseen], ih _ _ (fun j hj => ?_) hn⟩
      obtain ⟨hjlt, hjseen⟩ := hl j (List.mem_cons_of_mem i hj)
      have hne : j ≠ i := fun hji => hi (hji ▸ hj)
      exact ⟨hjlt, by simp [hne, hjseen]⟩
  have hmark : ∀ b : Bool, isMark (if b then 1 else 0) = true := fun b => (markByte_readBack b).1
  have hcode : ∀ c : Counting, c.code < 3 := fun c => (countingOfCode_code c).1
  refine List.forall_mem_append.2 ⟨?_, hpositions _ [] _ (fun i hi => ⟨h.positions i (hc.positions ▸ hi), List.not_mem_nil⟩)
    (hc.positions ▸ h.once)⟩
  simp only [List.forall_mem_cons, hc.device, hc.role, hc.profile, hc.coil, hc.autoRetry, hc.keep, hc.report, hc.count, hmark,
    hc.keepLimit.isMark, hc.entrySwitch.isMark, hc.exitSwitch.isMark, hc.counting.isMark, hc.capacity.isMark, hc.pulse.isMark,
    hc.settle.isMark, hc.confirm.isMark, hc.retryInterval.isMark, hc.retryLimit.isMark, hc.holdOff.isMark, h.roleOk,
    ballSwitchOk_of_shows hc hc.entrySwitch, ballSwitchOk_of_shows hc hc.exitSwitch, h.entrySwitch, h.exitSwitch,
    decide_eq_true h.profile, decide_eq_true h.coil, decide_eq_true h.count, hc.counting.value]
  simp [hd, Config.deviceCount, Option.all_map, hcode, h.counting]
theorem counted_carried : ∀ c ∈ f.counted, c.2 = true := by
  have hswitches := h.switches
  rw [DevicePayload.counted, effectiveCounting_carried hc]
  rw [DeviceRecord.switchesOk] at hswitches
  cases hm : r.methodGiven with
  | none => exact fun c hc => absurd hc List.not_mem_nil
  | some m =>
    rw [hm] at hswitches
    simp only [hc.entrySwitch.value, hc.exitSwitch.value, hc.count]
    cases m with
    | positions =>
      have hne : r.positions ≠ [] := by simpa using hswitches
      have hlen := List.length_pos_of_ne_nil hne
      simp [Nat.one_le_iff_ne_zero, hne]
    | entryExit => simp_all
    | entryBlind => simp_all

/-! ### The record as stored (R89 step 5) -/

theorem recordHeld_carried : f.recordHeld = r := by
  have hbounds := bounded_of_inRange h.overrides
  have hmark : ∀ b : Bool, ((if b then 1 else 0) == 1) = b := fun b => (markByte_readBack b).2
  have hcapacity : (if f.effectiveCounting = some .positions then f.capacity.value
      else f.capacity.value.map (held 1 (mostBalls f.device))) = r.overrides.capacity := by
    have hcap := hbounds.capacity
    rw [effectiveCounting_carried hc, hc.capacity.value, hc.device]
    by_cases hm : r.methodGiven = some .positions
    · rw [if_pos hm]
    · rw [if_neg (by simpa using hm)] at hcap
      rw [if_neg hm, map_eq_self_of fun n hn => held_of_within (hcap n hn)]
  have hcounting : f.counting.value.map countingOfCode = r.overrides.counting := by
    rw [hc.counting.value, Option.map_map]
    cases r.overrides.counting with
    | none => rfl
    | some c => exact congrArg some (countingOfCode_code c).2
  have hpulse : f.pulse.value.map (held 5 100) = r.overrides.pulse := by
    rw [hc.pulse.value, map_eq_self_of fun n hn => held_of_within (hbounds.pulse n hn)]
  have hsettle : f.settle.value.map (held 50 2000) = r.overrides.settle := by
    rw [hc.settle.value, map_eq_self_of fun n hn => held_of_within (hbounds.settle n hn)]
  have hconfirm : f.confirm.value.map (held 200 5000) = r.overrides.confirm := by
    rw [hc.confirm.value, map_eq_self_of fun n hn => held_of_within (hbounds.confirm n hn)]
  have hinterval : f.retryInterval.value.map (held 200 3000) = r.overrides.retryInterval := by
    rw [hc.retryInterval.value, map_eq_self_of fun n hn => held_of_within (hbounds.retryInterval n hn)]
  have hlimit : f.retryLimit.value.map (min 7) = r.overrides.retryLimit := by
    rw [hc.retryLimit.value, map_eq_self_of fun n hn => Nat.min_eq_right (hbounds.retryLimit n hn)]
  have hoff : f.holdOff.value.map (min 5000) = r.overrides.holdOff := by
    rw [hc.holdOff.value, map_eq_self_of fun n hn => Nat.min_eq_right (hbounds.holdOff n hn)]
  have hkeep : (deviceRoleOfCode f.role == .lock && f.keep == 1) = r.keep := by
    rw [hc.role, (deviceRoleOfCode_code r.role).2, hc.keep, hmark]
    rcases h.keep with hlock | ⟨hno, -⟩
    · simp [hlock]
    · simp [hno]
  have hkeepLimit : (if deviceRoleOfCode f.role = .lock then f.keepLimit.value.map (min (r.figures.capacity - 1)) else none) =
      r.keepLimit := by
    rw [hc.role, (deviceRoleOfCode_code r.role).2, hc.keepLimit.value,
      map_eq_self_of fun n hn => Nat.min_eq_right (h.keepLimit n hn)]
    rcases h.keep with hlock | ⟨-, hno⟩
    · rw [if_pos hlock]
    · rw [hno, ite_self]
  have hrole : deviceRoleOfCode f.role = r.role := by rw [hc.role, (deviceRoleOfCode_code r.role).2]
  unfold DevicePayload.recordHeld
  simp only [hcapacity, hcounting, hpulse, hsettle, hconfirm, hinterval, hlimit, hoff, hkeep, hc.profile, hc.positions,
    hc.entrySwitch.value, hc.exitSwitch.value, hc.coil, hc.autoRetry, hc.report, hmark]
  calc _ = { r with
        role := deviceRoleOfCode f.role
        keepLimit := if deviceRoleOfCode f.role = .lock then f.keepLimit.value.map (min (r.figures.capacity - 1))
          else none } := rfl
    _ = r := by rw [hkeepLimit, hrole]
theorem stored_carried : f.stored = r ∧ f.wasHeld = false := by
  have hrecord := recordHeld_carried hc h
  have hrole : f.role ≠ 0 := by
    rw [hc.role]
    have := h.role
    cases hr : r.role <;> simp_all [DeviceRole.code]
  refine ⟨by rw [DevicePayload.stored, if_neg hrole, hrecord], ?_⟩
  simp only [DevicePayload.wasHeld, hrecord, hc.capacity.value, hc.pulse.value, hc.settle.value, hc.confirm.value,
    hc.retryInterval.value, hc.retryLimit.value, hc.holdOff.value, hc.keepLimit.value]
  simp
end carried

end Sys2Proof.Machine
end

