-- ==== Sys2Proof/Proofs/DeviceLoads.lean ====
section
/-! SET_DEVICE (O35): what a load leaves of the device, of its locks and of the other devices (R90). -/

namespace Sys2Proof.Machine

open Sys2Proof

variable {r : DeviceRecord} {d : Nat}

/-! ### The load (R90) -/

/-- The settled count that a load of record `r` leaves a device that was `v`, where `n` is the raw count (R90). -/
def Device.countAfter (v : Device) (r : DeviceRecord) (n : Nat) : Nat :=
  if r.configured = false then 0
  else if r.figures.counting = .positions then n
  else if v.record.configured = true ∧ v.record.figures.counting = r.figures.counting then
    min v.settled r.figures.capacity else 0

/-- Device `d` of `t` has just been loaded with record `r` over its state in `s`: no cycle, no orders, the counts of R90. -/
structure State.Reloaded (s : State) (d : Nat) (r : DeviceRecord) (t : State) : Prop where
  record : (t.device d).record = r
  state : (t.device d).state = if r.configured then .idle else .disabled
  queue : (t.device d).queue = []
  retries : (t.device d).retries = 0
  timer : (t.device d).timer = none
  accounted : (t.device d).accounted = (t.device d).settled
  settled : (t.device d).settled = (s.device d).countAfter r (t.rawCount d)
  others : ∀ e, e ≠ d → t.device e = s.device e
  owed : d = 1 → t.devices.launchOwed = 0
  locked : t.locked d = s.locked d
  game : t.game = s.game

theorem countAfter_of_entry {v : Device} (n : Nat) (h : ¬(r.configured = true ∧ r.figures.counting = .positions)) :
    v.countAfter r n = if keepsCount v.record r then min v.settled r.figures.capacity else 0 := by
  unfold Device.countAfter keepsCount
  cases hc : r.configured with
  | false => simp
  | true =>
    have hcounting : r.figures.counting ≠ .positions := fun hp => h ⟨hc, hp⟩
    simp [hcounting]

variable {s t : State}

/-- The cycle of the device has ended: it is in no line and has no grant, and a shooter owes no launch (R90). -/
def State.cycleEnded (s : State) (d : Nat) : State :=
  (s.leaveLine d).onDevices fun c =>
    { c with granted := c.granted.filter (· != d), launchOwed := if d = 1 then 0 else c.launchOwed }
/-- The device has its new record, and the switches that no record names any more are quenched (R3, R90). -/
def State.replaced (s : State) (d : Nat) (r : DeviceRecord) : State :=
  ((s.cycleEnded d).onDevice d fun v => v.load r).quenchUnused
/-- The missing-return count is held back where the trough has lost balls (R123). -/
def State.returnsHeld (s : State) (d old : Nat) : State :=
  if d = 0 ∧ (s.device 0).settled < old then s.onCensus fun c => { c with missingReturns := 0 } else s

theorem loadDevice_of_quiet (hq : s.quietEngine = true) (hx : s.time = s.scanner.now) : s.loadDevice d r =
    (((((s.replaced d r).measure d).returnsHeld d (s.device d).settled).alignLocked d).recompute (some d)).settleDevices := by
  have hnow : s.atNow = s := by rw [State.atNow, State.at, ← hx]
  rw [State.loadDevice, catchUp_of_quiet s hq, hnow]
  rfl

theorem cycleEnded_device (e : Nat) : (s.cycleEnded d).device e = s.device e := by
  rw [State.cycleEnded, onDevices_device (s.leaveLine d) (fun c =>
    { c with granted := c.granted.filter (· != d), launchOwed := if d = 1 then 0 else c.launchOwed }) (fun _ => rfl),
    leaveLine_device]
theorem quenchUnused_device (e : Nat) : s.quenchUnused.device e = s.device e :=
  device_congr (State.onScanner_devices ..) e
theorem replaced_device (hd : d < 8) (e : Nat) :
    (s.replaced d r).device e = if d = e then (s.device d).load r else s.device e := by
  rw [State.replaced, quenchUnused_device, State.onDevice_device, cycleEnded_device, cycleEnded_device]
  by_cases hde : d = e
  · rw [if_pos ⟨hde, hd⟩, if_pos hde]
  · rw [if_neg fun h => hde h.1, if_neg hde]

theorem measure_device (e : Nat) : (s.measure d).device e =
    if (s.configured d ∧ (s.device d).record.figures.counting = .positions) ∧ d = e ∧ d < Config.deviceCount then
      { s.device d with settled := s.rawCount d, accounted := s.rawCount d } else s.device e := by
  unfold State.measure
  by_cases hm : s.configured d ∧ (s.device d).record.figures.counting = .positions
  · rw [if_pos hm, State.onDevice_device]
    simp [hm]
  · rw [if_neg hm, if_neg fun h => hm h.1]
theorem measure_rawCount (e : Nat) : (s.measure d).rawCount e = s.rawCount e := by
  have hrecord : ((s.measure d).device e).record = (s.device e).record := by
    rw [measure_device]
    split
    · rename_i h
      rw [h.2.1]
    · rfl
  have hscanner : (s.measure d).scanner = s.scanner := by
    unfold State.measure
    split <;> rfl
  rw [State.rawCount, State.rawCount, hrecord]
  simp only [State.switch, hscanner]

theorem replaced_beside : (s.replaced d r).game = s.game ∧ (s.replaced d r).census = s.census ∧
    (s.replaced d r).devices.launchOwed = if d = 1 then 0 else s.devices.launchOwed := by
  simp [State.replaced, State.quenchUnused, State.cycleEnded, State.leaveLine, State.onDevice]

theorem measured_reloaded (hd : d < 8) : s.Reloaded d r ((s.replaced d r).measure d) := by
  have hself : (s.replaced d r).device d = (s.device d).load r := by rw [replaced_device hd, if_pos rfl]
  have hload : ((s.device d).load r).record = r := rfl
  have hconf : (s.replaced d r).configured d = r.configured := by rw [State.configured, hself, hload]
  have hdevice := measure_device (s := s.replaced d r) (d := d) d
  rw [hself, hload, hconf] at hdevice
  have hraw := measure_rawCount (s := s.replaced d r) (d := d) d
  have hkept : ((s.replaced d r).measure d).game = s.game ∧ ((s.replaced d r).measure d).census = s.census ∧
      ((s.replaced d r).measure d).devices.launchOwed = (s.replaced d r).devices.launchOwed := by
    obtain ⟨hgame, hcensus, -⟩ := replaced_beside (s := s) (d := d) (r := r)
    unfold State.measure
    split
    · exact ⟨hgame, hcensus, rfl⟩
    · exact ⟨hgame, hcensus, rfl⟩
  obtain ⟨hgame, hcensus, howed⟩ := hkept
  have hothers : ∀ e, e ≠ d → ((s.replaced d r).measure d).device e = s.device e := fun e hne => by
    rw [measure_device, if_neg fun h => hne h.2.1.symm, replaced_device hd, if_neg hne.symm]
  have hstate : ((s.device d).load r).state = if r.configured then .idle else .disabled := cleared_state _
  have hcount : ((s.device d).load r).settled =
      if keepsCount (s.device d).record r then min (s.device d).settled r.figures.capacity else 0 := rfl
  generalize (s.replaced d r).measure d = u at hdevice hraw hgame hcensus howed hothers ⊢
  have hlocked : u.locked d = s.locked d := by rw [State.locked, State.locked, hcensus]
  have hnone : d = 1 → u.devices.launchOwed = 0 := fun hone => by
    rw [howed, replaced_beside.2.2, if_pos hone]
  by_cases hm : (r.configured = true ∧ r.figures.counting = .positions)
  · rw [if_pos ⟨hm, rfl, hd⟩] at hdevice
    refine ⟨?_, ?_, ?_, ?_, ?_, ?_, ?_, hothers, hnone, hlocked, hgame⟩ <;> rw [hdevice]
    · exact hload
    · exact hstate
    · rfl
    · rfl
    · rfl
    · rw [Device.countAfter, if_neg (by simp [hm.1]), if_pos hm.2, hraw]
  · rw [if_neg fun h => hm h.1] at hdevice
    refine ⟨?_, ?_, ?_, ?_, ?_, ?_, ?_, hothers, hnone, hlocked, hgame⟩ <;> rw [hdevice]
    · exact hload
    · exact hstate
    · rfl
    · rfl
    · rfl
    · rfl
    · rw [hcount, countAfter_of_entry _ hm]

/-- The census follows the load (R90, R115, R117). -/
theorem recompute_kept (u : Option Nat) : (s.recompute u).scanner = s.scanner ∧ (s.recompute u).game = s.game ∧
    ∀ e, (s.recompute u).locked e = s.locked e := by
  have hfound : ∀ (k : Nat) (x : State), (x.findByCount u k).scanner = x.scanner ∧ (x.findByCount u k).game = x.game ∧
      ∀ e, (x.findByCount u k).locked e = x.locked e := fun k => by
    induction k with
    | zero => exact fun _ => ⟨rfl, rfl, fun _ => rfl⟩
    | succ k ih => exact fun x => ih _
  unfold State.recompute
  dsimp only
  split
  · split
    · exact ⟨rfl, rfl, fun _ => rfl⟩
    · exact ⟨rfl, rfl, fun _ => rfl⟩
  · split
    · exact hfound _ _
    · exact hfound _ _

/-- The locked count of a device is brought into line with its settled count (R90). -/
theorem alignLocked_locked (hd : d < 8) (e : Nat) : (s.alignLocked d).locked e =
    if d = e then (if (s.device d).record.role = .lock then min (s.locked d) (s.device d).settled else 0) else s.locked e := by
  unfold State.alignLocked State.lockedLost
  dsimp only
  have hset := fun n => State.setLocked_locked s d e n
  have hlt : d < Config.deviceCount := hd
  by_cases hde : d = e
  · subst hde
    split
    · split
      · rename_i hlow
        rw [if_pos rfl, Nat.min_eq_right hlow.le]
        exact (hset _).trans (if_pos ⟨rfl, hlt⟩)
      · rename_i hlow
        rw [if_pos rfl, Nat.min_eq_left (Nat.le_of_not_lt hlow)]
    · rw [hset, if_pos ⟨rfl, hlt⟩, if_pos rfl]
  · rw [if_neg hde]
    split
    · split
      · exact (hset _).trans (if_neg fun h => hde h.1)
      · rfl
    · rw [hset, if_neg fun h => hde h.1]
theorem alignLocked_kept : (s.alignLocked d).devices = s.devices ∧ (s.alignLocked d).game = s.game ∧
    (s.alignLocked d).scanner = s.scanner := by
  unfold State.alignLocked State.lockedLost
  dsimp only
  split
  · split <;> exact ⟨rfl, rfl, rfl⟩
  · exact ⟨rfl, rfl, rfl⟩
theorem returnsHeld_kept (k : Nat) : (s.returnsHeld d k).devices = s.devices ∧ (s.returnsHeld d k).game = s.game ∧
    (s.returnsHeld d k).scanner = s.scanner ∧ ∀ e, (s.returnsHeld d k).locked e = s.locked e := by
  unfold State.returnsHeld
  split <;> exact ⟨rfl, rfl, rfl, fun _ => rfl⟩

/-! ### The tests of the devices after the load -/

/-- With no SEARCH order in flight the tests leave a device with RECOVER orders at most, where it has no launch to make. -/
theorem settleDevices_recovering (howed : d = 1 → s.devices.launchOwed = 0) (h : s.Recovering d) :
    s.settleDevices.Recovering d := by
  have hlaunch : s.launchTest.Recovering d := by
    by_cases hone : d = 1
    · rw [launchTest_of_none_owed (howed hone)]
      exact h
    · unfold State.launchTest
      split
      · have hqueued := queueOrder_recovering (e := 1) .launch false (fun he => absurd he.symm hone) h
        exact hqueued.congr rfl rfl
      · exact h
  exact recover_recovering (hlaunch.congr (by rw [followInterlock_game]) (followInterlock_device _ d))
theorem settleDevices_none_owed (h : s.devices.launchOwed = 0) : s.settleDevices.devices.launchOwed = 0 := by
  rw [State.settleDevices, launchTest_of_none_owed h, recover_owed, followInterlock_owed, h]

/-- What a load leaves, after the census and the tests of the devices (R90). -/
structure State.Loaded (s : State) (d : Nat) (r : DeviceRecord) (t : State) : Prop where
  record : (t.device d).record = r
  retries : (t.device d).retries = 0
  timer : (t.device d).timer = none
  recovering : t.Recovering d
  accounted : (t.device d).accounted = (t.device d).settled
  settled : (t.device d).settled = (s.device d).countAfter r (t.rawCount d)
  locked : t.locked d = if r.role = .lock then min (s.locked d) (t.device d).settled else 0
  owed : d = 1 → t.devices.launchOwed = 0
  others : ∀ e, e ≠ d → (t.device e).record = (s.device e).record ∧ (t.device e).settled = (s.device e).settled

theorem loadDevice_loaded (hd : d < 8) (hq : s.quietEngine = true) (hx : s.time = s.scanner.now)
    (hf : s.game.search.inFlight = none) : s.Loaded d r (s.loadDevice d r) := by
  have hload := measured_reloaded (s := s) (r := r) hd
  rw [loadDevice_of_quiet hq hx]
  generalize (s.replaced d r).measure d = u at hload ⊢
  obtain ⟨hdevices, hgame, hscanner, hlocked⟩ := returnsHeld_kept (s := u) (d := d) (s.device d).settled
  generalize u.returnsHeld d (s.device d).settled = x at hdevices hgame hscanner hlocked ⊢
  have halign := alignLocked_locked (s := x) hd d
  obtain ⟨hdevices', hgame', hscanner'⟩ := alignLocked_kept (s := x) (d := d)
  generalize x.alignLocked d = y at halign hdevices' hgame' hscanner' ⊢
  obtain ⟨hscanner'', hgame'', hlocked''⟩ := recompute_kept (s := y) (some d)
  have hdevices'' := recompute_devices (s := y) (some d)
  generalize y.recompute (some d) = z at hscanner'' hgame'' hlocked'' hdevices'' ⊢
  have hzdevices : z.devices = u.devices := hdevices''.trans (hdevices'.trans hdevices)
  have hzdevice := device_congr hzdevices
  have hzgame : z.game = s.game := hgame''.trans (hgame'.trans (hgame.trans hload.game))
  have hzscanner : z.scanner = u.scanner := hscanner''.trans (hscanner'.trans hscanner)
  have hrecovering : z.Recovering d := by
    refine ⟨by rw [hzgame, hf], ?_, ?_⟩
    · rw [hzdevice, hload.queue]
      exact fun o ho => absurd ho List.not_mem_nil
    · rw [hzdevice, hload.state, hload.record, hload.queue]
      cases r.configured <;> rfl
  have htally := fun e => tally_eq_iff.1 (settleDevices_tally (s := z) e)
  have hb := settleDevices_beside z
  have howed : d = 1 → z.devices.launchOwed = 0 := fun hone => by rw [hzdevices, hload.owed hone]
  have hsettled := settleDevices_recovering howed hrecovering
  have hnone := fun hone => settleDevices_none_owed (howed hone)
  generalize z.settleDevices = t at htally hb hsettled hnone ⊢
  have hrecord : ∀ e, (t.device e).record = (u.device e).record := fun e => (htally e).1.trans (by rw [hzdevice])
  have hcount : ∀ e, (t.device e).settled = (u.device e).settled := fun e => (htally e).2.1.trans (by rw [hzdevice])
  obtain ⟨-, -, haccounted, -, -, hretries, -, htimer, -⟩ := htally d
  have hraw : t.rawCount d = u.rawCount d := by
    rw [State.rawCount, State.rawCount, hrecord]
    simp only [State.switch, scanner_of_beside hb, hzscanner]
  exact {
    record := (hrecord d).trans hload.record
    retries := by rw [hretries, hzdevice, hload.retries]
    timer := by rw [htimer, hzdevice, hload.timer]
    recovering := hsettled
    accounted := by rw [haccounted, hcount, hzdevice, hload.accounted]
    settled := by rw [hcount, hraw, hload.settled]
    locked := by
      rw [State.locked, census_of_beside hb, ← State.locked, hlocked'', halign, if_pos rfl, device_congr hdevices, hload.record,
        hlocked, hload.locked, hcount]
    owed := hnone
    others := fun e hne => by rw [hrecord, hcount, hload.others e hne]; exact ⟨rfl, rfl⟩ }

theorem loadDevice_linked (hq : s.quietEngine = true) (hx : s.time = s.scanner.now) :
    (s.loadDevice d r).link = s.link ∧ (s.loadDevice d r).engine.paused = s.engine.paused := by
  have hmeasured : ((s.replaced d r).measure d).link = s.link ∧ ((s.replaced d r).measure d).engine = s.engine := by
    have hreplaced : (s.replaced d r).link = s.link ∧ (s.replaced d r).engine = s.engine := by
      simp [State.replaced, State.quenchUnused, State.cycleEnded, State.leaveLine, State.onDevice]
    unfold State.measure
    split
    · exact hreplaced
    · exact hreplaced
  rw [loadDevice_of_quiet hq hx]
  generalize (s.replaced d r).measure d = u at hmeasured ⊢
  have hheld : (u.returnsHeld d (s.device d).settled).link = u.link ∧
      (u.returnsHeld d (s.device d).settled).engine = u.engine := by
    unfold State.returnsHeld
    split <;> exact ⟨rfl, rfl⟩
  generalize u.returnsHeld d (s.device d).settled = x at hheld ⊢
  have halign : (x.alignLocked d).link = x.link ∧ (x.alignLocked d).engine = x.engine := by
    unfold State.alignLocked State.lockedLost
    dsimp only
    split
    · split <;> exact ⟨rfl, rfl⟩
    · exact ⟨rfl, rfl⟩
  generalize x.alignLocked d = y at halign ⊢
  have hframe : (y.recompute (some d)).settleDevices.frame = y.frame := by simp
  refine ⟨?_, ?_⟩
  · rw [State.link_of_frame hframe, halign.1, hheld.1, hmeasured.1]
  · rw [paused_of_frame hframe, halign.2, hheld.2, hmeasured.2]

/-- The payload of a record in its ranges is loaded as that record. -/
theorem setDevice_payload (hd : d < 8) (hr : r.inRange d = true) (hp : s.game.phase = .idle) :
    setDevice (r.payload d) s = (s.loadDevice d r, .ok []) := by
  have h := deviceLoadable_of_inRange hr
  obtain ⟨hc, hlength⟩ := devicePayload_carries hd h
  obtain ⟨hstored, hheld⟩ := stored_carried hc h
  have hbad : (firstBad (devicePayload (r.payload d)).structural).or (firstBad (devicePayload (r.payload d)).counted) = none := by
    rw [firstBad_of_all _ (structural_carried hc h hd), firstBad_of_all _ (counted_carried hc h)]
    rfl
  unfold setDevice
  rw [load_of_idle _ _ _ _ hp hlength hbad, hstored, hheld, hc.device]
  rfl

/-- Settles O35: the payload is read back field by field, and the load is followed through the census and the tests. -/
theorem setDeviceLoadsRecord : Obligations.SetDeviceLoadsRecord := by
  intro tag s d r hp hq hd hlaw hr ho
  obtain ⟨l, hexec, hl⟩ := request_of_offers s 4 tag (r.payload d) setDevice ho
  have hflight : s.game.search.inFlight = none := by
    by_contra hflight
    have hoff := hlaw.1.2 ⟨by rw [hp]; decide, by rw [hp]; decide⟩
    have hround := hlaw.2 hflight
    rw [hoff] at hround
    cases hround
  have hloaded : State.Loaded { s with link := l, time := s.scanner.now } d r
    (State.loadDevice { s with link := l, time := s.scanner.now } d r) := loadDevice_loaded hd hq rfl hflight
  obtain ⟨hlink, hpaused⟩ := loadDevice_linked (s := { s with link := l, time := s.scanner.now }) (d := d) (r := r) hq rfl
  have hset := setDevice_payload (s := { s with link := l, time := s.scanner.now }) hd hr hp
  rw [hset] at hexec
  generalize State.loadDevice { s with link := l, time := s.scanner.now } d r = t at hloaded hlink hpaused hexec
  have hhand : t.inHand = false := (inHand_congr _ _ hpaused).trans ho.2.1
  dsimp only at hexec
  rw [hhand, if_neg (by decide)] at hexec
  have hanswered : (t.reply ⟨4, tag, r.payload d⟩ (.ok [])).link = s.answeredLink ⟨4, tag, r.payload d⟩ [0] := by
    refine Eq.trans ?_ (hl (.ok []))
    rw [State.reply, State.onLink, hlink]
  exact ⟨t.reply ⟨4, tag, r.payload d⟩ (.ok []), congrArg Host.Outcome.next hexec, hanswered, hloaded.record, hloaded.retries,
    hloaded.timer, hloaded.recovering.orders, by rw [← hloaded.record]; exact hloaded.recovering.state, hloaded.accounted,
    hloaded.settled, hloaded.locked, hloaded.owed, fun e _ => hloaded.others e⟩

end Sys2Proof.Machine
end

