-- ==== Sys2Proof/Proofs/LockArrivals.lean ====
section
/-! Arrivals at the LOCK and SAUCER devices (R126, R127): the lock or the RETURN order of the ball, the multiball that the last
lock needed starts, and the walk that follows (O17). -/

namespace Sys2Proof.Machine

open Sys2Proof

variable {s t u v x : State} {d k : Nat} {q : Player} {a : Stamp} {rest : List Stamp}

/-! ### The lock decision (R126, R127) -/

theorem censusArrival_of_saucer (hrole : (s.device d).record.role = .saucer) (hp : s.inPlay = true) :
    s.censusArrival d = s.returnBall d := by
  have hball : s.ballOn = true := by rw [State.ballOn, hp]; rfl
  unfold State.censusArrival
  rw [hrole]
  exact if_pos hball
theorem censusArrival_of_lock (hrole : (s.device d).record.role = .lock) (hp : s.inPlay = true) :
    s.censusArrival d = s.lockDecision d := by
  unfold State.censusArrival
  rw [hrole]
  exact if_pos hp
theorem lockDecision_returns (h : s.census.multi = true ∨ s.current.locksLit = 0) : s.lockDecision d = s.returnBall d := by
  unfold State.lockDecision
  split
  · rfl
  · rename_i hmulti
    rw [if_neg]
    rcases h with h | h
    · exact absurd h hmulti
    · omega
theorem lockDecision_locks (hm : s.census.multi = false) (hl : 1 ≤ s.current.locksLit) : s.lockDecision d = s.makeLock d := by
  rw [State.lockDecision, if_neg (by simp [hm]), if_pos hl]

/-- The record of a player who has made a lock (R127 step 1). -/
def Player.locked (q : Player) : Player := { q with locksLit := q.locksLit - 1, locksMade := min (q.locksMade + 1) 4 }

/-- The device keeps the ball of a lock (R127 step 2). -/
def State.keepsBall (s : State) (d : Nat) : Bool :=
  (s.device d).record.keep && decide (s.locked d < (s.device d).record.keepLimitInForce)

/-- The ball of a lock is held, or goes back (R127 step 2). -/
def State.ballLocked (s : State) (d : Nat) : State :=
  if s.keepsBall d then s.setLocked d (s.locked d + 1) else s.returnBall d

/-- The lock is made, before the multiball it may start. -/
def State.lockTaken (s : State) (d : Nat) : State :=
  let u := (s.onCurrent Player.locked).ballLocked d
  u.emit .lockMade d u.current.locksMade (if (s.onCurrent Player.locked).keepsBall d then 1 else 0)

theorem makeLock_eq : s.makeLock d =
    if (s.lockTaken d).current.locksMade = (s.lockTaken d).game.params.locksNeeded then (s.lockTaken d).mbStart 0
    else s.lockTaken d := rfl

/-- Beside the devices a lock taken changes the record of the current player, and the locked counts. -/
theorem lockTaken_beside : ∃ l, (s.lockTaken d).beside =
    ({ s.onCurrent Player.locked with census := { s.census with locked := l } } : State).beside := by
  unfold State.lockTaken State.ballLocked
  dsimp only
  by_cases hk : (s.onCurrent Player.locked).keepsBall d = true
  · rw [if_pos hk]
    refine ⟨writeTable s.census.locked d ((s.onCurrent Player.locked).locked d + 1), (emit_beside ..).trans ?_⟩
    rw [State.setLocked, State.onCensus, State.onCurrent_census]
  · rw [if_neg hk]
    refine ⟨s.census.locked, (emit_beside ..).trans ((queueOrder_beside ..).trans ?_)⟩
    congr 1
    rw [onCurrent_eq]
theorem lockTaken_logged {l : List EventRecord} (h : s.Logged l) : (s.lockTaken d).Logged l := by
  unfold State.lockTaken State.ballLocked
  dsimp only
  refine emit_logged _ _ _ _ ?_
  split
  · exact (setLocked_logged _ _).2 ((onCurrent_logged _).2 h)
  · exact returnBall_logged _ ((onCurrent_logged _).2 h)

/-- The record of the current player with the lock made. -/
theorem lockTaken_player (hq : s.player? s.game.current = some q) (hm : q.locksMade < 4) :
    (s.lockTaken d).game.current = s.game.current ∧ (s.lockTaken d).game.params = s.game.params ∧
      (s.lockTaken d).game.players = s.game.players.modify (s.game.current - 1) Player.locked ∧
      ∀ j, (s.lockTaken d).player? j = if j = s.game.current then
        some { q with locksLit := q.locksLit - 1, locksMade := q.locksMade + 1 } else s.player? j := by
  obtain ⟨l, hb⟩ := lockTaken_beside (s := s) (d := d)
  have hplayers : (s.lockTaken d).game.players = (s.onCurrent Player.locked).game.players :=
    (players_of_beside hb).trans rfl
  have hcurrent : s.game.current ≠ 0 := fun h => by rw [State.player?, h, if_pos rfl] at hq; cases hq
  refine ⟨(current_of_beside hb).trans (State.onCurrent_current ..), (params_of_beside hb).trans (State.onCurrent_params ..),
    by rw [hplayers, onCurrent_players, if_neg hcurrent], fun j => ?_⟩
  rw [player?_congr hplayers, onCurrent_player?]
  split
  · rename_i hj
    rw [hj, hq, Option.map_some, Player.locked, Nat.min_eq_left hm]
  · rfl

/-! ### The walk of one plain entry -/

/-- The walk that follows awards the player of the state `v` that the census has left, where the engine and the other players are
those of `s`. -/
theorem directWalk_awards_made (i : Nat) (b : Bool) {l : List EventRecord} (he : v.engine = s.engine)
    (hc : v.game.current = s.game.current) (hparams : v.game.params = s.game.params) (hp : v.inPlay = true)
    (hplayer : ∀ j, v.player? j = if j = s.game.current then some q else s.player? j) (hl : v.events = l) (hx : v.time = a)
    (ht : s.engine.triggers = []) (hchain : s.chain i = [k]) (hk : (s.award k).Plain .close)
    (hcond : v.conditionPasses (s.award k).condition = true) :
    ∃ t, (v.directWalk i .close b).settleDevices = t ∧ t.engine.root = none ∧ s.EntryAwarded t k q a l := by
  have haward : v.award k = s.award k := by rw [State.award, he, State.award]
  have hq : v.player? v.game.current = some q := by rw [hplayer, hc, if_pos rfl]
  have hwalk : (v.directWalk i .close b).settleDevices = v.awarded k q := by
    rw [directWalk_of_plain i k .close b hp (by rw [he, ht]) (by rw [chain_congr he, hchain]) (by rw [haward]; exact hk)
      (by rw [haward]; exact hcond) hq, State.awarded]
  have hawarded := entryAwarded_awarded hp k hq
  have hroot : (v.awarded k q).engine.root = none := by rw [awarded_eq hp k q]
  rw [hwalk]
  generalize v.awarded k q = t at hawarded hroot ⊢
  refine ⟨t, rfl, hroot, ?_⟩
  have hrecords : ∀ n, v.scoreRecords q a n = s.scoreRecords q a n := fun n => by
    rw [State.scoreRecords, State.scoreRecords, hc, hparams]
  unfold State.EntryAwarded at hawarded ⊢
  dsimp only at hawarded ⊢
  rw [haward, hc, hparams, hx, hl, hrecords] at hawarded
  obtain ⟨hself, hothers, hevents⟩ := hawarded
  exact ⟨hself, fun j hj => (hothers j hj).trans ((hplayer j).trans (if_neg hj)), hevents⟩

/-- A ball that goes back is walked without a change of the player (the second clause of the walk in O17). -/
theorem return_awards (b : Bool) (hp : s.inPlay = true) (ht : s.engine.triggers = [])
    (hc : s.chain (80 + d) = [k]) (hq : s.player? s.game.current = some q) (hk : (s.award k).Plain .close)
    (hcond : (s.award k).condition = none) (hv : (s.arrived d a rest).censusArrival d = (s.arrived d a rest).returnBall d) :
    ∃ t more, (((s.arrived d a rest).censusArrival d).directWalk (80 + d) .close b).settleDevices = t ∧ t.engine.root = none ∧
      s.EntryAwarded t k q a (List.foldl appendEvent s.events more) := by
  rw [hv]
  obtain ⟨more, hmore⟩ : State.Logged s.events ((s.arrived d a rest).returnBall d) := returnBall_logged d arrived_logged
  have hb : ((s.arrived d a rest).returnBall d).beside = ({ s with census := s.census, time := a } : State).beside :=
    (queueOrder_beside ..).trans arrived_beside
  obtain ⟨t, heq, hroot, -, hawarded⟩ := directWalk_awards_of_beside (80 + d) k .close b hb hmore hp ht hc hk hcond hq
  exact ⟨t, more, heq, hroot, hawarded⟩

/-- A lock that starts no multiball is walked with the lock made (the first clause of the walk in O17). -/
theorem lock_awards (b : Bool) (hp : s.inPlay = true) (ht : s.engine.triggers = [])
    (hc : s.chain (80 + d) = [k]) (hq : s.player? s.game.current = some q) (hk : (s.award k).Plain .close) (hm : q.locksMade < 4)
    (hcond : (s.award k).condition = none ∨ q.locksLit = 1 ∧ (s.award k).condition = some ⟨.lockLit, 0, none, .whenClear⟩) :
    ∃ t more, (((s.arrived d a rest).lockTaken d).directWalk (80 + d) .close b).settleDevices = t ∧ t.engine.root = none ∧
      s.EntryAwarded t k { q with locksLit := q.locksLit - 1, locksMade := q.locksMade + 1 } a
        (List.foldl appendEvent s.events more) := by
  obtain ⟨more, hmore⟩ := lockTaken_logged (d := d) (arrived_logged (s := s) (d := d) (at_ := a) (rest := rest))
  have hxq : (s.arrived d a rest).player? (s.arrived d a rest).game.current = some q := by
    rw [player?_congr (congrArg Game.players arrived_game), arrived_game, hq]
  obtain ⟨hcurrent, hparams, -, hplayer⟩ := lockTaken_player (d := d) hxq hm
  obtain ⟨l, hb⟩ := lockTaken_beside (s := s.arrived d a rest) (d := d)
  have hengine := (engine_of_beside hb).trans ((State.onCurrent_engine ..).trans arrived_engine)
  have hphase := (phase_of_beside hb).trans ((State.onCurrent_phase ..).trans (congrArg Game.phase arrived_game))
  have htime := (time_of_beside hb).trans ((State.onCurrent_time ..).trans arrived_time)
  rw [arrived_game] at hcurrent hparams hplayer
  generalize (s.arrived d a rest).lockTaken d = v at hmore hcurrent hparams hplayer hengine hphase htime ⊢
  have hplayer' : ∀ j, v.player? j = if j = s.game.current then
      some { q with locksLit := q.locksLit - 1, locksMade := q.locksMade + 1 } else s.player? j := fun j => by
    rw [hplayer, player?_congr (congrArg Game.players arrived_game)]
  have hpasses : v.conditionPasses (s.award k).condition = true := by
    rcases hcond with hnone | ⟨hone, hsome⟩
    · rw [hnone]
      rfl
    · have hclear : v.current.locksLit = 0 := by
        rw [current_of_player? (s := v) (by rw [hplayer', hcurrent, if_pos rfl]), hone]
      rw [hsome]
      simp [State.conditionPasses, State.operandValue, hclear]
  obtain ⟨t, heq, hroot, hawarded⟩ := directWalk_awards_made (s := s) (80 + d) b hengine hcurrent hparams
    (by rw [State.inPlay, hphase]; exact hp) hplayer' hmore htime ht hc hk hpasses
  exact ⟨t, more, heq, hroot, hawarded⟩

/-! ### The device of a lock, and the trough -/

theorem queueOrder_searchWaits (e : Nat) (r : Reason) (l : Bool) (hr : r ≠ .search) (h : (s.device e).searchWaits = false) :
    ((s.queueOrder e r l).device e).searchWaits = false := by
  by_cases hc : s.configured e = true
  · by_cases hl : (s.device e).queue.length < 8
    · rw [queueOrder_device_self r l hc h hl]
      exact (searchWaits_append (l := l) hr (s.device e)).trans h
    · rw [queueOrder_full r l h (Nat.le_of_not_lt hl)]
      exact h
  · have hnone : s.queueOrder e r l = s := if_neg hc
    rwa [hnone]

/-- What a lock taken leaves of its device's queue and locks, and of the trough (R127). -/
theorem lockTaken_device (h2 : 2 ≤ d) (h8 : d < 8) (hc : s.configured d = true) (hw : (s.device d).searchWaits = false)
    (hz : (s.device 0).searchWaits = false) (hroom : (s.device d).queue.length < 8) :
    ((s.lockTaken d).device d).queue = (if s.keepsBall d then (s.device d).queue
      else (s.device d).queue ++ [⟨.return, s.time, false⟩]) ∧
    (s.lockTaken d).locked d = (if s.keepsBall d then s.locked d + 1 else s.locked d) ∧
    ((s.lockTaken d).device 0).searchWaits = false := by
  have hdevice : ∀ e, (s.onCurrent Player.locked).device e = s.device e := device_congr (State.onCurrent_devices ..)
  have hlocked : (s.onCurrent Player.locked).locked d = s.locked d := by
    rw [State.locked, State.onCurrent_census, ← State.locked]
  have hkeeps : (s.onCurrent Player.locked).keepsBall d = s.keepsBall d := by
    rw [State.keepsBall, hdevice, hlocked, State.keepsBall]
  have htime : (s.onCurrent Player.locked).time = s.time := State.onCurrent_time ..
  have hconf : (s.onCurrent Player.locked).configured d = true := by rw [State.configured, hdevice]; exact hc
  generalize hu : (s.onCurrent Player.locked).ballLocked d = u
  have hend : (s.lockTaken d).devices = u.devices ∧ (s.lockTaken d).census = u.census := by
    rw [← hu]
    exact ⟨rfl, rfl⟩
  have hsame : (s.lockTaken d).locked d = u.locked d := by rw [State.locked, hend.2, State.locked]
  rw [device_congr hend.1, device_congr hend.1, hsame, ← hu, State.ballLocked, hkeeps]
  cases hk : s.keepsBall d with
  | true =>
    refine ⟨congrArg Device.queue (hdevice d), ?_, (congrArg Device.searchWaits (hdevice 0)).trans hz⟩
    rw [if_pos rfl, if_pos rfl, State.setLocked_locked, if_pos ⟨rfl, h8⟩, hlocked]
  | false =>
    have hself := queueOrder_device_self (s := s.onCurrent Player.locked) .return false hconf (by rw [hdevice]; exact hw)
      (by rw [hdevice]; exact hroom)
    have hcensus := census_of_beside (queueOrder_beside (s.onCurrent Player.locked) d .return false)
    have hother := queueOrder_device_other (s := s.onCurrent Player.locked) d 0 .return false (by rw [hdevice]; exact hw)
      (by omega)
    refine ⟨?_, ?_, ?_⟩
    · rw [if_neg (by decide), State.returnBall, hself, hdevice, htime]
      rfl
    · rw [if_neg (by decide), State.returnBall, State.locked, hcensus, ← State.locked, hlocked]
      rfl
    · rw [if_neg (by decide), State.returnBall, hother, hdevice, hz]

/-! ### The start of definition 0 (R133) -/

/-- Beside the devices the balls of a start change the locked counts alone. -/
structure State.BallsSent (s x : State) : Prop where
  beside : ∃ l, x.beside = ({ s with census := { s.census with locked := l } } : State).beside

theorem State.BallsSent.refl (s : State) : s.BallsSent s := ⟨s.census.locked, rfl⟩
theorem State.BallsSent.order (e : Nat) (r : Reason) (l : Bool) (h : s.BallsSent x) : s.BallsSent (x.queueOrder e r l) := by
  obtain ⟨c, hb⟩ := h
  exact ⟨c, (queueOrder_beside ..).trans hb⟩
theorem State.BallsSent.emit (e : Event) (i m n : Nat) (h : s.BallsSent x) : s.BallsSent (x.emit e i m n) := by
  obtain ⟨c, hb⟩ := h
  exact ⟨c, (emit_beside ..).trans hb⟩
theorem State.BallsSent.setLocked (e n : Nat) (h : s.BallsSent x) : s.BallsSent (x.setLocked e n) := by
  obtain ⟨c, hb⟩ := h
  exact ⟨writeTable x.census.locked e n,
    congrArg (fun y : State => { y with census := { y.census with locked := writeTable x.census.locked e n } }) hb⟩
theorem State.BallsSent.releaseLocked (w : Nat) (l : List Nat) (h : s.BallsSent x) : s.BallsSent (x.releaseLocked w l).1 := by
  induction l generalizing x w with
  | nil => exact h
  | cons e l ih =>
    exact ih _ (repeated_keeps (p := s.BallsSent) _ (fun y hy => (hy.setLocked e (y.locked e - 1)).order e .release false) _ x h)
theorem State.BallsSent.serveFromTrough (w : Nat) (h : s.BallsSent x) : s.BallsSent (x.serveFromTrough w).1 := by
  induction w generalizing x with
  | zero => exact h
  | succ w ih =>
    simp only [State.serveFromTrough]
    split
    · exact ih (h.order 0 .serve true)
    · exact h
theorem ballsSent_multiballServe (k : Nat) : s.BallsSent (s.multiballServe k).1 := by
  have hserved : ∀ w r, s.BallsSent (s.servingProcedure w r).1 := fun w r => by
    unfold State.servingProcedure
    dsimp only
    cases r
    · exact (State.BallsSent.refl s).serveFromTrough _
    · exact ((State.BallsSent.refl s).releaseLocked _ _).serveFromTrough _
  unfold State.multiballServe
  dsimp only
  split
  · exact (hserved _ _).emit ..
  · exact hserved _ _

/-- Serves of the trough leave another device and the locks alone, where no SEARCH order waits at the trough. -/
theorem serveFromTrough_apart (w : Nat) (hd : d ≠ 0) (h : (s.device 0).searchWaits = false) :
    (s.serveFromTrough w).1.device d = s.device d ∧ (s.serveFromTrough w).1.locked d = s.locked d := by
  induction w generalizing s with
  | zero => exact ⟨rfl, rfl⟩
  | succ w ih =>
    simp only [State.serveFromTrough]
    split
    · obtain ⟨hdevice, hlocked⟩ := ih (s := s.launchServe) (queueOrder_searchWaits 0 .serve true (by decide) h)
      refine ⟨hdevice.trans (queueOrder_device_other 0 d .serve true h hd.symm), hlocked.trans ?_⟩
      rw [State.locked, State.launchServe, census_of_beside (queueOrder_beside s 0 .serve true), State.locked]
    · exact ⟨rfl, rfl⟩
theorem multiballServe_apart (k : Nat) (hd : d ≠ 0) (h : (s.device 0).searchWaits = false)
    (hr : (s.multiballDef k).releaseLocked = false) :
    (s.multiballServe k).1.device d = s.device d ∧ (s.multiballServe k).1.locked d = s.locked d := by
  have hserved : ∀ w, (s.servingProcedure w false).1 = (s.serveFromTrough w).1 := fun _ => rfl
  unfold State.multiballServe
  dsimp only
  rw [hr]
  split
  · exact serveFromTrough_apart _ hd h
  · exact serveFromTrough_apart _ hd h

/-- A multiball started from SINGLE: its balls, the rise, the locks used up, the ball save, and the start mode (R131, R133). -/
structure State.Started (s v : State) (k : Nat) : Prop where
  engine : v.engine = s.engine
  phase : v.game.phase = s.game.phase
  players : v.game.players = (s.onCurrent fun p => { p with locksMade := 0, locksLit := 0 }).game.players
  lastStarted : v.census.lastStarted = some k
  multi : v.census.multi = true ↔ 2 ≤ v.committed
  save : v.census.save = if (s.multiballDef k).saveTime = 0 then s.census.save
    else some ⟨(s.multiballDef k).saveTime, .unlimited⟩
  modes : (s.multiballDef k).startMode = none → v.modes = s.modes
  apart : (s.multiballDef k).releaseLocked = false → (s.device 0).searchWaits = false → ∀ d ≠ 0,
    v.device d = s.device d ∧ v.locked d = s.locked d

theorem multiballStart_started (k : Nat) (hm : s.census.multi = false) : s.Started (s.multiballStart k) k := by
  obtain ⟨l, hb⟩ := (ballsSent_multiballServe (s := s) k).beside
  have hapart := fun d hd h hr => multiballServe_apart (s := s) (d := d) k hd h hr
  have hcensus : (s.multiballServe k).1.census = { s.census with locked := l } := (census_of_beside hb).trans rfl
  have hdef : (s.multiballServe k).1.multiballDef k = s.multiballDef k := by
    rw [State.multiballDef, hcensus, State.multiballDef]
  have hengine := (engine_of_beside hb).trans rfl
  have hphase := (phase_of_beside hb).trans rfl
  have hmodes := (modes_of_beside hb).trans rfl
  have hplayers : (s.multiballServe k).1.game.players = s.game.players := (players_of_beside hb).trans rfl
  have hcurrent : (s.multiballServe k).1.game.current = s.game.current := (current_of_beside hb).trans rfl
  rw [multiballStart_launched k hdef]
  generalize (s.multiballServe k).1 = w at hcensus hdef hengine hphase hmodes hplayers hcurrent hapart ⊢
  have hcommitted : ((w.armed k).launched k .multiballStarted (s.multiballServe k).2).committed = w.committed := by
    rw [launched_eq]
    exact committed_congr rfl rfl rfl
  have hmulti : w.census.multi = false := by rw [hcensus]; exact hm
  rw [launched_eq] at hcommitted ⊢
  exact {
    engine := hengine
    phase := (State.onCurrent_phase ..).trans hphase
    players := by
      show (w.onCurrent fun p => { p with locksMade := 0, locksLit := 0 }).game.players = _
      rw [onCurrent_players, onCurrent_players, hplayers, hcurrent]
    lastStarted := rfl
    multi := by
      rw [hcommitted]
      show (w.census.multi || decide (2 ≤ w.committed)) = true ↔ _
      rw [hmulti]
      simp
    save := by
      show (if (w.multiballDef k).saveTime = 0 then w.census.save else _) = _
      rw [hdef, hcensus]
    modes := fun hnone => by
      show ((w.armed k).startModeOf k).modes = _
      have harmed : ((w.armed k).multiballDef k).startMode = none := by
        rw [← hnone, ← hdef]
        rfl
      unfold State.startModeOf
      rw [harmed]
      exact hmodes
    apart := fun hr hz d hd => hapart d hd hz hr }

/-! ### What is left once an empty chain has been walked -/

/-- The walk of an empty chain and the tests of the devices, with a ball in play, leave a playfield device and the balls committed
to play. -/
theorem emptyChain_apart (i : Nat) (b : Bool) (hd : d ≠ 1) (hp : v.inPlay = true) (ht : v.engine.triggers = [])
    (hc : v.chain i = []) : v.Ended (v.directWalk i .close b).settleDevices ∧
      (v.directWalk i .close b).settleDevices.device d = v.device d ∧
      (v.directWalk i .close b).settleDevices.committed = v.committed := by
  have hended := ended_of_emptyChain i .close b ht hc
  obtain ⟨c, hwalk⟩ := directWalk_emptyChain i .close b ht hc
  rw [hwalk] at hended ⊢
  have hdevice := settleDevices_device (s := { v with engine := c }) (ball_of_inPlay hp) d (fun h => absurd h hd)
  have htallies := settleDevices_tallies { v with engine := c }
  generalize State.settleDevices { v with engine := c } = t at hended hdevice htallies ⊢
  refine ⟨hended, hdevice, ?_⟩
  have htally := fun e => tally_eq_iff.1 (tally_of_tallies htallies e)
  have hconf : t.configured = v.configured := by
    funext e
    rw [State.configured, (htally e).1]
    rfl
  have hcount : t.countOf = v.countOf := by
    funext e
    rw [State.countOf, State.countOf, hconf, (htally e).2.1]
    rfl
  have hlocked : t.locked = v.locked := by
    funext e
    rw [State.locked, State.locked, hended.census]
  rw [State.committed, State.committed, State.bip, State.bip, State.owed, State.owed, State.shooter, State.shooter, hcount,
    hlocked, hended.census, hconf, hended.trough]

/-! ### The obligation -/

/-- A lock made in a state of play (R127): what the census leaves before the walk. -/
structure State.LockMade (s v : State) (d : Nat) (q : Player) (x : Stamp) : Prop where
  engine : v.engine = s.engine
  phase : v.game.phase = s.game.phase
  device : q.locksMade + 1 ≠ s.game.params.locksNeeded ∨ (s.multiballDef 0).releaseLocked = false →
    v.locked d = (if s.keepsBall d then s.locked d + 1 else s.locked d) ∧
      (v.device d).queue = if s.keepsBall d then (s.device d).queue else (s.device d).queue ++ [⟨.return, x, false⟩]
  plain : q.locksMade + 1 ≠ s.game.params.locksNeeded ∨ (s.multiballDef 0).defined = false →
    v.game.players = s.game.players.modify (s.game.current - 1)
      (fun q => { q with locksLit := q.locksLit - 1, locksMade := q.locksMade + 1 }) ∧
      v.census = { s.census with locked := v.census.locked } ∧ v.modes = s.modes
  started : q.locksMade + 1 = s.game.params.locksNeeded → (s.multiballDef 0).defined = true →
    v.game.players = s.game.players.modify (s.game.current - 1) (fun q => { q with locksLit := 0, locksMade := 0 }) ∧
      v.census.lastStarted = some 0 ∧ (v.census.multi = true ↔ 2 ≤ v.committed) ∧
      v.census.save = (if (s.multiballDef 0).saveTime = 0 then s.census.save
        else some ⟨(s.multiballDef 0).saveTime, .unlimited⟩) ∧
      ((s.multiballDef 0).startMode = none → v.modes = s.modes)

theorem makeLock_made (h2 : 2 ≤ d) (h8 : d < 8) (hc : s.configured d = true) (hw : (s.device d).searchWaits = false)
    (hz : (s.device 0).searchWaits = false) (hroom : (s.device d).queue.length < 8) (hmulti : s.census.multi = false)
    (hq : s.player? s.game.current = some q) (hm : q.locksMade < 4) : s.LockMade (s.makeLock d) d q s.time := by
  obtain ⟨hqueue, hlocked, htrough⟩ := lockTaken_device h2 h8 hc hw hz hroom
  obtain ⟨hcurrent, hparams, hplayers, hplayer⟩ := lockTaken_player (d := d) hq hm
  obtain ⟨l, hb⟩ := lockTaken_beside (s := s) (d := d)
  have hengine := (engine_of_beside hb).trans (State.onCurrent_engine ..)
  have hphase := (phase_of_beside hb).trans (State.onCurrent_phase ..)
  have hmodes := (modes_of_beside hb).trans (State.onCurrent_modes ..)
  have hcensus : (s.lockTaken d).census = { s.census with locked := l } := (census_of_beside hb).trans rfl
  have hmade : (s.lockTaken d).current.locksMade = q.locksMade + 1 := by
    rw [current_of_player? (s := s.lockTaken d) (by rw [hplayer, hcurrent, if_pos rfl])]
  have hlist : s.game.players.modify (s.game.current - 1) Player.locked = s.game.players.modify (s.game.current - 1)
      (fun q => { q with locksLit := q.locksLit - 1, locksMade := q.locksMade + 1 }) := by
    have hne : s.game.current ≠ 0 := fun h => by rw [State.player?, h, if_pos rfl] at hq; cases hq
    have hsame := onCurrent_of_player hq Player.locked
      (fun q => { q with locksLit := q.locksLit - 1, locksMade := q.locksMade + 1 })
      (by rw [Player.locked, Nat.min_eq_left hm])
    have hwritten := congrArg (fun y : State => y.game.players) hsame
    simpa only [onCurrent_players, if_neg hne] using hwritten
  rw [makeLock_eq, hmade, hparams]
  generalize s.lockTaken d = u at hqueue hlocked htrough hcurrent hplayers hengine hphase hmodes hcensus ⊢
  have hdef : u.multiballDef 0 = s.multiballDef 0 := by rw [State.multiballDef, hcensus, State.multiballDef]
  by_cases hneed : q.locksMade + 1 = s.game.params.locksNeeded
  · rw [if_pos hneed]
    cases hdefined : (s.multiballDef 0).defined with
    | false =>
      have hemit : u.mbStart 0 = u.emit .multiballUndefined 0 0 0 := if_pos (by rw [hdef, hdefined])
      rw [hemit]
      exact ⟨hengine, hphase, fun _ => ⟨hlocked, hqueue⟩, fun _ => ⟨hplayers.trans hlist, by rw [State.emit_census, hcensus],
        hmodes⟩, fun _ h => absurd (hdefined.symm.trans h) (by decide)⟩
    | true =>
      have humulti : u.census.multi = false := by rw [hcensus, hmulti]
      have hstart : u.mbStart 0 = u.multiballStart 0 := by
        rw [State.mbStart, hdef, hdefined, humulti, if_neg (by decide), if_neg (by decide)]
      rw [hstart]
      have hstarted := multiballStart_started (s := u) 0 humulti
      generalize u.multiballStart 0 = v at hstarted ⊢
      obtain ⟨hvengine, hvphase, hvplayers, hlast, hvmulti, hsave, hvmodes, hapart⟩ := hstarted
      rw [hdef] at hsave hvmodes hapart
      refine ⟨hvengine.trans hengine, hvphase.trans hphase, fun h => ?_, fun h => ?_, fun _ _ => ⟨?_, hlast, hvmulti, ?_,
        fun hnone => (hvmodes hnone).trans hmodes⟩⟩
      · obtain ⟨hdevice, hvlocked⟩ := hapart (h.resolve_left fun hne => hne hneed) htrough d (by omega)
        exact ⟨hvlocked.trans hlocked, by rw [hdevice, hqueue]⟩
      · rcases h with hne | hfalse
        · exact absurd hneed hne
        · exact absurd (hdefined.symm.trans hfalse) (by decide)
      · have hne : s.game.current ≠ 0 := fun h => by rw [State.player?, h, if_pos rfl] at hq; cases hq
        rw [hvplayers, onCurrent_players, hcurrent, if_neg hne, hplayers, List.modify_modify_eq]
        rfl
      · rw [hsave, hcensus]
  · rw [if_neg hneed]
    exact ⟨hengine, hphase, fun _ => ⟨hlocked, hqueue⟩, fun _ => ⟨hplayers.trans hlist, by rw [hcensus], hmodes⟩,
      fun h => absurd h hneed⟩

theorem keepsBall_iff : s.keepsBall d = true ↔
    (s.device d).record.keep = true ∧ s.locked d < (s.device d).record.keepLimitInForce := by
  simp [State.keepsBall]

/-- The lock of an arrival is that of the state in which it arrives, with the time stamp of the arrival. -/
theorem makeLock_arrived (h2 : 2 ≤ d) (h8 : d < 8) (hc : s.configured d = true) (hw : (s.device d).searchWaits = false)
    (hz : (s.device 0).searchWaits = false) (hroom : (s.device d).queue.length < 8) (hmulti : s.census.multi = false)
    (hq : s.player? s.game.current = some q) (hm : q.locksMade < 4) :
    s.LockMade ((s.arrived d a rest).makeLock d) d q a := by
  have hplayer : (s.arrived d a rest).player? (s.arrived d a rest).game.current = some q := by
    rw [player?_congr (congrArg Game.players arrived_game), arrived_game, hq]
  have hmade := makeLock_made (s := s.arrived d a rest) h2 h8 (by rw [arrived_configured]; exact hc)
    (by rw [Device.searchWaits, arrived_queue]; exact hw) (by rw [Device.searchWaits, arrived_queue]; exact hz)
    (by rw [arrived_queue]; exact hroom) (by rw [arrived_census]; exact hmulti) hplayer hm
  have hlocked : (s.arrived d a rest).locked d = s.locked d := by rw [State.locked, arrived_census, State.locked]
  have hkeeps : (s.arrived d a rest).keepsBall d = s.keepsBall d := by
    rw [State.keepsBall, arrived_record, hlocked, State.keepsBall]
  have hdef : (s.arrived d a rest).multiballDef 0 = s.multiballDef 0 := by
    rw [State.multiballDef, arrived_census, State.multiballDef]
  obtain ⟨hengine, hphase, hdevice, hplain, hstarted⟩ := hmade
  rw [arrived_time, hkeeps, hlocked, arrived_queue, arrived_game, hdef] at hdevice
  rw [arrived_game, arrived_census, arrived_modes, hdef] at hplain
  rw [arrived_game, arrived_census, arrived_modes, hdef] at hstarted
  exact ⟨hengine.trans arrived_engine, hphase.trans (congrArg Game.phase arrived_game), hdevice, hplain, hstarted⟩

/-- A ball that goes back leaves the census, and its RETURN order stands behind the orders of its device. -/
theorem return_ended (b : Bool) (h2 : 2 ≤ d) (hc : s.configured d = true) (ht : s.engine.triggers = [])
    (hchain : s.chain (80 + d) = []) (hp : s.inPlay = true) (hw : (s.device d).searchWaits = false)
    (hroom : (s.device d).queue.length < 8) :
    let t := ((((s.arrived d a rest).returnBall d)).directWalk (80 + d) .close b).settleDevices
    t.game.players = s.game.players ∧ t.census = s.census ∧
      (t.device d).queue = (s.device d).queue ++ [⟨.return, a, false⟩] := by
  have hb : ((s.arrived d a rest).returnBall d).beside = ({ s with time := a } : State).beside :=
    (queueOrder_beside ..).trans arrived_beside
  have hqueue := queueOrder_device_self (s := s.arrived d a rest) .return false (by rw [arrived_configured]; exact hc)
    (by rw [Device.searchWaits, arrived_queue]; exact hw) (by rw [arrived_queue]; exact hroom)
  have hengine : ((s.arrived d a rest).returnBall d).engine = s.engine := (engine_of_beside hb).trans rfl
  have hphase : ((s.arrived d a rest).returnBall d).game.phase = s.game.phase := (phase_of_beside hb).trans rfl
  have hplayers : ((s.arrived d a rest).returnBall d).game.players = s.game.players := (players_of_beside hb).trans rfl
  have hcensus : ((s.arrived d a rest).returnBall d).census = s.census := (census_of_beside hb).trans rfl
  have hdevice : (((s.arrived d a rest).returnBall d).device d).queue = (s.device d).queue ++ [⟨.return, a, false⟩] := by
    rw [State.returnBall, hqueue, arrived_time]
    dsimp only
    rw [arrived_queue]
  generalize (s.arrived d a rest).returnBall d = v at hengine hphase hplayers hcensus hdevice ⊢
  obtain ⟨hended, hkept, -⟩ := emptyChain_apart (v := v) (d := d) (80 + d) b (by omega) (by rw [State.inPlay, hphase]; exact hp)
    (by rw [hengine, ht]) (by rw [chain_congr hengine, hchain])
  exact ⟨hended.players.trans hplayers, hended.census.trans hcensus, by rw [hkept, hdevice]⟩

/-- Settles O17: the walk clauses from the player that the census leaves, the others through the walk of the empty chain. -/
theorem lockOrReturnDecided : Obligations.LockOrReturnDecided := by
  have hplay : ∀ (s : State) (d : Nat) (a : Stamp) (rest : List Stamp), s.inPlay = true →
      (s.arrived d a rest).inPlay = true := fun s d a rest hp => arrived_inPlay.trans hp
  have hplayer : ∀ (s : State) (d : Nat) (a : Stamp) (rest : List Stamp) (q : Player), s.player? s.game.current = some q →
      (s.arrived d a rest).player? (s.arrived d a rest).game.current = some q := fun s d a rest q hq => by
    rw [player?_congr (congrArg Game.players arrived_game), arrived_game, hq]
  refine ⟨fun d k b s a rest q hd hr hn ht hp ha hc hq hk => ?_,
    fun d b s a rest q h2 h8 hconf hr hn ht hc hp hq ha hw hz hroom => ?_⟩
  all_goals
    have hexec := exec_arrival b hr hn ha
    have hrecord : ((s.arrived d a rest).device d).record = (s.device d).record := arrived_record d
    have hcurrent := current_of_player? (hplayer s d a rest q hq)
    have hpx := hplay s d a rest hp
  · refine ⟨fun hrole hmulti hlit hmade hneed hcond => ?_, fun hrole hcond => ?_⟩
    · have hlock : (s.arrived d a rest).censusArrival d = (s.arrived d a rest).lockTaken d := by
        obtain ⟨hcur, hparams, -, hplayers⟩ := lockTaken_player (d := d) (hplayer s d a rest q hq) hmade
        rw [censusArrival_of_lock (by rw [hrecord, hrole]) hpx, lockDecision_locks (by rw [arrived_census, hmulti])
          (by rw [hcurrent]; exact hlit), makeLock_eq, if_neg]
        rw [current_of_player? (s := (s.arrived d a rest).lockTaken d) (by rw [hplayers, hcur, if_pos rfl]), hparams, arrived_game]
        exact hneed
      obtain ⟨t, more, hwalk, hroot, hawarded⟩ := lock_awards (rest := rest) b hp ht hc hq hk hmade hcond
      exact ⟨t, more, by rw [hexec, hlock, hwalk], hroot, hawarded⟩
    · have hreturn : (s.arrived d a rest).censusArrival d = (s.arrived d a rest).returnBall d := by
        rcases hrole with hsaucer | ⟨hlock, hnone⟩
        · exact censusArrival_of_saucer (by rw [hrecord, hsaucer]) hpx
        · rw [censusArrival_of_lock (by rw [hrecord, hlock]) hpx,
            lockDecision_returns (by rw [arrived_census, hcurrent]; exact hnone)]
      obtain ⟨t, more, hwalk, hroot, hawarded⟩ := return_awards (rest := rest) b hp ht hc hq hk hcond hreturn
      exact ⟨t, more, by rw [hexec, hwalk], hroot, hawarded⟩
  · have hended := return_ended (a := a) (rest := rest) b h2 hconf ht hc hp hw hroom
    refine ⟨fun hrole hmulti hlit hmade => ?_, fun hrole hnone => ?_, fun hrole => ?_⟩
    · rw [censusArrival_of_lock (by rw [hrecord, hrole]) hpx, lockDecision_locks (by rw [arrived_census, hmulti])
        (by rw [hcurrent]; exact hlit)] at hexec
      have hlock := makeLock_arrived (a := a) (rest := rest) h2 h8 hconf hw hz hroom hmulti hq hmade
      generalize (s.arrived d a rest).makeLock d = v at hexec hlock
      obtain ⟨hengine, hphase, hdevice, hplain, hstarted⟩ := hlock
      obtain ⟨hended, hkept, hcommitted⟩ := emptyChain_apart (v := v) (d := d) (80 + d) b (by omega)
        (by rw [State.inPlay, hphase]; exact hp) (by rw [hengine, ht]) (by rw [chain_congr hengine, hc])
      generalize (v.directWalk (80 + d) .close b).settleDevices = t at hexec hended hkept hcommitted
      simp only [keepsBall_iff] at hdevice
      have hlocked : t.locked d = v.locked d := by rw [State.locked, hended.census, State.locked]
      refine ⟨t, hexec, fun h => ?_, fun h => ?_, fun hneed hdefined => ?_⟩
      · rw [hlocked, hkept]
        exact hdevice h
      · rw [hended.players, hended.census, hended.modes]
        exact hplain h
      · rw [hended.players, hended.census, hended.modes, hcommitted]
        exact hstarted hneed hdefined
    · rw [censusArrival_of_lock (by rw [hrecord, hrole]) hpx,
        lockDecision_returns (by rw [arrived_census, hcurrent]; exact hnone)] at hexec
      obtain ⟨hplayers, hcensus, hqueue⟩ := hended
      exact ⟨_, hexec, hplayers, by rw [State.locked, hcensus, State.locked], hqueue⟩
    · rw [censusArrival_of_saucer (by rw [hrecord, hrole]) hpx] at hexec
      obtain ⟨hplayers, hcensus, hqueue⟩ := hended
      exact ⟨_, hexec, hplayers, hcensus, hqueue⟩

end Sys2Proof.Machine
end
